-- ==== Sys2Proof/Word.lean ====
section
/-! DEFINITION. Words, bytes, keyed tables and the plainest arithmetic on them. -/

namespace Sys2Proof

/-- A 512-bit token payload, register S or job card. -/
abbrev Word := BitVec 512

/-- One byte of memory. -/
abbrev Byte := BitVec 8

/-- Sparse data by key, keys ascending. A key that is not listed stands for its owner's reset value. -/
abbrev Tab (α : Type) := List (Nat × α)

/-- The entry at a key, if one is listed. -/
def Tab.find {α : Type} : Tab α → Nat → Option α
  | [], _ => none
  | (k', v) :: r, k => if k' = k then some v else Tab.find r k

/-- The entry at a key, or the default. -/
def Tab.get {α : Type} (t : Tab α) (k : Nat) (d : α) : α := (Tab.find t k).getD d

/-- Writes the entry at a key, keeping the keys ascending. -/
def Tab.put {α : Type} : Tab α → Nat → α → Tab α
  | [], k, v => [(k, v)]
  | (k', v') :: r, k, v =>
    if k < k' then (k, v) :: (k', v') :: r
    else if k' = k then (k, v) :: r
    else (k', v') :: Tab.put r k v

/-- Removes the entry at a key. -/
def Tab.del {α : Type} : Tab α → Nat → Tab α
  | [], _ => []
  | (k', v') :: r, k => if k' = k then Tab.del r k else (k', v') :: Tab.del r k

/-- The lowest key at or above `k` that is not listed, searching `n` keys. -/
def Tab.freeKey {α : Type} (t : Tab α) : Nat → Nat → Nat
  | 0, k => k
  | n + 1, k => if (Tab.find t k).isNone then k else Tab.freeKey t n (k + 1)

end Sys2Proof
end

