-- ==== Sys2Proof/Syntax.lean ====
section
/-! DEFINITION. The instructions and events of the EMZ-2816: one constructor of Instr per row of the opcode table. -/

namespace Sys2Proof

/-- Element types, Table 2.10. The code of a type is its place in this list. -/
inductive Ty where
  | x | i8 | i16 | i32 | i64 | n8 | n16 | n32 | n64 | fp32 | bf16 | fp16 | e4m3 | e5m2 | mx | rsv
  deriving DecidableEq, Repr

/-- Source of an operand, R46. -/
inductive Src where
  | tok | k0 | k1 | s
  deriving DecidableEq, Repr

/-- Predicate mode, Table 2.9. -/
inductive Prd where
  | always | onOne | onZero | rsv
  deriving DecidableEq, Repr

/-- Output mode, Table 2.9. -/
inductive OutMode where
  | none | one | two | steer
  deriving DecidableEq, Repr

/-- Operand of an element. -/
inductive Opnd where
  | a | b | c | p
  deriving DecidableEq, Repr, Inhabited

/-- A target, R48: an operand of an element of the block, or a port and channel. -/
inductive Target where
  | elem (slot : BitVec 7) (op : Opnd)
  | port (p ch z : BitVec 3)
  deriving DecidableEq, Repr

/-- The fields of an element word beside its opcode, Table 2.8. MOD stays a bit vector: each opcode cuts it its own way. -/
structure Fields where
  typ : Ty
  md : BitVec 6
  a : Src
  b : Src
  c : Src
  prd : Prd
  out : OutMode
  imm : BitVec 16
  t1 : Target
  t0 : Target
  deriving DecidableEq, Repr

/-- Where an element stands: module tile index y*256 + x, engine, slot. -/
structure Site where
  tile : Nat
  eng : Nat
  slot : Nat
  deriving DecidableEq, Repr, Inhabited

/-- A command entry (R271) with the PF and ring it came from and its journal sequence number. -/
structure Cmd where
  pf : Nat
  ring : Nat
  seq : Nat
  e : BitVec 512
  deriving DecidableEq, Repr, Inhabited

/-- What HOST_MEMORY_REQUEST performs: piece `i` of a request of the module, or a write of a host agent or a peer module (R288), which belongs to no
request. -/
inductive HostAccess where
  | piece (i : Nat)
  | agent (pa : Nat) (data : List Byte)
  deriving DecidableEq, Repr

/-- A notice for a completion queue (R485): its code of Table 22.2, the address it carries and the bits of bytes 8 to 13. -/
structure Notice where
  code : Nat
  va : BitVec 64
  res : BitVec 48
  deriving DecidableEq, Repr

/-- Registers that REGISTER_WRITE writes: those of Table 22.1 other than RTAIL, the MSI-X table, the configuration space and the AER status of a PF,
the limits of R499, the bases of the management context (R398) and RPB of a reach port channel (R361). -/
inductive HostReg where
  | rbase (r : Nat) | rctl (r : Nat) | rhead (r : Nat) | qbase | qctl | qhead | qtail | msix (i : Nat) | cfg (i : Nat)
  | aerUn | aerCor
  | powerLimit | tempLimit (d : Nat) | mgmtGrtab | mgmtStbase | mgmtSaveb | rpb (port ch : Nat)
  deriving DecidableEq, Repr

/-- One constructor per row of spec/opcode_table.json. Rows 0 to 153 are element instructions and carry the fields of their word;
the other rows are events and commands, which have no encoding in the spec and carry the place they happen at. Events that only the module's
surroundings bring about stand last. -/
inductive Instr where
  /-- MOV (R236). -/
  | mov (f : Fields)
  /-- FAN (R236). -/
  | fan (f : Fields)
  /-- STEER (R236). -/
  | steer (f : Fields)
  /-- MERGE (R237). -/
  | merge (f : Fields)
  /-- MERGEP (R238). -/
  | mergep (f : Fields)
  /-- GATE (R239). -/
  | gate (f : Fields)
  /-- DROP (R240). -/
  | drop (f : Fields)
  /-- CARRY (R243). -/
  | carry (f : Fields)
  /-- INVAR (R243). -/
  | invar (f : Fields)
  /-- COUNT (R244). -/
  | count (f : Fields)
  /-- RPT (R244). -/
  | rpt (f : Fields)
  /-- EMITC (R245). -/
  | emitc (f : Fields)
  /-- TESTC (R246). -/
  | testc (f : Fields)
  /-- MARK (R241). -/
  | mark (f : Fields)
  /-- STRIP (R241). -/
  | strip (f : Fields)
  /-- BUB (R242). -/
  | bub (f : Fields)
  /-- SEQT (R248). -/
  | seqt (f : Fields)
  /-- REORD (R249). -/
  | reord (f : Fields)
  /-- INTX (R247). -/
  | intx (f : Fields)
  /-- UNION (R247). -/
  | union (f : Fields)
  /-- ROUTE (R250). -/
  | route (f : Fields)
  /-- ADD (R112). -/
  | add (f : Fields)
  /-- SUB (R112). -/
  | sub (f : Fields)
  /-- MUL (R112). -/
  | mul (f : Fields)
  /-- MULH (R112). -/
  | mulh (f : Fields)
  /-- MAD (R113). -/
  | mad (f : Fields)
  /-- MIN (R112). -/
  | min (f : Fields)
  /-- MAX (R112). -/
  | max (f : Fields)
  /-- ABS (R114). -/
  | abs (f : Fields)
  /-- NEG (R114). -/
  | neg (f : Fields)
  /-- CLAMP (R115). -/
  | clamp (f : Fields)
  /-- AND (R116). -/
  | and (f : Fields)
  /-- OR (R116). -/
  | or (f : Fields)
  /-- XOR (R116). -/
  | xor (f : Fields)
  /-- ANDN (R116). -/
  | andn (f : Fields)
  /-- NOT (R116). -/
  | not (f : Fields)
  /-- SHL (R117). -/
  | shl (f : Fields)
  /-- SHR (R117). -/
  | shr (f : Fields)
  /-- SAR (R117). -/
  | sar (f : Fields)
  /-- ROT (R117). -/
  | rot (f : Fields)
  /-- CLZ (R118). -/
  | clz (f : Fields)
  /-- POPC (R118). -/
  | popc (f : Fields)
  /-- BREV (R118). -/
  | brev (f : Fields)
  /-- EXT (R120). -/
  | ext (f : Fields)
  /-- INS (R120). -/
  | ins (f : Fields)
  /-- CMP (R121). -/
  | cmp (f : Fields)
  /-- SEL (R122). -/
  | sel (f : Fields)
  /-- ADDR (R123). -/
  | addr (f : Fields)
  /-- WID (R124). -/
  | wid (f : Fields)
  /-- LXY (R127). -/
  | lxy (f : Fields)
  /-- HASH (R129). -/
  | hash (f : Fields)
  /-- FADD (R141). -/
  | fadd (f : Fields)
  /-- FSUB (R141). -/
  | fsub (f : Fields)
  /-- FMUL (R141). -/
  | fmul (f : Fields)
  /-- FFMA (R141). -/
  | ffma (f : Fields)
  /-- FMIN (R143). -/
  | fmin (f : Fields)
  /-- FMAX (R143). -/
  | fmax (f : Fields)
  /-- FABS (R143). -/
  | fabs (f : Fields)
  /-- FNEG (R143). -/
  | fneg (f : Fields)
  /-- FCMP (R144). -/
  | fcmp (f : Fields)
  /-- FSCALE (R141). -/
  | fscale (f : Fields)
  /-- FCLASS (R145). -/
  | fclass (f : Fields)
  /-- FEXP2 (R146). -/
  | fexp2 (f : Fields)
  /-- FLOG2 (R146). -/
  | flog2 (f : Fields)
  /-- FRCP (R146). -/
  | frcp (f : Fields)
  /-- FRSQ (R146). -/
  | frsq (f : Fields)
  /-- FSQRT (R146). -/
  | fsqrt (f : Fields)
  /-- CVT (R147). -/
  | cvt (f : Fields)
  /-- CVTSR (R148). -/
  | cvtsr (f : Fields)
  /-- PKPX (R156). -/
  | pkpx (f : Fields)
  /-- MXQ (R150). -/
  | mxq (f : Fields)
  /-- MXDQ (R154). -/
  | mxdq (f : Fields)
  /-- AMAXV (R158). -/
  | amaxv (f : Fields)
  /-- LRED (R159). -/
  | lred (f : Fields)
  /-- LSCAN (R160). -/
  | lscan (f : Fields)
  /-- LSHUF (R161). -/
  | lshuf (f : Fields)
  /-- LBCAST (R161). -/
  | lbcast (f : Fields)
  /-- LROT (R161). -/
  | lrot (f : Fields)
  /-- DOT (R162). -/
  | dot (f : Fields)
  /-- ACLR (R181). -/
  | aclr (f : Fields)
  /-- MMA (R176). -/
  | mma (f : Fields)
  /-- MMA_RING (R177). -/
  | mmaRing (f : Fields)
  /-- AADDV (R182). -/
  | aaddv (f : Fields)
  /-- ARESC (R183). -/
  | aresc (f : Fields)
  /-- RESOLVE (R185). -/
  | resolve (f : Fields)
  /-- ACMP (R187). -/
  | acmp (f : Fields)
  /-- ACMPQ (R186). -/
  | acmpq (f : Fields)
  /-- AIMG (R189). -/
  | aimg (f : Fields)
  /-- ALDI (R190). -/
  | aldi (f : Fields)
  /-- ASTAT (R188). -/
  | astat (f : Fields)
  /-- AREDL (R193). -/
  | aredl (f : Fields)
  /-- RROOT (R195). -/
  | rroot (f : Fields)
  /-- XSORT (R196). -/
  | xsort (f : Fields)
  /-- XMERGE (R199). -/
  | xmerge (f : Fields)
  /-- LDT (R316). -/
  | ldt (f : Fields)
  /-- STT (R318). -/
  | stt (f : Fields)
  /-- LDS (R308). -/
  | lds (f : Fields)
  /-- STS (R308). -/
  | sts (f : Fields)
  /-- LDSI (R309). -/
  | ldsi (f : Fields)
  /-- STSI (R309). -/
  | stsi (f : Fields)
  /-- FESET (R310). -/
  | feset (f : Fields)
  /-- FECLR (R310). -/
  | feclr (f : Fields)
  /-- PREFW (R311). -/
  | prefw (f : Fields)
  /-- AADD (R320). -/
  | aadd (f : Fields)
  /-- AFADD (R320). -/
  | afadd (f : Fields)
  /-- AMIN (R320). -/
  | amin (f : Fields)
  /-- AMAX (R320). -/
  | amax (f : Fields)
  /-- AAND (R320). -/
  | aand (f : Fields)
  /-- AOR (R320). -/
  | aor (f : Fields)
  /-- AXOR (R320). -/
  | axor (f : Fields)
  /-- AXCH (R320). -/
  | axch (f : Fields)
  /-- ACAS (R320). -/
  | acas (f : Fields)
  /-- AINCB (R320). -/
  | aincb (f : Fields)
  /-- FENCE (R322). -/
  | fence (f : Fields)
  /-- COPY (R326). -/
  | copy (f : Fields)
  /-- GATH (R327). -/
  | gath (f : Fields)
  /-- SCAT (R328). -/
  | scat (f : Fields)
  /-- SCATA (R328). -/
  | scata (f : Fields)
  /-- COLL (R329). -/
  | coll (f : Fields)
  /-- WAITJ (R330). -/
  | waitj (f : Fields)
  /-- JSTAT (R330). -/
  | jstat (f : Fields)
  /-- WIN (R332). -/
  | win (f : Fields)
  /-- WINADV (R333). -/
  | winadv (f : Fields)
  /-- RPUSH (R255). -/
  | rpush (f : Fields)
  /-- RPOP (R256). -/
  | rpop (f : Fields)
  /-- RPOP_DISC (R256). -/
  | rpopDisc (f : Fields)
  /-- RSTAT (R254). -/
  | rstat (f : Fields)
  /-- RSTAT_SET (R254). -/
  | rstatSet (f : Fields)
  /-- POSTC (R262). -/
  | postc (f : Fields)
  /-- GROW (R264). -/
  | grow (f : Fields)
  /-- ENQ (R266). -/
  | enq (f : Fields)
  /-- DEQ (R268). -/
  | deq (f : Fields)
  /-- QSTAT (R269). -/
  | qstat (f : Fields)
  /-- FORK (R406). -/
  | fork (f : Fields)
  /-- RDV (R407). -/
  | rdv (f : Fields)
  /-- BAR (R408). -/
  | bar (f : Fields)
  /-- SIG (R408). -/
  | sig (f : Fields)
  /-- SNAP (R409). -/
  | snap (f : Fields)
  /-- PLANE (R411). -/
  | plane (f : Fields)
  /-- AWAIT (R412). -/
  | await (f : Fields)
  /-- NDONE (R413). -/
  | ndone (f : Fields)
  /-- NFAIL (R413). -/
  | nfail (f : Fields)
  /-- BWPH (R338). -/
  | bwph (f : Fields)
  /-- BANKP_WAKE (R339). -/
  | bankpWake (f : Fields)
  /-- BANKP_DISCARD (R339). -/
  | bankpDiscard (f : Fields)
  /-- BANKP_RELEASE (R339). -/
  | bankpRelease (f : Fields)
  /-- BANKP_STATUS (R339). -/
  | bankpStatus (f : Fields)
  /-- TRAP (R414). -/
  | trap (f : Fields)
  /-- BRK (R414). -/
  | brk (f : Fields)
  /-- ASSERT (R414). -/
  | asrt (f : Fields)
  /-- HALT (R414). -/
  | halt (f : Fields)
  /-- RDID (R415). -/
  | rdid (f : Fields)
  /-- RDCTR (R451). -/
  | rdctr (f : Fields)
  /-- TRIGR (R452). -/
  | trigr (f : Fields)
  /-- ALIGNED_CONTROL_FORWARD (R225). -/
  | alignedControlForward (x : Site)
  /-- POISON_PROPAGATE (R227). -/
  | poisonPropagate (x : Site)
  /-- SWITCH_CONSUME (R228). -/
  | switchConsume (x : Site)
  /-- SNAP_ALIGN (R234). -/
  | snapAlign (x : Site)
  /-- TOKEN_ARRIVAL (R216). -/
  | tokenArrival (t p c : Nat)
  /-- DEMAND_ARRIVAL (R215). -/
  | demandArrival (t p c : Nat)
  /-- REDUCTION_JOIN (R219). -/
  | reductionJoin (t p c : Nat)
  /-- MESH_PACKET_ARRIVAL (R377). -/
  | meshPacketArrival (k : Nat)
  /-- PX8_UNPACK_BLOCK (R98). -/
  | px8UnpackBlock (t p c : Nat)
  /-- READOUT_WORD (R175). -/
  | readoutWord (t : Nat) (acc : Bool)
  /-- SORT_CHUNK_WORD (R196). -/
  | sortChunkWord (t : Nat) (acc : Bool)
  /-- BANK_ACCESS (R279). -/
  | bankAccess (k i : Nat)
  /-- FE_LOAD_RELEASE (R280). -/
  | feLoadRelease (k : Nat)
  /-- FE_WATCHDOG (R282). -/
  | feWatchdog (k : Nat)
  /-- TRANSLATE (R353). -/
  | translate (k : Nat)
  /-- WALK (R349). -/
  | walk (k : Nat)
  /-- HBM_REQUEST_SERVE (R355). -/
  | hbmRequestServe (k i : Nat)
  /-- REPLY_DELIVERY (R374). -/
  | replyDelivery (k : Nat)
  /-- LANDB_DELIVER (R105). -/
  | landbDeliver (t : Nat)
  /-- JOB_ACCEPT (R324). -/
  | jobAccept (l : Nat)
  /-- JOB_START (R297). -/
  | jobStart (l j : Nat)
  /-- JOB_COMPLETE (R331). -/
  | jobComplete (l j : Nat)
  /-- COLL_START (R329). -/
  | collStart (l g : Nat)
  /-- RING_DELIVERY_LAND (R258). -/
  | ringDeliveryLand (k : Nat)
  /-- WINDOW_FEED (R332). -/
  | windowFeed (t w : Nat)
  /-- ENQ_ARRIVAL (R266). -/
  | enqArrival (l : Nat)
  /-- CONT_DEQUEUE (R263). -/
  | contDequeue (l sh : Nat)
  /-- BARRIER_ARRIVAL (R408). -/
  | barrierArrival (l : Nat)
  /-- BAR_RELEASE (R408). -/
  | barRelease (x : Site)
  /-- AWAIT_RESUME (R412). -/
  | awaitResume (x : Site)
  /-- SNAP_CAPTURE (R410). -/
  | snapCapture (t i : Nat)
  /-- SNAP_CAPTURE_WRITTEN (R410). -/
  | snapCaptureWritten (t i : Nat)
  /-- SNAP_TIMEOUT (R234). -/
  | snapTimeout (l i : Nat)
  /-- SEGMENT_COMPLETE (R407). -/
  | segmentComplete (t : Nat)
  /-- SWITCH_DELIVERY (R229). -/
  | switchDelivery (t : Nat)
  /-- CASTLING (R231). -/
  | castling (t : Nat)
  /-- CHECK_PASS (R59). -/
  | checkPass (l g n : Nat)
  /-- COPY_PASS_PATTERN (R59). -/
  | copyPassPattern (l r : Nat)
  /-- PATTERN_ARRIVED (R503). -/
  | patternArrived (t : Nat)
  /-- DISPATCH (R392). -/
  | dispatch (l : Nat)
  /-- TRACK_ARM (R395). -/
  | trackArm (l g n : Nat)
  /-- EDGE_TOKEN (R389). -/
  | edgeToken (l : Nat)
  /-- NODE_RETRY (R387). -/
  | nodeRetry (l g n : Nat)
  /-- STOP_RECORDS_WRITE (R419). -/
  | stopRecordsWrite (l : Nat)
  /-- POLICY_APPLY (R421). -/
  | policyApply (l : Nat)
  /-- QUIESCENCE_SAMPLE (R426). -/
  | quiescenceSample (l : Nat)
  /-- QBND_EXPIRY (R428). -/
  | qbndExpiry (l : Nat)
  /-- FREEZE_SCAN_DONE (R429). -/
  | freezeScanDone (l r : Nat)
  /-- HALT_TIMEOUT (R434). -/
  | haltTimeout (l : Nat)
  /-- REMOVAL_COMPLETE (R433). -/
  | removalComplete (l : Nat)
  /-- MOVE_DRAINED (R368). -/
  | moveDrained
  /-- MOVE_DRAIN_TIMEOUT (R368). -/
  | moveDrainTimeout
  /-- MOVE_COPY_DONE (R368). -/
  | moveCopyDone
  /-- BANK_DROWSE (R335). -/
  | bankDrowse (t b : Nat)
  /-- BANK_SBC_LIMIT (R335). -/
  | bankSbcLimit (t : Nat)
  /-- BANK_WAKE_DONE (R336). -/
  | bankWakeDone (t b : Nat)
  /-- BANK_GRANT_SCRUB_DONE (R334). -/
  | bankGrantScrubDone (t b : Nat)
  /-- BANK_DRAINED (R341). -/
  | bankDrained (t : Nat)
  /-- BANK_DRAIN_TIMEOUT (R341). -/
  | bankDrainTimeout (t : Nat)
  /-- LSTL_DELTA_SEND (R442). -/
  | lstlDeltaSend (t : Nat)
  /-- ARBITER_COMMAND_READ (R488). -/
  | arbiterCommandRead (pf r : Nat)
  /-- PSUB_TAKE (R272). -/
  | psubTake
  /-- COMPLETION_WRITE (R485). -/
  | completionWrite (pf : Nat)
  /-- GLAUNCH (R386). -/
  | glaunch (c : Cmd)
  /-- GCANCEL (R403). -/
  | gcancel (c : Cmd)
  /-- RESUME_CONE (R404). -/
  | resumeCone (c : Cmd)
  /-- NODEDONE (R396). -/
  | nodedone (c : Cmd)
  /-- CONTINUE (R414). -/
  | continueNode (c : Cmd)
  /-- PFRESOLVE (R358). -/
  | pfresolve (c : Cmd)
  /-- PFDECLINE (R358). -/
  | pfdecline (c : Cmd)
  /-- TLBINV (R354). -/
  | tlbinv (c : Cmd)
  /-- HARVEST (R360). -/
  | harvest (c : Cmd)
  /-- EVICTQ (R359). -/
  | evictq (c : Cmd)
  /-- QCREATE (R265). -/
  | qcreate (c : Cmd)
  /-- QDESTROY (R265). -/
  | qdestroy (c : Cmd)
  /-- QSWAP (R505). -/
  | qswap (c : Cmd)
  /-- QLOAD (R505). -/
  | qload (c : Cmd)
  /-- JSTATUS (R487). -/
  | jstatus (c : Cmd)
  /-- BIND (R364). -/
  | bind (c : Cmd)
  /-- REBIND (R364). -/
  | rebind (c : Cmd)
  /-- MOVE (R369). -/
  | move (c : Cmd)
  /-- PREEMPT (R427). -/
  | preempt (c : Cmd)
  /-- RESUME (R428). -/
  | resume (c : Cmd)
  /-- REMOVE (R433). -/
  | remove (c : Cmd)
  /-- ALLOW (R488). -/
  | allow (c : Cmd)
  /-- FOTSET (R356). -/
  | fotset (c : Cmd)
  /-- FRAME_DRAINED_SCRUB (R356). -/
  | frameDrainedScrub (sk fr : Nat)
  /-- PFRESET (R487). -/
  | pfreset (c : Cmd)
  /-- RANGE_REQUEST_ISSUE (R316). -/
  | rangeRequestIssue (x : Site)
  /-- HOST_MEMORY_REQUEST (R279, R288). -/
  | hostMemoryRequest (k : Nat) (a : HostAccess)
  /-- REACH_TOKEN_ENTRY (R377). -/
  | reachTokenEntry (p c : Nat) (pay : Word) (sb : BitVec 2)
  /-- MGMT_ANSWER (R396). -/
  | mgmtAnswer (l g n : Nat) (ok : Bool)
  /-- PATROL_SCRUB (R437). -/
  | patrolScrub (t b : Nat)
  /-- TILE_UNCORRECTABLE (R437). -/
  | tileUncorrectable (t d : Nat)
  /-- SHARED_UNCORRECTABLE (R435). -/
  | sharedUncorrectable (i k : Nat)
  /-- PSUB_FOREIGN_WRITE (R272). -/
  | psubForeignWrite (v : Word)
  /-- NOTICE_MERGE (R486). -/
  | noticeMerge (pf : Nat) (n : Notice)
  /-- RTAIL_DOORBELL (R484). -/
  | rtailDoorbell (pf r v : Nat)
  /-- REGISTER_WRITE (R484). -/
  | registerWrite (pf : Nat) (r : HostReg) (v : Nat)
  /-- PF_FLR (R491). -/
  | pfFlr (pf : Nat)
  /-- PORT_LINK_DOWN (R490). -/
  | portLinkDown (p : Nat)
  /-- PORT_LINK_UP (R490). -/
  | portLinkUp (p : Nat)
  /-- LOCK_INTERFACE (R492). -/
  | lockInterface (pf : Nat)
  /-- START_INTERFACE (R492). -/
  | startInterface (pf : Nat)
  /-- STOP_INTERFACE (R492). -/
  | stopInterface (pf : Nat)
  /-- GET_DEVICE_INTERFACE_REPORT (R492). -/
  | getDeviceInterfaceReport (pf : Nat)
  /-- KEY_SET (R495). -/
  | keySet (pf : Nat) (key : Word)
  /-- KEY_CLEAR (R495). -/
  | keyClear (pf : Nat)
  /-- SPDM_MESSAGE (R494). -/
  | spdmMessage (pf i : Nat)
  /-- IDE_KM (R493). -/
  | ideKm (p i : Nat)
  /-- PLDM_FIRMWARE_UPDATE (R496). -/
  | pldmFirmwareUpdate (i : Nat) (img : List Byte)
  /-- MODULE_RESET (R498). -/
  | moduleReset
  /-- DIE_JOIN (R498). -/
  | dieJoin (d : Nat) (ok : Bool)
  /-- THROTTLE_ENTER (R499). -/
  | throttleEnter (d : Nat)
  /-- MCTR_REFRESH (R499). -/
  | mctrRefresh (temps : List Nat) (power amps : Nat)
  /-- THROTTLE_EXIT (R499). -/
  | throttleExit (d : Nat)
  deriving DecidableEq, Repr

end Sys2Proof
end

