-- ==== Sys2Proof/WellFormed.lean ====
section
/-! DEFINITION. What the encoding tables allow in an element word: the checks of step 7 of Table 2.14 that need the word alone (R46 to R48,
R52 to R56, R110, R140, R172, R173, R235, R270, R305, R405, R450). The checks that need the block stand with the loader. -/

namespace Sys2Proof

/-- Reasons of step 7 of Table 2.14. -/
inductive Flaw where
  | opcEngine | typ | mod | src | prdOut | reservedBits | target | ctrlConst
  deriving DecidableEq, Repr

/-- What a word may hold, evaluated for its own selector bits: engines, types, whether MOD is defined, the sources of A, B and C (none:
the operand is not taken), output modes, predicate modes, whether the description names operand P, and the flaw of IMM16. -/
structure Form where
  engs : List Nat
  tys : List Ty
  mdOk : Bool
  a : List Src
  b : List Src
  c : List Src
  outs : List OutMode
  prds : List Prd
  hasP : Bool
  imm : Option Flaw
  deriving DecidableEq, Repr

namespace WellFormed

/-- Token, K0, K1 or S. -/
def anySrc : List Src := [.tok, .k0, .k1, .s]
/-- A token only. -/
def tokSrc : List Src := [.tok]
/-- I and N types. -/
def intTys : List Ty := [.i8, .i16, .i32, .i64, .n8, .n16, .n32, .n64]
/-- Any type but 0xE and 0xF. -/
def plainTys : List Ty := [.x, .i8, .i16, .i32, .i64, .n8, .n16, .n32, .n64, .fp32, .bf16, .fp16, .e4m3, .e5m2]
/-- Types of CVT. -/
def cvtTys : List Ty := intTys ++ [.fp32, .bf16, .fp16, .e4m3, .e5m2]
/-- Types of LRED and LSCAN. -/
def laneTys : List Ty := intTys ++ [.fp32, .bf16, .fp16]
/-- Types of the scratch instructions beside X. -/
def memTys : List Ty := intTys ++ [.fp32, .bf16, .fp16, .e4m3, .e5m2]
def allOuts : List OutMode := [.none, .one, .two, .steer]
def anyPrd : List Prd := [.always, .onOne, .onZero]

/-- Bit `k` of MOD. -/
def bit (f : Fields) (k : Nat) : Bool := f.md.getLsbD k
/-- A field of MOD. -/
def mdFld (f : Fields) (lo len : Nat) : Nat := f.md.toNat / 2 ^ lo % 2 ^ len
/-- MOD has no bit outside a mask. -/
def mdOnly (f : Fields) (mask : Nat) : Bool := f.md &&& ~~~(BitVec.ofNat 6 mask) == 0
/-- RND in MOD[5:3] is no reserved code, R52. -/
def rndOk (f : Fields) : Bool := decide (mdFld f 3 3 ≤ 4)
/-- Lane width of a type for immediate limits. -/
def laneBits : Ty → Nat
  | .x => 512 | .i8 => 8 | .i16 => 16 | .i32 => 32 | .i64 => 64 | .n8 => 8 | .n16 => 16 | .n32 => 32 | .n64 => 64
  | .fp32 => 32 | .bf16 => 16 | .fp16 => 16 | .e4m3 => 8 | .e5m2 => 8 | .mx => 8 | .rsv => 512

/-- A field of IMM16. -/
def imFld (f : Fields) (lo len : Nat) : Nat := f.imm.toNat / 2 ^ lo % 2 ^ len
/-- RESERVED_BITS unless a condition holds. -/
def resIf (ok : Bool) : Option Flaw := if ok then none else some .reservedBits
def zeroImm (f : Fields) : Option Flaw := resIf (f.imm == 0)
def immBelow (f : Fields) (n : Nat) : Option Flaw := resIf (decide (f.imm.toNat < n))
/-- Any IMM16 under a MOD bit, zero otherwise. -/
def immIf (f : Fields) (k : Nat) : Option Flaw := if bit f k then none else zeroImm f
/-- FAN, Table 8.7. -/
def fanImm (f : Fields) : Option Flaw :=
  if imFld f 11 5 ≠ 0 then some .reservedBits
  else if imFld f 10 1 = 0 then (if imFld f 0 10 = 0 then none else some .target)
  else if imFld f 9 1 = 1 ∧ (imFld f 6 3 = 7 ∨ imFld f 0 3 ≠ 0) then some .target else none
/-- EMITC, R53, R235. -/
def emitcImm (f : Fields) : Option Flaw :=
  if imFld f 10 6 ≠ 0 then some .reservedBits
  else if imFld f 0 8 = 0 ∨ imFld f 0 8 > 7 then some .ctrlConst
  else if imFld f 8 2 ≠ 0 ∧ imFld f 0 8 ≠ 1 then some .reservedBits else none
/-- TESTC, R53. -/
def testcImm (f : Fields) : Option Flaw :=
  if imFld f 8 8 ≠ 0 then some .reservedBits else if imFld f 0 8 > 7 then some .ctrlConst else none
/-- EXT and INS, R119. -/
def posLenImm (f : Fields) : Option Flaw :=
  resIf (decide (imFld f 14 2 = 0 ∧ imFld f 6 2 = 0 ∧ imFld f 8 6 + imFld f 0 6 + 1 ≤ laneBits f.typ))
/-- The type of a code of Table 2.10. -/
def tyAt (c : Nat) : Ty :=
  match c with
  | 0 => .x | 1 => .i8 | 2 => .i16 | 3 => .i32 | 4 => .i64 | 5 => .n8 | 6 => .n16 | 7 => .n32 | 8 => .n64
  | 9 => .fp32 | 10 => .bf16 | 11 => .fp16 | 12 => .e4m3 | 13 => .e5m2 | 14 => .mx | _ => .rsv
/-- CVT, R149. A wrong source type is TYP (R140), which the model tests before the other fields of IMM16 (log 97). -/
def cvtImm (f : Fields) : Option Flaw :=
  let st := tyAt (imFld f 0 4)
  let ls := 512 / laneBits st
  let ld := 512 / laneBits f.typ
  if st ∈ [Ty.x, .mx, .rsv] then some .reservedBits
  else resIf (decide (imFld f 9 7 = 0 ∧ imFld f 4 1 = 0) &&
    (if ld ≤ ls then decide (imFld f 5 3 < ls / ld ∧ imFld f 8 1 = 0) else decide (imFld f 5 3 < ld / ls)))
/-- CVTSR, R148: floating narrowing only. -/
def cvtsrImm (f : Fields) : Option Flaw :=
  let st := tyAt (imFld f 0 4)
  if st ∈ [Ty.x, .mx, .rsv] then some .reservedBits
  else if st ∈ [Ty.fp32, .bf16, .fp16] ∧ laneBits f.typ < laneBits st then cvtImm f else some .typ
/-- MXQ, R153, with the source type as in `cvtImm`. -/
def mxqImm (f : Fields) : Option Flaw :=
  let mxe := imFld f 0 3
  if imFld f 3 4 ≠ 10 ∧ imFld f 3 4 ≠ 11 then some .typ
  else resIf (decide (imFld f 9 7 = 0 ∧ 1 ≤ mxe ∧ mxe ≤ 4 ∧ imFld f 7 2 < (if mxe = 1 then 4 else 2)))
/-- MXDQ, R155. -/
def mxdqImm (f : Fields) : Option Flaw :=
  let mxe := imFld f 0 3
  resIf (decide (imFld f 6 10 = 0 ∧ (imFld f 5 1 = 0 ∨ f.typ = .fp32) ∧ 1 ≤ mxe ∧ mxe ≤ 4 ∧ imFld f 3 2 < (if mxe = 1 then 4 else 2)))
/-- LRED, R159. -/
def lredOk (f : Fields) : Bool :=
  let op := mdFld f 0 3
  if decide (f.typ ∈ intTys) then decide (op < 6 ∧ mdFld f 3 3 = 0)
  else rndOk f && decide (op ∈ [0, 1, 2, 6])
/-- XSORT, R173. -/
def xsortOk (f : Fields) : Bool :=
  decide (mdFld f 2 2 ≠ 3) && !(decide (mdFld f 2 2 = 2) && decide (laneBits f.typ = 16))
/-- rows, R172: [15:10] zero, ROW0 + NROW at most 32. -/
def rowsImm (f : Fields) : Option Flaw := resIf (decide (imFld f 10 6 = 0 ∧ imFld f 5 5 + imFld f 0 5 + 1 ≤ 32))
/-- A TID in [15:4], zeros below. -/
def tidImm (f : Fields) : Option Flaw := resIf (decide (imFld f 0 4 = 0))
/-- BANKP with its OP in IMM16[1:0] (R339). -/
def bankpImm (f : Fields) (op : Nat) : Option Flaw := resIf (decide (f.imm.toNat = op))
/-- Counter identifiers, Table 16.4. -/
def ctridOk (c : Nat) : Bool :=
  let k := c % 4096
  match c / 4096 with
  | 0 => decide (k < 64)
  | 1 => decide (k < 16)
  | 2 => decide (k < 4)
  | 3 => decide (k < 8)
  | 4 => decide (k < 16)
  | 5 => decide (k / 16 % 4 < 3) && (decide (k < 64) || (decide (k < 128) && decide (k % 16 = 0)))
  | 6 => decide (k < 2)
  | 8 => decide (k < 8)
  | 9 => decide (k = 0)
  | _ => false
def ctridImm (f : Fields) : Option Flaw := resIf (ctridOk f.imm.toNat)

/-- The opcode of an element instruction, Table 2.12. -/
def opcOf (i : Instr) : Option Nat :=
  match i with
  | .mov _ => some 0x01
  | .fan _ => some 0x02
  | .steer _ => some 0x03
  | .merge _ => some 0x04
  | .mergep _ => some 0x04
  | .gate _ => some 0x05
  | .drop _ => some 0x06
  | .carry _ => some 0x07
  | .invar _ => some 0x07
  | .count _ => some 0x08
  | .rpt _ => some 0x08
  | .emitc _ => some 0x09
  | .testc _ => some 0x09
  | .mark _ => some 0x0a
  | .strip _ => some 0x0a
  | .bub _ => some 0x0b
  | .seqt _ => some 0x0c
  | .reord _ => some 0x0c
  | .intx _ => some 0x0d
  | .union _ => some 0x0d
  | .route _ => some 0x0e
  | .add _ => some 0x10
  | .sub _ => some 0x11
  | .mul _ => some 0x12
  | .mulh _ => some 0x13
  | .mad _ => some 0x14
  | .min _ => some 0x15
  | .max _ => some 0x16
  | .abs _ => some 0x17
  | .neg _ => some 0x18
  | .clamp _ => some 0x19
  | .and _ => some 0x20
  | .or _ => some 0x21
  | .xor _ => some 0x22
  | .andn _ => some 0x23
  | .not _ => some 0x24
  | .shl _ => some 0x25
  | .shr _ => some 0x26
  | .sar _ => some 0x27
  | .rot _ => some 0x28
  | .clz _ => some 0x29
  | .popc _ => some 0x2a
  | .brev _ => some 0x2b
  | .ext _ => some 0x2c
  | .ins _ => some 0x2d
  | .cmp _ => some 0x30
  | .sel _ => some 0x31
  | .addr _ => some 0x32
  | .wid _ => some 0x33
  | .lxy _ => some 0x34
  | .hash _ => some 0x35
  | .fadd _ => some 0x40
  | .fsub _ => some 0x41
  | .fmul _ => some 0x42
  | .ffma _ => some 0x43
  | .fmin _ => some 0x44
  | .fmax _ => some 0x45
  | .fabs _ => some 0x46
  | .fneg _ => some 0x47
  | .fcmp _ => some 0x48
  | .fscale _ => some 0x49
  | .fclass _ => some 0x4a
  | .fexp2 _ => some 0x50
  | .flog2 _ => some 0x51
  | .frcp _ => some 0x52
  | .frsq _ => some 0x53
  | .fsqrt _ => some 0x54
  | .cvt _ => some 0x60
  | .cvtsr _ => some 0x61
  | .pkpx _ => some 0x62
  | .mxq _ => some 0x63
  | .mxdq _ => some 0x64
  | .amaxv _ => some 0x65
  | .lred _ => some 0x70
  | .lscan _ => some 0x71
  | .lshuf _ => some 0x72
  | .lbcast _ => some 0x73
  | .lrot _ => some 0x74
  | .dot _ => some 0x75
  | .aclr _ => some 0x80
  | .mma _ => some 0x81
  | .mmaRing _ => some 0x81
  | .aaddv _ => some 0x82
  | .aresc _ => some 0x83
  | .resolve _ => some 0x84
  | .acmp _ => some 0x85
  | .acmpq _ => some 0x86
  | .aimg _ => some 0x87
  | .aldi _ => some 0x88
  | .astat _ => some 0x89
  | .aredl _ => some 0x8a
  | .rroot _ => some 0x8b
  | .xsort _ => some 0x90
  | .xmerge _ => some 0x91
  | .ldt _ => some 0xa0
  | .stt _ => some 0xa1
  | .lds _ => some 0xa2
  | .sts _ => some 0xa3
  | .ldsi _ => some 0xa4
  | .stsi _ => some 0xa5
  | .feset _ => some 0xa6
  | .feclr _ => some 0xa7
  | .prefw _ => some 0xa8
  | .aadd _ => some 0xb0
  | .afadd _ => some 0xb1
  | .amin _ => some 0xb2
  | .amax _ => some 0xb3
  | .aand _ => some 0xb4
  | .aor _ => some 0xb5
  | .axor _ => some 0xb6
  | .axch _ => some 0xb7
  | .acas _ => some 0xb8
  | .aincb _ => some 0xb9
  | .fence _ => some 0xba
  | .copy _ => some 0xc0
  | .gath _ => some 0xc1
  | .scat _ => some 0xc2
  | .scata _ => some 0xc3
  | .coll _ => some 0xc4
  | .waitj _ => some 0xc5
  | .jstat _ => some 0xc6
  | .win _ => some 0xc7
  | .winadv _ => some 0xc8
  | .rpush _ => some 0xd0
  | .rpop _ => some 0xd1
  | .rpopDisc _ => some 0xd1
  | .rstat _ => some 0xd2
  | .rstatSet _ => some 0xd2
  | .postc _ => some 0xd3
  | .grow _ => some 0xd4
  | .enq _ => some 0xd5
  | .deq _ => some 0xd6
  | .qstat _ => some 0xd7
  | .fork _ => some 0xe0
  | .rdv _ => some 0xe1
  | .bar _ => some 0xe2
  | .sig _ => some 0xe3
  | .snap _ => some 0xe4
  | .plane _ => some 0xe5
  | .await _ => some 0xe6
  | .ndone _ => some 0xe7
  | .nfail _ => some 0xe8
  | .bwph _ => some 0xe9
  | .bankpWake _ => some 0xea
  | .bankpDiscard _ => some 0xea
  | .bankpRelease _ => some 0xea
  | .bankpStatus _ => some 0xea
  | .trap _ => some 0xf0
  | .brk _ => some 0xf1
  | .asrt _ => some 0xf2
  | .halt _ => some 0xf3
  | .rdid _ => some 0xf4
  | .rdctr _ => some 0xf5
  | .trigr _ => some 0xf6
  | .alignedControlForward _ | .poisonPropagate _ | .switchConsume _ | .snapAlign _ | .tokenArrival _ _ _
  | .demandArrival _ _ _ | .reductionJoin _ _ _ | .reachTokenEntry _ _ _ _ | .meshPacketArrival _ | .px8UnpackBlock _ _ _
  | .readoutWord _ _ | .sortChunkWord _ _ | .bankAccess _ _ | .feLoadRelease _ | .feWatchdog _
  | .translate _ | .walk _ | .hbmRequestServe _ _ | .replyDelivery _ | .landbDeliver _
  | .jobAccept _ | .jobStart _ _ | .jobComplete _ _ | .collStart _ _ | .ringDeliveryLand _
  | .windowFeed _ _ | .enqArrival _ | .contDequeue _ _ | .barrierArrival _ | .barRelease _
  | .awaitResume _ | .snapCapture _ _ | .snapCaptureWritten _ _ | .snapTimeout _ _ | .segmentComplete _
  | .switchDelivery _ | .castling _ | .checkPass _ _ _ | .copyPassPattern _ _ | .patternArrived _
  | .dispatch _ | .trackArm _ _ _ | .edgeToken _ | .nodeRetry _ _ _ | .stopRecordsWrite _
  | .policyApply _ | .mgmtAnswer _ _ _ _ | .quiescenceSample _ | .qbndExpiry _ | .freezeScanDone _ _
  | .haltTimeout _ | .removalComplete _ | .moveDrained | .moveDrainTimeout | .moveCopyDone
  | .bankDrowse _ _ | .bankSbcLimit _ | .bankWakeDone _ _ | .bankGrantScrubDone _ _ | .bankDrained _
  | .bankDrainTimeout _ | .patrolScrub _ _ | .tileUncorrectable _ _ | .sharedUncorrectable _ _ | .lstlDeltaSend _
  | .arbiterCommandRead _ _ | .psubTake | .psubForeignWrite _ | .completionWrite _ | .noticeMerge _ _
  | .rtailDoorbell _ _ _ | .registerWrite _ _ _ | .glaunch _ | .gcancel _ | .resumeCone _
  | .nodedone _ | .continueNode _ | .pfresolve _ | .pfdecline _ | .tlbinv _
  | .harvest _ | .evictq _ | .qcreate _ | .qdestroy _ | .qswap _
  | .qload _ | .jstatus _ | .bind _ | .rebind _ | .move _
  | .preempt _ | .resume _ | .remove _ | .allow _ | .fotset _
  | .frameDrainedScrub _ _ | .pfreset _ | .pfFlr _ | .portLinkDown _ | .portLinkUp _
  | .lockInterface _ | .startInterface _ | .stopInterface _ | .getDeviceInterfaceReport _ | .keySet _ _
  | .keyClear _ | .spdmMessage _ _ | .ideKm _ _ | .pldmFirmwareUpdate _ _ | .moduleReset
  | .dieJoin _ _ | .throttleEnter _ | .mctrRefresh _ _ _ | .rangeRequestIssue _ | .hostMemoryRequest _ _
  | .throttleExit _ => none

/-- The fields of an element instruction. -/
def instrFields (i : Instr) : Option Fields :=
  match i with
  | .mov f | .fan f | .steer f | .merge f | .mergep f
  | .gate f | .drop f | .carry f | .invar f | .count f
  | .rpt f | .emitc f | .testc f | .mark f | .strip f
  | .bub f | .seqt f | .reord f | .intx f | .union f
  | .route f | .add f | .sub f | .mul f | .mulh f
  | .mad f | .min f | .max f | .abs f | .neg f
  | .clamp f | .and f | .or f | .xor f | .andn f
  | .not f | .shl f | .shr f | .sar f | .rot f
  | .clz f | .popc f | .brev f | .ext f | .ins f
  | .cmp f | .sel f | .addr f | .wid f | .lxy f
  | .hash f | .fadd f | .fsub f | .fmul f | .ffma f
  | .fmin f | .fmax f | .fabs f | .fneg f | .fcmp f
  | .fscale f | .fclass f | .fexp2 f | .flog2 f | .frcp f
  | .frsq f | .fsqrt f | .cvt f | .cvtsr f | .pkpx f
  | .mxq f | .mxdq f | .amaxv f | .lred f | .lscan f
  | .lshuf f | .lbcast f | .lrot f | .dot f | .aclr f
  | .mma f | .mmaRing f | .aaddv f | .aresc f | .resolve f
  | .acmp f | .acmpq f | .aimg f | .aldi f | .astat f
  | .aredl f | .rroot f | .xsort f | .xmerge f | .ldt f
  | .stt f | .lds f | .sts f | .ldsi f | .stsi f
  | .feset f | .feclr f | .prefw f | .aadd f | .afadd f
  | .amin f | .amax f | .aand f | .aor f | .axor f
  | .axch f | .acas f | .aincb f | .fence f | .copy f
  | .gath f | .scat f | .scata f | .coll f | .waitj f
  | .jstat f | .win f | .winadv f | .rpush f | .rpop f
  | .rpopDisc f | .rstat f | .rstatSet f | .postc f | .grow f
  | .enq f | .deq f | .qstat f | .fork f | .rdv f
  | .bar f | .sig f | .snap f | .plane f | .await f
  | .ndone f | .nfail f | .bwph f | .bankpWake f | .bankpDiscard f
  | .bankpRelease f | .bankpStatus f | .trap f | .brk f | .asrt f
  | .halt f | .rdid f | .rdctr f | .trigr f => some f
  | .alignedControlForward _ | .poisonPropagate _ | .switchConsume _ | .snapAlign _ | .tokenArrival _ _ _
  | .demandArrival _ _ _ | .reductionJoin _ _ _ | .reachTokenEntry _ _ _ _ | .meshPacketArrival _ | .px8UnpackBlock _ _ _
  | .readoutWord _ _ | .sortChunkWord _ _ | .bankAccess _ _ | .feLoadRelease _ | .feWatchdog _
  | .translate _ | .walk _ | .hbmRequestServe _ _ | .replyDelivery _ | .landbDeliver _
  | .jobAccept _ | .jobStart _ _ | .jobComplete _ _ | .collStart _ _ | .ringDeliveryLand _
  | .windowFeed _ _ | .enqArrival _ | .contDequeue _ _ | .barrierArrival _ | .barRelease _
  | .awaitResume _ | .snapCapture _ _ | .snapCaptureWritten _ _ | .snapTimeout _ _ | .segmentComplete _
  | .switchDelivery _ | .castling _ | .checkPass _ _ _ | .copyPassPattern _ _ | .patternArrived _
  | .dispatch _ | .trackArm _ _ _ | .edgeToken _ | .nodeRetry _ _ _ | .stopRecordsWrite _
  | .policyApply _ | .mgmtAnswer _ _ _ _ | .quiescenceSample _ | .qbndExpiry _ | .freezeScanDone _ _
  | .haltTimeout _ | .removalComplete _ | .moveDrained | .moveDrainTimeout | .moveCopyDone
  | .bankDrowse _ _ | .bankSbcLimit _ | .bankWakeDone _ _ | .bankGrantScrubDone _ _ | .bankDrained _
  | .bankDrainTimeout _ | .patrolScrub _ _ | .tileUncorrectable _ _ | .sharedUncorrectable _ _ | .lstlDeltaSend _
  | .arbiterCommandRead _ _ | .psubTake | .psubForeignWrite _ | .completionWrite _ | .noticeMerge _ _
  | .rtailDoorbell _ _ _ | .registerWrite _ _ _ | .glaunch _ | .gcancel _ | .resumeCone _
  | .nodedone _ | .continueNode _ | .pfresolve _ | .pfdecline _ | .tlbinv _
  | .harvest _ | .evictq _ | .qcreate _ | .qdestroy _ | .qswap _
  | .qload _ | .jstatus _ | .bind _ | .rebind _ | .move _
  | .preempt _ | .resume _ | .remove _ | .allow _ | .fotset _
  | .frameDrainedScrub _ _ | .pfreset _ | .pfFlr _ | .portLinkDown _ | .portLinkUp _
  | .lockInterface _ | .startInterface _ | .stopInterface _ | .getDeviceInterfaceReport _ | .keySet _ _
  | .keyClear _ | .spdmMessage _ _ | .ideKm _ _ | .pldmFirmwareUpdate _ _ | .moduleReset
  | .dieJoin _ _ | .throttleEnter _ | .mctrRefresh _ _ _ | .rangeRequestIssue _ | .hostMemoryRequest _ _
  | .throttleExit _ => none

/-- What the encoding tables (2.13, 5.4, 6.3, 7.4, 8.7, 9.5, 11.3, 14.6, 16.5) allow in the word of an element instruction. -/
def form (i : Instr) : Option Form :=
  match i with
  | .mov f => some ⟨[0, 1, 2], plainTys, mdOnly f 0x0, anySrc, [], [], [.one, .two], anyPrd, false, zeroImm f⟩
  | .fan f => some ⟨[0, 1, 2], plainTys, mdOnly f 0x0, anySrc, [], [], [.two], anyPrd, false, fanImm f⟩
  | .steer f => some ⟨[0, 1, 2], plainTys, mdOnly f 0x0, anySrc, [], [], [.steer], [.always], true, zeroImm f⟩
  | .merge f => some ⟨[0, 1, 2], plainTys, (mdOnly f 0x20 && (bit f 5 == false)), tokSrc, tokSrc, [], [.one, .two], [.always], false, zeroImm f⟩
  | .mergep f => some ⟨[0, 1, 2], plainTys, (mdOnly f 0x20 && (bit f 5 == true)), tokSrc, tokSrc, [], [.one, .two], [.always], true, zeroImm f⟩
  | .gate f => some ⟨[0, 1, 2], plainTys, mdOnly f 0x0, tokSrc, [], [], [.one, .two], [.always], true, immBelow f 2⟩
  | .drop f => some ⟨[0, 1, 2], plainTys, mdOnly f 0x0, tokSrc, [], [], (if f.imm.toNat % 2 = 1 then [.one] else [.none]), [.always], false, immBelow f 2⟩
  | .carry f => some ⟨[0, 1, 2], plainTys, (mdOnly f 0x20 && (bit f 5 == false)), anySrc, tokSrc, [], [.one, .two], [.always], true, zeroImm f⟩
  | .invar f => some ⟨[0, 1, 2], plainTys, (mdOnly f 0x20 && (bit f 5 == true)), tokSrc, [], [], [.one, .two], [.always], true, zeroImm f⟩
  | .count f => some ⟨[0, 1, 2], [.n32, .n64], (mdOnly f 0x20 && (bit f 5 == false)), anySrc, anySrc, [], [.one, .two], [.always], false, none⟩
  | .rpt f => some ⟨[0, 1, 2], [.n32, .n64], (mdOnly f 0x20 && (bit f 5 == true)), anySrc, anySrc, [], [.one, .two], [.always], false, zeroImm f⟩
  | .emitc f => some ⟨[0, 1, 2], [.x], (mdOnly f 0x21 && (bit f 5 == false)), (if bit f 0 then tokSrc else []), [], [], [.one, .two], anyPrd, false, emitcImm f⟩
  | .testc f => some ⟨[0, 1, 2], [.x], (mdOnly f 0x20 && (bit f 5 == true)), tokSrc, [], [], [.one, .two], anyPrd, false, testcImm f⟩
  | .mark f => some ⟨[0, 1, 2], plainTys, (mdOnly f 0x20 && (bit f 5 == false)), tokSrc, [], [], [.one, .two], [.always], true, immBelow f 2⟩
  | .strip f => some ⟨[0, 1, 2], plainTys, (mdOnly f 0x20 && (bit f 5 == true)), tokSrc, [], [], [.one, .two], [.always], false, zeroImm f⟩
  | .bub f => some ⟨[0, 1, 2], [.x], mdOnly f 0x0, tokSrc, [], [], [.one, .two], anyPrd, false, zeroImm f⟩
  | .seqt f => some ⟨[0, 1, 2], [.x], (mdOnly f 0x20 && (bit f 5 == false)), tokSrc, [], [], [.one, .two], anyPrd, false, immBelow f 16⟩
  | .reord f => some ⟨[0, 1, 2], [.x], (mdOnly f 0x20 && (bit f 5 == true)), tokSrc, [], [], [.one], [.always], false, immBelow f 32⟩
  | .intx f => some ⟨[0, 1, 2], [.n32], (mdOnly f 0x20 && (bit f 5 == false)), tokSrc, tokSrc, [], [.one], [.always], false, zeroImm f⟩
  | .union f => some ⟨[0, 1, 2], [.n32], (mdOnly f 0x20 && (bit f 5 == true)), tokSrc, tokSrc, [], [.one], [.always], false, zeroImm f⟩
  | .route f => some ⟨[0, 1, 2], [.n32], mdOnly f 0x0, tokSrc, anySrc, [], [.one, .two], [.always], false, immBelow f 8⟩
  | .add f => some ⟨[0, 1], intTys, mdOnly f 0x7, anySrc, (if bit f 0 then [] else anySrc), [], allOuts, anyPrd, false, immIf f 0⟩
  | .sub f => some ⟨[0, 1], intTys, mdOnly f 0x7, anySrc, (if bit f 0 then [] else anySrc), [], allOuts, anyPrd, false, immIf f 0⟩
  | .mul f => some ⟨[0, 1], intTys, mdOnly f 0x7, anySrc, (if bit f 0 then [] else anySrc), [], allOuts, anyPrd, false, immIf f 0⟩
  | .mulh f => some ⟨[0, 1], intTys, mdOnly f 0x3, anySrc, (if bit f 0 then [] else anySrc), [], allOuts, anyPrd, false, immIf f 0⟩
  | .mad f => some ⟨[0, 1], intTys, mdOnly f 0x6, anySrc, anySrc, anySrc, allOuts, anyPrd, false, zeroImm f⟩
  | .min f => some ⟨[0, 1], intTys, mdOnly f 0x3, anySrc, (if bit f 0 then [] else anySrc), [], allOuts, anyPrd, false, immIf f 0⟩
  | .max f => some ⟨[0, 1], intTys, mdOnly f 0x3, anySrc, (if bit f 0 then [] else anySrc), [], allOuts, anyPrd, false, immIf f 0⟩
  | .abs f => some ⟨[0, 1], [.i8, .i16, .i32, .i64], mdOnly f 0x6, anySrc, [], [], allOuts, anyPrd, false, zeroImm f⟩
  | .neg f => some ⟨[0, 1], [.i8, .i16, .i32, .i64], mdOnly f 0x6, anySrc, [], [], allOuts, anyPrd, false, zeroImm f⟩
  | .clamp f => some ⟨[0, 1], intTys, mdOnly f 0x2, anySrc, anySrc, anySrc, allOuts, anyPrd, false, zeroImm f⟩
  | .and f => some ⟨[0, 1], (.x :: intTys), mdOnly f 0x3, anySrc, (if bit f 0 then [] else anySrc), [], allOuts, anyPrd, false, immIf f 0⟩
  | .or f => some ⟨[0, 1], (.x :: intTys), mdOnly f 0x3, anySrc, (if bit f 0 then [] else anySrc), [], allOuts, anyPrd, false, immIf f 0⟩
  | .xor f => some ⟨[0, 1], (.x :: intTys), mdOnly f 0x3, anySrc, (if bit f 0 then [] else anySrc), [], allOuts, anyPrd, false, immIf f 0⟩
  | .andn f => some ⟨[0, 1], (.x :: intTys), mdOnly f 0x3, anySrc, (if bit f 0 then [] else anySrc), [], allOuts, anyPrd, false, immIf f 0⟩
  | .not f => some ⟨[0, 1], (.x :: intTys), mdOnly f 0x2, anySrc, [], [], allOuts, anyPrd, false, zeroImm f⟩
  | .shl f => some ⟨[0, 1], intTys, mdOnly f 0x3, anySrc, (if bit f 0 then [] else anySrc), [], allOuts, anyPrd, false, (if bit f 0 then immBelow f 256 else zeroImm f)⟩
  | .shr f => some ⟨[0, 1], intTys, mdOnly f 0x3, anySrc, (if bit f 0 then [] else anySrc), [], allOuts, anyPrd, false, (if bit f 0 then immBelow f 256 else zeroImm f)⟩
  | .sar f => some ⟨[0, 1], [.i8, .i16, .i32, .i64], mdOnly f 0x3, anySrc, (if bit f 0 then [] else anySrc), [], allOuts, anyPrd, false, (if bit f 0 then immBelow f 256 else zeroImm f)⟩
  | .rot f => some ⟨[0, 1], intTys, mdOnly f 0x3, anySrc, (if bit f 0 then [] else anySrc), [], allOuts, anyPrd, false, (if bit f 0 then immBelow f 256 else zeroImm f)⟩
  | .clz f => some ⟨[0, 1], intTys, mdOnly f 0x2, anySrc, [], [], allOuts, anyPrd, false, zeroImm f⟩
  | .popc f => some ⟨[0, 1], intTys, mdOnly f 0x2, anySrc, [], [], allOuts, anyPrd, false, zeroImm f⟩
  | .brev f => some ⟨[0, 1], intTys, mdOnly f 0x2, anySrc, [], [], allOuts, anyPrd, false, zeroImm f⟩
  | .ext f => some ⟨[0, 1], intTys, mdOnly f 0x2, anySrc, [], [], allOuts, anyPrd, false, posLenImm f⟩
  | .ins f => some ⟨[0, 1], intTys, mdOnly f 0x2, anySrc, anySrc, [], allOuts, anyPrd, false, posLenImm f⟩
  | .cmp f => some ⟨[0, 1], intTys, (mdOnly f 0x1f && decide (mdFld f 0 4 < 6)), anySrc, (if bit f 4 then [] else anySrc), [], allOuts, anyPrd, false, immIf f 4⟩
  | .sel f => some ⟨[0, 1], (.x :: intTys), mdOnly f 0x2, anySrc, anySrc, anySrc, allOuts, anyPrd, false, zeroImm f⟩
  | .addr f => some ⟨[0, 1], (if bit f 2 then [.n64] else [.n32, .n64]), mdOnly f 0x5, anySrc, anySrc, (if bit f 0 then anySrc else []), allOuts, anyPrd, false, immBelow f 64⟩
  | .wid f => some ⟨[0, 1], [.n32, .n64], mdOnly f 0x1, (if bit f 0 then tokSrc else []), [], [], allOuts, anyPrd, false, immBelow f 11⟩
  | .lxy f => some ⟨[0, 1], [.n16, .n32], mdOnly f 0x1, (if bit f 0 then tokSrc else []), [], [], allOuts, anyPrd, false, zeroImm f⟩
  | .hash f => some ⟨[0, 1], [.n32, .n64], mdOnly f 0x3, anySrc, (if bit f 0 then [] else anySrc), [], allOuts, anyPrd, false, immIf f 0⟩
  | .fadd f => some ⟨[1], [.fp32, .bf16, .fp16], (mdOnly f 0x3e && rndOk f), anySrc, anySrc, [], allOuts, anyPrd, false, zeroImm f⟩
  | .fsub f => some ⟨[1], [.fp32, .bf16, .fp16], (mdOnly f 0x3e && rndOk f), anySrc, anySrc, [], allOuts, anyPrd, false, zeroImm f⟩
  | .fmul f => some ⟨[1], [.fp32, .bf16, .fp16], (mdOnly f 0x3e && rndOk f), anySrc, anySrc, [], allOuts, anyPrd, false, zeroImm f⟩
  | .ffma f => some ⟨[1], [.fp32, .bf16, .fp16], (mdOnly f 0x3e && rndOk f), anySrc, anySrc, anySrc, allOuts, anyPrd, false, zeroImm f⟩
  | .fmin f => some ⟨[1], [.fp32, .bf16, .fp16], (mdOnly f 0x3e && rndOk f), anySrc, anySrc, [], allOuts, anyPrd, false, zeroImm f⟩
  | .fmax f => some ⟨[1], [.fp32, .bf16, .fp16], (mdOnly f 0x3e && rndOk f), anySrc, anySrc, [], allOuts, anyPrd, false, zeroImm f⟩
  | .fabs f => some ⟨[1], [.fp32, .bf16, .fp16], (mdOnly f 0x3e && rndOk f), anySrc, [], [], allOuts, anyPrd, false, zeroImm f⟩
  | .fneg f => some ⟨[1], [.fp32, .bf16, .fp16], (mdOnly f 0x3e && rndOk f), anySrc, [], [], allOuts, anyPrd, false, zeroImm f⟩
  | .fcmp f => some ⟨[1], [.fp32, .bf16, .fp16], (mdOnly f 0xf && decide (mdFld f 0 4 < 8)), anySrc, anySrc, [], allOuts, anyPrd, false, zeroImm f⟩
  | .fscale f => some ⟨[1], [.fp32, .bf16, .fp16], (mdOnly f 0x3e && rndOk f), anySrc, anySrc, [], allOuts, anyPrd, false, zeroImm f⟩
  | .fclass f => some ⟨[1], [.fp32, .bf16, .fp16], mdOnly f 0x2, anySrc, [], [], allOuts, anyPrd, false, zeroImm f⟩
  | .fexp2 f => some ⟨[1], [.fp32, .bf16, .fp16], (mdOnly f 0x3e && rndOk f), anySrc, [], [], allOuts, anyPrd, false, zeroImm f⟩
  | .flog2 f => some ⟨[1], [.fp32, .bf16, .fp16], (mdOnly f 0x3e && rndOk f), anySrc, [], [], allOuts, anyPrd, false, zeroImm f⟩
  | .frcp f => some ⟨[1], [.fp32, .bf16, .fp16], (mdOnly f 0x3e && rndOk f), anySrc, [], [], allOuts, anyPrd, false, zeroImm f⟩
  | .frsq f => some ⟨[1], [.fp32, .bf16, .fp16], (mdOnly f 0x3e && rndOk f), anySrc, [], [], allOuts, anyPrd, false, zeroImm f⟩
  | .fsqrt f => some ⟨[1], [.fp32, .bf16, .fp16], (mdOnly f 0x3e && rndOk f), anySrc, [], [], allOuts, anyPrd, false, zeroImm f⟩
  | .cvt f => some ⟨[1], cvtTys, (mdOnly f 0x3e && rndOk f), anySrc, [], (if f.imm.getLsbD 8 then anySrc else []), allOuts, anyPrd, false, cvtImm f⟩
  | .cvtsr f => some ⟨[1], [.bf16, .fp16, .e4m3, .e5m2], (mdOnly f 0x3f && decide (mdFld f 3 3 = 4)), anySrc, (if bit f 0 then anySrc else []), (if f.imm.getLsbD 8 then anySrc else []), allOuts, anyPrd, false, cvtsrImm f⟩
  | .pkpx f => some ⟨[1], [.e4m3, .e5m2], (mdOnly f 0x3c && rndOk f), tokSrc, [], [], [.one], [.always], false, zeroImm f⟩
  | .mxq f => some ⟨[1], [.mx], (mdOnly f 0x3c && rndOk f), anySrc, [], [], [.two], anyPrd, false, mxqImm f⟩
  | .mxdq f => some ⟨[1], [.fp32, .bf16, .fp16], (mdOnly f 0x3e && rndOk f), anySrc, anySrc, [], allOuts, anyPrd, false, mxdqImm f⟩
  | .amaxv f => some ⟨[1], [.fp32, .bf16, .fp16, .e4m3, .e5m2], mdOnly f 0x3, anySrc, [], [], allOuts, anyPrd, false, zeroImm f⟩
  | .lred f => some ⟨[1], laneTys, (mdOnly f 0x3f && lredOk f), anySrc, [], [], allOuts, anyPrd, false, zeroImm f⟩
  | .lscan f => some ⟨[1], laneTys, (mdOnly f 0x1f && decide (mdFld f 0 3 < 3)), anySrc, [], [], allOuts, anyPrd, false, zeroImm f⟩
  | .lshuf f => some ⟨[1], intTys, mdOnly f 0x1, anySrc, anySrc, (if bit f 0 then anySrc else []), allOuts, anyPrd, false, zeroImm f⟩
  | .lbcast f => some ⟨[1], intTys, mdOnly f 0x1, anySrc, (if bit f 0 then anySrc else []), [], allOuts, anyPrd, false, (if bit f 0 then zeroImm f else immBelow f (min 64 (512 / laneBits f.typ)))⟩
  | .lrot f => some ⟨[1], intTys, mdOnly f 0x3, anySrc, (if bit f 0 then anySrc else []), (if bit f 1 then anySrc else []), allOuts, anyPrd, false, (if bit f 0 then zeroImm f else immBelow f 128)⟩
  | .dot f => some ⟨[1], [.bf16, .fp16, .e4m3, .e5m2], (mdOnly f 0x3f && rndOk f), anySrc, anySrc, (if bit f 0 then anySrc else []), allOuts, anyPrd, false, zeroImm f⟩
  | .aclr f => some ⟨[2], [.x], mdOnly f 0x21, (if bit f 0 then tokSrc else []), [], [], [.none, .one], anyPrd, false, rowsImm f⟩
  | .mma f => some ⟨[2], [.bf16, .fp16, .e4m3, .e5m2, .mx], (mdOnly f 0x37 && !bit f 4 && (if f.typ == .mx then decide (1 ≤ mdFld f 0 3 ∧ mdFld f 0 3 ≤ 4) else decide (mdFld f 0 3 = 0))), anySrc, anySrc, (if f.typ == .mx then anySrc else []), [.none, .one], anyPrd, false, zeroImm f⟩
  | .mmaRing f => some ⟨[2], [.bf16, .fp16, .e4m3, .e5m2, .mx], (mdOnly f 0x37 && bit f 4 && (if f.typ == .mx then decide (1 ≤ mdFld f 0 3 ∧ mdFld f 0 3 ≤ 4) else decide (mdFld f 0 3 = 0))), tokSrc, [], [], [.none, .one], [.always], false, immBelow f 4096⟩
  | .aaddv f => some ⟨[2], [.bf16, .fp16, .fp32], (mdOnly f 0x21 && (!bit f 0 || f.typ == .fp32)), anySrc, [], [], [.none, .one], anyPrd, false, rowsImm f⟩
  | .aresc f => some ⟨[2], [.i16], mdOnly f 0x20, anySrc, [], [], [.none, .one], anyPrd, false, zeroImm f⟩
  | .resolve f => some ⟨[2], [.fp32, .bf16, .fp16, .e4m3, .e5m2], (mdOnly f 0x3f && decide (mdFld f 2 3 ≤ 4)), tokSrc, [], [], [.one, .two], anyPrd, false, rowsImm f⟩
  | .acmp f => some ⟨[2], [.n16], mdOnly f 0x20, tokSrc, anySrc, [], [.one, .two], anyPrd, false, immBelow f 32⟩
  | .acmpq f => some ⟨[2], [.n16], mdOnly f 0x20, tokSrc, anySrc, [], [.one, .two], anyPrd, false, immBelow f 32⟩
  | .aimg f => some ⟨[2], [.x], mdOnly f 0x20, tokSrc, [], [], [.one, .two], anyPrd, false, rowsImm f⟩
  | .aldi f => some ⟨[2], [.x], mdOnly f 0x20, tokSrc, [], [], [.none, .one], [.always], false, rowsImm f⟩
  | .astat f => some ⟨[2], [.n32], mdOnly f 0x20, tokSrc, [], [], [.one, .two], anyPrd, false, zeroImm f⟩
  | .aredl f => some ⟨[2], [.x], mdOnly f 0x21, tokSrc, [.k0, .k1, .s], [], [.one], anyPrd, false, rowsImm f⟩
  | .rroot f => some ⟨[2], [.fp32, .bf16, .fp16], (mdOnly f 0x3c && rndOk f), tokSrc, [.k0, .k1, .s], [], [.one, .two], anyPrd, false, zeroImm f⟩
  | .xsort f => some ⟨[2], [.i16, .n16, .bf16, .fp16, .i32, .n32, .fp32], (mdOnly f 0x3c && xsortOk f), tokSrc, [], [], (if mdFld f 2 2 = 1 then [.two] else [.one]), [.always], false, zeroImm f⟩
  | .xmerge f => some ⟨[2], [.i32, .n32, .fp32], mdOnly f 0x10, tokSrc, tokSrc, [], [.one], [.always], false, zeroImm f⟩
  | .ldt f => some ⟨[0, 1], [.x], mdOnly f 0x1, [.tok, .s], (if bit f 0 then tokSrc else []), [], [.none, .one], anyPrd, false, tidImm f⟩
  | .stt f => some ⟨[0, 1], [.x], mdOnly f 0x0, [.tok, .s], tokSrc, [], [.none], anyPrd, false, tidImm f⟩
  | .lds f => some ⟨[0, 1], (.x :: memTys), mdOnly f 0x30, anySrc, [], [], [.one, .two], anyPrd, false, none⟩
  | .sts f => some ⟨[0, 1], (.x :: memTys), mdOnly f 0x0, anySrc, anySrc, [], [.none, .one], anyPrd, false, none⟩
  | .ldsi f => some ⟨[0, 1], memTys, mdOnly f 0x30, anySrc, anySrc, [], [.one, .two], anyPrd, false, zeroImm f⟩
  | .stsi f => some ⟨[0, 1], memTys, mdOnly f 0x0, anySrc, anySrc, anySrc, [.none, .one], anyPrd, false, zeroImm f⟩
  | .feset f => some ⟨[0, 1], [.x], mdOnly f 0x0, anySrc, [], [], [.none, .one], anyPrd, false, zeroImm f⟩
  | .feclr f => some ⟨[0, 1], [.x], mdOnly f 0x0, anySrc, [], [], [.none, .one], anyPrd, false, zeroImm f⟩
  | .prefw f => some ⟨[0, 1], [.x], mdOnly f 0x0, anySrc, [], [], [.none, .one], anyPrd, false, zeroImm f⟩
  | .aadd f => some ⟨[0, 1], [.i32, .i64, .n32, .n64], (mdOnly f 0x3f && decide (mdFld f 2 3 ≤ 4)), anySrc, anySrc, [], [.none, .one], anyPrd, false, (if bit f 5 then tidImm f else zeroImm f)⟩
  | .afadd f => some ⟨[0, 1], [.fp32], (mdOnly f 0x3f && decide (mdFld f 2 3 ≤ 4)), anySrc, anySrc, [], [.none, .one], anyPrd, false, (if bit f 5 then tidImm f else zeroImm f)⟩
  | .amin f => some ⟨[0, 1], [.i32, .i64, .n32, .n64], (mdOnly f 0x3f && decide (mdFld f 2 3 ≤ 4)), anySrc, anySrc, [], [.none, .one], anyPrd, false, (if bit f 5 then tidImm f else zeroImm f)⟩
  | .amax f => some ⟨[0, 1], [.i32, .i64, .n32, .n64], (mdOnly f 0x3f && decide (mdFld f 2 3 ≤ 4)), anySrc, anySrc, [], [.none, .one], anyPrd, false, (if bit f 5 then tidImm f else zeroImm f)⟩
  | .aand f => some ⟨[0, 1], [.i32, .i64, .n32, .n64], (mdOnly f 0x3f && decide (mdFld f 2 3 ≤ 4)), anySrc, anySrc, [], [.none, .one], anyPrd, false, (if bit f 5 then tidImm f else zeroImm f)⟩
  | .aor f => some ⟨[0, 1], [.i32, .i64, .n32, .n64], (mdOnly f 0x3f && decide (mdFld f 2 3 ≤ 4)), anySrc, anySrc, [], [.none, .one], anyPrd, false, (if bit f 5 then tidImm f else zeroImm f)⟩
  | .axor f => some ⟨[0, 1], [.i32, .i64, .n32, .n64], (mdOnly f 0x3f && decide (mdFld f 2 3 ≤ 4)), anySrc, anySrc, [], [.none, .one], anyPrd, false, (if bit f 5 then tidImm f else zeroImm f)⟩
  | .axch f => some ⟨[0, 1], [.i32, .i64, .n32, .n64, .fp32], (mdOnly f 0x3f && decide (mdFld f 2 3 ≤ 4)), anySrc, anySrc, [], [.none, .one], anyPrd, false, (if bit f 5 then tidImm f else zeroImm f)⟩
  | .acas f => some ⟨[0, 1], [.i32, .i64, .n32, .n64, .fp32], (mdOnly f 0x3f && decide (mdFld f 2 3 ≤ 4)), anySrc, anySrc, anySrc, [.none, .one], anyPrd, false, (if bit f 5 then tidImm f else zeroImm f)⟩
  | .aincb f => some ⟨[0, 1], [.n32, .n64], (mdOnly f 0x3f && decide (mdFld f 2 3 ≤ 4)), anySrc, anySrc, [], [.none, .one], anyPrd, false, (if bit f 5 then tidImm f else zeroImm f)⟩
  | .fence f => some ⟨[0, 1], [.x], (mdOnly f 0x1f && decide (mdFld f 2 3 ≤ 4)), tokSrc, [], [], [.one], anyPrd, false, zeroImm f⟩
  | .copy f => some ⟨[0], [.x], mdOnly f 0x0, [.tok, .s], [], [], [.none, .one], anyPrd, false, zeroImm f⟩
  | .gath f => some ⟨[0], [.x], mdOnly f 0x0, [.tok, .s], [], [], [.none, .one], anyPrd, false, zeroImm f⟩
  | .scat f => some ⟨[0], [.x], mdOnly f 0x0, [.tok, .s], [], [], [.none, .one, .two], anyPrd, false, zeroImm f⟩
  | .scata f => some ⟨[0], [.x], mdOnly f 0x0, [.tok, .s], [], [], [.none, .one, .two], anyPrd, false, zeroImm f⟩
  | .coll f => some ⟨[0], [.x], mdOnly f 0x0, [.tok, .s], [], [], [.none, .one, .two], anyPrd, false, zeroImm f⟩
  | .waitj f => some ⟨[0], [.x], mdOnly f 0x0, tokSrc, [], [], [.one], anyPrd, false, zeroImm f⟩
  | .jstat f => some ⟨[0], [.x], mdOnly f 0x0, tokSrc, anySrc, [], [.one], anyPrd, false, zeroImm f⟩
  | .win f => some ⟨[0], [.x], mdOnly f 0x0, [.tok, .s], [], [], [.none, .one], anyPrd, false, none⟩
  | .winadv f => some ⟨[0], [.x], mdOnly f 0x0, tokSrc, [], [], [.none, .one], anyPrd, false, immBelow f 8⟩
  | .rpush f => some ⟨[0, 1], [.x], mdOnly f 0x0, tokSrc, [], [], [.none, .one], anyPrd, false, immBelow f 8⟩
  | .rpop f => some ⟨[0, 1], [.x], (mdOnly f 0x1 && !bit f 0), tokSrc, [], [], [.one], anyPrd, false, immBelow f 8⟩
  | .rpopDisc f => some ⟨[0, 1], [.x], (mdOnly f 0x1 && bit f 0), tokSrc, [], [], [.none, .one], anyPrd, false, immBelow f 8⟩
  | .rstat f => some ⟨[0, 1], [.x], (mdOnly f 0x1 && !bit f 0), tokSrc, [], [], [.one], anyPrd, false, immBelow f 8⟩
  | .rstatSet f => some ⟨[0, 1], [.x], (mdOnly f 0x1 && bit f 0), [.tok, .s], [], [], [.none, .one], anyPrd, false, immBelow f 8⟩
  | .postc f => some ⟨[0, 1], [.x], mdOnly f 0x0, [.tok, .s], [], [], [.none, .one], anyPrd, false, zeroImm f⟩
  | .grow f => some ⟨[0, 1], [.x], mdOnly f 0x0, anySrc, [], [], [.none, .one], anyPrd, false, zeroImm f⟩
  | .enq f => some ⟨[0, 1], [.x], mdOnly f 0x1, anySrc, tokSrc, [], [.none, .one], anyPrd, false, zeroImm f⟩
  | .deq f => some ⟨[0, 1], [.x], mdOnly f 0x1, tokSrc, anySrc, [], (if bit f 0 then [.two] else [.one]), anyPrd, false, zeroImm f⟩
  | .qstat f => some ⟨[0, 1], [.x], mdOnly f 0x0, tokSrc, anySrc, [], [.one], anyPrd, false, zeroImm f⟩
  | .fork f => some ⟨[0], [.x], mdOnly f 0x0, [], [], [], [.none, .one, .two], [.always], false, zeroImm f⟩
  | .rdv f => some ⟨[0, 1, 2], [.x], mdOnly f 0x0, tokSrc, [], [], [.none, .one, .two], [.always], false, zeroImm f⟩
  | .bar f => some ⟨[0, 1, 2], [.x], (mdOnly f 0x1c && decide (mdFld f 2 3 ≤ 4)), tokSrc, [.k0, .k1, .s], [], [.one], [.always], false, immBelow f 256⟩
  | .sig f => some ⟨[0, 1, 2], [.x], (mdOnly f 0x1c && decide (mdFld f 2 3 ≤ 4)), tokSrc, [.k0, .k1, .s], [], [.none, .one], anyPrd, false, immBelow f 256⟩
  | .snap f => some ⟨[0, 1, 2], [.x], mdOnly f 0x0, tokSrc, anySrc, [], [.one, .two], anyPrd, false, zeroImm f⟩
  | .plane f => some ⟨[0], [.x], mdOnly f 0x1, tokSrc, [], [], [.one], anyPrd, false, zeroImm f⟩
  | .await f => some ⟨[0, 1, 2], [.x], mdOnly f 0x1, tokSrc, anySrc, [], [.none, .one], [.always], false, zeroImm f⟩
  | .ndone f => some ⟨[0, 1, 2], [.x], mdOnly f 0x0, tokSrc, [], [], [.none, .one], anyPrd, false, zeroImm f⟩
  | .nfail f => some ⟨[0, 1, 2], [.x], mdOnly f 0x0, tokSrc, anySrc, [], [.none], anyPrd, false, zeroImm f⟩
  | .bwph f => some ⟨[0], [.x], mdOnly f 0x0, anySrc, [], [], [.none, .one], anyPrd, false, immBelow f 16⟩
  | .bankpWake f => some ⟨[0], [.x], mdOnly f 0x0, anySrc, [], [], [.none, .one], anyPrd, false, bankpImm f 0⟩
  | .bankpDiscard f => some ⟨[0], [.x], mdOnly f 0x0, anySrc, [], [], [.none, .one], anyPrd, false, bankpImm f 1⟩
  | .bankpRelease f => some ⟨[0], [.x], mdOnly f 0x0, anySrc, [], [], [.none, .one], anyPrd, false, bankpImm f 2⟩
  | .bankpStatus f => some ⟨[0], [.x], mdOnly f 0x0, anySrc, [], [], [.one], anyPrd, false, bankpImm f 3⟩
  | .trap f => some ⟨[0, 1, 2], [.x], mdOnly f 0x0, tokSrc, [], [], [.none], anyPrd, false, none⟩
  | .brk f => some ⟨[0, 1, 2], [.x], mdOnly f 0x0, tokSrc, [], [], [.none, .one], anyPrd, false, none⟩
  | .asrt f => some ⟨[0, 1, 2], [.x], mdOnly f 0x0, anySrc, [], [], [.none, .one], [.always], false, none⟩
  | .halt f => some ⟨[0, 1, 2], [.x], mdOnly f 0x0, tokSrc, [], [], [.none], anyPrd, false, none⟩
  | .rdid f => some ⟨[0, 1, 2], [.x], mdOnly f 0x1, (if bit f 0 then tokSrc else []), [], [], [.one], anyPrd, false, zeroImm f⟩
  | .rdctr f => some ⟨[0, 1, 2], [.x], mdOnly f 0x1, (if bit f 0 then tokSrc else []), [], [], [.one], anyPrd, false, ctridImm f⟩
  | .trigr f => some ⟨[0, 1, 2], [.x], mdOnly f 0x0, [.tok, .s], [], [], [.none, .one], anyPrd, false, immBelow f 16⟩
  | .alignedControlForward _ | .poisonPropagate _ | .switchConsume _ | .snapAlign _ | .tokenArrival _ _ _
  | .demandArrival _ _ _ | .reductionJoin _ _ _ | .reachTokenEntry _ _ _ _ | .meshPacketArrival _ | .px8UnpackBlock _ _ _
  | .readoutWord _ _ | .sortChunkWord _ _ | .bankAccess _ _ | .feLoadRelease _ | .feWatchdog _
  | .translate _ | .walk _ | .hbmRequestServe _ _ | .replyDelivery _ | .landbDeliver _
  | .jobAccept _ | .jobStart _ _ | .jobComplete _ _ | .collStart _ _ | .ringDeliveryLand _
  | .windowFeed _ _ | .enqArrival _ | .contDequeue _ _ | .barrierArrival _ | .barRelease _
  | .awaitResume _ | .snapCapture _ _ | .snapCaptureWritten _ _ | .snapTimeout _ _ | .segmentComplete _
  | .switchDelivery _ | .castling _ | .checkPass _ _ _ | .copyPassPattern _ _ | .patternArrived _
  | .dispatch _ | .trackArm _ _ _ | .edgeToken _ | .nodeRetry _ _ _ | .stopRecordsWrite _
  | .policyApply _ | .mgmtAnswer _ _ _ _ | .quiescenceSample _ | .qbndExpiry _ | .freezeScanDone _ _
  | .haltTimeout _ | .removalComplete _ | .moveDrained | .moveDrainTimeout | .moveCopyDone
  | .bankDrowse _ _ | .bankSbcLimit _ | .bankWakeDone _ _ | .bankGrantScrubDone _ _ | .bankDrained _
  | .bankDrainTimeout _ | .patrolScrub _ _ | .tileUncorrectable _ _ | .sharedUncorrectable _ _ | .lstlDeltaSend _
  | .arbiterCommandRead _ _ | .psubTake | .psubForeignWrite _ | .completionWrite _ | .noticeMerge _ _
  | .rtailDoorbell _ _ _ | .registerWrite _ _ _ | .glaunch _ | .gcancel _ | .resumeCone _
  | .nodedone _ | .continueNode _ | .pfresolve _ | .pfdecline _ | .tlbinv _
  | .harvest _ | .evictq _ | .qcreate _ | .qdestroy _ | .qswap _
  | .qload _ | .jstatus _ | .bind _ | .rebind _ | .move _
  | .preempt _ | .resume _ | .remove _ | .allow _ | .fotset _
  | .frameDrainedScrub _ _ | .pfreset _ | .pfFlr _ | .portLinkDown _ | .portLinkUp _
  | .lockInterface _ | .startInterface _ | .stopInterface _ | .getDeviceInterfaceReport _ | .keySet _ _
  | .keyClear _ | .spdmMessage _ _ | .ideKm _ _ | .pldmFirmwareUpdate _ _ | .moduleReset
  | .dieJoin _ _ | .throttleEnter _ | .mctrRefresh _ _ _ | .rangeRequestIssue _ | .hostMemoryRequest _ _
  | .throttleExit _ => none

/-- Whether an operand source is allowed: one of the list, and 0b00 where the operand is not taken (R46). -/
def srcOk (l : List Src) (x : Src) : Bool := if l.isEmpty then x == .tok else l.contains x

/-- A target is legal by itself, R48. -/
def targetOk : Target → Bool
  | .elem _ _ => true
  | .port p _ z => decide (p.toNat < 7) && z == 0

/-- The zero target of an output that is not used, R47. -/
def zeroTarget : Target := .elem 0 .a

/-- ROUTE needs a port target T0 with room for its outputs (R235). -/
def routeOk (i : Instr) (f : Fields) : Bool :=
  match i, f.t0 with
  | .route _, .port _ ch _ => decide (ch.toNat + f.imm.toNat + 1 ≤ 8)
  | .route _, _ => false
  | _, _ => true

/-- The first flaw of a word on an engine, in the order of R56: OPC, TYP, MOD, SRC, PRD with OUT, IMM16, T1 and T0. -/
def wordFlaw (eng : Nat) (i : Instr) : Option Flaw :=
  match form i, instrFields i with
  | some g, some f =>
    if !g.engs.contains eng then some .opcEngine
    else if !g.tys.contains f.typ then some .typ
    else if !g.mdOk then some .mod
    else if !(srcOk g.a f.a && srcOk g.b f.b && srcOk g.c f.c) then some .src
    else if !(g.outs.contains f.out && g.prds.contains f.prd) || (f.prd != .always && f.out == .steer) then some .prdOut
    else if rdvOut eng i f then some .prdOut
    else match g.imm with
    | some x => some x
    | none =>
      if (f.out == .none || f.out == .one) && f.t1 != zeroTarget then some .reservedBits
      else if f.out == .none && f.t0 != zeroTarget then some .reservedBits
      else if !(targetOk f.t1 && targetOk f.t0 && routeOk i f) then some .target
      else none
  | _, _ => some .opcEngine
where
  /-- RDV emits on engine 0 only, Table 14.6. -/
  rdvOut (eng : Nat) (i : Instr) (f : Fields) : Bool :=
    match i with
    | .rdv _ => if eng = 0 then f.out == .none else f.out != .none
    | _ => false

/-- A word that an engine's block may hold. -/
def wellFormedOn (eng : Nat) (i : Instr) : Bool := (wordFlaw eng i).isNone

/-- A well-formed element instruction: some engine may hold it. -/
def wellFormed (i : Instr) : Bool := wellFormedOn 0 i || wellFormedOn 1 i || wellFormedOn 2 i

/-- The operands that an element takes from tokens, in the order A, B, C, P (R46, R47). -/
def tokenOperands (i : Instr) : List Opnd :=
  match form i, instrFields i with
  | some g, some f =>
    (if !g.a.isEmpty && f.a == .tok then [.a] else []) ++ (if !g.b.isEmpty && f.b == .tok then [.b] else []) ++
    (if !g.c.isEmpty && f.c == .tok then [.c] else []) ++
    (if g.hasP || f.prd != .always || f.out == .steer then [.p] else [])
  | _, _ => []

/-- The features that an instruction needs, Table 2.7, as a mask. -/
def featureOf (i : Instr) : Nat :=
  let rs := match instrFields i with
    | some f => if usesRnd i && decide (mdFld f 3 3 = 4) then 64 else 0
    | none => 0
  let own := match i with
    | .mma f | .mmaRing f => if f.typ = .mx then (match mdFld f 0 3 with | 1 => 1 | 4 => 4 | _ => 2) else 0
    | .pkpx _ => 16
    | .xsort _ | .xmerge _ => 32
    | .cvtsr _ => 64
    | .resolve f => if mdFld f 2 3 = 4 then 64 else 0
    | .fexp2 _ | .flog2 _ | .frcp _ | .frsq _ | .fsqrt _ => 128
    | .coll _ => 256
    | .aredl _ | .rroot _ => 512
    | .gath _ | .scat _ | .scata _ => 2048
    | .ldt f => if bit f 0 then 2048 else 0
    | _ => 0
  rs ||| own
where
  /-- Instructions with RND in MOD[5:3]. -/
  usesRnd (i : Instr) : Bool :=
    match i with
    | .fadd _ | .fsub _ | .fmul _ | .ffma _ | .fmin _ | .fmax _ | .fabs _ | .fneg _ | .fscale _ | .fexp2 _ | .flog2 _ | .frcp _
    | .frsq _ | .fsqrt _ | .cvt _ | .cvtsr _ | .pkpx _ | .mxq _ | .mxdq _ | .lred _ | .dot _ | .rroot _ => true
    | _ => false

end WellFormed

end Sys2Proof
end

