-- ==== Sys2Proof/Decode.lean ====
section
/-! DEFINITION. The 64-bit element word: decoding and encoding (R45 to R48, R54, Tables 2.8 to 2.12). -/

namespace Sys2Proof

/-- Why a word is no instruction: its opcode is reserved (Table 2.12). -/
inductive DecodeError where
  | opcReserved
  deriving DecidableEq, Repr

/-- Source codes, R46. -/
def srcOfCode (c : BitVec 2) : Src := if c = 0 then .tok else if c = 1 then .k0 else if c = 2 then .k1 else .s
/-- Source codes, R46. -/
def srcCode : Src → BitVec 2 | .tok => 0 | .k0 => 1 | .k1 => 2 | .s => 3
/-- Predicate codes, Table 2.9. -/
def prdOfCode (c : BitVec 2) : Prd := if c = 0 then .always else if c = 1 then .onOne else if c = 2 then .onZero else .rsv
/-- Predicate codes, Table 2.9. -/
def prdCode : Prd → BitVec 2 | .always => 0 | .onOne => 1 | .onZero => 2 | .rsv => 3
/-- Output codes, Table 2.9. -/
def outOfCode (c : BitVec 2) : OutMode := if c = 0 then .none else if c = 1 then .one else if c = 2 then .two else .steer
/-- Output codes, Table 2.9. -/
def outCode : OutMode → BitVec 2 | .none => 0 | .one => 1 | .two => 2 | .steer => 3
/-- Operand codes, R48. -/
def opndOfCode (c : BitVec 2) : Opnd := if c = 0 then .a else if c = 1 then .b else if c = 2 then .c else .p
/-- Operand codes, R48. -/
def opndCode : Opnd → BitVec 2 | .a => 0 | .b => 1 | .c => 2 | .p => 3
/-- Type codes, Table 2.10. -/
def tyOf (c : BitVec 4) : Ty := WellFormed.tyAt c.toNat
/-- Type codes, Table 2.10. -/
def tyCode : Ty → BitVec 4
  | .x => 0 | .i8 => 1 | .i16 => 2 | .i32 => 3 | .i64 => 4 | .n8 => 5 | .n16 => 6 | .n32 => 7 | .n64 => 8
  | .fp32 => 9 | .bf16 => 10 | .fp16 => 11 | .e4m3 => 12 | .e5m2 => 13 | .mx => 14 | .rsv => 15

/-- A target field, R48: kind in bit 9. -/
def targetOfCode (c : BitVec 10) : Target :=
  if c.getLsbD 9 then .port (c.extractLsb' 6 3) (c.extractLsb' 3 3) (c.extractLsb' 0 3)
  else .elem (c.extractLsb' 2 7) (opndOfCode (c.extractLsb' 0 2))
/-- A target field, R48. -/
def targetCode : Target → BitVec 10
  | .elem slot op => (0#1 ++ slot ++ opndCode op : BitVec 10)
  | .port p ch z => (1#1 ++ p ++ ch ++ z : BitVec 10)

/-- The fields of a word beside its opcode, Table 2.8. -/
def fieldsOfWord (w : BitVec 64) : Fields where
  typ := tyOf (w.extractLsb' 52 4)
  md := w.extractLsb' 46 6
  a := srcOfCode (w.extractLsb' 44 2)
  b := srcOfCode (w.extractLsb' 42 2)
  c := srcOfCode (w.extractLsb' 40 2)
  prd := prdOfCode (w.extractLsb' 38 2)
  out := outOfCode (w.extractLsb' 36 2)
  imm := w.extractLsb' 20 16
  t1 := targetOfCode (w.extractLsb' 10 10)
  t0 := targetOfCode (w.extractLsb' 0 10)

/-- The word of an opcode and fields, Table 2.8. -/
def wordOfFields (opc : BitVec 8) (f : Fields) : BitVec 64 :=
  (opc ++ tyCode f.typ ++ f.md ++ srcCode f.a ++ srcCode f.b ++ srcCode f.c ++ prdCode f.prd ++ outCode f.out ++ f.imm ++
    targetCode f.t1 ++ targetCode f.t0 : BitVec 64)

/-- The instruction of an opcode, Table 2.12. Where two instructions share an opcode, FORM, RG, DISC, SET or OP chooses (R54, R176, R256,
R254, R339). -/
def instrOf (opc : Nat) (f : Fields) : Option Instr :=
  match opc with
  | 0x01 => some (.mov f)
  | 0x02 => some (.fan f)
  | 0x03 => some (.steer f)
  | 0x04 => some (if f.md.getLsbD 5 then .mergep f else .merge f)
  | 0x05 => some (.gate f)
  | 0x06 => some (.drop f)
  | 0x07 => some (if f.md.getLsbD 5 then .invar f else .carry f)
  | 0x08 => some (if f.md.getLsbD 5 then .rpt f else .count f)
  | 0x09 => some (if f.md.getLsbD 5 then .testc f else .emitc f)
  | 0x0a => some (if f.md.getLsbD 5 then .strip f else .mark f)
  | 0x0b => some (.bub f)
  | 0x0c => some (if f.md.getLsbD 5 then .reord f else .seqt f)
  | 0x0d => some (if f.md.getLsbD 5 then .union f else .intx f)
  | 0x0e => some (.route f)
  | 0x10 => some (.add f)
  | 0x11 => some (.sub f)
  | 0x12 => some (.mul f)
  | 0x13 => some (.mulh f)
  | 0x14 => some (.mad f)
  | 0x15 => some (.min f)
  | 0x16 => some (.max f)
  | 0x17 => some (.abs f)
  | 0x18 => some (.neg f)
  | 0x19 => some (.clamp f)
  | 0x20 => some (.and f)
  | 0x21 => some (.or f)
  | 0x22 => some (.xor f)
  | 0x23 => some (.andn f)
  | 0x24 => some (.not f)
  | 0x25 => some (.shl f)
  | 0x26 => some (.shr f)
  | 0x27 => some (.sar f)
  | 0x28 => some (.rot f)
  | 0x29 => some (.clz f)
  | 0x2a => some (.popc f)
  | 0x2b => some (.brev f)
  | 0x2c => some (.ext f)
  | 0x2d => some (.ins f)
  | 0x30 => some (.cmp f)
  | 0x31 => some (.sel f)
  | 0x32 => some (.addr f)
  | 0x33 => some (.wid f)
  | 0x34 => some (.lxy f)
  | 0x35 => some (.hash f)
  | 0x40 => some (.fadd f)
  | 0x41 => some (.fsub f)
  | 0x42 => some (.fmul f)
  | 0x43 => some (.ffma f)
  | 0x44 => some (.fmin f)
  | 0x45 => some (.fmax f)
  | 0x46 => some (.fabs f)
  | 0x47 => some (.fneg f)
  | 0x48 => some (.fcmp f)
  | 0x49 => some (.fscale f)
  | 0x4a => some (.fclass f)
  | 0x50 => some (.fexp2 f)
  | 0x51 => some (.flog2 f)
  | 0x52 => some (.frcp f)
  | 0x53 => some (.frsq f)
  | 0x54 => some (.fsqrt f)
  | 0x60 => some (.cvt f)
  | 0x61 => some (.cvtsr f)
  | 0x62 => some (.pkpx f)
  | 0x63 => some (.mxq f)
  | 0x64 => some (.mxdq f)
  | 0x65 => some (.amaxv f)
  | 0x70 => some (.lred f)
  | 0x71 => some (.lscan f)
  | 0x72 => some (.lshuf f)
  | 0x73 => some (.lbcast f)
  | 0x74 => some (.lrot f)
  | 0x75 => some (.dot f)
  | 0x80 => some (.aclr f)
  | 0x81 => some (if f.md.getLsbD 4 then .mmaRing f else .mma f)
  | 0x82 => some (.aaddv f)
  | 0x83 => some (.aresc f)
  | 0x84 => some (.resolve f)
  | 0x85 => some (.acmp f)
  | 0x86 => some (.acmpq f)
  | 0x87 => some (.aimg f)
  | 0x88 => some (.aldi f)
  | 0x89 => some (.astat f)
  | 0x8a => some (.aredl f)
  | 0x8b => some (.rroot f)
  | 0x90 => some (.xsort f)
  | 0x91 => some (.xmerge f)
  | 0xa0 => some (.ldt f)
  | 0xa1 => some (.stt f)
  | 0xa2 => some (.lds f)
  | 0xa3 => some (.sts f)
  | 0xa4 => some (.ldsi f)
  | 0xa5 => some (.stsi f)
  | 0xa6 => some (.feset f)
  | 0xa7 => some (.feclr f)
  | 0xa8 => some (.prefw f)
  | 0xb0 => some (.aadd f)
  | 0xb1 => some (.afadd f)
  | 0xb2 => some (.amin f)
  | 0xb3 => some (.amax f)
  | 0xb4 => some (.aand f)
  | 0xb5 => some (.aor f)
  | 0xb6 => some (.axor f)
  | 0xb7 => some (.axch f)
  | 0xb8 => some (.acas f)
  | 0xb9 => some (.aincb f)
  | 0xba => some (.fence f)
  | 0xc0 => some (.copy f)
  | 0xc1 => some (.gath f)
  | 0xc2 => some (.scat f)
  | 0xc3 => some (.scata f)
  | 0xc4 => some (.coll f)
  | 0xc5 => some (.waitj f)
  | 0xc6 => some (.jstat f)
  | 0xc7 => some (.win f)
  | 0xc8 => some (.winadv f)
  | 0xd0 => some (.rpush f)
  | 0xd1 => some (if f.md.getLsbD 0 then .rpopDisc f else .rpop f)
  | 0xd2 => some (if f.md.getLsbD 0 then .rstatSet f else .rstat f)
  | 0xd3 => some (.postc f)
  | 0xd4 => some (.grow f)
  | 0xd5 => some (.enq f)
  | 0xd6 => some (.deq f)
  | 0xd7 => some (.qstat f)
  | 0xe0 => some (.fork f)
  | 0xe1 => some (.rdv f)
  | 0xe2 => some (.bar f)
  | 0xe3 => some (.sig f)
  | 0xe4 => some (.snap f)
  | 0xe5 => some (.plane f)
  | 0xe6 => some (.await f)
  | 0xe7 => some (.ndone f)
  | 0xe8 => some (.nfail f)
  | 0xe9 => some (.bwph f)
  | 0xea => some (bankp f)
  | 0xf0 => some (.trap f)
  | 0xf1 => some (.brk f)
  | 0xf2 => some (.asrt f)
  | 0xf3 => some (.halt f)
  | 0xf4 => some (.rdid f)
  | 0xf5 => some (.rdctr f)
  | 0xf6 => some (.trigr f)
  | _ => none
where
  /-- BANKP by its OP (R339). -/
  bankp (f : Fields) : Instr :=
    let op : BitVec 2 := f.imm.extractLsb' 0 2
    if op = 0 then .bankpWake f else if op = 1 then .bankpDiscard f else if op = 2 then .bankpRelease f else .bankpStatus f

/-- Decodes an element word; a word with a reserved opcode is refused by name (R54, R64). -/
def decode (w : BitVec 64) : Except DecodeError Instr :=
  match instrOf (w.extractLsb' 56 8).toNat (fieldsOfWord w) with
  | some i => .ok i
  | none => .error .opcReserved

/-- The word of an element instruction; an event has none. -/
def encode (i : Instr) : Option (BitVec 64) :=
  match opcOf i, instrFields i with
  | some opc, some f => some (wordOfFields (BitVec.ofNat 8 opc) f)
  | _, _ => none
where
  opcOf (i : Instr) : Option Nat := WellFormed.opcOf i
  instrFields (i : Instr) : Option Fields := WellFormed.instrFields i

/-- The instruction that the decoder reads from a word whose bits are `w`, little-endian in memory (R4). Words are 64 bits; the bits above
`nbits` are zero. -/
def decodeTableWord (nbits w : Nat) : Option Instr :=
  match decode (BitVec.ofNat 64 (w % 2 ^ nbits)) with
  | .ok i => some i
  | .error _ => none

end Sys2Proof
end

