-- ==== Sys2Proof/Config.lean ====
section
/-! DEFINITION. The free values: constants without a body, so that no proof can see which value they take (log 2). A free value is
applied to the counter `fresh` of State. The figures that the spec fixes for every part stand here too. -/

namespace Sys2Proof.Config

/-- A free value (log 2). Each use states what the spec leaves open there. -/
opaque freeNat : Nat → Nat

/-- A free word of width `w`. -/
def freeBits (w k : Nat) : BitVec w := BitVec.ofNat w (freeNat k)

/-- Which of the steps that are due comes first in a new cycle (log 1). -/
opaque pick : Nat → Nat

/-- The measurement block of an index of Table 22.4 with its signature (R494), of the firmware image that an update has put in place, empty
before the first: made by keys that the spec does not give (log 9). -/
opaque measurement : Nat → List Byte → List Byte

/-- FMASK as a die is fused (R1, Table 2.7), bits 11 to 0: each part has its own (log 5). -/
opaque fusedMask : Nat → BitVec 12

/-- The input channel to which a reach port's channel leads (R377), as 64 * tile + 8 * port + channel: the spec names no place (log 7). -/
opaque reachAt : Nat → Nat → Nat

/-- Which indirect-stream engine of a base die takes a stream of requests (R345, R353): the spec names neither their number nor the rule (log 7). -/
opaque engineOf : Nat → Nat

/-- Where in the save area the device puts a PFREC (R357), as an offset from SAVEB: the spec names no place (log 7). -/
opaque pfrecAt : Nat → Nat

/-- The journal has 2^(16 + this) entries (R273): each part has its own size (log 102). -/
opaque journalLog : Fin 9

/-- The physical address of the journal's region (R273): no register or table gives it (log 102). -/
opaque journalBase : Nat

/-- How many of eight cycles throttling gates on a die (R499): the spec names no figure (log 2). -/
opaque gatedEighths : Nat → Nat

/-- Reach ports and channels of each, Table 1.1 and R377. -/
def reachPorts : Nat := 16
def reachChans : Nat := 8

/-- The grid, R9. -/
def gridW : Nat := 256
/-- The grid, R9. -/
def gridH : Nat := 64

/-- Seam rows and columns split the grid into eight dies, R10. -/
def dieOf (t : Nat) : Nat := 4 * ((t / 256) / 32) + (t % 256) / 64

end Sys2Proof.Config
end

