-- ==== Sys2Proof/Machine/State.lean ====
section
/-! DEFINITION. The state of the module: every register, queue, table and counter that the spec's inventory tables name, the things in
flight between them, and the model's own fields (agenda, cur, fresh, cycle; logs 1, 2 and 6). Plain data throughout. -/

namespace Sys2Proof.Machine

open Sys2Proof

/-- A token, R206: payload and sideband. -/
structure Token where
  pay : Word
  sb : BitVec 2
  deriving DecidableEq, Repr, Inhabited

/-- Plane status PST, Table 5.2. -/
inductive Pst where
  | empty | loading | complete | active
  deriving DecidableEq, Repr, Inhabited

/-- Stall causes, Table 16.2; the code of a cause is its place in this list. -/
inductive Stall where
  | noInput | noDemand | ringEmpty | ringFull | feWait | landing | wake | anchor
  | translate | hbm | seam | castling | jobEdge | fence | quiesce | other
  deriving DecidableEq, Repr, Inhabited

/-- AWST, Table 14.1: [65] V, [64] KIND, [63:0] handle or remaining cycles. -/
structure Awst where
  v : Bool := false
  kind : Bool := false
  val : BitVec 64 := 0
  deriving DecidableEq, Repr, Inhabited

/-- RQP, Table 11.1: the open range of an LDT or STT element. The spec gives its width only; the fields are the model's (log 7). -/
structure Rqp where
  act : Bool := false
  start : Nat := 0
  count : Nat := 0
  rowlen : Nat := 0
  stride : Nat := 0
  row : Nat := 0
  col : Nat := 0
  did : Nat := 0
  rows : List Nat := []
  ix : Bool := false
  scale : Bool := false
  esb : BitVec 2 := 0
  asb : BitVec 2 := 0
  bad : Bool := false
  deriving DecidableEq, Repr, Inhabited

/-- The merge path of an XMERGE element (R199): pairs of each run taken and not merged, merged pairs waiting for a word, whether each run
has ended and with 11, and whether the run has emitted. The spec gives the path no layout (log 7). -/
structure Xmerge where
  bufA : List Nat := []
  bufB : List Nat := []
  pend : List Nat := []
  da : Bool := false
  db : Bool := false
  xa : Bool := false
  xb : Bool := false
  deriving DecidableEq, Repr, Inhabited

/-- How far a BAR or SIG firing in progress has come (R408): `closed` when its phase has closed and the release is on its way. -/
inductive BarSt where
  | none | travelling | waiting | closed | released
  deriving DecidableEq, Repr, Inhabited

/-- The registers of one element, Tables 5.1, 8.1, 11.1 and 14.1, with its word. `due`: an entry slot that FORK has yet to see fire (R109).
`sw`: the element is switched (R228). `wait`: the cause it waits on (R441). `dk` is DCNT of its kind-0 targets T0, T1, T2.
`rslots` and `rrate` are SLOTS and RATE of the reply link it requests over (R223). `snaps`: SNAPIDs of open snapshots that it has passed (R410).
`late`: an entry for each token that entered an operand's queue in this cycle, which nothing acts on before the next (R8). -/
structure Elem where
  word : BitVec 64 := 0
  k0 : BitVec 64 := 0
  k1 : BitVec 64 := 0
  s : Word := 0
  sInit : Word := 0
  nf : BitVec 32 := 0
  lfsr : BitVec 32 := 0
  fflg : BitVec 5 := 0
  qa : List Token := []
  qb : List Token := []
  qc : List Token := []
  qp : List Token := []
  dk0 : Nat := 2
  dk1 : Nat := 2
  dk2 : Nat := 2
  rbkt : BitVec 16 := 0
  rslots : Nat := 0
  rrate : Nat := 0
  rqp : Rqp := {}
  outs : BitVec 5 := 0
  awst : Awst := {}
  due : Bool := false
  sw : Bool := false
  wait : Option Stall := none
  bar : BarSt := .none
  snaps : List (BitVec 32) := []
  xm : Xmerge := {}
  late : List Opnd := []
  deriving DecidableEq, Repr, Inhabited

/-- A block of a plane: its header fields and elements (R43). `issued`: it issued a firing in the current cycle (R441). `raise`: cycles that
anchor raises still cost (R166, R167, R183). -/
structure Block where
  feat : BitVec 32 := 0
  ents : List Nat := []
  elems : List Elem := []
  issued : Bool := false
  raise : Nat := 0
  deriving DecidableEq, Repr, Inhabited

/-- An accumulator cell, Table 7.1. -/
structure Cell where
  sw : BitVec 48 := 0
  cw : BitVec 48 := 0
  anc : BitVec 10 := 0
  aset : Bool := false
  stk : Bool := false
  ovf : Bool := false
  inv : Bool := false
  nans : Bool := false
  infp : Bool := false
  infn : Bool := false
  deriving DecidableEq, Repr, Inhabited

/-- RDO, R163: KIND 0 idle, 1 RESOLVE, 2 AIMG, 3 AREDL, 4 sort chunk. -/
structure Rdo where
  kind : Nat := 0
  slot : Nat := 0
  pos : Nat := 0
  deriving DecidableEq, Repr, Inhabited

/-- The sort workspace of a set, R196: keys taken into the chunk in order, the index of the next key of each slot's run (R197), and the words of
a closed chunk that are still to leave. Its raw cell layout is not given (log 7). -/
structure SortChunk where
  keys : List (Nat × Nat) := []
  runs : Tab Nat := []
  words : List (Nat × Token) := []
  deriving DecidableEq, Repr, Inhabited

/-- An accumulator set: 1,024 cells keyed by 32*row + column, SCNT and RDO. -/
structure AccSet where
  cells : Tab Cell := []
  scnt : BitVec 6 := 0
  rdo : Rdo := {}
  sort : SortChunk := {}
  deriving DecidableEq, Repr, Inhabited

/-- A ring descriptor, Table 9.2. `resv`: entries reserved by engine deliveries behind TAIL (R258), true once landed. -/
structure Ring where
  v : Bool := false
  dual : Bool := false
  efmt : BitVec 4 := 0
  esz : BitVec 6 := 0
  nent : BitVec 12 := 0
  base : BitVec 20 := 0
  head : BitVec 12 := 0
  tail : BitVec 12 := 0
  cnt : BitVec 13 := 0
  wpos : BitVec 6 := 0
  rpos : BitVec 6 := 0
  resv : List (Nat × Bool) := []
  deriving DecidableEq, Repr, Inhabited

/-- A window register, R303. -/
structure Win where
  v : Bool := false
  nofeed : Bool := false
  tid : BitVec 12 := 0
  low : BitVec 40 := 0
  feed : BitVec 40 := 0
  stop : BitVec 40 := 0
  deriving DecidableEq, Repr, Inhabited

/-- The unpack stage of one channel in carrier mode (R98, R99): pending bits, and unpacked words not yet taken. -/
structure Px8 where
  carrier : Bool := false
  e5m2 : Bool := false
  bits : Nat := 0
  nbits : Nat := 0
  bad : Bool := false
  sbs : List (Nat × BitVec 2) := []
  out : List Token := []
  deriving DecidableEq, Repr, Inhabited

/-- A configuration plane, R15: blocks, routes, link buffers, sets, rings, windows, and its registers of Tables 5.2, 8.1, 13.1, 14.1. `graph` and
`node` name the node it was loaded for, `rid` the region; `whole`: its pattern has been sent whole (R59). `inSeg`: between FORK and completion of a
segment (R469). `eots`: segments whose EOT the plane's RDV has yet to emit (R407). `gated`: output channels on which a move stops emission (R368).
`late`: the input channel, or 64 more for its unpack stage, of each token that entered there in this cycle (R8). -/
structure Plane where
  pst : Pst := .empty
  cext : BitVec 14 := 0
  rorg : BitVec 14 := 0
  segg : BitVec 32 := 0
  rdsp : BitVec 16 := 0
  mepoch : BitVec 4 := 0
  rdva : BitVec 3 := 0
  route : Tab (BitVec 16) := []
  salloc : Tab (BitVec 6) := []
  reduce : List Nat := []
  lbuf : Tab (List Token) := []
  px8 : Tab Px8 := []
  dcnt : Tab Nat := []
  blk0 : Option Block := none
  blk1 : Option Block := none
  blk2 : Option Block := none
  acc0 : AccSet := {}
  acc1 : AccSet := {}
  rings : Tab Ring := []
  wins : Tab Win := []
  banks : BitVec 16 := 0
  graph : Nat := 0
  node : Nat := 0
  rid : Nat := 0
  whole : Bool := false
  inSeg : Bool := false
  eots : List (BitVec 32) := []
  poisoned : Bool := false
  gated : List Nat := []
  late : List Nat := []
  deriving DecidableEq, Repr, Inhabited

/-- Bank power states, Table 11.10, with the code of each as its place in the list. -/
inductive Bpm where
  | off | retain | active | discard
  deriving DecidableEq, Repr, Inhabited

/-- A landing buffer entry, R105: payload and sideband, target (plane, engine, slot, operand or S), request tag. -/
structure Land where
  tok : Token
  plane : Bool
  eng : Nat
  slot : Nat
  opnd : Option Opnd
  tag : BitVec 32
  deriving DecidableEq, Repr, Inhabited

/-- FWD entry, R374. `rid`: the region that moved (R375). -/
structure Fwd where
  lease : Nat
  epoch : BitVec 4
  disp : BitVec 16
  rebound : Bool
  rid : Nat := 0
  deriving DecidableEq, Repr, Inhabited

/-- PTAB entry, R372. Input port 7 stands for the configuration at the producer's tile, output port 7 at the consumer's (log 7). `src`: region,
graph and node of the producer, `dst`: region of the consumer that the path was bound for. -/
structure Ptab where
  ip : Nat
  ic : Nat
  op : Nat
  oc : Nat
  src : Nat × Nat × Nat
  dst : Nat
  deriving DecidableEq, Repr, Inhabited

/-- A bank operation that holds new accesses while the banks of `mask` drain (R341): DISCARD or RELEASE asked by an element. Requests with
keys from `before` on are the new ones. -/
structure Drain where
  who : Site
  plane : Bool
  release : Bool
  mask : BitVec 16
  sb : BitVec 2
  before : Nat
  cycles : Nat := 0
  deriving DecidableEq, Repr, Inhabited

/-- One tile. Per-bank tables are keyed by the bank, ACTC by engine, STC by 16*engine + cause. `touched`: banks accessed in this cycle. `wakes`:
cycles left of a wake or scrub. `delta`: STC increments not yet sent to LSTL (R442). `hold`: a move holds new requests at issue (R368). `halted`: the
halt line has stopped it. `spill`: replies that found neither a slot nor a landing entry (R223). `frozen`: R357. `moving`: copy or rebind (R440),
`rebound`: that is over, but the slab is still closed (R368). `idle`: no engine issued in the last cycle that throttling did not gate. -/
structure Tile where
  planeB : Bool := false
  pa : Plane := {}
  pb : Plane := {}
  tlease : BitVec 7 := 0
  tten : BitVec 6 := 0
  tlxy : BitVec 14 := 0
  lorg : BitVec 14 := 0
  lext : BitVec 14 := 0
  bankg : BitVec 16 := 0
  landb : List Land := []
  spill : List Land := []
  swf : BitVec 64 := 0
  bpm : Tab Bpm := []
  bidle : Tab (BitVec 20) := []
  touched : BitVec 16 := 0
  wakes : Tab Nat := []
  scrub : BitVec 16 := 0
  drain : Option Drain := none
  actc : Tab (BitVec 48) := []
  stc : Tab (BitVec 48) := []
  delta : Tab Nat := []
  fwd : List Fwd := []
  ptab : List Ptab := []
  qbusy : Bool := false
  halted : Bool := false
  frozen : Bool := false
  moving : Bool := false
  rebound : Bool := false
  hold : Bool := false
  capture : Option Nat := none
  idle : Bool := false
  deriving DecidableEq, Repr, Inhabited

/-- The landed replies that a tile holds: in LANDB, and behind it in its switch (R105, R223). -/
def Tile.lands (x : Tile) : List Land := x.landb ++ x.spill

/-- Keeps some of them. -/
def Tile.keepLands (x : Tile) (g : Land → Bool) : Tile := { x with landb := x.landb.filter g, spill := x.spill.filter g }

/-- LSTATE, Table 13.3. -/
inductive Lstate where
  | free | active | moving | gating | preempted | removing
  deriving DecidableEq, Repr, Inhabited

/-- Node STATE, Table 14.3. -/
inductive NodeState where
  | waiting | ready | armed | running | done | faulted | cancelled | retry
  deriving DecidableEq, Repr, Inhabited

/-- A node record, Table 14.3: S fields as read at GLAUNCH or RESUME_CONE, Q fields, and the sequencer's own notes. `nfail`: the detail of the first
NFAIL (R413); `closed`: NDONE or NFAIL has closed it; `polDone`: its fault policy has been applied; `rorder`: its place in the order in which nodes
became READY; `gset`: the values of g that a continuation node's records have run (R26); `nalloc`: regions allotted to it; `sent`: its STREAM edges
have delivered (R389). -/
structure Node where
  kind : BitVec 8 := 0
  policy : BitVec 8 := 0
  rbudg : Nat := 0
  nreg : Nat := 0
  squant : Nat := 0
  cfgp : BitVec 64 := 0
  launch : BitVec 128 := 0
  efirst : Nat := 0
  nout : Nat := 0
  pend0 : Nat := 0
  kparam : BitVec 192 := 0
  state : NodeState := .waiting
  pend : Nat := 0
  ctok : BitVec 32 := 0
  skip : BitVec 16 := 0
  rtry : BitVec 8 := 0
  fcause : BitVec 32 := 0
  gcur : BitVec 32 := 0
  giss : BitVec 32 := 0
  gset : List Nat := []
  gcomp : BitVec 32 := 0
  closed : Bool := false
  nfail : Option (BitVec 16) := none
  viaTrack : Bool := false
  polDone : Bool := false
  checked : Bool := false
  nalloc : Nat := 0
  rorder : Nat := 0
  sent : Bool := false
  deriving DecidableEq, Repr, Inhabited

/-- A graph as its sequencer holds it, Table 14.2. GSTATE 0 IDLE, 1 RUNNING, 2 COMPLETE, 3 PARTIAL, 4 ABORTED. -/
structure Graph where
  nodesVa : BitVec 64 := 0
  nnode : Nat := 0
  nedge : Nat := 0
  edgesVa : BitVec 64 := 0
  gstate : Nat := 0
  cdone : Nat := 0
  ccanc : Nat := 0
  cfault : Nat := 0
  nodes : List Node := []
  edges : List (BitVec 64) := []
  deriving DecidableEq, Repr, Inhabited

/-- A region, R366 and R394, with its configuration's image as the check pass read it. `next`: the region that the node armed onto its shadow planes
has, and `pred` the other way round. `seg`: the g in progress. `left`: tiles that have not completed it. `kth`: its place among the regions allotted
to the node (R385). `turn`: segments run in this turn. `stopped`: source-gated (R402). `held`: a move drains it (R368). `nextPat`: the next pattern of
the copy pass (R59), none once it has ended. `binds`: its boundary links bound as consumer: its link, the producer's, the producer's region.
`ended`: the cycle in which its last segment completed, until the dispatcher goes on with it (R473).
`scanned`: its freeze-scan is over, and `entry` the directory entry that holds it (R430). `behind`: while only its first part has moved, the
configuration-relative tiles of the other part, with the places where they stand (R368). -/
structure Region where
  rid : Nat
  graph : Nat
  node : Nat
  next : Option Nat := none
  pred : Option Nat := none
  ox : Nat
  oy : Nat
  w : Nat
  h : Nat
  seg : Option Nat := none
  ended : Option Nat := none
  left : List Nat := []
  poisoned : Bool := false
  turn : Nat := 0
  kth : Nat := 0
  turnOver : Bool := false
  stopped : Bool := false
  frozen : Bool := false
  held : Bool := false
  va : Nat := 0
  img : List Byte := []
  hashes : List (BitVec 256) := []
  nextPat : Option Nat := none
  scanned : Bool := false
  entry : Option Nat := none
  binds : List (Nat × Nat × Nat) := []
  behind : List ((Nat × Nat) × Nat × Nat) := []
  deriving DecidableEq, Repr, Inhabited

/-- A checked image waiting for its region's origin (R59, R390). -/
structure Checked where
  graph : Nat
  node : Nat
  img : List Byte
  hashes : List (BitVec 256)
  deriving DecidableEq, Repr, Inhabited

/-- A message queue, R265. `ring`: VA of the memory-backed ring while swapped. -/
structure MsgQueue where
  v : Bool := false
  gen : BitVec 16 := 1
  home : Nat := 0
  cap : Nat := 0
  base : BitVec 20 := 0
  head : Nat := 0
  count : Nat := 0
  ring : Option (BitVec 64) := none
  deriving DecidableEq, Repr, Inhabited

/-- A message on its way to its queue's home tile, R266; `retry`: it has found the queue full. `ans`: it is decided, and its answer waits for those of
earlier messages of its element. -/
structure EnqMsg where
  who : Site
  plane : Bool
  handle : BitVec 64
  msg : Word
  nb : Bool
  retry : Bool := false
  ans : Option Token := none
  deriving DecidableEq, Repr, Inhabited

/-- An open barrier, R408 (BARS). -/
structure Bar where
  phase : Bool := false
  n : BitVec 16 := 0
  arr : BitVec 16 := 0
  deriving DecidableEq, Repr, Inhabited

/-- An arrival on its way to the barrier unit, R408. -/
structure BarMsg where
  who : Site
  plane : Bool
  bid : Nat
  n : BitVec 16
  sig : Bool
  opw : BitVec 64 := 0
  deriving DecidableEq, Repr, Inhabited

/-- An open snapshot, R409 (SNPS), with the region it covers, the tiles whose capture is still to be written and the cycles since it opened. `got`:
the sections of the tiles that have captured (R410). -/
structure Snap where
  id : BitVec 32
  rid : Nat
  left : List Nat
  cycles : Nat := 0
  got : List (Nat × List Byte) := []
  deriving DecidableEq, Repr, Inhabited

/-- A threshold register, R439. -/
structure Thr where
  v : Bool := false
  dir : Bool := false
  ctrid : BitVec 16 := 0
  thresh : BitVec 64 := 0
  st : Bool := false
  deriving DecidableEq, Repr, Inhabited

/-- A TID table entry as read, Table 12.3: format, base, AUX, ACC of its binding (R38), extents and byte strides from dimension 1. -/
structure Tid where
  fmt : Nat := 0
  base : Nat := 0
  aux : Nat := 0
  acc : BitVec 2 := 0
  exts : List Nat := []
  strs : List Nat := []
  deriving DecidableEq, Repr, Inhabited

/-- Kind of a job. -/
inductive JobKind where
  | copy | gath | scat | scata | coll
  deriving DecidableEq, Repr, Inhabited

/-- A member of a collective that has started, as each member holds it (R329): its card, source, place and plane. -/
structure Mate where
  card : Word
  src : Option Tid
  who : Option Site
  plane : Bool
  deriving DecidableEq, Repr, Inhabited

/-- A job of JOBT, R296. `edges`: serials of the earlier jobs it waits for. `left`: its accesses in flight; `next`: the next row or index
to issue; `buf`: partial sums of ISUM; `idx`: indices read; `ents`: ring entries reserved; `sb`: sideband of its card.
`errAt`: of its first error the place (element or scratch address), TID and virtual address, with `errPa` the physical address that a channel
refused. `refused`: the 512-byte blocks whose refusal is counted (log 19). `since`: the first request after it started (R341). `mates`: the members
of its collective. `landed`: bytes that have landed in each of its ring entries (R258). `owed`: the consumer of its completion token, once its
element's tile has castled (R326). -/
structure Job where
  serial : BitVec 24
  kind : JobKind
  card : Word
  who : Option Site
  plane : Bool
  graph : Nat
  node : Nat
  desc : BitVec 64 := 0
  epoch : BitVec 4 := 0
  out10 : Bool := false
  sb : BitVec 2 := 0
  src : Option Tid := none
  dst : Option Tid := none
  itid : Option Tid := none
  rfoot : List (Bool × Nat × Nat) := []
  wfoot : List (Bool × Nat × Nat) := []
  edges : List Nat := []
  running : Bool := false
  left : Nat := 0
  next : Nat := 0
  buf : Tab (Nat × Nat) := []
  idx : Tab Nat := []
  ents : List Nat := []
  err : Option (BitVec 16) := none
  errAt : Nat × Nat × Nat := (0, 0, 0)
  errPa : Nat := 0
  refused : List Nat := []
  since : Nat := 0
  mates : List Mate := []
  landed : Tab Nat := []
  owed : Option (Nat × Nat × Nat × Opnd) := none
  deriving DecidableEq, Repr, Inhabited

/-- A job card on its way to the footprint checker, R324; a COPY node's card has no site. -/
structure CardMsg where
  kind : JobKind
  card : Word
  who : Option Site
  plane : Bool
  graph : Nat
  node : Nat
  deriving DecidableEq, Repr, Inhabited

/-- A stop record to be written, R423: KIND, cause with detail, graph, node, tile, engine, slot, plane status, flags, stall, payload. -/
structure StopRec where
  kind : Nat
  cause : BitVec 32
  graph : Nat
  node : Nat
  tile : Nat
  eng : Nat
  slot : Nat
  plst : BitVec 8 := 0
  fflg : BitVec 5 := 0
  stall : BitVec 4 := 0
  payload : BitVec 256 := 0
  deriving DecidableEq, Repr, Inhabited

/-- An open page fault, R357. `loader`: the loader met it (R61); `declined`: answered with PFDECLINE. -/
structure Pfrec where
  tag : BitVec 64
  va : BitVec 64
  tid : Nat
  write : Bool
  element : Nat
  rid : Nat
  resolved : Bool := false
  loader : Bool := false
  declined : Bool := false
  deriving DecidableEq, Repr, Inhabited

/-- A bind record, Table 13.2. -/
structure BindRec where
  tenid : BitVec 6 := 0
  lorg : BitVec 14 := 0
  lext : BitVec 14 := 0
  prio : BitVec 4 := 0
  racem : Bool := false
  fpen : BitVec 5 := 0
  agel : BitVec 16 := 0
  homeb : BitVec 16 := 0
  hbmsh : BitVec 8 := 0
  meshsh : BitVec 8 := 0
  snpto : BitVec 32 := 0
  bwph : BitVec 32 := 0
  bgdef : BitVec 16 := 0
  bgtab : BitVec 64 := 0
  ptbr : BitVec 64 := 0
  stbase : BitVec 64 := 0
  saveb : BitVec 64 := 0
  grtab : BitVec 64 := 0
  tidb : BitVec 64 := 0
  qbnd : BitVec 32 := 0
  fneed : BitVec 32 := 0
  deriving DecidableEq, Repr, Inhabited

/-- A command that waits for requests (R354, R360): the first request after it began, its result, and the range of the pages that it concerns. -/
structure Mark where
  key : Nat
  res : Nat
  lo : Nat
  hi : Nat
  deriving DecidableEq, Repr, Inhabited

/-- What a pre-emption saved (R427, R431), as values; its bytes in the save area are not laid out in full by the spec (log 7). -/
structure Saved where
  tiles : List (Nat × Tile) := []
  frozen : Bool := false
  inPlace : Bool := false
  deriving DecidableEq, Repr, Inhabited

/-- A lease: its slot-table entry (R361) and what its sequencer, footprint checker, barrier unit and counters hold. The management context (R398) is
held in the same form under key 255. `rseq`: nodes that have become READY; `woken`: the dispatcher has something new to look at. `stopWritten`: the
records of the stop are written, `stopFirst` and `stopCause` as the summary has them; `haltReq`: a HALT was met; `scan`: a freeze-scan of the whole
lease is under way. `brk`: BRK elements with their tokens, and `broken`: a BREAK waits for CONTINUE (R414, R422). `imgs`: the region of each
snapshot image in the save directory (R430). `marks`: the commands that wait for requests, by sequence number. -/
structure Lease where
  v : Bool := false
  rcd : BindRec := {}
  lstate : Lstate := .free
  scrubbing : Bool := false
  hline : Bool := false
  brk : List (Site × Bool × Token) := []
  broken : Bool := false
  sseq : BitVec 32 := 0
  stopid : BitVec 8 := 0
  stopOpen : Bool := false
  stopCycles : Nat := 0
  stopWritten : Bool := false
  stopFirst : BitVec 32 := 0
  stopCause : BitVec 32 := 0
  haltReq : Bool := false
  scan : Bool := false
  recs : List StopRec := []
  faults : List (Nat × Nat) := []
  lost : Nat := 0
  grants : Tab (BitVec 16) := []
  lstl : Tab (BitVec 64) := []
  lcyc : Tab (BitVec 64) := []
  evc : Tab (BitVec 64) := []
  ifa : Tab (BitVec 64) := []
  thr : Tab Thr := []
  txc : Tab (BitVec 32) := []
  graphs : Tab Graph := []
  actg : List Nat := []
  rdyq : List (Nat × Nat) := []
  rseq : Nat := 0
  woken : Bool := false
  etoks : List (Nat × Nat × Bool) := []
  bars : Tab Bar := []
  barMsgs : List BarMsg := []
  snps : Tab Snap := []
  deadSnaps : List (BitVec 32) := []
  imgs : Tab Nat := []
  jobt : Tab Job := []
  qdue : List (Nat × Nat) := []
  jser : BitVec 24 := 0
  cards : List CardMsg := []
  colls : List (Nat × List Nat) := []
  queues : Tab MsgQueue := []
  enqs : List EnqMsg := []
  tids : Tab Tid := []
  regions : List Region := []
  nextRid : Nat := 1
  checked : List Checked := []
  conts : Tab Word := []
  pfrecs : List Pfrec := []
  ftag : BitVec 64 := 1
  qroot : BitVec 16 := 0
  qdie : BitVec 16 := 0
  qport : List Nat := []
  marks : Tab Mark := []
  bankWait : Nat := 0
  quiet : Nat := 0
  gateCycles : Nat := 0
  saved : Option Saved := none
  mgmtReqs : List (Nat × Nat) := []
  rmReqs : Nat := 0
  rmCause : BitVec 16 := 0
  rmCmds : List Cmd := []
  pending : List Cmd := []
  deriving DecidableEq, Repr, Inhabited

/-- A TLB entry, R345: tagged with lease and tenant. -/
structure TlbE where
  lease : Nat
  ten : Nat
  level : Nat
  vpn : Nat
  pa : Nat
  w : Bool
  okind : BitVec 2
  d : Bool
  deriving DecidableEq, Repr, Inhabited

/-- Where a piece of an access lies. -/
inductive Space where
  | scr | va | pa
  deriving DecidableEq, Repr, Inhabited

/-- One granule's part of an access (R278): place, address, length in bytes, byte position in the access's word, ordering kind, element, and
the virtual address that a physical place was translated from, with the level of its page. -/
structure Piece where
  sp : Space
  addr : Nat
  len : Nat
  pos : Nat
  okind : BitVec 2 := 0
  element : Nat := 0
  va : Nat := 0
  lvl : Nat := 0
  deriving DecidableEq, Repr, Inhabited

/-- What a request does at its home. `mx` of a read counts the 6-bit elements to spread over 8-bit lanes in the reply (R91, R92). `px8` fetches block
`j` of the tensor of `n` blocks at `base` through its directory (R97). `ctr` reads a counter at its home (R451). -/
inductive ReqOp where
  | read (f c : Bool) (mx : Nat)
  | write (data : Word)
  | feb (set : Bool)
  | atomic (opc : Nat) (n : Nat) (sgn : Bool) (b c : Nat) (ord : BitVec 2) (scope : BitVec 3)
  | note (tok : Token)
  | ctr (n : Nat)
  | px8 (e5m2 : Bool) (base j n : Nat) (write : Bool)
  | wake
  deriving DecidableEq, Repr, Inhabited

/-- Where a reply goes: to the requester's own targets, to the consumer of a K0 descriptor (lease index T, engine, slot, operand; R50,
R373), to a ring entry (R258), to access `m` of a job, or nowhere. -/
inductive Dest where
  | targets (outs : List Nat) (sb : BitVec 2)
  | desc (T eng slot : Nat) (op : Opnd)
  | ring (r entry word : Nat)
  | job (j m : Nat)
  | none
  deriving DecidableEq, Repr, Inhabited

/-- How far a request has come. -/
inductive Phase where
  | mesh | issued | faulted | home | done
  deriving DecidableEq, Repr, Inhabited

/-- A request of an element or engine, in flight until its reply is delivered. `rest`: pieces not performed yet. `got`: the bytes read. `stamp`: when
its .F load first waited at the bank (R280), `begun`: it takes its granules one by one as they are full (R308, R309). `raw`: bytes of a PX8 group,
from its directory entry on. `opw`: the operand word that its firing read. `errPa`: the physical address that a channel refused. `lost`: of a job's
request the byte positions that failed (R331). `job`: the job that it belongs to. `ring`: a ring operation makes it (R253). `asc`: its TID maps two
elements to one byte (R351). `marks`: scopes of the fences and ordered atomics that have gone on ahead of it (R291). `held`: it has waited for a host
port's link (R490). -/
structure Req where
  lease : Nat
  ten : Nat
  who : Site
  plane : Bool
  epoch : BitVec 4 := 0
  op : ReqOp
  rest : List Piece := []
  all : List Piece := []
  got : Word := 0
  dest : Dest
  sb : BitVec 2 := 0
  phase : Phase
  err : Option (BitVec 16) := none
  tid : Nat := 0
  counted : Bool := true
  fewait : BitVec 24 := 0
  waitFe : Bool := false
  begun : Bool := false
  stamp : Nat := 0
  raw : Nat := 0
  opw : BitVec 64 := 0
  errPa : Nat := 0
  lost : Nat := 0
  job : Option Nat := none
  ring : Bool := false
  asc : Bool := false
  marks : List Nat := []
  held : Bool := false
  deriving DecidableEq, Repr

/-- A token on a link, about to arrive at tile, input port, channel; `stamp` is the sending tile's TLEASE, none for an unstamped token. -/
structure Wire where
  tile : Nat
  port : Nat
  ch : Nat
  tok : Token
  stamp : Option Nat
  deriving DecidableEq, Repr, Inhabited

/-- A demand on its way back, about to reach a tile's output port and channel. Its plane tag (R215) names the load of the consumer's plane:
lease, region, graph and node. -/
structure Demand where
  tile : Nat
  port : Nat
  ch : Nat
  lease : Nat
  rid : Nat
  graph : Nat
  node : Nat
  deriving DecidableEq, Repr, Inhabited

/-- A journal entry, Table 9.7. -/
structure JEntry where
  seq : Nat
  ten : Nat
  kind : Nat
  state : Nat
  lease : Nat
  digest : BitVec 128
  tacc : BitVec 64
  tfin : BitVec 64
  deriving DecidableEq, Repr, Inhabited

/-- A 16-byte completion-queue entry without its phase bit (R485). `after`: notices that came before it and wait. -/
structure CEntry where
  tag : BitVec 64
  res : BitVec 48
  status : Nat
  outc : Bool
  ring : Nat
  after : Nat := 0
  deriving DecidableEq, Repr, Inhabited

/-- TDISP state of a tenant PF, R491, R492. -/
inductive Tdi where
  | unlocked | locked | run | error
  deriving DecidableEq, Repr, Inhabited

/-- A physical function: registers of Table 22.1, queues, allow-list (R488), TDISP and IDE state. `nbefore`: buffered notices
from before the last merge (R486). `msix`: the three vectors of the MSI-X table, two halves of 64 bits each, `pba` those pending, `msgs` the messages
sent in this cycle (R483). `aerUn`, `aerCor`: error status of the AER capability, which no device fault sets (R489). `lastRing`: served last (R488). `flr`:
leases that a reset is still removing, and whether the registers reset then (R491, R492), with the PFRESETs that end with it. -/
structure Pf where
  rbase : Tab (BitVec 64) := []
  rctl : Tab (BitVec 32) := []
  rtail : Tab (BitVec 32) := []
  rhead : Tab (BitVec 32) := []
  qbase : BitVec 64 := 0
  qctl : BitVec 32 := 0
  qhead : BitVec 32 := 0
  qtail : BitVec 32 := 0
  cwait : List CEntry := []
  nbuf : List Notice := []
  nmerged : Tab Nat := []
  nbefore : Nat := 0
  msix : Tab (BitVec 64) := []
  pba : BitVec 3 := 0
  msgs : List Nat := []
  aerUn : BitVec 32 := 0
  aerCor : BitVec 32 := 0
  lastRing : Nat := 7
  flr : Option (Bool × List Nat) := none
  flrCmds : List Cmd := []
  cfg : Tab (BitVec 32) := []
  mask : BitVec 64 := 0
  maxLen : BitVec 64 := 0
  maxQueues : BitVec 16 := 0
  maxCap : BitVec 32 := 0
  tdreq : Bool := false
  tdi : Tdi := .unlocked
  keyed : Bool := false
  doe : List Byte := []
  deriving DecidableEq, Repr, Inhabited

/-- A frame-owner change in progress, R356. -/
structure FotChange where
  stack : Nat
  frame : Nat
  owner : BitVec 6
  cmd : Cmd
  deriving DecidableEq, Repr, Inhabited

/-- An entry of the compaction plan being run, R369, R370: its place in the plan, lease, WHOLE, RORGN, CUTID, NORG. -/
structure PlanE where
  idx : Nat
  lease : Nat
  whole : Bool
  rorg : Nat
  cut : Nat
  norg : Nat
  bad : Bool
  deriving DecidableEq, Repr, Inhabited

/-- The move in progress: the command, the entries still to run, the entry being moved, the region that it moves, which part of a divided region
is moving (1 the second, the first having moved), whether the copy has started and the first request after that, cycles of the step, entries
DONE. -/
structure MoveRun where
  cmd : Cmd
  plan : Nat
  rest : List PlanE
  cur : Option PlanE := none
  rid : Nat := 0
  second : Bool := false
  copying : Bool := false
  since : Nat := 0
  cycles : Nat := 0
  done : Nat := 0
  deriving DecidableEq, Repr, Inhabited

/-- One step of the agenda: an element's turn, an event, or a clock cycle (log 1). -/
inductive Turn where
  | elem (x : Site)
  | event (i : Instr)
  | clock
  deriving DecidableEq, Repr

/-- The module. `dieErrs`: corrected errors of each compute die (R437). `cmdWait`: commands that PSUB gave up and that wait to take effect. `failed`:
dies that have failed to join. `badMem`: granules with an uncorrectable error, HBM granules by PA/16, those of scratch above 2^60. `peerOut` and
`peerDemands`: tokens and demands that left over a reach port in this cycle. `jpend`: journal entries that wait for a slot (R274), `jdirty`: those, by
SEQ, whose bytes are still to be written to HBM. `reachq`: words that wait at the join of a reach-port unit, by 8 * port + channel (R194). `lastPf`:
the PF served last (R488). `linkHeld`: the step has met an access of the device to host memory behind a link that is down, so that it is taken back
and tried again; `heldWrites`: writes of the device to lease memory that wait for the link, by lease and address (R490). -/
structure State where
  agenda : List Turn
  cur : Site
  fresh : Nat
  cycle : Nat
  tick : BitVec 64
  stage : BitVec 32
  failed : BitVec 8
  mem : List Host.Cell
  scratch : List Host.Cell
  feb : List Nat
  badMem : List Nat
  tiles : Tab Tile
  leases : Tab Lease
  wires : List Wire
  demands : List Demand
  reqs : Tab Req
  nextReq : Nat
  shards : Tab (List Word)
  mtlb : Tab (List TlbE)
  lltlb : Tab (List TlbE)
  fot : Tab (BitVec 6)
  fotChanges : List FotChange
  kslot : Tab Word
  ownbm : Tab (BitVec 33)
  bmpar : Tab Bool
  rpb : Tab (BitVec 8)
  peerOut : List Wire
  peerDemands : List Demand
  reachq : Tab (List Token)
  pfs : Tab Pf
  lastPf : Nat
  psub : BitVec 512
  psubCmd : Option Cmd
  cmdWait : List Cmd
  journal : List JEntry
  jpend : List JEntry
  jdirty : List Nat
  jlog2 : Nat
  jhead : BitVec 64
  pf0log : Nat
  dieErrs : Tab (BitVec 64)
  mirror : List (BitVec 64 × BitVec 64)
  staged : List (Nat × List Byte)
  firmware : Tab (List Byte)
  linkUp0 : Bool
  linkUp1 : Bool
  linkHeld : Bool
  heldWrites : List (Nat × Nat × List Byte)
  ide : List Nat
  fmask : Tab (BitVec 12)
  mctr : Tab (BitVec 64)
  throttled : List Nat
  powerLimit : Nat
  tempLimit : Tab Nat
  move : Option MoveRun
  deriving DecidableEq, Repr

/-- Why a step stops. Both are raised in states that no run from reset reaches. -/
inductive Fault where
  /-- Raised by step and by a firing: the site that the agenda names holds no element of an active plane. Safe: the machine stops where
  the hardware has nothing to run. -/
  | noElement (x : Site)
  deriving DecidableEq, Repr

/-- Why an instruction has no meaning. -/
inductive Refusal where
  /-- Raised by an arm of exec that has no meaning yet. Safe. -/
  | notModelled (mnemonic : String)
  /-- Raised by step: the word in the plane is no instruction. R64: such a word never reaches a plane. Safe. -/
  | notAnInstruction (w : BitVec 64)
  deriving DecidableEq, Repr

/-- The module right after module reset. Log 4 names the values that the spec does not give. -/
def State.reset : State where
  agenda := []
  cur := ⟨0, 0, 0⟩
  fresh := 0
  cycle := 0
  tick := 0
  stage := 0
  failed := 0
  mem := []
  scratch := []
  feb := []
  badMem := []
  tiles := []
  leases := []
  wires := []
  demands := []
  reqs := []
  nextReq := 0
  shards := []
  mtlb := []
  lltlb := []
  fot := []
  fotChanges := []
  kslot := []
  ownbm := []
  bmpar := []
  rpb := []
  peerOut := []
  peerDemands := []
  reachq := []
  pfs := []
  lastPf := 32
  psub := 0
  psubCmd := none
  cmdWait := []
  journal := []
  jpend := []
  jdirty := []
  jlog2 := 16 + Config.journalLog.val
  jhead := 0
  pf0log := 0
  dieErrs := []
  mirror := []
  staged := []
  firmware := []
  linkUp0 := true
  linkUp1 := true
  linkHeld := false
  heldWrites := []
  ide := []
  fmask := []
  mctr := []
  throttled := []
  powerLimit := 15000
  tempLimit := []
  move := none

end Sys2Proof.Machine
end

