-- ==== Sys2Proof/Machine/Bits.lean ====
section
/-! DEFINITION. Lanes, bit fields, two's complement and byte order (R4, R81, R106). -/

namespace Sys2Proof.Machine

open Sys2Proof

/-- Bits `len` long from bit `lo` of a number. -/
def fld (v lo len : Nat) : Nat := v / 2 ^ lo % 2 ^ len

/-- Lane `j` of a word of `n`-bit lanes, R106. -/
def lane (n : Nat) (w : Word) (j : Nat) : Nat := w.toNat / 2 ^ (n * j) % 2 ^ n

/-- Packs lanes, lane 0 lowest. -/
def packLanes (n : Nat) : List Nat → Nat
  | [] => 0
  | v :: r => v % 2 ^ n + 2 ^ n * packLanes n r

/-- A word from its lanes; lanes not given are zero. -/
def ofLanes (n : Nat) (l : List Nat) : Word := BitVec.ofNat 512 (packLanes n l)

/-- The lanes of a word. -/
def lanesOf (n : Nat) (w : Word) : List Nat := (List.range (512 / n)).map (lane n w)

/-- Lane-wise function of one word. -/
def map1 (n : Nat) (g : Nat → Nat) (a : Word) : Word := ofLanes n ((List.range (512 / n)).map fun j => g (lane n a j))

/-- Lane-wise function of two words. -/
def map2 (n : Nat) (g : Nat → Nat → Nat) (a b : Word) : Word :=
  ofLanes n ((List.range (512 / n)).map fun j => g (lane n a j) (lane n b j))

/-- Lane-wise function of three words. -/
def map3 (n : Nat) (g : Nat → Nat → Nat → Nat) (a b c : Word) : Word :=
  ofLanes n ((List.range (512 / n)).map fun j => g (lane n a j) (lane n b j) (lane n c j))

/-- A word with one value in its low bits and zeros above. -/
def low (v : Nat) : Word := BitVec.ofNat 512 v

/-- An `n`-bit pattern as signed, R81. -/
def sx (n v : Nat) : Int := if v < 2 ^ (n - 1) then (v : Int) else (v : Int) - 2 ^ n

/-- An integer as an `n`-bit pattern, R81. -/
def wrap (n : Nat) (x : Int) : Nat := (x % (2 ^ n : Int)).toNat

/-- A lane read under the signedness of its type. -/
def rd (sg : Bool) (n v : Nat) : Int := if sg then sx n v else (v : Int)

/-- Clamp to the range of a lane type, R111. -/
def clampTo (sg : Bool) (n : Nat) (x : Int) : Int :=
  let lo : Int := if sg then -(2 ^ (n - 1) : Int) else 0
  let hi : Int := if sg then (2 ^ (n - 1) : Int) - 1 else (2 ^ n : Int) - 1
  if x < lo then lo else if x > hi then hi else x

/-- Narrowing of an exact result, R111: clamped under SAT, low bits otherwise. -/
def narrow (sat sg : Bool) (n : Nat) (x : Int) : Nat := wrap n (if sat then clampTo sg n x else x)

/-- Lane width in bits, Table 2.10. MX lanes take the width of their element format and are not read through this. -/
def tyBits : Ty → Nat
  | .x => 512 | .i8 => 8 | .i16 => 16 | .i32 => 32 | .i64 => 64 | .n8 => 8 | .n16 => 16 | .n32 => 32 | .n64 => 64
  | .fp32 => 32 | .bf16 => 16 | .fp16 => 16 | .e4m3 => 8 | .e5m2 => 8 | .mx => 8 | .rsv => 512

/-- A type whose lanes are read as signed. -/
def tySigned : Ty → Bool
  | .i8 | .i16 | .i32 | .i64 => true
  | _ => false

/-- The element type of a code of Table 2.10. -/
def tyOfCode (c : Nat) : Ty :=
  match c with
  | 0 => .x | 1 => .i8 | 2 => .i16 | 3 => .i32 | 4 => .i64 | 5 => .n8 | 6 => .n16 | 7 => .n32 | 8 => .n64
  | 9 => .fp32 | 10 => .bf16 | 11 => .fp16 | 12 => .e4m3 | 13 => .e5m2 | 14 => .mx | _ => .rsv

/-- A number from bytes, least significant first (R4). -/
def ofBytes : List Byte → Nat
  | [] => 0
  | b :: r => b.toNat + 256 * ofBytes r

/-- The low `n` bytes of a number, least significant first (R4). -/
def toBytes : Nat → Nat → List Byte
  | 0, _ => []
  | n + 1, v => BitVec.ofNat 8 (v % 256) :: toBytes n (v / 256)

/-- Replaces `len` bits from bit `lo` of a number. -/
def setFld (v lo len x : Nat) : Nat := v - fld v lo len * 2 ^ lo + x % 2 ^ len * 2 ^ lo

/-- Number of set bits below bit `n`. -/
def popCount : Nat → Nat → Nat
  | 0, _ => 0
  | n + 1, v => v % 2 + popCount n (v / 2)

/-- Bits below `n` in reverse order. -/
def bitRev : Nat → Nat → Nat
  | 0, _ => 0
  | n + 1, v => v % 2 * 2 ^ n + bitRev n (v / 2)

/-- The positions below `n` of the set bits of a number, ascending. -/
def bitsOf (n v : Nat) : List Nat := (List.range n).filter fun i => v / 2 ^ i % 2 = 1

/-- The low bits that hold a number: 0 for 0. -/
def bitLen (v : Nat) : Nat := if v = 0 then 0 else Nat.log2 v + 1

/-- Replaces the element at a place of a list. -/
def setAt {α : Type} : List α → Nat → α → List α
  | [], _, _ => []
  | _ :: r, 0, v => v :: r
  | x :: r, n + 1, v => x :: setAt r n v

/-- Changes the element at a place of a list. -/
def modAt {α : Type} : List α → Nat → (α → α) → List α
  | [], _, _ => []
  | x :: r, 0, g => g x :: r
  | x :: r, n + 1, g => x :: modAt r n g

/-- Code of a stall cause, Table 16.2. -/
def stallCode (c : Stall) : Nat :=
  match c with
  | .noInput => 0 | .noDemand => 1 | .ringEmpty => 2 | .ringFull => 3 | .feWait => 4 | .landing => 5 | .wake => 6 | .anchor => 7
  | .translate => 8 | .hbm => 9 | .seam => 10 | .castling => 11 | .jobEdge => 12 | .fence => 13 | .quiesce => 14 | .other => 15

end Sys2Proof.Machine
end

