-- ==== Sys2Proof/Machine/Float.lean ====
section
/-! DEFINITION. The binary floating formats, exact values, and rounding (R82 to R86, R100). -/

namespace Sys2Proof.Machine

open Sys2Proof

/-- How a format spends its top exponent: as IEEE 754 does, as E4M3 does (one NaN mantissa, no infinity), or on numbers only (R82, R89). -/
inductive Top where
  | ieee | e4m3 | plain
  deriving DecidableEq, Repr

/-- A sign, exponent and mantissa format, Tables 4.2 and 4.4. -/
structure Fmt where
  eb : Nat
  mb : Nat
  bias : Int
  top : Top
  deriving DecidableEq, Repr

def fFp32 : Fmt := ⟨8, 23, 127, .ieee⟩
def fBf16 : Fmt := ⟨8, 7, 127, .ieee⟩
def fFp16 : Fmt := ⟨5, 10, 15, .ieee⟩
def fE4m3 : Fmt := ⟨4, 3, 7, .e4m3⟩
def fE5m2 : Fmt := ⟨5, 2, 15, .ieee⟩
def fE2m1 : Fmt := ⟨2, 1, 1, .plain⟩
def fE3m2 : Fmt := ⟨3, 2, 3, .plain⟩
def fE2m3 : Fmt := ⟨2, 3, 1, .plain⟩

/-- The format of a floating type; other types do not reach this. -/
def fmtOf : Ty → Fmt
  | .bf16 => fBf16 | .fp16 => fFp16 | .e4m3 => fE4m3 | .e5m2 => fE5m2 | _ => fFp32

/-- A floating type. -/
def isFloat : Ty → Bool
  | .fp32 | .bf16 | .fp16 | .e4m3 | .e5m2 => true
  | _ => false

/-- A decoded value: NaN, an infinity, or a finite magnitude m * 2^e with its sign. -/
inductive Fp where
  | nan
  | inf (neg : Bool)
  | fin (neg : Bool) (m : Nat) (e : Int)
  deriving DecidableEq, Repr

/-- Width of a format. -/
def fWidth (f : Fmt) : Nat := 1 + f.eb + f.mb

/-- The value of a bit pattern, R82. -/
def unpack (f : Fmt) (v : Nat) : Fp :=
  let neg := v / 2 ^ (f.eb + f.mb) % 2 = 1
  let e := v / 2 ^ f.mb % 2 ^ f.eb
  let m := v % 2 ^ f.mb
  let num : Fp := if e = 0 then .fin neg m (1 - f.bias - f.mb) else .fin neg (m + 2 ^ f.mb) (e - f.bias - f.mb)
  if e = 2 ^ f.eb - 1 then
    match f.top with
    | .ieee => if m = 0 then .inf neg else .nan
    | .e4m3 => if m = 2 ^ f.mb - 1 then .nan else num
    | .plain => num
  else num

/-- The canonical NaN of a format, R84. A format without NaN gives +0 (Table 4.8). -/
def nanBits (f : Fmt) : Nat :=
  match f.top with
  | .ieee => (2 ^ f.eb - 1) * 2 ^ f.mb + 2 ^ (f.mb - 1)
  | .e4m3 => 2 ^ (f.eb + f.mb) - 1
  | .plain => 0

/-- Sets the sign. -/
def signed (f : Fmt) (neg : Bool) (mag : Nat) : Nat := if neg then mag + 2 ^ (f.eb + f.mb) else mag

/-- The magnitude of an infinity, for a format that has one. -/
def infMag (f : Fmt) : Nat := (2 ^ f.eb - 1) * 2 ^ f.mb

/-- The largest finite magnitude, Tables 4.2 and 4.4. -/
def maxMag (f : Fmt) : Nat :=
  match f.top with
  | .ieee => infMag f - 1
  | .e4m3 => 2 ^ (f.eb + f.mb) - 2
  | .plain => 2 ^ (f.eb + f.mb) - 1

/-- Rounding modes, R85. -/
inductive Rnd where
  | rn | rz | rp | rm | rs
  deriving DecidableEq, Repr

/-- The mode of a RND code, R52; reserved codes do not pass the load check. -/
def rndOf (c : Nat) : Rnd := match c with | 0 => .rn | 1 => .rz | 2 => .rp | 3 => .rm | _ => .rs

/-- A rounded result with the flags it raises, R137. -/
structure Fr where
  bits : Nat
  fl : BitVec 5 := 0
  deriving DecidableEq, Repr

def flNV : BitVec 5 := 0b10000
def flDZ : BitVec 5 := 0b01000
def flOF : BitVec 5 := 0b00100
def flUF : BitVec 5 := 0b00010
def flNX : BitVec 5 := 0b00001

/-- Table 4.3: the result of an overflow. -/
def overflow (f : Fmt) (r : Rnd) (sat neg : Bool) : Fr :=
  let toMax : Bool := sat || (match r with | .rn | .rs => false | .rz => true | .rp => neg | .rm => !neg)
  let v := match f.top with
    | .ieee => if toMax then signed f neg (maxMag f) else signed f neg (infMag f)
    | .e4m3 => if toMax then signed f neg (maxMag f) else nanBits f
    | .plain => signed f neg (maxMag f)
  ⟨v, flOF ||| flNX⟩

/-- An infinite value that meets a format, R86. -/
def infTo (f : Fmt) (r : Rnd) (sat neg : Bool) : Fr :=
  match f.top with
  | .ieee => ⟨signed f neg (infMag f), 0⟩
  | _ => overflow f r sat neg

/-- Whether the discarded part of a magnitude rounds it up. `cmp` compares it with half an ulp, `rest` says that it is not zero, `dk` is its
first 16 bits (R85) and `rk` the random bits. -/
def roundsUp (r : Rnd) (neg odd rest : Bool) (cmp : Ordering) (dk rk : Nat) : Bool :=
  match r with
  | .rn => cmp == .gt || (cmp == .eq && odd)
  | .rz => false
  | .rp => rest && !neg
  | .rm => rest && neg
  | .rs => decide (dk + rk ≥ 2 ^ 16)

/-- Packs a magnitude k * 2^q with k below 2^(mb+2), already rounded. -/
def packMag (f : Fmt) (k : Nat) (q : Int) : Nat :=
  if k < 2 ^ f.mb then k
  else
    let (k, q) := if k ≥ 2 ^ (f.mb + 1) then (k / 2, q + 1) else (k, q)
    (q + f.mb + f.bias).toNat * 2 ^ f.mb + (k - 2 ^ f.mb)

/-- The magnitude m * 2^e, with more nonzero bits below it when `st`, rounded to a multiple of 2^q (R85), with whether it was not one. -/
def roundMag (r : Rnd) (neg : Bool) (m : Nat) (e : Int) (st : Bool) (rk : Nat) (q : Int) : Nat × Bool :=
  let d : Int := q - e
  if d > (bitLen m : Int) + 20 then
    (if roundsUp r neg false (decide (m ≠ 0) || st) .lt 0 rk then 1 else 0, decide (m ≠ 0) || st)
  else if d ≤ 0 then
    let k := m * 2 ^ (-d).toNat
    (if roundsUp r neg (k % 2 = 1) st .lt 0 rk then k + 1 else k, st)
  else
    let sh := d.toNat
    let k := m / 2 ^ sh
    let rem := m % 2 ^ sh
    let rest := decide (rem ≠ 0) || st
    let cmp : Ordering := if 2 * rem > 2 ^ sh then .gt else if 2 * rem = 2 ^ sh then (if st then .gt else .eq) else .lt
    (if roundsUp r neg (k % 2 = 1) rest cmp (rem * 2 ^ 16 / 2 ^ sh) rk then k + 1 else k, rest)

/-- Rounds the magnitude m * 2^e, with more nonzero bits below it when `st`, once to a format (R85, R86). `zneg` is the sign of an exact
zero. Underflow is IEEE 754's after rounding: tiny when the value rounded with an unbounded exponent is below the least normal (log 11). -/
def roundTo (f : Fmt) (r : Rnd) (sat neg zneg : Bool) (m : Nat) (e : Int) (st : Bool) (rk : Nat) : Fr :=
  if m = 0 ∧ st = false then ⟨signed f zneg 0, 0⟩
  else
    let E : Int := (bitLen m : Int) - 1 + e
    let emin : Int := 1 - f.bias
    let q : Int := max E emin - f.mb
    let (k, rest) := roundMag r neg m e st rk q
    let mag := packMag f k q
    if (bitLen k : Int) + q > 2000 ∨ mag > maxMag f then overflow f r sat neg
    else
      let tiny := decide (E < emin) && decide ((roundMag r neg m e st rk (E - f.mb)).1 < 2 ^ (emin - (E - f.mb)).toNat)
      ⟨signed f neg mag, if rest then (if tiny then flUF ||| flNX else flNX) else 0⟩

/-- An exact finite value as a signed mantissa and an exponent. -/
structure Dy where
  m : Int
  e : Int
  deriving DecidableEq, Repr

/-- Exact sum. -/
def addDy (a b : Dy) : Dy :=
  let e := min a.e b.e
  ⟨a.m * 2 ^ (a.e - e).toNat + b.m * 2 ^ (b.e - e).toNat, e⟩

/-- Exact product. -/
def mulDy (a b : Dy) : Dy := ⟨a.m * b.m, a.e + b.e⟩

/-- A finite value as a dyadic number. -/
def toDy (neg : Bool) (m : Nat) (e : Int) : Dy := ⟨if neg then -(m : Int) else m, e⟩

/-- Rounds an exact value; an exact zero takes the sign `zneg`. -/
def roundDy (f : Fmt) (r : Rnd) (sat zneg : Bool) (x : Dy) (rk : Nat) : Fr :=
  roundTo f r sat (decide (x.m < 0)) zneg x.m.natAbs x.e false rk

/-- Compares two exact values. -/
def cmpDy (a b : Dy) : Ordering :=
  let e := min a.e b.e
  compare (a.m * 2 ^ (a.e - e).toNat) (b.m * 2 ^ (b.e - e).toNat)

/-- The sign of an exact zero sum of two values with given signs, R83. -/
def zeroSign (r : Rnd) (na nb : Bool) : Bool := if na = nb then na else r == .rm

/-- Addition with one rounding, R141, R142. -/
def fAdd (f : Fmt) (r : Rnd) (sat : Bool) (rk : Nat) (a b : Fp) : Fr :=
  match a, b with
  | .nan, _ => ⟨nanBits f, 0⟩
  | _, .nan => ⟨nanBits f, 0⟩
  | .inf x, .inf y => if x = y then ⟨signed f x (infMag f), 0⟩ else ⟨nanBits f, flNV⟩
  | .inf x, .fin .. => ⟨signed f x (infMag f), 0⟩
  | .fin .., .inf y => ⟨signed f y (infMag f), 0⟩
  | .fin na ma ea, .fin nb mb eb =>
    let z := if ma = 0 ∧ mb = 0 then zeroSign r na nb else r == .rm
    roundDy f r sat z (addDy (toDy na ma ea) (toDy nb mb eb)) rk

/-- Negation of a value. -/
def fpNeg : Fp → Fp
  | .nan => .nan
  | .inf n => .inf (!n)
  | .fin n m e => .fin (!n) m e

/-- Multiplication with one rounding, R141, R142. -/
def fMul (f : Fmt) (r : Rnd) (sat : Bool) (rk : Nat) (a b : Fp) : Fr :=
  match a, b with
  | .nan, _ => ⟨nanBits f, 0⟩
  | _, .nan => ⟨nanBits f, 0⟩
  | .inf x, .inf y => ⟨signed f (x != y) (infMag f), 0⟩
  | .inf x, .fin y m _ => if m = 0 then ⟨nanBits f, flNV⟩ else ⟨signed f (x != y) (infMag f), 0⟩
  | .fin x m _, .inf y => if m = 0 then ⟨nanBits f, flNV⟩ else ⟨signed f (x != y) (infMag f), 0⟩
  | .fin x ma ea, .fin y mb eb => roundTo f r sat (x != y) (x != y) (ma * mb) (ea + eb) false rk

/-- Fused multiply-add with one rounding, R141, R142. -/
def fFma (f : Fmt) (r : Rnd) (sat : Bool) (rk : Nat) (a b c : Fp) : Fr :=
  let bad : Bool := match a, b with
    | .inf _, .fin _ m _ => m = 0
    | .fin _ m _, .inf _ => m = 0
    | _, _ => false
  if bad then ⟨nanBits f, flNV⟩
  else match a, b, c with
    | .nan, _, _ => ⟨nanBits f, 0⟩
    | _, .nan, _ => ⟨nanBits f, 0⟩
    | _, _, .nan => ⟨nanBits f, 0⟩
    | .fin x ma ea, .fin y mb eb, .fin z mc ec =>
      let zs := if ma * mb = 0 ∧ mc = 0 then zeroSign r (x != y) z else r == .rm
      roundDy f r sat zs (addDy (toDy (x != y) (ma * mb) (ea + eb)) (toDy z mc ec)) rk
    | .fin .., .fin .., .inf z => ⟨signed f z (infMag f), 0⟩
    | a, b, c =>
      let sgn : Fp → Bool := fun v => match v with | .inf n => n | .fin n _ _ => n | .nan => false
      let p := sgn a != sgn b
      match c with
      | .inf z => if z = p then ⟨signed f p (infMag f), 0⟩ else ⟨nanBits f, flNV⟩
      | _ => ⟨signed f p (infMag f), 0⟩

/-- Multiplication by 2^b, R141. -/
def fScale (f : Fmt) (r : Rnd) (sat : Bool) (rk : Nat) (a : Fp) (b : Int) : Fr :=
  match a with
  | .nan => ⟨nanBits f, 0⟩
  | .inf n => ⟨signed f n (infMag f), 0⟩
  | .fin n m e => if m = 0 then ⟨signed f n 0, 0⟩ else
      -- beyond the reach of every format the exponent is cut, which changes neither the result nor its flags
      let e' := if e + b > 3000 then 3000 else if e + b < -3000 then -3000 else e + b
      roundTo f r sat n n m e' false rk

/-- Numeric order, -0 equal to +0; none when a NaN takes part (R144). -/
def fpCmp (a b : Fp) : Option Ordering :=
  match a, b with
  | .nan, _ => none
  | _, .nan => none
  | .inf x, .inf y => some (if x = y then .eq else if x then .lt else .gt)
  | .inf x, .fin .. => some (if x then .lt else .gt)
  | .fin .., .inf y => some (if y then .gt else .lt)
  | .fin na ma ea, .fin nb mb eb => some (cmpDy (toDy na ma ea) (toDy nb mb eb))

/-- FMIN and FMAX, R143, on bit patterns: -0 orders below +0, a NaN yields to a number. -/
def fMinMax (f : Fmt) (isMax : Bool) (x y : Nat) : Nat :=
  let a := unpack f x
  let b := unpack f y
  match a, b with
  | .nan, .nan => nanBits f
  | .nan, _ => y
  | _, .nan => x
  | _, _ =>
    let o := (fpCmp a b).getD .eq
    let o := if o == .eq then compare (y / 2 ^ (f.eb + f.mb)) (x / 2 ^ (f.eb + f.mb)) else o
    if isMax then (if o == .lt then y else x) else (if o == .gt then y else x)

/-- Integer square root of a number below 2^(2n), bit by bit. -/
def isqrt (v : Nat) : Nat → Nat → Nat
  | 0, r => r
  | n + 1, r => let t := r + 2 ^ n; isqrt v n (if t * t ≤ v then t else r)

/-- Square root, R146: a magnitude of at least 96 bits of the root with a sticky bit. -/
def sqrtMag (m : Nat) (e : Int) : Nat × Int × Bool :=
  let (m, e) := if e % 2 = 0 then (m, e) else (2 * m, e - 1)
  let s : Nat := 200
  let v := m * 2 ^ s
  let r := isqrt v ((bitLen v + 1) / 2) 0
  (r, (e - (s : Int)) / 2, decide (r * r ≠ v))

/-- Reciprocal square root, R146. -/
def rsqMag (m : Nat) (e : Int) : Nat × Int × Bool :=
  let (m, e) := if e % 2 = 0 then (m, e) else (2 * m, e - 1)
  let k : Nat := 160
  let v := 2 ^ (2 * k) / m
  let r := isqrt v ((bitLen v + 1) / 2) 0
  (r, -(e / 2) - (k : Int), decide (r * r * m ≠ 2 ^ (2 * k)))

/-- Reciprocal, R146. -/
def rcpMag (m : Nat) (e : Int) : Nat × Int × Bool :=
  let k : Nat := 160
  (2 ^ k / m, -e - (k : Int), decide (2 ^ k % m ≠ 0))

/-- The product of 2^(2^-i) over the set bits i of a fraction, at 2^-256, each factor the root of the one before; `bits` from the first
place after the point. -/
def exp2Frac : List Bool → Nat → Nat → Nat
  | [], _, acc => acc
  | b :: r, c, acc =>
    let c' := isqrt (c * 2 ^ 256) 258 0
    exp2Frac r c' (if b then acc * c' / 2 ^ 256 else acc)

/-- 2^a for a finite a, R146: a magnitude with a sticky bit, exact for integers (log 10). -/
def exp2Mag (neg : Bool) (m : Nat) (e : Int) : Nat × Int × Bool :=
  if m = 0 then (1, 0, false)
  else if bitLen m + e > 13 then (1, if neg then -3000 else 3000, true)
  else
    let k := (-e).toNat
    let v : Int := if neg then -((m * 2 ^ e.toNat : Nat) : Int) else ((m * 2 ^ e.toNat : Nat) : Int)
    let ip := v / 2 ^ k
    let fp := (v % 2 ^ k).toNat
    if fp = 0 then (1, ip, false)
    else
      let bits := (List.range k).map fun i => decide (fp / 2 ^ (k - 1 - i) % 2 = 1)
      (exp2Frac bits (2 * 2 ^ 256) (2 ^ 256) / 2 ^ 96, ip - 160, true)

/-- Bits of log2 of y / 2^400 with y in [2^400, 2^401), by repeated squaring. -/
def log2Bits : Nat → Nat → Nat → Nat
  | 0, _, acc => acc
  | n + 1, y, acc =>
    let y := y * y / 2 ^ 400
    if y ≥ 2 ^ 401 then log2Bits n (y / 2) (2 * acc + 1) else log2Bits n y (2 * acc)

/-- log2 of a positive finite value, R146: sign, magnitude, exponent, sticky (log 10). -/
def log2Mag (m : Nat) (e : Int) : Bool × Nat × Int × Bool :=
  let L := bitLen m
  let ip : Int := (L : Int) - 1 + e
  if m = 2 ^ (L - 1) then (decide (ip < 0), ip.natAbs, 0, false)
  else
    let n : Nat := 160
    let fr := log2Bits n (m * 2 ^ (401 - L)) 0
    let v : Int := ip * 2 ^ n + fr
    if v < 0 then (true, v.natAbs - 1, -(n : Int), true) else (false, v.toNat, -(n : Int), true)

/-- The five functions of R146 with the special operands of Table 6.5. -/
inductive Trf where
  | exp2 | log2 | rcp | rsq | sqrt
  deriving DecidableEq, Repr

/-- A transcendental function of one lane. -/
def fTrans (t : Trf) (f : Fmt) (r : Rnd) (sat : Bool) (rk : Nat) (a : Fp) : Fr :=
  let nan : Fr := ⟨nanBits f, 0⟩
  let bad : Fr := ⟨nanBits f, flNV⟩
  let inf (n : Bool) : Nat := signed f n (infMag f)
  let go (n : Bool) (x : Nat × Int × Bool) : Fr := roundTo f r sat n n x.1 x.2.1 x.2.2 rk
  match t, a with
  | _, .nan => nan
  | .exp2, .inf n => if n then ⟨0, 0⟩ else ⟨inf false, 0⟩
  | .exp2, .fin n m e => go false (exp2Mag n m e)
  | .log2, .inf n => if n then bad else ⟨inf false, 0⟩
  | .log2, .fin n m e => if m = 0 then ⟨inf true, flDZ⟩ else if n then bad else
      let (s, x) := log2Mag m e
      roundTo f r sat s false x.1 x.2.1 x.2.2 rk
  | .rcp, .inf n => ⟨signed f n 0, 0⟩
  | .rcp, .fin n m e => if m = 0 then ⟨inf n, flDZ⟩ else go n (rcpMag m e)
  | .rsq, .inf n => if n then bad else ⟨0, 0⟩
  | .rsq, .fin n m e => if m = 0 then ⟨inf n, flDZ⟩ else if n then bad else go false (rsqMag m e)
  | .sqrt, .inf n => if n then bad else ⟨inf false, 0⟩
  | .sqrt, .fin n m e => if m = 0 then ⟨signed f n 0, 0⟩ else if n then bad else go false (sqrtMag m e)

/-- The class mask of R145. -/
def fClass (f : Fmt) (v : Nat) : Nat :=
  match unpack f v with
  | .nan => 2 ^ 8
  | .inf n => if n then 1 else 2 ^ 7
  | .fin n m _ =>
    if m = 0 then (if n then 2 ^ 3 else 2 ^ 4)
    else if m < 2 ^ f.mb then (if n then 2 ^ 2 else 2 ^ 5)
    else (if n then 2 else 2 ^ 6)

/-- Float to float conversion, Table 4.8. -/
def cvtFF (g f : Fmt) (r : Rnd) (sat : Bool) (rk : Nat) (v : Nat) : Fr :=
  match unpack g v with
  | .nan => ⟨nanBits f, 0⟩
  | .inf n => infTo f r sat n
  | .fin n m e => roundTo f r sat n n m e false rk

/-- Rounds an exact value to an integer (R85); the flag says that it was not one. -/
def roundInt (r : Rnd) (neg : Bool) (m : Nat) (e : Int) (rk : Nat) : Int × Bool :=
  if e ≥ 0 then ((if neg then -((m * 2 ^ e.toNat : Nat) : Int) else ((m * 2 ^ e.toNat : Nat) : Int)), false)
  else
    let sh := (-e).toNat
    let k := m / 2 ^ sh
    let rem := m % 2 ^ sh
    let cmp := compare (2 * rem) (2 ^ sh)
    let k := if roundsUp r neg (k % 2 = 1) (decide (rem ≠ 0)) cmp (rem * 2 ^ 16 / 2 ^ sh) rk then k + 1 else k
    ((if neg then -(k : Int) else (k : Int)), decide (rem ≠ 0))

/-- Float to integer conversion, Table 4.8 and R100. -/
def cvtFI (g : Fmt) (sg : Bool) (n : Nat) (r : Rnd) (rk : Nat) (v : Nat) : Fr :=
  match unpack g v with
  | .nan => ⟨0, flNV⟩
  | .inf ng => ⟨wrap n (clampTo sg n (if ng then -(2 ^ 200 : Int) else 2 ^ 200)), flNV⟩
  | .fin ng m e =>
    let (x, nx) := roundInt r ng m e rk
    if clampTo sg n x = x then ⟨wrap n x, if nx then flNX else 0⟩ else ⟨wrap n (clampTo sg n x), flNV⟩

/-- Integer to float conversion, Table 4.8. -/
def cvtIF (f : Fmt) (sg : Bool) (n : Nat) (r : Rnd) (sat : Bool) (rk : Nat) (v : Nat) : Fr :=
  roundDy f r sat false ⟨rd sg n v, 0⟩ rk

/-- Conversion of one lane between two types, R100. -/
def cvtLane (st dt : Ty) (r : Rnd) (sat : Bool) (rk : Nat) (v : Nat) : Fr :=
  match isFloat st, isFloat dt with
  | true, true => cvtFF (fmtOf st) (fmtOf dt) r sat rk v
  | true, false => cvtFI (fmtOf st) (tySigned dt) (tyBits dt) r rk v
  | false, true => cvtIF (fmtOf dt) (tySigned st) (tyBits st) r sat rk v
  | false, false => ⟨narrow sat (tySigned dt) (tyBits dt) (rd (tySigned st) (tyBits st) v), 0⟩

end Sys2Proof.Machine
end

