-- ==== Sys2Proof/Machine/Ops.lean ====
section
/-! DEFINITION. The named operations over tiles, planes, elements, memory, counters, tokens and demands, and taking a trap (R417 to R424). -/

namespace Sys2Proof.Machine

open Sys2Proof

/-! ### Tiles, planes, blocks and elements -/

/-- A tile; one that is not listed stands as it is right after reset. -/
def tileAt (s : State) (t : Nat) : Tile := s.tiles.get t {}

def setTile (s : State) (t : Nat) (x : Tile) : State := { s with tiles := s.tiles.put t x }

def modTile (s : State) (t : Nat) (g : Tile → Tile) : State := setTile s t (g (tileAt s t))

/-- The plane A (false) or B (true) of a tile. -/
def planeOf (x : Tile) (b : Bool) : Plane := if b then x.pb else x.pa

def withPlane (x : Tile) (b : Bool) (p : Plane) : Tile := if b then { x with pb := p } else { x with pa := p }

/-- The active plane (R103). -/
def activePlane (x : Tile) : Plane := planeOf x x.planeB

/-- The shadow plane. -/
def shadowPlane (x : Tile) : Plane := planeOf x (!x.planeB)

def modPlane (s : State) (t : Nat) (b : Bool) (g : Plane → Plane) : State := modTile s t fun x => withPlane x b (g (planeOf x b))

def modActive (s : State) (t : Nat) (g : Plane → Plane) : State := modTile s t fun x => withPlane x x.planeB (g (activePlane x))

/-- The block of an engine in a plane. -/
def blockOf (p : Plane) (e : Nat) : Option Block :=
  match e with
  | 0 => p.blk0
  | 1 => p.blk1
  | 2 => p.blk2
  | _ => none

def withBlock (p : Plane) (e : Nat) (b : Block) : Plane :=
  match e with
  | 0 => { p with blk0 := some b }
  | 1 => { p with blk1 := some b }
  | 2 => { p with blk2 := some b }
  | _ => p

/-- An element of a plane. -/
def elemIn (p : Plane) (e slot : Nat) : Option Elem :=
  match blockOf p e with
  | some b => b.elems[slot]?
  | none => none

/-- Changes an element of a plane. -/
def modElemIn (p : Plane) (e slot : Nat) (g : Elem → Elem) : Plane :=
  match blockOf p e with
  | some b => withBlock p e { b with elems := modAt b.elems slot g }
  | none => p

/-- Changes an element of plane `b` of its tile. -/
def modElem (s : State) (x : Site) (b : Bool) (g : Elem → Elem) : State := modPlane s x.tile b fun p => modElemIn p x.eng x.slot g

/-- Every element of a plane with its engine and slot. -/
def elemsOf (p : Plane) : List (Nat × Nat × Elem) :=
  ([0, 1, 2].map fun e => match blockOf p e with
    | some b => b.elems.zipIdx.map fun (el, i) => (e, i, el)
    | none => []).flatten

/-- Changes every element of a plane. -/
def mapElems (p : Plane) (g : Elem → Elem) : Plane :=
  let h (b : Option Block) : Option Block := b.map fun b => { b with elems := b.elems.map g }
  { p with blk0 := h p.blk0, blk1 := h p.blk1, blk2 := h p.blk2 }

/-! ### Leases and coordinates -/

/-- A lease; slot 255 is the management context (R398). -/
def leaseAt (s : State) (l : Nat) : Lease := s.leases.get l {}

def setLease (s : State) (l : Nat) (x : Lease) : State := { s with leases := s.leases.put l x }

def modLease (s : State) (l : Nat) (g : Lease → Lease) : State := setLease s l (g (leaseAt s l))

/-- A tile belongs to a lease when the placer has written its TTEN, which is 1 to 32 for every tenant (R103, R104). -/
def tileBound (x : Tile) : Bool := x.tten != 0

/-- The x part of a 14-bit origin or extent register, R103. -/
def regX (v : BitVec 14) : Nat := v.toNat / 64
/-- The y part of a 14-bit origin or extent register, R103. -/
def regY (v : BitVec 14) : Nat := v.toNat % 64
/-- Builds such a register. -/
def mkReg (x y : Nat) : BitVec 14 := BitVec.ofNat 14 (x % 256 * 64 + y % 64)

/-- Key of STC: engine and cause. -/
def stcKey (e c : Nat) : Nat := 16 * e + c

/-- The displacement of an RDSP register, [15:7] dx and [6:0] dy, both signed. -/
def dispX (r : BitVec 16) : Int := sx 9 (r.toNat / 128)
def dispY (r : BitVec 16) : Int := sx 7 (r.toNat % 128)

/-- Lease width and height in tiles, R104. -/
def leaseW (r : BindRec) : Nat := regX r.lext + 1
def leaseH (r : BindRec) : Nat := regY r.lext + 1

/-- The lease-relative index of a tile, R276. -/
def tiOf (x : Tile) : Nat := regY x.tlxy * (regX x.lext + 1) + regX x.tlxy

/-- The module index of a lease-relative tile index under an origin and extent. -/
def tileOfTi (lorg lext : BitVec 14) (ti : Nat) : Nat :=
  (regY lorg + ti / (regX lext + 1)) * 256 + regX lorg + ti % (regX lext + 1)

/-- The module tile of coordinates relative to a lease. -/
def tileOfXy (r : BindRec) (x y : Nat) : Nat := (regY r.lorg + y) * 256 + regX r.lorg + x

/-- Every module tile of a lease's rectangle, row by row. -/
def leaseTiles (r : BindRec) : List Nat :=
  ((List.range (leaseH r)).map fun y => (List.range (leaseW r)).map fun x => tileOfXy r x y).flatten

/-- The neighbour of a tile at a port 0 to 3: N is y − 1, E is x + 1, S is y + 1, W is x − 1 (R7, log 14); none beyond the grid. -/
def neighbour (t p : Nat) : Option Nat :=
  let x := t % 256
  let y := t / 256
  match p with
  | 0 => if y = 0 then none else some (t - 256)
  | 1 => if x = 255 then none else some (t + 1)
  | 2 => if y = 63 then none else some (t + 256)
  | 3 => if x = 0 then none else some (t - 1)
  | _ => none

/-- The port at which a neighbour faces; an L port faces itself. -/
def facing (p : Nat) : Nat := if p < 4 then (p + 2) % 4 else p

/-- A lease runs in a cycle, R440. -/
def leaseRuns (l : Lease) : Bool :=
  (l.lstate == .active || l.lstate == .moving || l.lstate == .gating) && !l.hline

/-- The lease is pre-empted with its tiles' state in the save area: what is to reach its tiles waits for RESUME (R427). -/
def stored (l : Lease) : Bool := l.lstate == .preempted && match l.saved with | some v => !v.inPlace | none => false

/-- A tile may issue: it is bound to a lease that runs, and no halt, freeze, move or throttle holds it (R212, R357, R440, R499). -/
def tileRuns (s : State) (t : Nat) : Bool :=
  let x := tileAt s t
  tileBound x && leaseRuns (leaseAt s x.tlease.toNat) && !x.halted && !x.frozen && !x.moving

/-- A tile runs as R440 counts: a halt of its own stops what it issues, not its counts. -/
def tileCounts (s : State) (t : Nat) : Bool :=
  let x := tileAt s t
  tileBound x && leaseRuns (leaseAt s x.tlease.toNat) && !x.frozen && !x.moving

/-- A tile with the planes that a pre-emption has saved of it (R427): jobs in progress and held ones run on beside it (R343, Table 15.3). -/
def heldTile (s : State) (t : Nat) : Tile :=
  let x := tileAt s t
  match (if stored (leaseAt s x.tlease.toNat) then (leaseAt s x.tlease.toNat).saved else none) with
  | some v => (match Tab.find v.tiles t with
    | some y => { x with pa := y.pa, pb := y.pb }
    | none => x)
  | none => x

/-- Changes a plane of a tile where it stands: in the tile, or in what a pre-emption has saved of it. -/
def modHeldPlane (s : State) (t : Nat) (b : Bool) (g : Plane → Plane) : State :=
  let lid := (tileAt s t).tlease.toNat
  let one (x : Tile) : Tile := withPlane x b (g (planeOf x b))
  if stored (leaseAt s lid) then modLease s lid fun l => { l with saved := l.saved.map fun v =>
      { v with tiles := v.tiles.map fun m => if m.1 = t then (t, one m.2) else m } }
  else modTile s t one

/-- Accesses to a tile are held: a move copies it (R295, R368). -/
def shut (x : Tile) : Bool := x.moving && !x.rebound

/-! ### Free values -/

/-- A free value and the state with the counter advanced (log 2). -/
def free (s : State) : Nat × State := (Config.freeNat s.fresh, { s with fresh := s.fresh + 1 })

/-! ### Ownership of shared structures, Table 13.7 -/

/-- Parity of an ownership bitmap (BMPAR). -/
def parityOf (v : BitVec 33) : Bool := popCount 33 v.toNat % 2 = 1

/-- Sets OWNBM of a structure with BMPAR. -/
def setOwners (s : State) (i : Nat) (v : BitVec 33) : State := { s with ownbm := s.ownbm.put i v, bmpar := s.bmpar.put i (parityOf v) }

/-- Structures accept state of a tenant: its bit is set before (R379). -/
def claim (s : State) (ten : Nat) (l : List Nat) : State := l.foldl (fun s i => setOwners s i (s.ownbm.get i 0 ||| BitVec.ofNat 33 (2 ^ (ten % 33)))) s

/-- The seam link between two dies, none within one. -/
def seamOf (a b : Nat) : Option Nat :=
  let d := Config.dieOf a
  let e := Config.dieOf b
  if d = e then none else some (8 * min d e + max d e)

/-- The UCIe link between two tiles as a structure. -/
def seamStruct (a b : Nat) : List Nat := match seamOf a b with | some n => [2 * 4096 + n] | none => []

/-! ### Memory: canonical lists of address and byte -/

/-- Reads a byte; a byte that is not listed reads as 0 (log 3). -/
def Memory.read : List Host.Cell → Nat → Byte
  | [], _ => 0
  | (k, v) :: r, a => if k = a then v else if a < k then 0 else Memory.read r a

/-- Writes a byte and keeps the list canonical: addresses rising, no entry equal to 0. -/
def Memory.write : List Host.Cell → Nat → Byte → List Host.Cell
  | [], a, v => if v = 0 then [] else [(a, v)]
  | (k, w) :: r, a, v =>
    if a < k then (if v = 0 then (k, w) :: r else (a, v) :: (k, w) :: r)
    else if a = k then (if v = 0 then r else (a, v) :: r)
    else (k, w) :: Memory.write r a v

/-- The canonical form: addresses strictly rising from `lo`, no entry 0. -/
def Memory.wfFrom : Nat → List Host.Cell → Bool
  | _, [] => true
  | lo, (k, v) :: r => decide (lo ≤ k) && v != 0 && Memory.wfFrom (k + 1) r

/-- The canonical form of a memory. -/
def Memory.wf (m : List Host.Cell) : Bool := Memory.wfFrom 0 m

/-- Reads `n` bytes from an address, least significant first, R4. -/
def Memory.readN (m : List Host.Cell) : Nat → Nat → Nat
  | 0, _ => 0
  | n + 1, a => (Memory.read m a).toNat + 256 * Memory.readN m n (a + 1)

/-- Writes the low `n` bytes of a number at an address, R4. -/
def Memory.writeN (m : List Host.Cell) : Nat → Nat → Nat → List Host.Cell
  | 0, _, _ => m
  | n + 1, a, v => Memory.writeN (Memory.write m a (BitVec.ofNat 8 (v % 256))) n (a + 1) (v / 256)

/-- Bytes of a range. -/
def Memory.bytes (m : List Host.Cell) (a n : Nat) : List Byte := (List.range n).map fun i => Memory.read m (a + i)

/-- Writes a list of bytes. -/
def Memory.putBytes (m : List Host.Cell) : Nat → List Byte → List Host.Cell
  | _, [] => m
  | a, b :: r => Memory.putBytes (Memory.write m a b) (a + 1) r

/-- Removes every entry of a range: its bytes read 0. -/
def Memory.clear (m : List Host.Cell) (a n : Nat) : List Host.Cell := m.filter fun c => decide (c.1 < a ∨ a + n ≤ c.1)

/-! ### Full-empty bits, R280: a granule is listed when its bit is 1 -/

def febAt (l : List Nat) (g : Nat) : Bool := l.contains g

def febInsert : List Nat → Nat → List Nat
  | [], g => [g]
  | k :: r, g => if g < k then g :: k :: r else if g = k then k :: r else k :: febInsert r g

def febSet (l : List Nat) (g : Nat) (b : Bool) : List Nat := if b then febInsert l g else l.filter (· != g)

/-! ### Counters and thresholds -/

/-- The value of a lease or module counter, Table 16.4: classes 0 to 4, 8 and 9. -/
def counterOf (s : State) (l : Lease) (ctr : Nat) : Nat :=
  let k := ctr % 4096
  match ctr / 4096 with
  | 0 => (l.evc.get k 0).toNat
  | 1 => (l.lstl.get k 0).toNat
  | 2 => (l.lcyc.get k 0).toNat
  | 3 => (l.ifa.get k 0).toNat
  | 4 => (l.txc.get k 0).toNat
  | 8 => (s.mctr.get k 0).toNat
  | 9 => s.tick.toNat
  | _ => 0

/-- The condition of a threshold or watch (R397, R449). -/
def thrHolds (dir : Bool) (value thresh : Nat) : Bool := if dir then decide (value ≤ thresh) else decide (value ≥ thresh)

/-- Evaluates THRk at a value of its counter, R449. -/
def evalThr (l : Lease) (k : Nat) (value : Nat) : Lease :=
  let t := l.thr.get k {}
  if t.v then
    let c := thrHolds t.dir value t.thresh.toNat
    { l with
      txc := if c && !t.st then l.txc.put k (l.txc.get k 0 + 1) else l.txc
      thr := l.thr.put k { t with st := c } }
  else l

/-- Evaluates every threshold of a lease that watches a counter that has changed. -/
def evalThrs (s : State) (l : Lease) (ctr : Nat) : Lease :=
  (List.range 16).foldl (fun l k =>
    let t := l.thr.get k {}
    if t.v && t.ctrid.toNat == ctr then evalThr l k (counterOf s l ctr) else l) l

/-- Adds to a counter of a lease. -/
def addCtr (l : Lease) (ctr n : Nat) : Lease :=
  let k := ctr % 4096
  match ctr / 4096 with
  | 0 => { l with evc := l.evc.put k (l.evc.get k 0 + BitVec.ofNat 64 n) }
  | 1 => { l with lstl := l.lstl.put k (l.lstl.get k 0 + BitVec.ofNat 64 n) }
  | 2 => { l with lcyc := l.lcyc.put k (l.lcyc.get k 0 + BitVec.ofNat 64 n) }
  | 3 => { l with ifa := l.ifa.put k (l.ifa.get k 0 + BitVec.ofNat 64 n) }
  | _ => l

/-- Adds to a counter of a lease and evaluates the thresholds on it (R444, R449). -/
def countIn (s : State) (lid ctr n : Nat) : State :=
  if n = 0 then s
  else modLease s lid fun l => evalThrs s (addCtr l ctr n) ctr

/-- Counts event k of Table 16.3. -/
def countEvent (s : State) (lid k n : Nat) : State := countIn s lid k n

/-! ### Causes, Table 15.2 -/

def cTrap : Nat := 0x0001
def cAssert : Nat := 0x0002
def cBreak : Nat := 0x0003
def cHalt : Nat := 0x0004
def cLoadRefused : Nat := 0x0010
def cImageChanged : Nat := 0x0011
def cConfigFetch : Nat := 0x0012
def cFeatureAbsent : Nat := 0x0013
def cLaunchInvalid : Nat := 0x0014
def cTidBinding : Nat := 0x0015
def cTidFormat : Nat := 0x0016
def cTrigCounter : Nat := 0x0017
def cStreamBind : Nat := 0x0018
def cSeamSlots : Nat := 0x0019
def cExtent : Nat := 0x001A
def cBankGrant : Nat := 0x001B
def cPoisoned : Nat := 0x0020
def cNodeFail : Nat := 0x0021
def cContTarget : Nat := 0x0022
def cNodeClosed : Nat := 0x0023
def cIterRange : Nat := 0x0030
def cGrowRange : Nat := 0x0031
def cRouteKey : Nat := 0x0032
def cReordWindow : Nat := 0x0033
def cRateOverflow : Nat := 0x0034
def cFpException : Nat := 0x0035
def cRingMisuse : Nat := 0x0036
def cAccImage : Nat := 0x0037
def cStaleHandle : Nat := 0x0038
def cFeWatchdog : Nat := 0x0039
def cBarMismatch : Nat := 0x003A
def cSnapDisabled : Nat := 0x003B
def cScratchRange : Nat := 0x0040
def cAlign : Nat := 0x0041
def cBankUngranted : Nat := 0x0042
def cBankDemand : Nat := 0x0043
def cSpbInvalid : Nat := 0x0044
def cTensorRange : Nat := 0x0045
def cJobCard : Nat := 0x0046
def cCollMismatch : Nat := 0x0047
def cBwphValue : Nat := 0x0048
def cTranslation : Nat := 0x0050
def cPermission : Nat := 0x0051
def cPteInvalid : Nat := 0x0052
def cFrameOwner : Nat := 0x0053
def cFirewall : Nat := 0x0054
def cKeyAbsent : Nat := 0x0055
def cUncorrectable : Nat := 0x0056
def cBlast : Nat := 0x0060
def cRemoved : Nat := 0x0061
def cSaveFault : Nat := 0x0062
def cSaveFull : Nat := 0x0063
def cHalted : Nat := 0x0064

/-! ### Nodes -/

/-- A node of a graph that the sequencer holds. -/
def nodeAt (l : Lease) (g n : Nat) : Option Node := (l.graphs.find g).bind fun x => x.nodes[n]?

/-- Changes a node. -/
def modNode (l : Lease) (g n : Nat) (h : Node → Node) : Lease :=
  match l.graphs.find g with
  | some x => { l with graphs := l.graphs.put g { x with nodes := modAt x.nodes n h } }
  | none => l

/-- FCAUSE and the records' CAUSE, R417: code above, detail below. -/
def causeWord (cause detail : Nat) : BitVec 32 := BitVec.ofNat 32 (cause % 65536 * 65536 + detail % 65536)

/-- The detail of a memory cause: the module channel that refused a frame (R12, Table 21.4); for the other causes the spec gives none
(log 8). -/
def memDetail (s : State) (cause pa : Nat) : Nat × State :=
  if cause = cFrameOwner then (pa / 2 ^ 36 % 16 * 32 + pa / 2 ^ 9 % 32, s) else free s

/-- Marks a node as faulted: its policy is applied at POLICY_APPLY. The first cause of a stop stands in FCAUSE (R421). Its record is to be
written (R383), and an image that was checked for it is checked again at its next placement (R62). -/
def faultNode (l : Lease) (g n cause detail : Nat) : Lease :=
  if l.faults.contains (g, n) then l
  else match nodeAt l g n with
    | some x =>
      if x.state == .faulted || x.state == .done || x.state == .cancelled then l
      else modNode { l with faults := l.faults ++ [(g, n)], rdyq := l.rdyq.filter (· != (g, n)), qdue := l.qdue ++ [(g, n)],
                            checked := l.checked.filter fun c => !(c.graph == g && c.node == n) } g n fun x =>
        { x with state := .faulted, fcause := causeWord cause detail, polDone := false }
    | none => l

/-! ### Taking a trap -/

/-- Where a trap was met: lease-relative tile (0xFFFF none), engine code, slot (0xFF none), and the node of the plane (0xFFFF none). -/
structure Place where
  tile : Nat
  eng : Nat
  slot : Nat
  graph : Nat
  node : Nat
  deriving DecidableEq, Repr

/-- Builds PAYLOAD from bytes 0 to 7, 8 to 15 and 16 to 31 (Table 15.5). -/
def payload3 (a b c : Nat) : BitVec 256 := BitVec.ofNat 256 (a % 2 ^ 64 + b % 2 ^ 64 * 2 ^ 64 + c % 2 ^ 128 * 2 ^ 128)

/-- A trap (R417 to R421): the machine's exception entry. HLINE of the lease rises, an ORIGIN record is queued with the cause, and the node
of the place faults. What the firing would have done is suppressed by the caller. BREAK faults no node (Table 14.7). A removal in progress
writes no record (R433). A trap that a freeze-scan meets begins a stop of its own (R423). -/
def trap (s : State) (lid cause detail : Nat) (at_ : Place) (payload : BitVec 256) (fflg : BitVec 5) : State :=
  let l := leaseAt s lid
  if !l.v || l.lstate == .removing then s
  else
    let l := if l.hline && (l.stopOpen || l.stopWritten) then l
      else { l with hline := true, stopOpen := true, stopWritten := false, stopCycles := if l.hline then l.stopCycles else 0, stopid := l.stopid + 1 }
    let rec_ : StopRec := { kind := 1, cause := causeWord cause detail, graph := at_.graph, node := at_.node, tile := at_.tile,
                            eng := at_.eng, slot := at_.slot, fflg := fflg, payload := payload }
    let l := { l with stopOpen := true, recs := l.recs ++ [rec_], haltReq := l.haltReq || cause == cHalt }
    let l := if cause = cBreak then l else faultNode l at_.graph at_.node cause detail
    setLease s lid l

/-- A class G fault (R418): a record of KIND GRAPH (4) or LOAD (3), and the node faults; HLINE stays. -/
def graphFault (s : State) (lid kind g n cause detail : Nat) (payload : BitVec 256) : State :=
  modLease s lid fun l =>
    let r : StopRec := { kind := kind, cause := causeWord cause detail, graph := g, node := n, tile := 0xFFFF, eng := 5, slot := 0xFF,
                         payload := payload }
    faultNode { l with recs := l.recs ++ [r] } g n cause detail

/-- The place of an element. -/
def placeOf (x : Tile) (p : Plane) (e slot : Nat) : Place := ⟨tiOf x, e, slot, p.graph, p.node⟩

/-! ### Control tokens, Tables 8.2 and 8.3 -/

def sbCtl : BitVec 2 := 0b01
def isCtl (t : Token) : Bool := t.sb == sbCtl
/-- The code of a control token. -/
def codeOf (t : Token) : Nat := t.pay.toNat % 256
def kSOT : Nat := 1
def kEOT : Nat := 2
def kSWITCH : Nat := 3
def kSNAP : Nat := 4
def kBUBBLE : Nat := 5
def kBUBBLE_END : Nat := 6
def kPOISON : Nat := 7
/-- A control token. -/
def ctl (code hi : Nat) : Token := ⟨low (code + hi % 2 ^ 32 * 2 ^ 32), sbCtl⟩
/-- A POISON token with its cause and the tile where it arose (Table 8.3). -/
def poisonTok (cause ti : Nat) : Token := ⟨low (kPOISON + cause % 256 * 256 + ti % 16384 * 65536), sbCtl⟩
def isPoison (t : Token) : Bool := isCtl t && codeOf t == kPOISON
def isSwitch (t : Token) : Bool := isCtl t && codeOf t == kSWITCH
def isSnap (t : Token) : Bool := isCtl t && codeOf t == kSNAP
def isBubble (t : Token) : Bool := isCtl t && (codeOf t == kBUBBLE || codeOf t == kBUBBLE_END)
def isData (t : Token) : Bool := !isCtl t
/-- The token ends a row. -/
def endsRow (t : Token) : Bool := t.sb == 0b10 || t.sb == 0b11 || isBubble t
/-- The token ends a stream. -/
def endsStream (t : Token) : Bool := t.sb == 0b11 || (isCtl t && codeOf t == kBUBBLE_END)
/-- Data with zero sideband and one value in its low bits. -/
def dataTok (w : Word) (sb : BitVec 2) : Token := ⟨w, sb⟩

/-! ### Queues of operands -/

/-- The LBUF channel that delivers to an operand: the route entry with K = 1 that names it (R36, R205). Key 8 * port + channel. -/
def feedOf (p : Plane) (e slot : Nat) (op : Opnd) : Option Nat :=
  let dest := slot * 4 + (match op with | .a => 0 | .b => 1 | .c => 2 | .p => 3)
  (p.route.find? fun (_, v) => v.toNat / 32768 = 1 && v.toNat / 16384 % 2 = 1 && v.toNat / 4096 % 4 = e && v.toNat % 1024 = dest).map (·.1)

/-- A SOT that opens a carrier stream on an input channel; on the memory reply port the TID's format code decides, and no SOT (R99). -/
def opensCarrier (k : Nat) (t : Token) : Bool := decide (k < 56) && isCtl t && codeOf t == kSOT && t.pay.getLsbD 8

/-- The head that an element sees on a channel: the unpack stage's words first (R98, R99), then LBUF, unless the stage is to take what
stands there. -/
def chanFirst (p : Plane) (k : Nat) : Option Token :=
  let x := p.px8.get k {}
  match x.out with
  | t :: _ => some t
  | [] =>
    if x.carrier then none
    else match p.lbuf.get k [] with
      | t :: _ => if opensCarrier k t then none else some t
      | [] => none

/-- The tokens of an input channel, or of its unpack stage, that did not come in this cycle (R8). -/
def seenTokens (p : Plane) (k : Nat) : List Token := (p.lbuf.get k []).take ((p.lbuf.get k []).length - p.late.count k)
def seenOut (p : Plane) (k : Nat) : List Token := (p.px8.get k {}).out.take ((p.px8.get k {}).out.length - p.late.count (64 + k))

/-- The same head, as an element sees it: nothing acts on a token in the cycle in which it comes (R8). -/
def chanHead (p : Plane) (k : Nat) : Option Token :=
  let shown := if (p.px8.get k {}).out.isEmpty then seenTokens p k else seenOut p k
  if shown.isEmpty then none else chanFirst p k

def opqOf (e : Elem) : Opnd → List Token
  | .a => e.qa | .b => e.qb | .c => e.qc | .p => e.qp

def setOpq (e : Elem) (op : Opnd) (q : List Token) : Elem :=
  match op with
  | .a => { e with qa := q } | .b => { e with qb := q } | .c => { e with qc := q } | .p => { e with qp := q }

/-- The head of an operand's queue (R205). -/
def headOf (p : Plane) (eng slot : Nat) (el : Elem) (op : Opnd) : Option Token :=
  match feedOf p eng slot op with
  | some k => chanHead p k
  | none => ((opqOf el op).take ((opqOf el op).length - el.late.count op)).head?

/-- The instruction of an element's word. -/
def instrAt (el : Elem) : Option Instr :=
  match decode el.word with
  | .ok i => some i
  | .error _ => none

end Sys2Proof.Machine
end

