-- ==== Sys2Proof/Machine/Tokens.lean ====
section
/-! DEFINITION. Targets, demands, emission and consumption of tokens (R205 to R216, R219). -/

namespace Sys2Proof.Machine

open Sys2Proof

/-- The key of a port and channel. -/
def chKey (p c : Nat) : Nat := 8 * p + c

/-- T2 of FAN, IMM16[9:0] (Table 8.7). -/
def fanT2 (f : Fields) : Target := targetOfCode (f.imm.extractLsb' 0 10)

/-- Every target of an element with its number: T0, T1 and, for FAN with V2, T2. -/
def targetsOf (i : Instr) (f : Fields) : List (Nat × Target) :=
  (match f.out with
   | .none => []
   | .one => [(0, f.t0)]
   | .two => [(0, f.t0), (1, f.t1)]
   | .steer => [(0, f.t0), (1, f.t1)]) ++
  (match i with
   | .fan g => if g.imm.getLsbD 10 then [(2, fanT2 g)] else []
   | _ => [])

/-- Every channel that an element may emit to: its port targets, and for ROUTE the outputs of its row (R250). -/
def portsOf (i : Instr) (f : Fields) : List (Nat × Nat × Nat) :=
  ((targetsOf i f).map fun (k, t) => match t with
    | .port p c _ => (match i, k with
      | .route g, 0 => (List.range (g.imm.toNat + 1)).map fun j => (k, p.toNat, c.toNat + j)
      | _, _ => [(k, p.toNat, c.toNat)])
    | .elem _ _ => []).flatten

/-- DCNT of a kind-0 target. -/
def dkOf (el : Elem) (k : Nat) : Nat := match k with | 0 => el.dk0 | 1 => el.dk1 | _ => el.dk2

def setDk (el : Elem) (k v : Nat) : Elem :=
  match k with
  | 0 => { el with dk0 := v }
  | 1 => { el with dk1 := v }
  | _ => { el with dk2 := v }

/-- The queue in which an element's token waits at a reduction join (R219, log 15). -/
def joinKey (outKey e slot k : Nat) : Nat := 1000 + ((outKey * 3 + e) * 128 + slot) * 4 + k

/-- The demands that an element holds on a target. At a join the element holds one while its place there is empty. -/
def demandOn (p : Plane) (x : Site) (el : Elem) (k : Nat) (t : Target) : Nat :=
  match t with
  | .elem _ _ => dkOf el k
  | .port pt ch _ =>
    let key := chKey pt.toNat ch.toNat
    if p.gated.contains key then 0
    else if p.reduce.contains key then (if (p.lbuf.get (joinKey key x.eng x.slot k) []).isEmpty then 1 else 0)
    else p.dcnt.get key 0

/-- Two emissions draw on one demand counter. -/
def sameTarget (a b : Nat × Target) : Bool :=
  match a.2, b.2 with
  | .elem _ _, .elem _ _ => a.1 == b.1
  | .port p c _, .port q d _ => p == q && c == d
  | _, _ => false

/-- The element holds a demand for each of a list of emissions (R212). -/
def hasDemands (p : Plane) (x : Site) (el : Elem) (l : List (Nat × Target)) : Bool :=
  l.all fun a => decide ((l.filter (sameTarget a)).length ≤ demandOn p x el a.1 a.2)

/-- The reach port and channel that lead to a channel of a tile, as 8 * port + channel (R9, R30, R377). -/
def reachFor (t p c : Nat) : Option Nat :=
  (List.range (Config.reachPorts * Config.reachChans)).find? fun k => Config.reachAt (k / 8) (k % 8) == 64 * t + 8 * p + c

/-- Tokens that wait at joins of reach-port units for a lease, with their keys (R194). -/
def reachHeld (s : State) (lid : Nat) : Tab (List Token) :=
  s.reachq.filter fun (k, q) => !q.isEmpty && decide ((s.rpb.get k 0).toNat % 128 = lid)

/-- A token on its way from a tile to another, over the link between them. -/
def putWire (s : State) (t : Nat) (w : Wire) : State :=
  let ten := match w.stamp with | some lid => (leaseAt s lid).rcd.tenid.toNat | none => 0
  claim { s with wires := s.wires ++ [w] } ten (seamStruct t w.tile)

/-- A token onto a link with its stamp (R216, R376). Over the edge of the grid it leaves by the reach port whose channel leads there (R30);
where none does, no link carries it on, and it is removed and counted (R27, log 43). -/
def pushWire (s : State) (t p c : Nat) (tok : Token) : State :=
  let stamp := some (tileAt s t).tlease.toNat
  if p < 4 then
    match neighbour t p with
    | some u => putWire s t ⟨u, facing p, c, tok, stamp⟩
    | none => match reachFor t p c with
      | some k => claim { s with peerOut := s.peerOut ++ [⟨t, p, c, tok, stamp⟩] } (leaseAt s (tileAt s t).tlease.toNat).rcd.tenid.toNat [5 * 4096 + k / 8]
      | none => countEvent s (tileAt s t).tlease.toNat 2 1
  else { s with wires := s.wires ++ [⟨t, p, c, tok, stamp⟩] }

/-- Sends a token out of a port of a tile: onto the link, or to the edge (R216, R377). -/
def sendOut (s : State) (t p c : Nat) (tok : Token) : State :=
  let x := tileAt s t
  -- at the end of a portal path the configuration's channel becomes the portal's (R372)
  pushWire s t p (match x.ptab.find? fun e => e.ip == 7 && e.op == p && e.ic == c with | some e => e.oc | none => c) tok

/-- Puts a token on a target without using a demand. -/
def putTo (s : State) (x : Site) (b : Bool) (k : Nat) (tg : Target) (tok : Token) : State :=
  match tg with
  | .elem slot op => modElem s ⟨x.tile, x.eng, slot.toNat⟩ b fun el => { setOpq el op (opqOf el op ++ [tok]) with late := el.late ++ [op] }
  | .port pt ch _ =>
    let key := chKey pt.toNat ch.toNat
    if (planeOf (tileAt s x.tile) b).reduce.contains key then
      modPlane s x.tile b fun p =>
        let q := joinKey key x.eng x.slot k
        { p with lbuf := p.lbuf.put q (p.lbuf.get q [] ++ [tok]) }
    else sendOut s x.tile pt.toNat ch.toNat tok

/-- Uses one demand on a target. -/
def useDemand (s : State) (x : Site) (b : Bool) (k : Nat) (tg : Target) : State :=
  match tg with
  | .elem _ _ => modElem s x b fun el => setDk el k (dkOf el k - 1)
  | .port pt ch _ =>
    modPlane s x.tile b fun p =>
      let key := chKey pt.toNat ch.toNat
      if p.reduce.contains key then p else { p with dcnt := p.dcnt.put key (p.dcnt.get key 0 - 1) }

/-- Emits a token: one demand of the target, then the token (R212). -/
def emitTo (s : State) (x : Site) (b : Bool) (k : Nat) (tg : Target) (tok : Token) : State :=
  putTo (useDemand s x b k tg) x b k tg tok

/-- Sends one demand back from an input channel of a plane of a tile (R215), over a portal path with the producer's tag (R372). Reply
channels carry none (R223); over a reach port it goes to the peer. -/
def returnDemand (s : State) (t : Nat) (b : Bool) (key : Nat) : State :=
  let x := tileAt s t
  let p := planeOf x b
  let lid := x.tlease.toNat
  let port := key / 8
  if port < 4 then
    match neighbour t port, x.ptab.find? (fun e => e.op == 7 && e.ip == port && e.oc == key % 8) with
    | some u, some e => { s with demands := s.demands ++ [⟨u, facing port, e.ic, lid, e.src.1, e.src.2.1, e.src.2.2⟩] }
    | some u, none => { s with demands := s.demands ++ [⟨u, facing port, key % 8, lid, p.rid, p.graph, p.node⟩] }
    | none, _ => if (reachFor t port (key % 8)).isSome then { s with peerDemands := s.peerDemands ++ [⟨t, port, key % 8, lid, p.rid, p.graph, p.node⟩] } else s
  else if port < 7 then { s with demands := s.demands ++ [⟨t, port, key % 8, lid, p.rid, p.graph, p.node⟩] }
  else s

/-- The element target that feeds an operand of a block: slot and target number. -/
def producerOf (blk : Block) (slot : Nat) (op : Opnd) : Option (Nat × Nat) :=
  (blk.elems.zipIdx.findSome? fun (el, j) => match instrAt el with
    | some i => match WellFormed.instrFields i with
      | some f => ((targetsOf i f).find? fun (_, t) => match t with
          | .elem sl o => sl.toNat == slot && o == op
          | .port _ _ _ => false).map fun (k, _) => (j, k)
      | none => none
    | none => none)

/-- Consumes the head of an operand and returns its demand (R215). A word of the unpack stage returns none: its slot was freed when the
stage took it. -/
def takeOp (s : State) (x : Site) (b : Bool) (op : Opnd) : State :=
  let p := planeOf (tileAt s x.tile) b
  match feedOf p x.eng x.slot op with
  | some k =>
    let u := p.px8.get k {}
    match u.out with
    | _ :: r => modPlane s x.tile b fun p => { p with px8 := p.px8.put k { u with out := r } }
    | [] => returnDemand (modPlane s x.tile b fun p => { p with lbuf := p.lbuf.put k ((p.lbuf.get k []).drop 1) }) x.tile b k
  | none =>
    let s := modElem s x b fun el => setOpq el op ((opqOf el op).drop 1)
    match blockOf p x.eng with
    | some blk => match producerOf blk x.slot op with
      | some (j, k) => modElem s ⟨x.tile, x.eng, j⟩ b fun el => setDk el k (dkOf el k + 1)
      | none => s
    | none => s

/-- Counts POISON that arises (R211) (log 96). -/
def countPoison (s : State) (t n : Nat) : State := countEvent s (tileAt s t).tlease.toNat 1 n

/-- Marks the segment of a plane as POISONED (R211). -/
def markPoisoned (s : State) (t : Nat) (b : Bool) (c : Bool) : State :=
  if c then modPlane s t b fun p => { p with poisoned := true } else s

end Sys2Proof.Machine
end

