-- ==== Sys2Proof/Machine/Operands.lean ====
section
/-! DEFINITION. What a firing reads: its context and the values of its operands (R106, R108, R306). -/

namespace Sys2Proof.Machine

open Sys2Proof

/-- What an element sees when its turn comes: its place, plane, lease, fields, token operands and their heads. -/
structure Ctx where
  x : Site
  b : Bool
  t : Tile
  p : Plane
  e : Elem
  lid : Nat
  l : Lease
  i : Instr
  f : Fields
  ops : List Opnd
  ha : Option Token
  hb : Option Token
  hc : Option Token
  hp : Option Token
  deriving Repr

/-- The context of the element at a site of the active plane. -/
def ctxAt (s : State) (x : Site) (i : Instr) (f : Fields) : Option Ctx :=
  let t := tileAt s x.tile
  let p := activePlane t
  match elemIn p x.eng x.slot with
  | none => none
  | some e =>
    let ops := WellFormed.tokenOperands i
    let h (o : Opnd) : Option Token := if ops.contains o then headOf p x.eng x.slot e o else none
    some ⟨x, t.planeB, t, p, e, t.tlease.toNat, leaseAt s t.tlease.toNat, i, f, ops, h .a, h .b, h .c, h .p⟩

/-- The head of an operand. -/
def Ctx.head (c : Ctx) : Opnd → Option Token
  | .a => c.ha | .b => c.hb | .c => c.hc | .p => c.hp

/-- Copies the low `n` bits of a 64-bit register into every lane; from 64 bits on, the register into every chunk (R106). -/
def bcast (n : Nat) (k : BitVec 64) : Word :=
  if n ≥ 64 then ofLanes 64 (List.replicate 8 k.toNat) else ofLanes n (List.replicate (512 / n) (k.toNat % 2 ^ n))

/-- The value of an operand under lanes of `n` bits, R106. -/
def srcVal (c : Ctx) (n : Nat) (x : Src) (h : Option Token) : Word :=
  match x with
  | .tok => match h with | some t => t.pay | none => 0
  | .k0 => bcast n c.e.k0
  | .k1 => bcast n c.e.k1
  | .s => c.e.s

def Ctx.va (c : Ctx) (n : Nat) : Word := srcVal c n c.f.a c.ha
def Ctx.vb (c : Ctx) (n : Nat) : Word := srcVal c n c.f.b c.hb
def Ctx.vc (c : Ctx) (n : Nat) : Word := srcVal c n c.f.c c.hc

/-- IMM16 as an operand: sign-extended to 64 bits and copied (R106). -/
def immVal (n : Nat) (imm : BitVec 16) : Word := bcast n (imm.signExtend 64)

/-- Operand B, or the immediate under IMB (R111). -/
def Ctx.vbi (c : Ctx) (n : Nat) (imb : Bool) : Word := if imb then immVal n c.f.imm else c.vb n

/-- An address, handle or mask operand, R306: bits [63:0] of a token or of S, or the whole constant. -/
def addrVal (c : Ctx) (x : Src) (h : Option Token) : Nat :=
  match x with
  | .tok => match h with | some t => t.pay.toNat % 2 ^ 64 | none => 0
  | .k0 => c.e.k0.toNat
  | .k1 => c.e.k1.toNat
  | .s => c.e.s.toNat % 2 ^ 64

def Ctx.aa (c : Ctx) : Nat := addrVal c c.f.a c.ha
def Ctx.ab (c : Ctx) : Nat := addrVal c c.f.b c.hb

/-- Lane width of the element's type. -/
def Ctx.n (c : Ctx) : Nat := tyBits c.f.typ

/-- Bit `k` of MOD. -/
def Ctx.md (c : Ctx) (k : Nat) : Bool := c.f.md.getLsbD k

/-- The sideband of a data result: that of A, else B, else C when they are tokens, else 00 (R108). -/
def Ctx.sb (c : Ctx) : BitVec 2 :=
  match c.ha, c.hb, c.hc with
  | some t, _, _ => t.sb
  | none, some t, _ => t.sb
  | none, none, some t => t.sb
  | none, none, none => 0

/-- The P value: bit 0 of lane 0 (R47). -/
def Ctx.pv (c : Ctx) : Bool := match c.hp with | some t => t.pay.getLsbD 0 | none => false

/-- Two token operands among A, B and C carry different data sidebands (R108, log 16). -/
def Ctx.sbClash (c : Ctx) : Bool :=
  let l := [c.ha, c.hb, c.hc].filterMap id
  l.any fun t => l.any fun u => t.sb != u.sb

/-- The targets that a firing emits to under its output mode (R47, R214). -/
def Ctx.outs (c : Ctx) : List (Nat × Target) :=
  match c.f.out with
  | .steer => if c.pv then [(0, c.f.t0)] else [(1, c.f.t1)]
  | _ => targetsOf c.i c.f

/-- The lease-relative index of the element's tile. -/
def Ctx.ti (c : Ctx) : Nat := tiOf c.t

end Sys2Proof.Machine
end

