-- ==== Sys2Proof/Machine/Flags.lean ====
section
/-! DEFINITION. Floating flags (R137, R138) and the stochastic source (R87, R88). -/

namespace Sys2Proof.Machine

open Sys2Proof

/-- The OR of the flags that the lanes raise (R137). -/
def allFlags (fls : List (Nat × BitVec 5)) : BitVec 5 := fls.foldl (fun a x => a ||| x.2) 0

/-- The lowest lane that raises an enabled flag, R138. -/
def enabledLane (fpen : BitVec 5) (fls : List (Nat × BitVec 5)) : Option Nat :=
  (fls.filter fun x => x.2 &&& fpen != 0).foldl (fun (a : Option Nat) x => match a with
    | none => some x.1
    | some y => some (min y x.1)) none

/-- One step of the LFSR: the bit shifted out and the next state (R87). -/
def lfsrStep (v : BitVec 32) : Bool × BitVec 32 :=
  let n := v >>> 1
  (v.getLsbD 0, if v.getLsbD 0 then n ^^^ 0x80200003 else n)

/-- `n` steps: the number whose bit 0 is the first bit shifted out, and the next state. -/
def lfsrTake : Nat → BitVec 32 → Nat × BitVec 32
  | 0, v => (0, v)
  | n + 1, v =>
    let (o, v') := lfsrStep v
    let (r, w) := lfsrTake n v'
    ((if o then 1 else 0) + 2 * r, w)

/-- Random numbers of 16 bits for `k` output lanes, R88 (log 90). -/
def lfsrLanes : Nat → BitVec 32 → List Nat × BitVec 32
  | 0, v => ([], v)
  | k + 1, v =>
    let (r, w) := lfsrTake 16 v
    let (l, z) := lfsrLanes k w
    (r :: l, z)

/-- The seed of segment g at a configuration-relative tile index, engine and slot, R88. -/
def lfsrSeed (g ct eng slot : Nat) : BitVec 32 :=
  let v := BitVec.ofNat 32 (g * 0x9E3779B1 + ((ct * 512) ||| (eng * 128) ||| slot))
  if v = 0 then 1 else v

/-- The random numbers of a firing: drawn under RS, zeros and no draw otherwise. -/
def drawn (c : Ctx) (r : Rnd) (k : Nat) : List Nat × Option (BitVec 32) :=
  if r = .rs then (let (l, v) := lfsrLanes k c.e.lfsr; (l, some v)) else (List.replicate k 0, none)

end Sys2Proof.Machine
end

