-- ==== Sys2Proof/Machine/Fire.lean ====
section
/-! DEFINITION. Firing (R107 to R109, R212 to R214, R307): what a turn of an element does with the outcome of its instruction. -/

namespace Sys2Proof.Machine

open Sys2Proof

/-- The effects of one firing. `emits` leave on targets, each using a demand; `reserve` names targets whose demand is used now for a token
that leaves later (R312). `poison`: POISON tokens that arise. `post`: effects beyond the element. `hold`: an entry firing still to go on. -/
structure Eff where
  emits : List (Nat × Target × Token) := []
  reserve : List (Nat × Target) := []
  take : List Opnd := []
  s : Option Word := none
  nf : Bool := true
  fls : List (Nat × BitVec 5) := []
  lfsr : Option (BitVec 32) := none
  poison : Nat := 0
  hold : Bool := false
  post : State → State := id

/-- What an instruction decides: to wait on a cause (with what the wait starts, a bank's wake), to wait on none, to trap, or to fire. A detail of none
is a free value (log 8). -/
inductive Res where
  | wait (c : Stall)
  | waitPost (c : Stall) (post : State → State)
  | idle
  | trap (cause : Nat) (detail : Option Nat) (payload : BitVec 256)
  | done (e : Eff)

/-- The block is suspended by an AWAIT (R412). -/
def suspended (p : Plane) (e : Nat) : Bool :=
  match blockOf p e with
  | some b => b.elems.any fun el => el.awst.v
  | none => false

/-- The job that a handle names, while it is in JOBT (R330). -/
def jobOfHandle (l : Lease) (h : Nat) : Option Job :=
  match l.jobt.find (h % 256) with
  | some j => if j.serial.toNat = h / 256 then some j else none
  | none => none

/-- The condition of an AWAIT holds (R412). -/
def awaitMet (l : Lease) (el : Elem) : Bool :=
  if el.awst.kind then el.awst.val == 0 else (jobOfHandle l el.awst.val.toNat).isNone

/-- A block whose AWAIT has not met its condition takes no reply from LANDB (R412). -/
def blockShut (l : Lease) (p : Plane) (e : Nat) : Bool :=
  match blockOf p e with
  | some b => b.elems.any fun el => el.awst.v && !awaitMet l el
  | none => false

/-- Throttling gates issue on the tile's die in this cycle: the first so many of every eight cycles (R499) (log 57). -/
def throttledAt (s : State) (t : Nat) : Bool :=
  s.throttled.contains (Config.dieOf t) && decide (s.cycle % 8 < Config.gatedEighths (Config.dieOf t))

/-- Anchor raises hold the engine (R166, R167, R183). -/
def raising (p : Plane) (e : Nat) : Bool := match blockOf p e with | some b => decide (b.raise > 0) | none => false

/-- The element's turn may lead to a firing: its tile runs, its plane is active and in a segment (R212, R440, R469), no AWAIT suspends its
block, no anchor raise holds its engine and no capture is being written (R166, R410, R412). -/
def mayFire (s : State) (c : Ctx) : Bool :=
  tileRuns s c.x.tile && c.p.pst == .active && c.p.inSeg && !suspended c.p c.x.eng && !raising c.p c.x.eng && c.t.capture.isNone && !throttledAt s c.x.tile

/-- SNAPID of a SNAP token. -/
def snapId (t : Token) : BitVec 32 := BitVec.ofNat 32 (fld t.pay.toNat 32 32)

/-- The operands whose heads are SNAPs of an abandoned snapshot: they go before anything else happens there (R234) (log 33). -/
def deadSnaps (c : Ctx) : List Opnd :=
  c.ops.filter fun o => match c.head o with | some t => isSnap t && c.l.deadSnaps.contains (snapId t) | none => false

/-- Notes what an element waits on (R441). A wait on ring-empty is counted when it begins (R444). -/
def setWait (s : State) (c : Ctx) (w : Option Stall) : State :=
  let s := if w = some .ringEmpty ∧ c.e.wait ≠ some .ringEmpty then countEvent s c.lid 24 1 else s
  modElem s c.x c.b fun e => { e with wait := w }

/-- Takes a trap that an element met (R307, R414): the firing is suppressed and its tokens stay. -/
def trapAt (s : State) (c : Ctx) (cause : Nat) (detail : Option Nat) (payload : BitVec 256) (fl : BitVec 5) : State :=
  let (d, s) := match detail with
    | some d => (d, s)
    | none => free s
  trap (setWait s c none) c.lid cause d (placeOf c.t c.p c.x.eng c.x.slot) payload fl

/-- The emissions and reservations that need a demand. -/
def Eff.needs (e : Eff) : List (Nat × Target) := e.emits.map (fun m => (m.1, m.2.1)) ++ e.reserve

/-- A firing takes place: heads are consumed, registers written, demands used, tokens emitted and events counted (R107, R212). -/
def commit (s : State) (c : Ctx) (e : Eff) : State :=
  let bad := decide (e.poison > 0) || e.emits.any (fun m => isPoison m.2.2) ||
    e.take.any fun o => match c.head o with | some t => isPoison t | none => false
  let s := e.take.foldl (fun s o => takeOp s c.x c.b o) s
  let s := modElem s c.x c.b fun el => { el with
    s := e.s.getD el.s
    nf := if e.nf then el.nf + 1 else el.nf
    fflg := el.fflg ||| allFlags e.fls
    lfsr := e.lfsr.getD el.lfsr
    due := el.due && e.hold
    wait := none }
  let s := modPlane s c.x.tile c.b fun p => match blockOf p c.x.eng with
    | some b => withBlock p c.x.eng { b with issued := true }
    | none => p
  let s := e.reserve.foldl (fun s t => useDemand s c.x c.b t.1 t.2) s
  let s := e.emits.foldl (fun s m => emitTo s c.x c.b m.1 m.2.1 m.2.2) s
  let s := if e.nf then countEvent s c.lid 0 1 else s
  let s := markPoisoned (countPoison s c.x.tile e.poison) c.x.tile c.b bad
  e.post s

/-- What becomes of a decision: the wait is noted, the trap taken, or the firing committed once every demand is held (R212) and no enabled
floating exception suppresses it (R138). -/
def settle (s : State) (c : Ctx) (r : Res) : State :=
  match r with
  | .wait w => setWait s c (some w)
  | .waitPost w g => g (setWait s c (some w))
  | .idle => setWait s c none
  | .trap cause d pl => trapAt s c cause d pl c.e.fflg
  | .done e =>
    if !hasDemands c.p c.x c.e e.needs then setWait s c (some .noDemand)
    else match enabledLane c.l.rcd.fpen e.fls with
      | some k => trapAt s c cFpException none (payload3 (allFlags e.fls).toNat k 0) c.e.fflg
      | none => commit s c e

/-- An instruction makes requests or jobs with a consumer descriptor in K0, and so a consumer in its region (R368, DEDUCED: log 52). -/
def asksReply (i : Instr) : Bool :=
  match i with
  | .ldt _ | .stt _ | .copy _ | .gath _ => true
  | _ => false

/-- One turn of an element: `act` decides from the state and the context. -/
def fire (i : Instr) (f : Fields) (act : State → Ctx → Res) (s : State) : Host.Outcome State Fault Refusal :=
  match ctxAt s s.cur i f with
  | none => .fault (.noElement s.cur)
  | some c =>
    if !mayFire s c || !(deadSnaps c).isEmpty then .next s
    else if c.t.hold && asksReply i then .next (setWait s c (some .quiesce))
    else .next (settle s c (act s c))

/-- POISON of a cause on the given targets, with the given heads consumed (R211). It writes neither S nor NF. -/
def poisonOn (c : Ctx) (cause : Nat) (take : List Opnd) (l : List (Nat × Target)) : Eff :=
  { emits := l.map fun (k, t) => (k, t, poisonTok cause c.ti), take := take, nf := false, poison := 1 }

/-- The predicate does not let the firing execute (R213). -/
def predOff (c : Ctx) : Bool :=
  match c.f.prd with
  | .onOne => !c.pv
  | .onZero => c.pv
  | _ => false

/-- The firing rules that hold for every instruction without rules of its own: entry slots (R109), heads, the predicate (R213), the demands
of `needs` (R212) and the sideband (R108). Control tokens at the heads are left to the control steps (R224 to R228). -/
def stdWith (needs : Ctx → List (Nat × Target)) (g : State → Ctx → Res) (s : State) (c : Ctx) : Res :=
  if c.ops.isEmpty then
    if !c.e.due then .idle
    else if !hasDemands c.p c.x c.e (needs c) then .wait .noDemand
    else g s c
  else
    let hs := c.ops.map c.head
    if hs.all (·.isNone) then .idle
    else if hs.any (fun h => match h with | some t => isCtl t | none => false) then .idle
    else if hs.any (·.isNone) then .wait .noInput
    else if predOff c then .done { take := c.ops, nf := false }
    else if c.sbClash then .done (poisonOn c 1 c.ops c.outs)
    else if !hasDemands c.p c.x c.e (needs c) then .wait .noDemand
    else g s c

/-- The firing rules of an instruction that emits to each of its targets. -/
def std (g : State → Ctx → Res) : State → Ctx → Res := stdWith Ctx.outs g

/-- The firing rules of an instruction whose targets take their words later, or none (R175, R312). -/
def stdQuiet (g : State → Ctx → Res) : State → Ctx → Res := stdWith (fun _ => []) g

/-- Emissions of one word to every target of the firing, with the result's sideband. -/
def emitAll (c : Ctx) (w : Word) : List (Nat × Target × Token) := c.outs.map fun (k, t) => (k, t, ⟨w, c.sb⟩)

/-- A firing whose result goes to its targets, and into S under WS (R111). -/
def result (c : Ctx) (w : Word) (ws : Bool) : Res :=
  .done { emits := emitAll c w, take := c.ops, s := if ws then some w else none }

/-- A standard instruction that computes one word from its context. -/
def pureFire (i : Instr) (f : Fields) (ws : Bool) (g : Ctx → Word) : State → Host.Outcome State Fault Refusal :=
  fire i f (std fun _ c => result c (g c) ws)

end Sys2Proof.Machine
end

