-- ==== Sys2Proof/Machine/Dataflow.lean ====
section
/-! DEFINITION. The dataflow and control instructions (R236 to R250, R504). Where a head is a control token that an instruction has no rule
of its own for, its turn does nothing and the control steps of Control.lean act. -/

namespace Sys2Proof.Machine

open Sys2Proof

/-- The outcome when a head is missing among the operands that the next firing needs (R212, R441): no-input while one of them is held, idle
otherwise. -/
def missingOf (c : Ctx) (need : List Opnd) : Res := if need.any (fun o => (c.head o).isSome) then .wait .noInput else .idle

/-- The same for a firing that needs every token operand. -/
def missing (c : Ctx) : Res := missingOf c c.ops

/-- The same while P, which names the operand that a firing takes, has no head: the other operands are needed for certain only when both
are held (log 98). -/
def missingP (c : Ctx) : Res := if c.ha.isSome && c.hb.isSome then .wait .noInput else .idle

/-- S with its low `n` bits replaced. -/
def sLow (c : Ctx) (n v : Nat) : Word := low (setFld c.e.s.toNat 0 n v)

/-- A field of S. -/
def sFld (c : Ctx) (lo len : Nat) : Nat := fld c.e.s.toNat lo len

/-- A token to every target of the element. -/
def toAll (c : Ctx) (t : Token) : List (Nat × Target × Token) := (targetsOf c.i c.f).map fun (k, g) => (k, g, t)

/-- An empty row: BUBBLE, or BUBBLE_END when it ends the stream. -/
def bubble (last : Bool) : Token := ctl (if last then kBUBBLE_END else kBUBBLE) 0

/-- MOV, R236. -/
def execMov (f : Fields) (s : State) : Host.Outcome State Fault Refusal := pureFire (.mov f) f false (fun c => c.va c.n) s

/-- FAN, R236: T0, T1 and, when V2 is set, T2. -/
def execFan (f : Fields) (s : State) : Host.Outcome State Fault Refusal := pureFire (.fan f) f false (fun c => c.va c.n) s

/-- STEER, R236: T0 when P is 1, T1 when P is 0. -/
def execSteer (f : Fields) (s : State) : Host.Outcome State Fault Refusal := pureFire (.steer f) f false (fun c => c.va c.n) s

/-- A head that MERGE moves as part of a row: data, BUBBLE, BUBBLE_END or POISON (R237) (log 41). -/
def rowish (t : Token) : Bool := isData t || isBubble t || isPoison t

/-- The decision of MERGE, R237 and R504. S[1:0] CUR, S[2] FA, S[3] FB. -/
def mergeAct (_ : State) (c : Ctx) : Res :=
  let cur := sFld c 0 2
  let fa := sFld c 2 1
  let fb := sFld c 3 1
  let takes (h : Option Token) (fin : Nat) : Bool := match h with | some t => rowish t && decide (fin = 0) | none => false
  let poison (h : Option Token) : Bool := match h with | some t => isPoison t | none => false
  let hard (h : Option Token) : Bool := match h with | some t => isCtl t && !isBubble t | none => false
  -- two control heads between rows clear FA and FB; a POISON among them is then moved in MERGE's own order (R227 does not apply) (log 98)
  let both := decide (cur = 0) && (!takes c.ha fa && !takes c.hb fb) && (match c.ha, c.hb with | some t, some u => isCtl t && isCtl u | _, _ => false)
  let (fa, fb) := if both && (poison c.ha || poison c.hb) then (0, 0) else (fa, fb)
  let cur := if cur = 0 then (if takes c.ha fa then 1 else if takes c.hb fb then 2 else 0) else cur
  if cur = 0 then
    (match c.ha, c.hb with
     | some _, some _ => .idle
     -- a control head waits for its partner; a row of a finished input is not needed
     | _, _ => if hard c.ha || hard c.hb then .wait .noInput else .idle)
  else
    let (op, h, oh, ofin) : Opnd × Option Token × Option Token × Nat := if cur = 1 then (.a, c.ha, c.hb, fb) else (.b, c.hb, c.ha, fa)
    match h with
    | none => .idle
    | some t =>
      let pack (k x y : Nat) : Word := sLow c 4 (k + 4 * x + 8 * y)
      if !rowish t then
        .done { poisonOn c 8 [] (targetsOf c.i c.f) with
          s := some (pack 0 (if cur = 1 then 1 else fa) (if cur = 1 then fb else 1)) }
      else
        let ends := endsStream t
        let otherDone := decide (ofin = 1) || (match oh with | some u => !rowish u | none => false)
        let out : Token := if ends && !otherDone then (if isCtl t then bubble false else { t with sb := 0b10 }) else t
        let fa' := if ends && decide (cur = 1) then 1 else fa
        let fb' := if ends && decide (cur = 2) then 1 else fb
        .done { emits := toAll c out, take := [op], s := some (pack (if endsRow t then 0 else cur) fa' fb'), nf := isData t }

/-- MERGE, R237. -/
def execMerge (f : Fields) (s : State) : Host.Outcome State Fault Refusal := fire (.merge f) f mergeAct s

/-- MERGEP, R238 (log 91). -/
def execMergep (f : Fields) (s : State) : Host.Outcome State Fault Refusal :=
  fire (.mergep f) f (fun _ c =>
    match c.hp with
    | none => missingP c
    | some p =>
      if isCtl p then .idle
      else
        let (op, h) : Opnd × Option Token := if p.pay.getLsbD 0 then (.a, c.ha) else (.b, c.hb)
        match h with
        | none => missing c
        | some t =>
          if isCtl t then .done (poisonOn c 8 [.p] (targetsOf c.i c.f))
          else .done { emits := toAll c t, take := [.p, op] }) s

/-- GATE, R239 and R504. S[0] in row, S[1] the decision. -/
def execGate (f : Fields) (s : State) : Host.Outcome State Fault Refusal :=
  fire (.gate f) f (fun _ c =>
    let inRow := decide (sFld c 0 1 = 1)
    match c.ha with
    | none => if inRow then .idle else missing c
    | some t =>
      if isCtl t && !isBubble t then
        if inRow then .done { poisonOn c 8 [] (targetsOf c.i c.f) with s := some (sLow c 1 0) } else .idle
      else
        let go (pass : Bool) (take : List Opnd) : Res :=
          let ends := endsRow t
          let out : List (Nat × Target × Token) :=
            if pass then toAll c t
            else if ends && (endsStream t || f.imm.getLsbD 0) then toAll c (bubble (endsStream t)) else []
          .done { emits := out, take := take, nf := isData t,
                  s := some (sLow c 2 ((if ends then 0 else 1) + (if pass then 2 else 0))) }
        if inRow then go (decide (sFld c 1 1 = 1)) [.a]
        else match c.hp with
          | none => missing c
          | some p => if isCtl p then .idle else go (p.pay.getLsbD 0) [.p, .a]) s

/-- DROP, R240. -/
def execDrop (f : Fields) (s : State) : Host.Outcome State Fault Refusal :=
  fire (.drop f) f (fun _ c =>
    match c.ha with
    | none => missing c
    | some t =>
      if isSwitch t then .idle
      else .done { emits := if f.imm.getLsbD 0 && endsStream t then toAll c ⟨0, 0b11⟩ else [], take := [.a], nf := isData t,
                   post := passSnap c t }) s
where
  /-- A consumed SNAP has passed the element (R410). -/
  passSnap (c : Ctx) (t : Token) (s : State) : State :=
    if isSnap t then modElem s c.x c.b fun e => { e with snaps := e.snaps ++ [BitVec.ofNat 32 (fld t.pay.toNat 32 32)] } else s

/-- CARRY, R243. S[0] is LOOP. A control token at A outside the loop is forwarded by the control steps. A SWITCH at P or B in the loop is held as
R228 says, which R243 does not name (log 105). -/
def execCarry (f : Fields) (s : State) : Host.Outcome State Fault Refusal :=
  fire (.carry f) f (fun _ c =>
    let all := targetsOf c.i c.f
    if sFld c 0 1 = 0 then
      match f.a, c.ha with
      | .tok, none => .idle
      | .tok, some t => if isCtl t then .idle else .done { emits := toAll c t, take := [.a], s := some (sLow c 1 1) }
      | _, _ =>
        -- the firing needs no head; control tokens at every operand align instead (R225)
        if (c.ops.map c.head).all (fun h => match h with | some t => isCtl t | none => false) then .idle
        else .done { emits := toAll c ⟨c.va c.n, 0⟩, s := some (sLow c 1 1) }
    else
      match c.hp with
      | none => .idle
      | some p =>
        if isCtl p then
          if isSwitch p then .idle else .done { poisonOn c 8 [.p] all with s := some (sLow c 1 0) }
        else if p.pay.getLsbD 0 then
          match c.hb with
          | none => missing c
          | some t =>
            if isCtl t then
              if isSwitch t then .idle else .done { poisonOn c 8 [.p, .b] all with s := some (sLow c 1 0) }
            else .done { emits := toAll c t, take := [.p, .b] }
        else .done { take := [.p], s := some (sLow c 1 0) }) s

/-- INVAR, R243. A control token at A while P holds data is forwarded by the control steps. -/
def execInvar (f : Fields) (s : State) : Host.Outcome State Fault Refusal :=
  fire (.invar f) f (fun _ c =>
    match c.hp, c.ha with
    | some p, some t =>
      if isCtl p || isCtl t then .idle
      else if p.pay.getLsbD 0 then .done { emits := toAll c t, take := [.p] }
      else .done { take := [.p, .a] }
    | _, _ => missing c) s

/-- COUNT and RPT, R244. k is S[31:0] (log 24). -/
def countAct (rpt : Bool) (_ : State) (c : Ctx) : Res :=
  let hs := c.ops.map c.head
  if c.ops.isEmpty && !c.e.due then .idle
  else if !c.ops.isEmpty && hs.any (·.isNone) then missing c
  else if hs.any (fun h => match h with | some t => isCtl t | none => false) then .idle
  else
    let n := lane c.n (c.va c.n) 0
    let k := sFld c 0 32
    let endA := match c.ha with | some t => t.sb == 0b11 | none => false
    if !hasDemands c.p c.x c.e (targetsOf c.i c.f) then .wait .noDemand
    else if n ≥ 2 ^ 32 then .trap cIterRange none (payload3 n 0 0)
    else if n = 0 then .done { emits := toAll c (bubble endA), take := c.ops, nf := false }
    else
      let w : Word := if rpt then c.vb c.n else low (wrap c.n ((lane c.n (c.vb c.n) 0 : Int) + k * c.f.imm.toInt))
      if k + 1 = n then
        .done { emits := toAll c ⟨w, if endA then 0b11 else 0b10⟩, take := c.ops, s := some (sLow c 32 0) }
      else .done { emits := toAll c ⟨w, 0⟩, s := some (sLow c 32 (k + 1)) }

/-- COUNT, R244. -/
def execCount (f : Fields) (s : State) : Host.Outcome State Fault Refusal := fire (.count f) f (countAct false) s

/-- RPT, R244. -/
def execRpt (f : Fields) (s : State) : Host.Outcome State Fault Refusal := fire (.rpt f) f (countAct true) s

/-- EMITC, R245. Emitting a control token is no execution (R224). -/
def execEmitc (f : Fields) (s : State) : Host.Outcome State Fault Refusal :=
  fire (.emitc f) f (std fun _ c =>
    let code := f.imm.toNat % 256
    if code = kPOISON then .done (poisonOn c 255 c.ops c.outs)
    else
      let g := if code = kSOT ∨ code = kEOT then c.p.segg.toNat else 0
      let w := low (code + f.imm.toNat / 256 % 4 * 256 + g * 2 ^ 32)
      .done { emits := c.outs.map fun (k, t) => (k, t, ⟨w, sbCtl⟩), take := c.ops, nf := false }) s

/-- TESTC, R246. -/
def execTestc (f : Fields) (s : State) : Host.Outcome State Fault Refusal :=
  fire (.testc f) f (fun _ c =>
    match c.ha with
    | none => missing c
    | some t =>
      let pCtl := match c.hp with | some p => isCtl p | none => false
      if isSwitch t || pCtl then .idle
      else if c.ops.contains .p && c.hp.isNone then missing c
      else if predOff c then .done { take := c.ops, nf := false, post := execDrop.passSnap c t }
      else
        let code := f.imm.toNat % 256
        let hit := isCtl t && (decide (code = 0) || decide (codeOf t = code))
        let w : Token := ⟨low (if hit then 1 else 0), if isCtl t then 0 else t.sb⟩
        .done { emits := (targetsOf c.i c.f).map fun (k, g) => (k, g, if k = 0 then w else t), take := c.ops,
                post := execDrop.passSnap c t }) s

/-- MARK, R241. -/
def execMark (f : Fields) (s : State) : Host.Outcome State Fault Refusal :=
  fire (.mark f) f (std fun _ c =>
    let sb : BitVec 2 := if c.pv && c.sb != 0b11 then (if f.imm.getLsbD 0 then 0b11 else 0b10) else c.sb
    .done { emits := toAll c ⟨c.va c.n, sb⟩, take := c.ops }) s

/-- STRIP, R241. S[31:0] counts the open row; T1 takes the count at each row end, 0 for an empty row too (log 98). -/
def execStrip (f : Fields) (s : State) : Host.Outcome State Fault Refusal :=
  fire (.strip f) f (fun _ c =>
    match c.ha with
    | none => missing c
    | some t =>
      if isCtl t && !isBubble t then .idle
      else
        let cnt := (sFld c 0 32 + if isData t then 1 else 0) % 2 ^ 32
        let ends := endsRow t
        let d : List (Nat × Target × Token) := if isData t then [(0, f.t0, ⟨t.pay, 0⟩)] else []
        let n : List (Nat × Target × Token) :=
          if ends && f.out == .two then [(1, f.t1, ⟨low cnt, if endsStream t then 0b11 else 0b10⟩)] else []
        .done { emits := d ++ n, take := [.a], s := some (sLow c 32 (if ends then 0 else cnt)), nf := isData t }) s

/-- BUB, R242. -/
def execBub (f : Fields) (s : State) : Host.Outcome State Fault Refusal :=
  fire (.bub f) f (std fun _ c =>
    .done { emits := c.outs.map fun (k, t) => (k, t, bubble (c.sb == 0b11)), take := c.ops, nf := false }) s

/-- SEQT, R248. -/
def execSeqt (f : Fields) (s : State) : Host.Outcome State Fault Refusal :=
  fire (.seqt f) f (std fun _ c =>
    let tag := sFld c 0 32
    let w := low (setFld (c.va 512).toNat (32 * (f.imm.toNat % 16)) 32 tag)
    .done { emits := emitAll c w, take := c.ops, s := some (sLow c 32 (tag + 1)) }) s

/-- The tokens that stand on a channel as its element sees them. -/
def chanWindow (p : Plane) (k : Nat) : List Token :=
  let x := p.px8.get k {}
  if x.carrier || !x.out.isEmpty then seenOut p k else seenTokens p k

/-- Removes the token at a place of a channel and frees its slot (R215, R249). -/
def takeFrom (s : State) (t : Nat) (b : Bool) (k i : Nat) : State :=
  let p := planeOf (tileAt s t) b
  let x := p.px8.get k {}
  if x.carrier || !x.out.isEmpty then modPlane s t b fun p => { p with px8 := p.px8.put k { x with out := x.out.eraseIdx i } }
  else returnDemand (modPlane s t b fun p => { p with lbuf := p.lbuf.put k ((p.lbuf.get k []).eraseIdx i) }) t b k

/-- REORD, R249. S[31:0] is NEXT. -/
def execReord (f : Fields) (s : State) : Host.Outcome State Fault Refusal :=
  fire (.reord f) f (fun _ c =>
    match feedOf c.p c.x.eng c.x.slot .a with
    | none => .idle
    | some k =>
      let win := chanWindow c.p k
      let ahead := win.takeWhile isData
      let sh := 32 * (f.imm.toNat % 16)
      let next := sFld c 0 32
      match ahead.findIdx? (fun t => decide (fld t.pay.toNat sh 32 = next)) with
      | some i =>
        match ahead[i]? with
        | some t =>
          let w := if f.imm.getLsbD 4 then low (setFld t.pay.toNat sh 32 0) else t.pay
          .done { emits := toAll c ⟨w, t.sb⟩, s := some (sLow c 32 (next + 1)), post := fun s => takeFrom s c.x.tile c.b k i }
        | none => .idle
      | none =>
        if ahead.isEmpty then .idle
        else if (win.filter isData).length ≥ (c.p.salloc.get k 0).toNat then .trap cReordWindow none (payload3 next 0 0)
        else .wait .noInput) s

/-- The state of INTX and UNION in S (R247). -/
structure XState where
  pend : Nat
  pv : Bool
  da : Bool
  db : Bool
  xa : Bool
  xb : Bool
  deriving DecidableEq, Repr

def xRead (s : Word) : XState :=
  ⟨s.toNat % 2 ^ 128, s.getLsbD 511, s.getLsbD 509, s.getLsbD 508, s.getLsbD 507, s.getLsbD 506⟩

def xWrite (x : XState) : Word :=
  let b (v : Bool) (k : Nat) : Nat := if v then 2 ^ k else 0
  low (x.pend + b x.pv 511 + b x.da 509 + b x.db 508 + b x.xa 507 + b x.xb 506)

/-- Consumes a data token of A or B: 10 sets its D, 11 its D and X. -/
def xEat (x : XState) (isB : Bool) (t : Token) : XState :=
  let row := t.sb == 0b10 || t.sb == 0b11
  let str := t.sb == 0b11
  if isB then { x with db := x.db || row, xb := x.xb || str } else { x with da := x.da || row, xa := x.xa || str }

/-- put(w): the pending word leaves with 00 and w takes its place. -/
def xPut (x : XState) (w : Nat) : XState × List Token :=
  ({ x with pend := w, pv := true }, if x.pv then [⟨low x.pend, 0⟩] else [])

/-- The firing of INTX (uni false) and UNION, R247. Where both rows are closed, PV = 0 and both heads are control tokens of which one is a BUBBLE*,
the action list comes before the paragraph that names R225 (log 105). -/
def xAct (uni : Bool) (_ : State) (c : Ctx) : Res :=
  let x := xRead c.e.s
  let key (t : Token) : Nat := t.pay.toNat % 2 ^ 32
  let side (t : Token) : Nat := t.pay.toNat % 2 ^ 64
  let fin (x : XState) (out : List Token) (take : List Opnd) (nf : Bool) : Res :=
    .done { emits := (out.map fun t => toAll c t).flatten, take := take, s := some (xWrite x), nf := nf }
  let bub (h : Option Token) : Bool := match h with | some t => isBubble t | none => false
  let hard (h : Option Token) : Bool := match h with | some t => isCtl t && !isBubble t | none => false
  let endB (h : Option Token) : Bool := match h with | some t => endsStream t | none => false
  let takeA (t : Token) : Res :=
    let y := xEat x false t
    if uni then (let (z, o) := xPut y (side t + key t * 2 ^ 64); fin z o [.a] true) else fin y [] [.a] true
  let takeB (t : Token) : Res :=
    let y := xEat x true t
    if uni then (let (z, o) := xPut y (key t + side t * 2 ^ 64); fin z o [.b] true) else fin y [] [.b] true
  if !x.da && bub c.ha then fin { x with da := true, xa := endB c.ha } [] [.a] false
  else if !x.db && bub c.hb then fin { x with db := true, xb := endB c.hb } [] [.b] false
  else if !x.da && !x.db && !x.pv && (hard c.ha || hard c.hb) && (c.ha.isNone || c.hb.isNone) then missing c
  else if !x.da && !x.db && !x.pv && hard c.ha && hard c.hb then .idle
  else if !x.da && hard c.ha then
    .done { poisonOn c 8 [] (targetsOf c.i c.f) with s := some (xWrite { x with da := true, xa := true }) }
  else if !x.db && hard c.hb then
    .done { poisonOn c 8 [] (targetsOf c.i c.f) with s := some (xWrite { x with db := true, xb := true }) }
  else if !x.da && !x.db then
    match c.ha, c.hb with
    | some a, some b =>
      if key a < key b then takeA a
      else if key a > key b then takeB b
      else
        let (z, o) := xPut (xEat (xEat x false a) true b) (side a + side b * 2 ^ 64)
        fin z o [.a, .b] true
    | _, _ => missing c
  else if !x.da then (match c.ha with | some a => takeA a | none => .idle)
  else if !x.db then (match c.hb with | some b => takeB b | none => .idle)
  else
    let last := x.xa && x.xb
    let y : XState := { x with pv := false, da := x.xa && !last, db := x.xb && !last, xa := x.xa && !last, xb := x.xb && !last }
    if x.pv then fin y [⟨low x.pend, if last then 0b11 else 0b10⟩] [] true
    else fin y [bubble last] [] false

/-- INTX, R247. -/
def execIntx (f : Fields) (s : State) : Host.Outcome State Fault Refusal := fire (.intx f) f (xAct false) s

/-- UNION, R247. -/
def execUnion (f : Fields) (s : State) : Host.Outcome State Fault Refusal := fire (.union f) f (xAct true) s

/-- Output k of ROUTE: channel c0 + k of T0's port. -/
def routeOut (f : Fields) (k : Nat) : Target :=
  match f.t0 with
  | .port p c z => .port p (BitVec.ofNat 3 (c.toNat + k)) z
  | t => t

/-- Every output of ROUTE, and T1 (R250). -/
def routeAll (f : Fields) : List (Nat × Target) :=
  (List.range (f.imm.toNat % 8 + 1)).map (fun k => (0, routeOut f k)) ++ (if f.out == .two then [(1, f.t1)] else [])

/-- DCNT of an output channel after a firing that emits to the given targets (R250). The demands of a join's output are used by the join. -/
def countAfter (c : Ctx) (emits : List (Nat × Target)) (o : Target) : Nat :=
  match o with
  | .elem _ _ => 0
  | .port p ch _ =>
    let key := chKey p.toNat ch.toNat
    c.p.dcnt.get key 0 - if c.p.reduce.contains key then 0 else (emits.filter fun e => sameTarget e (0, o)).length

/-- ROUTE, R250 and R504. S[2:0] k, S[3] in row. The T1 word of a row that starts with an empty row has sideband 00, which R250 does not give
(log 105). -/
def execRoute (f : Fields) (s : State) : Host.Outcome State Fault Refusal :=
  fire (.route f) f (fun _ c =>
    let inRow := decide (sFld c 3 1 = 1)
    let nout := f.imm.toNat % 8 + 1
    match c.ha with
    | none => if inRow then .idle else missing c
    | some t =>
      let row := isData t || isBubble t
      if inRow then
        let k := sFld c 0 3
        if !row then .done { poisonOn c 8 [] [(0, routeOut f k)] with s := some (sLow c 4 k) }
        else .done { emits := [(0, routeOut f k, t)], take := [.a], s := some (sLow c 4 (k + if endsRow t then 0 else 8)), nf := isData t }
      else if !row then .idle
      else
        let go (k : Nat) (take : List Opnd) : Res :=
          if k ≥ nout then .trap cRouteKey none (payload3 k 0 0)
          else
            let lanes := (List.range nout).map fun j => countAfter c ((0, routeOut f k) :: if f.out == .two then [(1, f.t1)] else []) (routeOut f j)
            let d : List (Nat × Target × Token) :=
              if f.out == .two then [(1, f.t1, ⟨ofLanes 8 lanes, if isData t then t.sb else 0⟩)] else []
            .done { emits := (0, routeOut f k, t) :: d, take := take, s := some (sLow c 4 (k + if endsRow t then 0 else 8)), nf := isData t }
        if f.b == .tok then
          match c.hb with
          | none => missing c
          | some b => if isCtl b then .idle else go (lane 32 b.pay 0) [.b, .a]
        else go (lane 32 (c.vb 32) 0) [.a]) s

end Sys2Proof.Machine
end

