-- ==== Sys2Proof/Machine/Integer.lean ====
section
/-! DEFINITION. Integer, bit, compare, select, address, work-identifier, coordinate and hash instructions (R106 to R129). -/

namespace Sys2Proof.Machine

open Sys2Proof

/-- WS, MOD[1], R111. -/
def wsOf (f : Fields) : Bool := f.md.getLsbD 1

/-- Lane function of two operands with exact arithmetic and R111 narrowing; `imb` is the place of IMB. -/
def arith2 (c : Ctx) (sat : Bool) (g : Int → Int → Int) : Word :=
  let sg := tySigned c.f.typ
  map2 c.n (fun a b => narrow sat sg c.n (g (rd sg c.n a) (rd sg c.n b))) (c.va c.n) (c.vbi c.n (c.md 0))

/-- Lane function of one signed operand. -/
def arith1 (c : Ctx) (sat : Bool) (g : Int → Int) : Word :=
  let sg := tySigned c.f.typ
  map1 c.n (fun a => narrow sat sg c.n (g (rd sg c.n a))) (c.va c.n)

/-- Bits of two operands; the result does not depend on TYP (R116). -/
def bits2 (c : Ctx) (g : Word → Word → Word) : Word := g (c.va c.n) (c.vbi c.n (c.md 0))

/-- ADD, R112. -/
def execAdd (f : Fields) (s : State) : Host.Outcome State Fault Refusal :=
  pureFire (.add f) f (wsOf f) (fun c => arith2 c (c.md 2) (· + ·)) s

/-- SUB, R112. -/
def execSub (f : Fields) (s : State) : Host.Outcome State Fault Refusal :=
  pureFire (.sub f) f (wsOf f) (fun c => arith2 c (c.md 2) (· - ·)) s

/-- MUL, R112. -/
def execMul (f : Fields) (s : State) : Host.Outcome State Fault Refusal :=
  pureFire (.mul f) f (wsOf f) (fun c => arith2 c (c.md 2) (· * ·)) s

/-- MULH, R112: the high half of the exact product. -/
def execMulh (f : Fields) (s : State) : Host.Outcome State Fault Refusal :=
  pureFire (.mulh f) f (wsOf f) (fun c => arith2 c false fun a b => a * b / 2 ^ c.n) s

/-- MAD, R113: exact, narrowed once. -/
def execMad (f : Fields) (s : State) : Host.Outcome State Fault Refusal :=
  pureFire (.mad f) f (wsOf f) (fun c =>
    let sg := tySigned f.typ
    map3 c.n (fun a b d => narrow (c.md 2) sg c.n (rd sg c.n a * rd sg c.n b + rd sg c.n d)) (c.va c.n) (c.vb c.n) (c.vc c.n)) s

/-- MIN, R112. -/
def execMin (f : Fields) (s : State) : Host.Outcome State Fault Refusal :=
  pureFire (.min f) f (wsOf f) (fun c => arith2 c false fun a b => if a ≤ b then a else b) s

/-- MAX, R112. -/
def execMax (f : Fields) (s : State) : Host.Outcome State Fault Refusal :=
  pureFire (.max f) f (wsOf f) (fun c => arith2 c false fun a b => if a ≥ b then a else b) s

/-- ABS, R114. -/
def execAbs (f : Fields) (s : State) : Host.Outcome State Fault Refusal :=
  pureFire (.abs f) f (wsOf f) (fun c => arith1 c (c.md 2) fun a => if a < 0 then -a else a) s

/-- NEG, R114. -/
def execNeg (f : Fields) (s : State) : Host.Outcome State Fault Refusal :=
  pureFire (.neg f) f (wsOf f) (fun c => arith1 c (c.md 2) fun a => -a) s

/-- CLAMP, R115: min(max(A, B), C). -/
def execClamp (f : Fields) (s : State) : Host.Outcome State Fault Refusal :=
  pureFire (.clamp f) f (wsOf f) (fun c =>
    let sg := tySigned f.typ
    map3 c.n (fun a b d => wrap c.n (min (max (rd sg c.n a) (rd sg c.n b)) (rd sg c.n d))) (c.va c.n) (c.vb c.n) (c.vc c.n)) s

/-- AND, R116. -/
def execAnd (f : Fields) (s : State) : Host.Outcome State Fault Refusal :=
  pureFire (.and f) f (wsOf f) (fun c => bits2 c (· &&& ·)) s

/-- OR, R116. -/
def execOr (f : Fields) (s : State) : Host.Outcome State Fault Refusal :=
  pureFire (.or f) f (wsOf f) (fun c => bits2 c (· ||| ·)) s

/-- XOR, R116. -/
def execXor (f : Fields) (s : State) : Host.Outcome State Fault Refusal :=
  pureFire (.xor f) f (wsOf f) (fun c => bits2 c (· ^^^ ·)) s

/-- ANDN, R116. -/
def execAndn (f : Fields) (s : State) : Host.Outcome State Fault Refusal :=
  pureFire (.andn f) f (wsOf f) (fun c => bits2 c fun a b => a &&& ~~~b) s

/-- NOT, R116. -/
def execNot (f : Fields) (s : State) : Host.Outcome State Fault Refusal :=
  pureFire (.not f) f (wsOf f) (fun c => ~~~(c.va c.n)) s

/-- A shift of each lane by the count of the same lane of B, or by IMM16[7:0] (R117). -/
def shift2 (c : Ctx) (g : Nat → Nat → Nat) : Word :=
  if c.md 0 then map1 c.n (fun a => g a (c.f.imm.toNat % 256)) (c.va c.n) else map2 c.n g (c.va c.n) (c.vb c.n)

/-- SHL, R117. -/
def execShl (f : Fields) (s : State) : Host.Outcome State Fault Refusal :=
  pureFire (.shl f) f (wsOf f) (fun c => shift2 c fun a k => if k ≥ c.n then 0 else a * 2 ^ k) s

/-- SHR, R117. -/
def execShr (f : Fields) (s : State) : Host.Outcome State Fault Refusal :=
  pureFire (.shr f) f (wsOf f) (fun c => shift2 c fun a k => if k ≥ c.n then 0 else a / 2 ^ k) s

/-- SAR, R117. -/
def execSar (f : Fields) (s : State) : Host.Outcome State Fault Refusal :=
  pureFire (.sar f) f (wsOf f) (fun c => shift2 c fun a k =>
    if k ≥ c.n then (if sx c.n a < 0 then 2 ^ c.n - 1 else 0) else wrap c.n (sx c.n a / 2 ^ k)) s

/-- ROT, R117: left rotate by the count modulo n. -/
def execRot (f : Fields) (s : State) : Host.Outcome State Fault Refusal :=
  pureFire (.rot f) f (wsOf f) (fun c => shift2 c fun a k => a * 2 ^ (k % c.n) % 2 ^ c.n + a / 2 ^ (c.n - k % c.n)) s

/-- CLZ, R118. -/
def execClz (f : Fields) (s : State) : Host.Outcome State Fault Refusal :=
  pureFire (.clz f) f (wsOf f) (fun c => map1 c.n (fun a => c.n - bitLen a) (c.va c.n)) s

/-- POPC, R118. -/
def execPopc (f : Fields) (s : State) : Host.Outcome State Fault Refusal :=
  pureFire (.popc f) f (wsOf f) (fun c => map1 c.n (popCount c.n) (c.va c.n)) s

/-- BREV, R118. -/
def execBrev (f : Fields) (s : State) : Host.Outcome State Fault Refusal :=
  pureFire (.brev f) f (wsOf f) (fun c => map1 c.n (bitRev c.n) (c.va c.n)) s

/-- POS and LEN of EXT and INS, R119. -/
def posOf (f : Fields) : Nat := f.imm.toNat / 256 % 64
def lenOf (f : Fields) : Nat := f.imm.toNat % 64 + 1

/-- EXT, R120. -/
def execExt (f : Fields) (s : State) : Host.Outcome State Fault Refusal :=
  pureFire (.ext f) f (wsOf f) (fun c => map1 c.n (fun a =>
    let v := fld a (posOf f) (lenOf f)
    if tySigned f.typ then wrap c.n (sx (lenOf f) v) else v) (c.va c.n)) s

/-- INS, R120. -/
def execIns (f : Fields) (s : State) : Host.Outcome State Fault Refusal :=
  pureFire (.ins f) f (wsOf f) (fun c => map2 c.n (fun a b => setFld a (posOf f) (lenOf f) b) (c.va c.n) (c.vb c.n)) s

/-- COND 0 to 5, R52. -/
def condHolds (cond : Nat) (a b : Int) : Bool :=
  match cond with
  | 0 => decide (a = b)
  | 1 => decide (a ≠ b)
  | 2 => decide (a < b)
  | 3 => decide (a ≤ b)
  | 4 => decide (a > b)
  | _ => decide (a ≥ b)

/-- CMP, R121. -/
def execCmp (f : Fields) (s : State) : Host.Outcome State Fault Refusal :=
  pureFire (.cmp f) f false (fun c =>
    let sg := tySigned f.typ
    map2 c.n (fun a b => if condHolds (f.md.toNat % 16) (rd sg c.n a) (rd sg c.n b) then 1 else 0) (c.va c.n) (c.vbi c.n (c.md 4))) s

/-- SEL, R122. -/
def execSel (f : Fields) (s : State) : Host.Outcome State Fault Refusal :=
  pureFire (.sel f) f (wsOf f) (fun c => map3 c.n (fun a b d => if d % 2 = 1 then a else b) (c.va c.n) (c.vb c.n) (c.vc c.n)) s

/-- ADDR, R123. -/
def execAddr (f : Fields) (s : State) : Host.Outcome State Fault Refusal :=
  pureFire (.addr f) f false (fun c =>
    let sh := f.imm.toNat % 64
    let ct := c.md 0
    map3 c.n (fun a b d =>
      let off := (b * 2 ^ sh + (if ct then d else 0)) % 2 ^ c.n
      if c.md 2 then a / 2 ^ 20 % 2 ^ 14 * 2 ^ 20 + (a + off) % 2 ^ 20 else (a + off) % 2 ^ c.n) (c.va c.n) (c.vb c.n)
      (if ct then c.vc c.n else 0)) s

/-- The fields of a launch header, Table 1.5. -/
def launchNlev (h : BitVec 128) : Nat := fld h.toNat 125 3
def launchSched (h : BitVec 128) : Nat := fld h.toNat 122 3
/-- Width of level k, 1 to 6. -/
def launchW (h : BitVec 128) (k : Nat) : Nat := if 1 ≤ k ∧ k ≤ 6 then fld h.toNat (115 - 7 * (k - 1)) 7 else 0
def launchGcnt (h : BitVec 128) : Nat := fld h.toNat 48 32
def launchIcnt (h : BitVec 128) : Nat := fld h.toNat 16 32
/-- The sum of the widths of levels above `k`, up to NLEV. -/
def widthsBelow (h : BitVec 128) (k : Nat) : Nat :=
  ((List.range 7).filter fun j => k < j ∧ j ≤ launchNlev h).foldl (fun a j => a + launchW h j) 0

/-- The work identifier, R22. -/
def widOf (h : BitVec 128) (g i : Nat) : Nat := (g * 2 ^ widthsBelow h (launchSched h)) ||| i

/-- The result of WID for a level, R124. -/
def widLevel (n : Node) (g i lev : Nat) : Nat :=
  let h := n.launch
  match lev with
  | 0 => widOf h g i
  | 7 => g
  | 8 => i
  | 9 => n.gcur.toNat
  | 10 => launchIcnt h
  | k => if k > launchNlev h then 0 else fld (widOf h g i) (widthsBelow h k) (launchW h k)

/-- The node of the element's plane as its sequencer holds it. -/
def Ctx.node (c : Ctx) : Node := (nodeAt c.l c.p.graph c.p.node).getD {}

/-- WID, R124 to R126. -/
def execWid (f : Fields) (s : State) : Host.Outcome State Fault Refusal :=
  fire (.wid f) f (std fun _ c =>
    let i := c.e.nf.toNat
    if i ≥ launchIcnt c.node.launch then .trap cIterRange none (payload3 (c.va 64).toNat 0 0)
    else result c (low (widLevel c.node c.p.segg.toNat i (f.imm.toNat % 16) % 2 ^ c.n)) false) s

/-- LXY, R127. -/
def execLxy (f : Fields) (s : State) : Host.Outcome State Fault Refusal :=
  pureFire (.lxy f) f false (fun c =>
    let lx := regX c.t.tlxy
    let ly := regY c.t.tlxy
    let ox := regX c.p.rorg
    let oy := regY c.p.rorg
    let d (a b : Int) : Nat := wrap c.n (a - b)
    ofLanes c.n [lx, ly, regX c.t.lext + 1, regY c.t.lext + 1, ox, oy, d lx ox, d ly oy, d ox (dispX c.p.rdsp), d oy (dispY c.p.rdsp)]) s

/-- HASH of one lane, R129. -/
def hash64 (v : Nat) : Nat :=
  let x (a b : Nat) : Nat := Nat.xor a b
  let h := x v (v / 2 ^ 32)
  let h := h * 0xD6E8FEB86659FD93 % 2 ^ 64
  let h := x h (h / 2 ^ 32)
  let h := h * 0xD6E8FEB86659FD93 % 2 ^ 64
  x h (h / 2 ^ 32)

/-- HASH of one lane, R129. -/
def hash32 (v : Nat) : Nat :=
  let x (a b : Nat) : Nat := Nat.xor a b
  let h := x v (v / 2 ^ 16)
  let h := h * 0x7FEB352D % 2 ^ 32
  let h := x h (h / 2 ^ 15)
  let h := h * 0x846CA68B % 2 ^ 32
  x h (h / 2 ^ 16)

/-- HASH, R129. -/
def execHash (f : Fields) (s : State) : Host.Outcome State Fault Refusal :=
  pureFire (.hash f) f (wsOf f) (fun c =>
    map2 c.n (fun a b => if c.n = 64 then hash64 (Nat.xor a b) else hash32 (Nat.xor a b)) (c.va c.n) (c.vbi c.n (c.md 0))) s

end Sys2Proof.Machine
end

