-- ==== Sys2Proof/Machine/Mx.lean ====
section
/-! DEFINITION. The MX block formats (R80, R89 to R92), quantisation and dequantisation of a block (R150 to R155). -/

namespace Sys2Proof.Machine

open Sys2Proof

/-- The floating element format of an MXE code 1 to 3, Table 4.4. -/
def mxFmt (mxe : Nat) : Fmt := if mxe = 1 then fE2m1 else if mxe = 2 then fE3m2 else fE2m3

/-- Lane width of MX elements in a token, R92. -/
def mxLane (mxe : Nat) : Nat := if mxe = 1 then 4 else 8

/-- Width of MX elements in memory, R91. -/
def mxMemBits (mxe : Nat) : Nat := if mxe = 1 then 4 else if mxe = 4 then 8 else 6

/-- The value of an element lane, R89; a 6-bit element is read through its low 6 bits (R155). -/
def mxValue (mxe v : Nat) : Fp :=
  if mxe = 4 then (let t := sx 8 (v % 256); .fin (decide (t < 0)) t.natAbs (-6))
  else unpack (mxFmt mxe) (v % 2 ^ fWidth (mxFmt mxe))

/-- An element's value times the block scale, R90: NaN under the scale 0xFF. -/
def mxScaled (mxe v s : Nat) : Fp :=
  if s = 255 then .nan
  else match mxValue mxe v with
    | .fin n m e => .fin n m (e + (s : Int) - 127)
    | x => x

/-- Rounds a value to an element format, Table 4.8: overflow goes to the largest value of its sign, NaN to +0 with NV. An MXINT8 element
below −128 goes to −127, the mirror of Table 4.3 (log 12). -/
def mxRound (mxe : Nat) (r : Rnd) (rk : Nat) (v : Fp) : Fr :=
  match v with
  | .nan => ⟨0, flNV⟩
  | .inf n => if mxe = 4 then ⟨if n then 129 else 127, flOF ||| flNX⟩ else overflow (mxFmt mxe) r false n
  | .fin n m e =>
    if mxe = 4 then
      let (t, nx) := roundInt r n m (e + 6) rk
      if t > 127 then ⟨127, flOF ||| flNX⟩
      else if t < -128 then ⟨129, flOF ||| flNX⟩
      else ⟨wrap 8 t, if nx then flNX else 0⟩
    else roundTo (mxFmt mxe) r false n n m e false rk

/-- emax of R151. -/
def mxEmax (mxe : Nat) : Int := if mxe = 2 then 4 else if mxe = 4 then 0 else 2

/-- The exponent of the largest magnitude of a block (R151): none when every lane is zero; 10000 stands for an infinity. -/
def mxTop (l : List Fp) : Option Int :=
  l.foldl (fun acc v =>
    let x : Option Int := match v with
      | .inf _ => some 10000
      | .fin _ m e => if m = 0 then none else some ((bitLen m : Int) - 1 + e)
      | .nan => none
    match acc, x with
    | none, y => y
    | some a, none => some a
    | some a, some b => some (max a b)) none

/-- The scale of a block, R151. -/
def mxScaleOf (mxe : Nat) (l : List Fp) : Nat :=
  if l.any (· == .nan) then 255
  else match mxTop l with
    | none => 127
    | some t => (max 0 (min 254 (t - mxEmax mxe + 127))).toNat

/-- Quantises 32 values with one random number each (R151): scale, elements and flags. -/
def mxQuant (mxe : Nat) (r : Rnd) (l : List Fp) (rks : List Nat) : Nat × List Nat × BitVec 5 :=
  let s := mxScaleOf mxe l
  if s = 255 then (255, l.map fun _ => 0, flNV)
  else
    let rs := (l.zip rks).map fun (v, rk) =>
      mxRound mxe r rk (match v with | .fin n m e => .fin n m (e - ((s : Int) - 127)) | x => x)
    (s, rs.map Fr.bits, rs.foldl (fun a x => a ||| x.fl) 0)

end Sys2Proof.Machine
end

