-- ==== Sys2Proof/Machine/Px8.lean ====
section
/-! DEFINITION. PX8 blocks: decoding, the malformed ones, and the canonical encoding (R93 to R98). -/

namespace Sys2Proof.Machine

open Sys2Proof

/-- Bits of an exponent field, R93. -/
def pxE (e5m2 : Bool) : Nat := if e5m2 then 5 else 4
/-- Bits of a sign and mantissa field, R93. -/
def pxW (e5m2 : Bool) : Nat := if e5m2 then 3 else 4

/-- A number as bits, least significant first. -/
def bitList : Nat → Nat → List Bool
  | 0, _ => []
  | n + 1, v => (v % 2 = 1) :: bitList n (v / 2)

/-- A number from bits, least significant first. -/
def ofBitList : List Bool → Nat
  | [] => 0
  | b :: r => (if b then 1 else 0) + 2 * ofBitList r

/-- A raw exponent of `n` bits. -/
def pxRaw (n : Nat) (l : List Bool) : Option (Int × List Bool) :=
  if l.length < n then none else some ((ofBitList (l.take n) : Int), l.drop n)

/-- One exponent code, Table 4.5: the exponent and the bits after it; none when the bits run out. -/
def pxCode (ct n : Nat) (base : Int) (l : List Bool) : Option (Int × List Bool) :=
  match ct, l with
  | 0, l => pxRaw n l
  | 1, false :: r => some (base, r)
  | 1, true :: false :: r => some (base + 1, r)
  | 1, true :: true :: false :: r => some (base - 1, r)
  | 1, true :: true :: true :: r => pxRaw n r
  | 2, false :: false :: r => some (base, r)
  | 2, false :: true :: r => some (base - 1, r)
  | 2, true :: false :: false :: r => some (base - 2, r)
  | 2, true :: false :: true :: r => some (base + 1, r)
  | 2, true :: true :: false :: r => some (base - 3, r)
  | 2, true :: true :: true :: r => pxRaw n r
  | 3, l => some (base, l)
  | _, _ => none

/-- The exponents of `k` elements and the bits after them. -/
def pxExps (ct n : Nat) (base : Int) : Nat → List Bool → Option (List Int × List Bool)
  | 0, l => some ([], l)
  | k + 1, l =>
    match pxCode ct n base l with
    | none => none
    | some (e, r) => (pxExps ct n base k r).map fun (es, q) => (e :: es, q)

/-- LEN of a header unit. -/
def pxLen (hdr : Nat) : Nat := fld hdr 3 6

/-- Decodes a block of LEN units, its bits as one number; none when it is malformed (R95). -/
def pxDecode (e5m2 : Bool) (blk : Nat) : Option (List Nat) :=
  let n := pxE e5m2
  let w := pxW e5m2
  let ct := fld blk 14 2
  let base := fld blk 9 5
  let len := pxLen blk
  let bits := bitList (16 * len - (16 + 64 * w)) (blk / 2 ^ (16 + 64 * w))
  if fld blk 0 3 ≠ 0 ∨ (ct = 0 ∧ base ≠ 0) ∨ base ≥ 2 ^ n ∨ 16 * len < 16 + 64 * w then none
  else match pxExps ct n base 64 bits with
    | none => none
    | some (es, pad) =>
      if pad.length ≥ 16 ∨ pad.any id ∨ es.any (fun e => decide (e < 0 ∨ e ≥ 2 ^ n)) then none
      else some ((List.range 64).map fun i =>
        let sm := fld blk (16 + i * w) w
        let m := sm % 2 ^ (w - 1)
        sm / 2 ^ (w - 1) * 128 + (es.getD i 0).toNat * 2 ^ (w - 1) + m)

/-- The bits of one exponent under a code table. -/
def pxEnc (ct n base e : Nat) : List Bool :=
  let d : Int := (e : Int) - base
  let esc := [true, true, true] ++ bitList n e
  match ct with
  | 0 => bitList n e
  | 1 => if d = 0 then [false] else if d = 1 then [true, false] else if d = -1 then [true, true, false] else esc
  | 2 => if d = 0 then [false, false] else if d = -1 then [false, true] else if d = -2 then [true, false, false]
         else if d = 1 then [true, false, true] else if d = -3 then [true, true, false] else esc
  | _ => []

/-- LEN of an encoding, R93. -/
def pxLenOf (e5m2 : Bool) (ct base : Nat) (es : List Nat) : Nat :=
  let b := (es.map fun e => (pxEnc ct (pxE e5m2) base e).length).foldl (· + ·) 0
  1 + (64 * pxW e5m2 + b + 15) / 16

/-- The candidate encodings in the order of R96: CONST, NARROW, WIDE, RAW, each with rising BASE. -/
def pxCands (e5m2 : Bool) (es : List Nat) : List (Nat × Nat) :=
  let bases := List.range (2 ^ pxE e5m2)
  (bases.filter fun b => es.all (· == b)).map (fun b => (3, b)) ++ bases.map (fun b => (1, b)) ++ bases.map (fun b => (2, b)) ++ [(0, 0)]

/-- The canonical encoding of 64 bytes, R96: its bits as one number, and its LEN. -/
def pxEncode (e5m2 : Bool) (bytes : List Nat) : Nat × Nat :=
  let w := pxW e5m2
  let n := pxE e5m2
  let es := bytes.map fun b => b / 2 ^ (w - 1) % 2 ^ n
  let best := (pxCands e5m2 es).foldl (fun (a : Nat × Nat × Nat) c =>
    let l := pxLenOf e5m2 c.1 c.2 es
    if l < a.1 then (l, c.1, c.2) else a) (1000, 0, 0)
  let (len, ct, base) := best
  let sm := bytes.map fun b => b / 128 * 2 ^ (w - 1) + b % 2 ^ (w - 1)
  let codes := (es.map (pxEnc ct n base)).flatten
  (ct * 2 ^ 14 + base * 2 ^ 9 + len * 8 + 2 ^ 16 * packLanes w sm + 2 ^ (16 + 64 * w) * ofBitList codes, len)

end Sys2Proof.Machine
end

