-- ==== Sys2Proof/Machine/Vector.lean ====
section
/-! DEFINITION. Vector arithmetic, transcendental functions, conversion, quantisation, PX8 packing and lane instructions (R134 to R162). -/

namespace Sys2Proof.Machine

open Sys2Proof

/-- RND in MOD[5:3], R52. -/
def rndF (f : Fields) : Rnd := rndOf (f.md.toNat / 8 % 8)
/-- SAT in MOD[2], R52. -/
def satF (f : Fields) : Bool := f.md.getLsbD 2

/-- The flags of result lanes with their numbers. -/
def laneFlags (l : List Fr) : List (Nat × BitVec 5) := (l.zipIdx.map fun (x, i) => (i, x.fl)).filter fun x => x.2 != 0

/-- A firing of `k` rounded result lanes of `n` bits (R137, R139). `g` gives lane j with its random number. -/
def roundedFire (c : Ctx) (n k : Nat) (ws : Bool) (g : Nat → Nat → Fr) : Res :=
  let (rks, lf) := drawn c (rndF c.f) k
  let rs := (rks.zipIdx).map fun (rk, j) => g j rk
  let w := ofLanes n (rs.map Fr.bits)
  .done { emits := emitAll c w, take := c.ops, s := if ws then some w else none, fls := laneFlags rs, lfsr := lf }

/-- A lane-wise floating instruction of A, B and C in the format of TYP. -/
def floatFire (i : Instr) (f : Fields) (g : Fmt → Rnd → Bool → Nat → Nat → Nat → Nat → Fr) : State → Host.Outcome State Fault Refusal :=
  fire i f (std fun _ c =>
    let n := c.n
    let a := c.va n
    let b := c.vb n
    let d := c.vc n
    roundedFire c n (512 / n) (wsOf f) fun j rk => g (fmtOf f.typ) (rndF f) (satF f) rk (lane n a j) (lane n b j) (lane n d j))

/-- FADD, R141, R142. -/
def execFadd (f : Fields) (s : State) : Host.Outcome State Fault Refusal :=
  floatFire (.fadd f) f (fun m r sat rk a b _ => fAdd m r sat rk (unpack m a) (unpack m b)) s

/-- FSUB, R141, R142. -/
def execFsub (f : Fields) (s : State) : Host.Outcome State Fault Refusal :=
  floatFire (.fsub f) f (fun m r sat rk a b _ => fAdd m r sat rk (unpack m a) (fpNeg (unpack m b))) s

/-- FMUL, R141, R142. -/
def execFmul (f : Fields) (s : State) : Host.Outcome State Fault Refusal :=
  floatFire (.fmul f) f (fun m r sat rk a b _ => fMul m r sat rk (unpack m a) (unpack m b)) s

/-- FFMA, R141, R142. -/
def execFfma (f : Fields) (s : State) : Host.Outcome State Fault Refusal :=
  floatFire (.ffma f) f (fun m r sat rk a b d => fFma m r sat rk (unpack m a) (unpack m b) (unpack m d)) s

/-- FMIN, R143. -/
def execFmin (f : Fields) (s : State) : Host.Outcome State Fault Refusal :=
  floatFire (.fmin f) f (fun m _ _ _ a b _ => ⟨fMinMax m false a b, 0⟩) s

/-- FMAX, R143. -/
def execFmax (f : Fields) (s : State) : Host.Outcome State Fault Refusal :=
  floatFire (.fmax f) f (fun m _ _ _ a b _ => ⟨fMinMax m true a b, 0⟩) s

/-- FABS and FNEG of one lane, R143. -/
def signOp (m : Fmt) (neg : Bool) (a : Nat) : Nat :=
  if unpack m a = .nan then nanBits m
  else
    let mag := a % 2 ^ (m.eb + m.mb)
    if neg && a / 2 ^ (m.eb + m.mb) % 2 == 0 then signed m true mag else mag

/-- FABS, R143. -/
def execFabs (f : Fields) (s : State) : Host.Outcome State Fault Refusal :=
  floatFire (.fabs f) f (fun m _ _ _ a _ _ => ⟨signOp m false a, 0⟩) s

/-- FNEG, R143. -/
def execFneg (f : Fields) (s : State) : Host.Outcome State Fault Refusal :=
  floatFire (.fneg f) f (fun m _ _ _ a _ _ => ⟨signOp m true a, 0⟩) s

/-- COND of FCMP, R144. -/
def fcondHolds (cond : Nat) (o : Option Ordering) : Bool :=
  match cond, o with
  | 1, none => true
  | 6, none => true
  | _, none => false
  | 0, some x => x == .eq
  | 1, some x => x != .eq
  | 2, some x => x == .lt
  | 3, some x => x != .gt
  | 4, some x => x == .gt
  | 5, some x => x != .lt
  | 6, some _ => false
  | _, some _ => true

/-- FCMP, R144. -/
def execFcmp (f : Fields) (s : State) : Host.Outcome State Fault Refusal :=
  pureFire (.fcmp f) f false (fun c =>
    let m := fmtOf f.typ
    map2 c.n (fun a b => if fcondHolds (f.md.toNat % 16) (fpCmp (unpack m a) (unpack m b)) then 1 else 0) (c.va c.n) (c.vb c.n)) s

/-- FSCALE, R141: B is a signed integer. -/
def execFscale (f : Fields) (s : State) : Host.Outcome State Fault Refusal :=
  floatFire (.fscale f) f (fun m r sat rk a b _ => fScale m r sat rk (unpack m a) (sx (fWidth m) b)) s

/-- FCLASS, R145. -/
def execFclass (f : Fields) (s : State) : Host.Outcome State Fault Refusal :=
  pureFire (.fclass f) f (wsOf f) (fun c => map1 c.n (fClass (fmtOf f.typ)) (c.va c.n)) s

/-- FEXP2, R146. -/
def execFexp2 (f : Fields) (s : State) : Host.Outcome State Fault Refusal :=
  floatFire (.fexp2 f) f (fun m r sat rk a _ _ => fTrans .exp2 m r sat rk (unpack m a)) s

/-- FLOG2, R146. -/
def execFlog2 (f : Fields) (s : State) : Host.Outcome State Fault Refusal :=
  floatFire (.flog2 f) f (fun m r sat rk a _ _ => fTrans .log2 m r sat rk (unpack m a)) s

/-- FRCP, R146. -/
def execFrcp (f : Fields) (s : State) : Host.Outcome State Fault Refusal :=
  floatFire (.frcp f) f (fun m r sat rk a _ _ => fTrans .rcp m r sat rk (unpack m a)) s

/-- FRSQ, R146. -/
def execFrsq (f : Fields) (s : State) : Host.Outcome State Fault Refusal :=
  floatFire (.frsq f) f (fun m r sat rk a _ _ => fTrans .rsq m r sat rk (unpack m a)) s

/-- FSQRT, R146. -/
def execFsqrt (f : Fields) (s : State) : Host.Outcome State Fault Refusal :=
  floatFire (.fsqrt f) f (fun m r sat rk a _ _ => fTrans .sqrt m r sat rk (unpack m a)) s

/-! ### Conversion -/

/-- STYP, PART and MRG of IMM16, R149. -/
def stypOf (f : Fields) : Ty := tyOfCode (f.imm.toNat % 16)
def partOf (f : Fields) : Nat := f.imm.toNat / 32 % 8
def mrgOf (f : Fields) : Bool := f.imm.getLsbD 8

/-- The result lanes of a conversion and, for each, the lane of A that it converts; none where it is merged or zero (R149) (log 26). -/
def cvtLanes (f : Fields) : List (Option Nat) :=
  let ls := 512 / tyBits (stypOf f)
  let ld := 512 / tyBits f.typ
  if ld ≤ ls then (List.range ld).map fun k => some (partOf f * ld + k)
  else (List.range ld).map fun j => if partOf f * ls ≤ j ∧ j < (partOf f + 1) * ls then some (j - partOf f * ls) else none

/-- Gives each converted lane its random number in ascending order. -/
def withRks : List (Option Nat) → List Nat → List (Option (Nat × Nat))
  | [], _ => []
  | none :: r, ks => none :: withRks r ks
  | some j :: r, k :: ks => some (j, k) :: withRks r ks
  | some j :: r, [] => some (j, 0) :: withRks r []

/-- The firing of CVT and CVTSR with the random numbers given (R147 to R149). -/
def cvtFire (c : Ctx) (r : Rnd) (rks : List Nat) (lf : Option (BitVec 32)) : Res :=
  let st := stypOf c.f
  let n := c.n
  let a := c.va n
  let m := c.vc n
  let rs : List Fr := (withRks (cvtLanes c.f) rks).zipIdx.map fun (o, j) => match o with
    | some (k, rk) => cvtLane st c.f.typ r (satF c.f) rk (lane (tyBits st) a k)
    | none => ⟨if mrgOf c.f then lane n m j else 0, 0⟩
  let w := ofLanes n (rs.map Fr.bits)
  .done { emits := emitAll c w, take := c.ops, s := if wsOf c.f then some w else none, fls := laneFlags rs, lfsr := lf }

/-- CVT, R147, R149. -/
def execCvt (f : Fields) (s : State) : Host.Outcome State Fault Refusal :=
  fire (.cvt f) f (std fun _ c =>
    let (rks, lf) := drawn c (rndF f) ((cvtLanes f).filter Option.isSome).length
    cvtFire c (rndF f) rks lf) s

/-- CVTSR, R148: under RB the random numbers come from B. -/
def execCvtsr (f : Fields) (s : State) : Host.Outcome State Fault Refusal :=
  fire (.cvtsr f) f (std fun _ c =>
    let k := ((cvtLanes f).filter Option.isSome).length
    if c.md 0 then cvtFire c .rs ((List.range k).map fun i => lane 16 (c.vb c.n) i) none
    else
      let (rks, lf) := drawn c .rs k
      cvtFire c .rs rks lf) s

/-- MXE in IMM16[2:0], R153, R155. -/
def mxeImm (f : Fields) : Nat := f.imm.toNat % 8

/-- MXQ, R150 to R153: elements to T0, scale to T1. NV counts at the output lanes of the NaN inputs (log 98). -/
def execMxq (f : Fields) (s : State) : Host.Outcome State Fault Refusal :=
  fire (.mxq f) f (std fun _ c =>
    let mxe := mxeImm f
    let part := f.imm.toNat / 128 % 4
    let src := fmtOf (tyOfCode (f.imm.toNat / 8 % 16))
    let a := c.va (mxLane mxe)
    let vals := (List.range 32).map fun j => unpack src (lane 16 a j)
    let (rks, lf) := drawn c (rndF f) 32
    let (sc, els, fl) := mxQuant mxe (rndF f) vals rks
    let n := mxLane mxe
    let ew := low (packLanes n els * 2 ^ (32 * n * part))
    let sw := low (sc * 2 ^ (8 * part))
    .done { emits := [(0, f.t0, ⟨ew, c.sb⟩), (1, f.t1, ⟨sw, c.sb⟩)], take := c.ops,
            fls := if fl = 0 then [] else
              ((vals.zip rks).zipIdx.map fun ((v, rk), j) => (32 * part + j,
                if sc = 255 then (if v = .nan then flNV else 0)
                else (mxRound mxe (rndF f) rk (match v with | .fin x m e => .fin x m (e - ((sc : Int) - 127)) | y => y)).fl)),
            lfsr := lf }) s

/-- MXDQ, R154, R155. -/
def execMxdq (f : Fields) (s : State) : Host.Outcome State Fault Refusal :=
  fire (.mxdq f) f (std fun _ c =>
    let mxe := mxeImm f
    let part := f.imm.toNat / 8 % 4
    let half := f.imm.toNat / 32 % 2
    let n := c.n
    let a := c.va n
    let sc := lane 8 (c.vb n) part
    let off := if f.typ = .fp32 then 16 * half else 0
    let m := fmtOf f.typ
    roundedFire c n (512 / n) (wsOf f) fun j rk =>
      match mxScaled mxe (lane (mxLane mxe) a (32 * part + off + j)) sc with
      | .nan => ⟨nanBits m, 0⟩
      | .inf ng => infTo m (rndF f) (satF f) ng
      | .fin ng k e => roundTo m (rndF f) (satF f) ng ng k e false rk) s

/-! ### PX8 packing -/

/-- PCNT and the pending units of PKPX, S[500:496] and S[495:0] (R156). -/
def pkCount (s : Word) : Nat := fld s.toNat 496 5
def pkUnits (s : Word) : Nat := s.toNat % 2 ^ 496

/-- Emits full words of pending units: the words, what stays, and its count. At most three words can stand in one firing's units. -/
def pkLoop (last : Bool) : Nat → Nat → Nat → List Nat × Nat × Nat
  | 0, u, k => ([], u, k)
  | n + 1, u, k =>
    if k ≥ 32 ∧ ¬(last = true ∧ k = 32) then
      let (ws, u', k') := pkLoop last n (u / 2 ^ 512) (k - 32)
      (u % 2 ^ 512 :: ws, u', k')
    else ([], u, k)

/-- PKPX, R156, R157. A firing under RND = RS draws LFSR bits for 64 lanes, whatever it emits (log 98). A control token that meets pending units turns
them into POISON; the control steps then handle the token. -/
def execPkpx (f : Fields) (s : State) : Host.Outcome State Fault Refusal :=
  fire (.pkpx f) f (fun s c =>
    match c.ha with
    | none => .idle
    | some t =>
      if isCtl t then
        if pkCount c.e.s ≠ 0 then .done { poisonOn c 6 [] [(0, f.t0)] with s := some 0 } else .idle
      else if !hasDemands c.p c.x c.e [(0, f.t0), (0, f.t0)] then .wait .noDemand
      else
        let (blk, len) := pxEncode (f.typ == .e5m2) ((List.range 64).map (lane 8 t.pay))
        let last := decide (t.sb = 0b10 ∨ t.sb = 0b11)
        let (ws, u, k) := pkLoop last 3 (pkUnits c.e.s + blk * 2 ^ (16 * pkCount c.e.s)) (pkCount c.e.s + len)
        let out := ws.map fun w => (0, f.t0, (⟨low w, 0⟩ : Token))
        let (_, lf) := drawn c (rndF f) 64
        let _ := s
        .done { emits := if last then out ++ [(0, f.t0, ⟨low u, t.sb⟩)] else out, take := [.a],
                s := some (if last then 0 else low (u + k * 2 ^ 496)), lfsr := lf }) s

/-! ### Lane instructions -/

/-- The largest magnitude of a list of values; NaN when one is NaN (R158, R159). -/
def fpMaxAbs (l : List Fp) : Fp :=
  l.foldl (fun a v =>
    match a, v with
    | .nan, _ => .nan
    | _, .nan => .nan
    | .inf _, _ => .inf false
    | _, .inf _ => .inf false
    | .fin _ m e, .fin _ k g => if cmpDy ⟨m, e⟩ ⟨k, g⟩ == .lt then .fin false k g else .fin false m e) (.fin false 0 0)

/-- A value that the format holds exactly, as bits. -/
def exactBits (m : Fmt) (v : Fp) : Nat :=
  match v with
  | .nan => nanBits m
  | .inf n => signed m n (infMag m)
  | .fin n k e => (roundTo m .rz false n n k e false 0).bits

/-- AMAXV, R158. -/
def execAmaxv (f : Fields) (s : State) : Host.Outcome State Fault Refusal :=
  fire (.amaxv f) f (std fun _ c =>
    let n := c.n
    let m := fmtOf f.typ
    let vals := (lanesOf n (c.va n)).map (unpack m)
    let vals := if c.md 0 then vals ++ [unpack fFp32 (lane 32 c.e.s 0)] else vals
    result c (low (exactBits fFp32 (fpMaxAbs vals))) (wsOf f || c.md 0)) s

/-- An exact sum of values rounded once (R159, R162). A sum of lanes that are all +0 is +0, under RM too (log 98). `bad`: a product in it was invalid.
Both infinities raise NV also beside a NaN (log 105). -/
def fSum (m : Fmt) (r : Rnd) (sat : Bool) (rk : Nat) (bad : Bool) (l : List Fp) : Fr :=
  let pos := l.any (· == .inf false)
  let neg := l.any (· == .inf true)
  if bad || (pos && neg) then ⟨nanBits m, flNV⟩
  else if l.any (· == .nan) then ⟨nanBits m, 0⟩
  else if pos then ⟨infMag m, 0⟩
  else if neg then ⟨signed m true (infMag m), 0⟩
  else
    let ds := l.filterMap fun v => match v with | .fin n k e => some (n, k, e) | _ => none
    let sum := ds.foldl (fun a (n, k, e) => addDy a (toDy n k e)) ⟨0, 0⟩
    let zero := if ds.all (fun x => x.2.1 = 0) then
        (if ds.all (fun x => x.1) && !ds.isEmpty then true else if ds.all (fun x => !x.1) then false else r == .rm)
      else r == .rm
    roundDy m r sat zero sum rk

/-- OP of LRED over integer lanes, R159. -/
def lredInt (op : Nat) (sg : Bool) (n : Nat) (l : List Nat) : Nat :=
  match op with
  | 0 => l.foldl (fun a x => (a + x) % 2 ^ n) 0
  | 1 => wrap n ((l.map (rd sg n)).foldl min (rd sg n (l.headD 0)))
  | 2 => wrap n ((l.map (rd sg n)).foldl max (rd sg n (l.headD 0)))
  | 3 => l.foldl Nat.land (2 ^ n - 1)
  | 4 => l.foldl Nat.lor 0
  | _ => l.foldl Nat.xor 0

/-- LRED, R159. -/
def execLred (f : Fields) (s : State) : Host.Outcome State Fault Refusal :=
  fire (.lred f) f (std fun _ c =>
    let n := c.n
    let l := lanesOf n (c.va n)
    let op := f.md.toNat % 8
    if isFloat f.typ then
      let m := fmtOf f.typ
      roundedFire c n 1 false fun _ rk =>
        match op with
        | 0 => fSum m (rndF f) false rk false (l.map (unpack m))
        | 1 => ⟨exactNan m (l.foldl (fMinMax m false) (l.headD 0)), 0⟩
        | 2 => ⟨exactNan m (l.foldl (fMinMax m true) (l.headD 0)), 0⟩
        | _ => ⟨exactBits m (fpMaxAbs (l.map (unpack m))), 0⟩
    else result c (low (lredInt op (tySigned f.typ) n l)) false) s
where
  /-- A NaN result is canonical, R84. -/
  exactNan (m : Fmt) (v : Nat) : Nat := if unpack m v = .nan then nanBits m else v

/-- The prefixes of LSCAN under a step that takes the running list of values and gives a rounded prefix (R160) (log 92). -/
def scanPrefix {α : Type} (g : List Nat → α) : List Nat → List Nat → List α
  | _, [] => []
  | acc, x :: r => g (acc ++ [x]) :: scanPrefix g (acc ++ [x]) r

/-- LSCAN, R160. Flags of a prefix count at the lane where it leaves (R138); of the last one under EXCL, which no lane takes, at the lane behind the
last (log 98). -/
def execLscan (f : Fields) (s : State) : Host.Outcome State Fault Refusal :=
  fire (.lscan f) f (std fun _ c =>
    let n := c.n
    let l := lanesOf n (c.va n)
    let op := f.md.toNat % 8
    let excl := c.md 3
    let carry := c.md 4
    let sg := tySigned f.typ
    let fl := isFloat f.typ
    let m := fmtOf f.typ
    let ident : Nat :=
      if op = 0 then 0
      else if fl then signed m (decide (op = 2)) (infMag m)
      else if op = 1 then (if sg then 2 ^ (n - 1) - 1 else 2 ^ n - 1)
      else (if sg then 2 ^ (n - 1) else 0)
    let s0 := if carry then lane n c.e.s 0 else ident
    let step (p : List Nat) : Fr :=
      if fl then
        match op with
        | 0 => fSum m .rn false 0 false ((s0 :: p).map (unpack m))
        | 1 => ⟨p.foldl (fMinMax m false) s0, 0⟩
        | _ => ⟨p.foldl (fMinMax m true) s0, 0⟩
      else
        match op with
        | 0 => ⟨(s0 + p.foldl (· + ·) 0) % 2 ^ n, 0⟩
        | 1 => ⟨wrap n ((p.map (rd sg n)).foldl min (rd sg n s0)), 0⟩
        | _ => ⟨wrap n ((p.map (rd sg n)).foldl max (rd sg n s0)), 0⟩
    let ps := scanPrefix step [] l
    let out := if excl then s0 :: (ps.map Fr.bits).dropLast else ps.map Fr.bits
    let lastP := ((ps.map Fr.bits).getLast?).getD 0
    let sNew : Option Word :=
      if carry then
        if c.sb = 0b10 ∨ c.sb = 0b11 then some c.e.sInit else some (low (setFld c.e.s.toNat 0 n lastP))
      else none
    let raised := if excl then ⟨s0, 0⟩ :: ps else ps
    .done { emits := emitAll c (ofLanes n out), take := c.ops, s := sNew, fls := laneFlags raised }) s

/-- LSHUF, R161. -/
def execLshuf (f : Fields) (s : State) : Host.Outcome State Fault Refusal :=
  pureFire (.lshuf f) f false (fun c =>
    let n := c.n
    let k := 512 / n
    map1 n (fun i => if i < k then lane n (c.va n) i
      else if c.md 0 && decide (i < 2 * k) then lane n (c.vc n) (i - k) else 0) (c.vb n)) s

/-- LBCAST, R161. -/
def execLbcast (f : Fields) (s : State) : Host.Outcome State Fault Refusal :=
  pureFire (.lbcast f) f false (fun c =>
    let n := c.n
    let k := if c.md 0 then lane n (c.vb n) 0 else f.imm.toNat % 64
    if k < 512 / n then ofLanes n (List.replicate (512 / n) (lane n (c.va n) k)) else 0) s

/-- LROT, R161. -/
def execLrot (f : Fields) (s : State) : Host.Outcome State Fault Refusal :=
  pureFire (.lrot f) f false (fun c =>
    let n := c.n
    let k := 512 / n
    let r := (if c.md 0 then lane n (c.vb n) 0 else f.imm.toNat % 128) % k
    ofLanes n ((List.range k).map fun j =>
      if j ≥ r ∨ c.md 1 = false then lane n (c.va n) ((j + k - r) % k) else lane n (c.vc n) (j + k - r))) s

/-- The product of two values; none when it is invalid (R142). -/
def fpMul (a b : Fp) : Option Fp :=
  match a, b with
  | .nan, .inf _ => some .nan
  | .nan, _ => some .nan
  | _, .nan => some .nan
  | .inf x, .inf y => some (.inf (x != y))
  | .inf x, .fin y m _ => if m = 0 then none else some (.inf (x != y))
  | .fin x m _, .inf y => if m = 0 then none else some (.inf (x != y))
  | .fin x m e, .fin y k g => some (.fin (x != y) (m * k) (e + g))

/-- Operand C of DOT: 32-bit lanes whatever TYP is (R162). -/
def Ctx.vc32 (c : Ctx) : Word := srcVal c 32 c.f.c c.hc

/-- DOT, R162. -/
def execDot (f : Fields) (s : State) : Host.Outcome State Fault Refusal :=
  fire (.dot f) f (std fun _ c =>
    let n := c.n
    let m := fmtOf f.typ
    let g := 32 / n
    let a := c.va n
    let b := c.vb n
    roundedFire c 32 16 (wsOf f) fun k rk =>
      let ps := (List.range g).map fun i => fpMul (unpack m (lane n a (g * k + i))) (unpack m (lane n b (g * k + i)))
      let add := if c.md 0 then [unpack fFp32 (lane 32 c.vc32 k)] else []
      fSum fFp32 (rndF f) (satF f) rk (ps.any (·.isNone)) (ps.filterMap id ++ add)) s

end Sys2Proof.Machine
end

