-- ==== Sys2Proof/Machine/Acc.lean ====
section
/-! DEFINITION. The carry-save accumulators: cells, steps, readouts, images, reduction words, sort mode and merging (R163 to R200, R470). -/

namespace Sys2Proof.Machine

open Sys2Proof

/-! ### Cells -/

/-- V of R164: (SW + CW) mod 2^48 as signed. -/
def cellV (c : Cell) : Int := sx 48 ((c.sw.toNat + c.cw.toNat) % 2 ^ 48)

/-- ANC as signed. -/
def ancOf (c : Cell) : Int := sx 10 c.anc.toNat

def withAnc (c : Cell) (a : Int) : Cell := { c with anc := BitVec.ofInt 10 a }

/-- raise of R166: V is shifted right by `k`, with truncation into STK. ANC is left to the caller. -/
def raiseBy (c : Cell) (k : Nat) : Cell :=
  let v := cellV c
  { c with sw := BitVec.ofInt 48 (v / 2 ^ k), cw := 0, stk := c.stk || decide (v % 2 ^ k ≠ 0) }

/-- raise(Anew), R166. -/
def raiseTo (c : Cell) (anew : Int) : Cell := withAnc (raiseBy c (anew - ancOf c).toNat) anew

/-- ANC beyond 511, R183 and R184. -/
def ancOverflow (c : Cell) : Cell :=
  let v := cellV c
  withAnc (if v = 0 then c else if v > 0 then { c with infp := true } else { c with infn := true }) 511

/-- The carry and sum of the 3:2 compressor, R166. -/
def csa (s c q : BitVec 48) : BitVec 48 × BitVec 48 := (s ^^^ c ^^^ q, ((s &&& c) ||| (s &&& q) ||| (c &&& q)) <<< 1)

/-- A contribution to a cell: zero, an exact nonzero number m * 2^e, or a special of Table 7.2. -/
inductive Contrib where
  | zero
  | fin (m e : Int)
  | nan
  | inv
  | inf (neg : Bool)
  deriving DecidableEq, Repr

/-- step(p) of R166, and Table 7.2. -/
def stepCell (p : Contrib) (c : Cell) : Cell :=
  match p with
  | .zero => c
  | .nan => { c with nans := true }
  | .inv => { c with inv := true }
  | .inf false => { c with infp := true }
  | .inf true => { c with infn := true }
  | .fin m e =>
    let top : Int := (bitLen m.natAbs : Int) - 1 + e
    let c := if !c.aset then withAnc { c with aset := true, sw := 0, cw := 0 } (top + 1)
             else if top ≥ ancOf c then raiseTo c (top + 1) else c
    let d := e - ancOf c + 40
    let q : Int := if d ≥ 0 then m * 2 ^ d.toNat else m / 2 ^ (-d).toNat
    let lost := decide (d < 0) && decide (m % 2 ^ (-d).toNat ≠ 0)
    let v := cellV c + q
    let (sw, cw) := csa c.sw c.cw (BitVec.ofInt 48 q)
    { c with sw := sw, cw := cw, stk := c.stk || lost, ovf := c.ovf || decide (v < -(2 ^ 47)) || decide (v > 2 ^ 47 - 1) }

/-- The settle of R167, and R184. -/
def settleCell (c : Cell) : Cell :=
  if !c.aset then c
  else
    let v := cellV c
    let c := { c with sw := BitVec.ofInt 48 v, cw := 0 }
    if v.natAbs ≥ 2 ^ 46 then (if ancOf c + 6 > 511 then ancOverflow c else raiseTo c (ancOf c + 6)) else c

/-- Changes the cells numbered from `k`, `n` of them; a cell at its reset value is not listed. -/
def mapCells (g : Nat → Cell → Cell) : Nat → Nat → Tab Cell → Tab Cell
  | 0, _, l => l
  | n + 1, k, l =>
    let (c, rest) : Cell × Tab Cell := match l with
      | (k', c) :: r => if k' = k then (c, r) else ({}, l)
      | [] => ({}, [])
    let c' := g k c
    if c' = {} then mapCells g n (k + 1) rest else (k, c') :: mapCells g n (k + 1) rest

/-- Changes every cell of a set. -/
def mapSet (g : Nat → Cell → Cell) (a : AccSet) : AccSet := { a with cells := mapCells g 1024 0 a.cells }

/-- A step of a set: one contribution to each cell, then SCNT and the settle (R165 to R167). -/
def stepSet (p : Nat → Contrib) (a : AccSet) : AccSet :=
  let a := mapSet (fun k c => stepCell (p k) c) a
  if a.scnt.toNat + 1 = 64 then { mapSet (fun _ c => settleCell c) a with scnt := 0 } else { a with scnt := a.scnt + 1 }

/-- The contribution of a sum of products times 2^sc (R165, Table 7.2). `bad`: a scale is 0xFF. -/
def contribOf (l : List (Fp × Fp)) (sc : Int) (bad : Bool) : Contrib :=
  let ps := l.map fun (a, b) => fpMul a b
  if bad || l.any (fun (a, b) => a == .nan || b == .nan) then .nan
  else if ps.any (·.isNone) then .inv
  else
    let vs := ps.filterMap id
    let pos := vs.any (· == .inf false)
    let neg := vs.any (· == .inf true)
    if pos && neg then .inv
    else if pos then .inf false
    else if neg then .inf true
    else
      let sum := vs.foldl (fun a v => match v with | .fin n m e => addDy a (toDy n m e) | _ => a) (⟨0, 0⟩ : Dy)
      if sum.m = 0 then .zero else .fin sum.m (sum.e + sc)

/-! ### Sets of a plane -/

def asel (c : Ctx) : Bool := c.md 5

def accOf (p : Plane) (b : Bool) : AccSet := if b then p.acc1 else p.acc0

def withAcc (p : Plane) (b : Bool) (a : AccSet) : Plane := if b then { p with acc1 := a } else { p with acc0 := a }

/-- The change of a set that a firing makes. -/
def postAcc (c : Ctx) (g : AccSet → AccSet) : State → State := fun s =>
  modPlane s c.x.tile c.b fun p => withAcc p (asel c) (g (accOf p (asel c)))

/-- A cell raised its anchor between two states of a set. -/
def anchorRaised (a b : AccSet) : Bool := a.cells.any fun (k, x) => x.aset && (b.cells.get k {}).anc != x.anc

/-- Holds the engine for the cycles of anchor raises (R166, R167, R183). -/
def holdRaise (c : Ctx) (n : Nat) : State → State := fun s =>
  if n = 0 then s
  else modPlane s c.x.tile c.b fun p => match blockOf p c.x.eng with
    | some b => withBlock p c.x.eng { b with raise := b.raise + n }
    | none => p

/-- A step of a set (R165 to R167); one with an anchor raise is counted (Table 16.3). -/
def postStep (c : Ctx) (p : Nat → Contrib) : State → State := fun s =>
  let a := accOf (planeOf (tileAt s c.x.tile) c.b) (asel c)
  let a' := stepSet p a
  let m := mapSet (fun k x => stepCell (p k) x) a
  let s := modPlane s c.x.tile c.b fun q => withAcc q (asel c) a'
  let s := holdRaise c ((if anchorRaised a m then 3 else 0) + if anchorRaised m a' then 3 else 0) s
  if anchorRaised a a' then countEvent s c.lid 10 1 else s

/-- An operation on a set waits while a readout or sort chunk holds it (R170). -/
def accFree (c : Ctx) (r : Res) : Res := if (accOf c.p (asel c)).rdo.kind ≠ 0 then .wait .other else r

/-- The array sorts: MMA steps of the tile wait (R196). -/
def sorting (p : Plane) : Bool := p.acc0.rdo.kind == 4 || p.acc1.rdo.kind == 4

/-- ROW0 and NROW of IMM16 (R172). -/
def row0 (f : Fields) : Nat := f.imm.toNat / 32 % 32
def nrow (f : Fields) : Nat := f.imm.toNat % 32 + 1

/-- A cell number lies in the rows that IMM16 names. -/
def inRows (f : Fields) (k : Nat) : Bool := decide (row0 f ≤ k / 32) && decide (k / 32 < row0 f + nrow f)

/-- IMM16 names rows 0 to 31. -/
def allRows (f : Fields) : Bool := decide (row0 f = 0) && decide (nrow f = 32)

/-- A zero word to every target. -/
def zeroAll (c : Ctx) (sb : BitVec 2) : List (Nat × Target × Token) := c.outs.map fun (k, t) => (k, t, ⟨0, sb⟩)

/-- ACLR, R181. -/
def execAclr (f : Fields) (s : State) : Host.Outcome State Fault Refusal :=
  fire (.aclr f) f (std fun _ c =>
    accFree c (.done { emits := zeroAll c 0, take := c.ops, post := postAcc c fun a =>
      { mapSet (fun k x => if inRows f k then {} else x) a with scnt := if allRows f then 0 else a.scnt } })) s

/-- The contribution of a token-mode step to cell k from operands A, B and scale words (R176, R180). `sa` and `sb` are the scale bytes of a
row and a column. -/
def mmaContrib (f : Fields) (a b : Word) (sa sb : Nat → Nat) (k : Nat) : Contrib :=
  let i := k / 32
  let j := k % 32
  match f.typ with
  | .mx =>
    let mxe := f.md.toNat % 8
    let g := if mxe = 1 then 4 else 2
    let w := mxLane mxe
    contribOf ((List.range g).map fun q => (mxValue mxe (lane w a (g * i + q)), mxValue mxe (lane w b (g * j + q))))
      ((sa i : Int) + sb j - 254) (sa i = 255 || sb j = 255)
  | t =>
    let m := fmtOf t
    let n := tyBits t
    let g := 16 / n
    contribOf ((List.range g).map fun q => (unpack m (lane n a (g * i + q)), unpack m (lane n b (g * j + q)))) 0 false

/-- The block of a row or column within its word, R176. -/
def mmaBlk (f : Fields) (i : Nat) : Nat := if f.md.toNat % 8 = 1 then i / 8 else i / 16

/-- Lane width at which a constant is copied for MMA. -/
def mmaLane (f : Fields) : Nat := if f.typ = .mx then mxLane (f.md.toNat % 8) else tyBits f.typ

/-- MMA in token mode, R176, R179, R180. A constant C is read in lanes of the width of A and B (R106, log 26). -/
def execMma (f : Fields) (s : State) : Host.Outcome State Fault Refusal :=
  fire (.mma f) f (std fun _ c =>
    if sorting c.p then .wait .other
    else
      let a := c.va (mmaLane f)
      let b := c.vb (mmaLane f)
      let sc := c.vc (mmaLane f)
      let p := mmaContrib f a b (fun i => lane 8 sc (mmaBlk f i)) (fun j => lane 8 sc (8 + mmaBlk f j))
      accFree c (.done { emits := zeroAll c c.sb, take := c.ops, post := postStep c p })) s

/-- AADDV, R182. -/
def execAaddv (f : Fields) (s : State) : Host.Outcome State Fault Refusal :=
  fire (.aaddv f) f (std fun _ c =>
    let n := c.n
    let a := c.va n
    let m := fmtOf f.typ
    let one : Fp := .fin false 1 0
    let p (k : Nat) : Contrib :=
      let j := k % 32
      if !inRows f k then .zero
      else if f.typ = .fp32 then
        (if j / 16 = (if c.md 0 then 1 else 0) then contribOf [(unpack m (lane n a (j % 16)), one)] 0 false else .zero)
      else contribOf [(unpack m (lane n a j), one)] 0 false
    accFree c (.done { emits := zeroAll c c.sb, take := c.ops, post := postStep c p })) s

/-- The rescale of one cell, R183. -/
def rescCell (d : Int) (c : Cell) : Cell :=
  if !c.aset then c
  else
    let a := ancOf c + d
    if a > 511 then ancOverflow c
    else if a < -512 then withAnc (raiseBy c (-512 - a).toNat) (-512)
    else withAnc c a

/-- ARESC, R183, R470. -/
def execAresc (f : Fields) (s : State) : Host.Outcome State Fault Refusal :=
  fire (.aresc f) f (std fun _ c =>
    let a := c.va 16
    let cut (m : Nat × Cell) : Bool := m.2.aset && decide (ancOf m.2 + sx 16 (lane 16 a (m.1 / 32)) < -512)
    let n := if (accOf c.p (asel c)).cells.any cut then 3 else 0
    accFree c (.done { emits := emitAll c 1, take := c.ops,
                       post := fun s => holdRaise c n (postAcc c (mapSet fun k x => rescCell (sx 16 (lane 16 a (k / 32))) x) s) })) s

/-! ### Values of cells -/

/-- Order 1 of Table 7.5. -/
def cellNan (c : Cell) : Bool := c.ovf || c.nans || c.inv || (c.infp && c.infn)

/-- The result of one cell, Table 7.5. -/
def resolveCell (m : Fmt) (r : Rnd) (sat : Bool) (rk : Nat) (c : Cell) : Fr :=
  if cellNan c then ⟨nanBits m, if c.ovf || c.inv || (c.infp && c.infn) then flNV else 0⟩
  else if c.infp || c.infn then infTo m r sat c.infn
  else if !c.aset then ⟨signed m (r == .rm) 0, 0⟩
  else
    let v := cellV c
    let e := ancOf c - 40
    if !c.stk then roundTo m r sat (decide (v < 0)) (r == .rm) v.natAbs e false rk
    else if v = 0 then roundTo m r sat false false 0 (-2000) true rk
    else
      -- a positive amount below every digit: the magnitude of a negative V loses it
      let w := v.natAbs * 2 ^ 64
      roundTo m r sat (decide (v < 0)) false (if v < 0 then w - 1 else w) (e - 64) true rk

/-- The code of ACMPQ for a cell and a threshold, R186. -/
def acmpqCell (c : Cell) (t : Fp) : Nat :=
  let sgn (o : Ordering) : Nat := match o with | .lt => 0 | .gt => 1 | .eq => 2
  if cellNan c || t == .nan then 2
  else if c.infp then (if t == .inf false then 2 else 1)
  else if c.infn then (if t == .inf true then 2 else 0)
  else if !c.aset then (match fpCmp (.fin false 0 0) t with | some o => sgn o | none => 2)
  else
    let h := sx 16 (c.sw.toNat / 2 ^ 32) + sx 16 (c.cw.toNat / 2 ^ 32)
    let lo : Int := h * 2 ^ 32
    let hi : Int := h * 2 ^ 32 + 2 ^ 33 - 2
    if lo < -(2 ^ 47) ∨ hi > 2 ^ 47 - 1 then 2
    else match t with
      | .inf n => if n then 1 else 0
      | .nan => 2
      | .fin n m e =>
        let tu : Dy := toDy n m (e - (ancOf c - 40))
        if cmpDy ⟨hi, 0⟩ tu == .lt then 0 else if cmpDy ⟨lo, 0⟩ tu == .gt then 1 else 2

/-- The code of ACMP for a cell and a threshold, R187. -/
def acmpCell (c : Cell) (t : Fp) : Nat :=
  if cellNan c then 3
  else
    let x : Fp :=
      if c.infp then .inf false
      else if c.infn then .inf true
      else if !c.aset then .fin false 0 0
      else .fin (decide (cellV c < 0)) (cellV c).natAbs (ancOf c - 40)
    let st := c.stk && c.aset && !c.infp && !c.infn
    match fpCmp x t with
    | none => 3
    | some .lt => 0
    | some .gt => 1
    | some .eq => if st then 1 else 2

/-- A compare of the cells of row ROW with lane 0 of B, of which a constant gives the low 32 bits (R186, R187) (log 98). -/
def compareRow (c : Ctx) (g : Cell → Fp → Nat) : Res :=
  let a := accOf c.p (asel c)
  let t := unpack fFp32 (lane 32 (c.vb 32) 0)
  let r := c.f.imm.toNat % 32
  accFree c (result c (ofLanes 16 ((List.range 32).map fun j => g (a.cells.get (32 * r + j) {}) t)) false)

/-- ACMP, R187. -/
def execAcmp (f : Fields) (s : State) : Host.Outcome State Fault Refusal := fire (.acmp f) f (std fun _ c => compareRow c acmpCell) s

/-- ACMPQ, R186. -/
def execAcmpq (f : Fields) (s : State) : Host.Outcome State Fault Refusal := fire (.acmpq f) f (std fun _ c => compareRow c acmpqCell) s

/-- RDO as a number, R163. -/
def rdoBits (r : Rdo) : Nat := r.kind * 2 ^ 29 + r.slot * 2 ^ 22 + r.pos * 2 ^ 13

/-- ASTAT, R188. -/
def execAstat (f : Fields) (s : State) : Host.Outcome State Fault Refusal :=
  fire (.astat f) f (std fun _ c =>
    let a := accOf c.p (asel c)
    let cs := a.cells.map (·.2)
    let set := cs.filter (·.aset)
    let orOf (g : Cell → Bool) (k : Nat) : Nat := if cs.any g then 2 ^ k else 0
    let fl := orOf (·.ovf) 4 + orOf (·.inv) 3 + orOf (·.nans) 2 + orOf (·.infp) 1 + orOf (·.infn) 0
    let ancs := set.map ancOf
    let top := match ancs with | [] => 0x80000000 | x :: r => wrap 32 (r.foldl max x)
    let bot := match ancs with | [] => 0x7FFFFFFF | x :: r => wrap 32 (r.foldl min x)
    let w := ofLanes 32 [a.scnt.toNat, rdoBits a.rdo, set.length, (cs.filter (·.stk)).length, fl, top, bot]
    accFree c (.done { emits := c.outs.map fun (k, t) => (k, t, ⟨w, 0⟩), take := c.ops })) s

/-! ### Readouts -/

/-- A firing that starts a readout: it sets RDO and nothing else (R175). -/
def startReadout (kind : Nat) (_ : State) (c : Ctx) : Res :=
  accFree c (.done { take := c.ops, post := postAcc c fun a => { a with rdo := ⟨kind, c.x.slot, 0⟩ } })

/-- RESOLVE, R185. -/
def execResolve (f : Fields) (s : State) : Host.Outcome State Fault Refusal := fire (.resolve f) f (stdQuiet (startReadout 1)) s

/-- AIMG, R189. -/
def execAimg (f : Fields) (s : State) : Host.Outcome State Fault Refusal := fire (.aimg f) f (stdQuiet (startReadout 2)) s

/-- AREDL, R193. -/
def execAredl (f : Fields) (s : State) : Host.Outcome State Fault Refusal := fire (.aredl f) f (stdQuiet (startReadout 3)) s

/-- The image of a cell, R189. -/
def cellImage (c : Cell) : Nat :=
  let b (v : Bool) (k : Nat) : Nat := if v then 2 ^ k else 0
  c.sw.toNat * 2 ^ 80 + c.cw.toNat * 2 ^ 32 + c.anc.toNat * 2 ^ 22 + b c.ovf 21 + b c.inv 20 + b c.nans 19 + b c.infp 18 + b c.infn 17 +
    b c.aset 16 + b c.stk 15

/-- The cell of an image, R189. -/
def cellOfImage (v : Nat) : Cell where
  sw := BitVec.ofNat 48 (fld v 80 48)
  cw := BitVec.ofNat 48 (fld v 32 48)
  anc := BitVec.ofNat 10 (fld v 22 10)
  ovf := v.testBit 21
  inv := v.testBit 20
  nans := v.testBit 19
  infp := v.testBit 18
  infn := v.testBit 17
  aset := v.testBit 16
  stk := v.testBit 15

/-- The lane of a cell in a reduction word, R193, with its flags. -/
def redLane (rda : Int) (c : Cell) : Fr :=
  if cellNan c || c.infp || c.infn then ⟨0, flNV⟩
  else
    let v : Int := if c.aset then cellV c else 0
    let d := ancOf c - 40 - (rda - 56)
    let l : Int := if d ≥ 0 then v * 2 ^ d.toNat else v / 2 ^ (-d).toNat
    let lost := (decide (d < 0) && decide (v % 2 ^ (-d).toNat ≠ 0)) || c.stk
    let nx : BitVec 5 := if lost then flNX else 0
    if l > 2 ^ 63 - 1 then ⟨wrap 64 (2 ^ 63 - 1), nx ||| flOF⟩
    else if l < -(2 ^ 63 - 1) then ⟨wrap 64 (-(2 ^ 63 - 1)), nx ||| flOF⟩
    else ⟨wrap 64 l, nx⟩

/-- One word of a readout: its payload, sideband, row and place in the row, lane flags, next LFSR state, the cells it reads, and whether it
is the last. -/
structure RdWord where
  w : Word
  sb : BitVec 2
  row : Nat
  col : Nat
  fls : List (Nat × BitVec 5)
  lfsr : Option (BitVec 32)
  cells : List Nat
  last : Bool
  deriving Repr

/-- Word `pos` of a readout of kind `kind` (R175, R185, R189, R193). -/
def readoutAt (c : Ctx) (kind pos : Nat) (a : AccSet) : RdWord :=
  let f := c.f
  let per := if kind = 2 then 8 else if kind = 3 then 4 else if f.typ = .fp32 then 2 else 1
  if kind = 2 ∧ pos = 0 then ⟨low a.scnt.toNat, 0, 0, 0, [], none, [], false⟩
  else
    let q := if kind = 2 then pos - 1 else pos
    let row := row0 f + q / per
    let col := q % per
    let n := 32 / per
    let ks := (List.range n).map fun j => 32 * row + n * col + j
    let cs := ks.map fun k => a.cells.get k {}
    let last := decide (q + 1 ≥ per * nrow f)
    let sb : BitVec 2 := if last then 0b11 else if col + 1 = per then 0b10 else 0
    if kind = 2 then ⟨ofLanes 128 (cs.map cellImage), sb, row, col, [], none, ks, last⟩
    else if kind = 3 then
      let rs := cs.map (redLane (sx 10 (lane 64 (c.vb 64) 0 % 1024)))
      ⟨ofLanes 64 (rs.map Fr.bits), sb, row, col, laneFlags rs, none, ks, last⟩
    else
      let rnd := rndOf (f.md.toNat / 4 % 8)
      let (rks, lf) := drawn c rnd n
      let rs := (cs.zip rks).map fun (x, rk) => resolveCell (fmtOf f.typ) rnd (c.md 1) rk x
      ⟨ofLanes (tyBits f.typ) (rs.map Fr.bits), sb, row, col, laneFlags rs, lf, ks, last⟩

/-- The element that owns a readout of a set of the active plane, with its context. -/
def readoutOwner (s : State) (t : Nat) (acc : Bool) : Option Ctx :=
  let p := activePlane (tileAt s t)
  let x : Site := ⟨t, 2, (accOf p acc).rdo.slot⟩
  match elemIn p 2 x.slot with
  | none => none
  | some el => match instrAt el with
    | none => none
    | some i => match WellFormed.instrFields i with
      | none => none
      | some f => ctxAt s x i f

/-- READOUT_WORD, R175: the next word leaves when the element holds a demand on each target. Under FPEN a word that would raise an enabled
flag ends the readout and faults (R185). -/
def execReadoutWord (t : Nat) (acc : Bool) (s : State) : Host.Outcome State Fault Refusal :=
  match readoutOwner s t acc with
  | none => .next s
  | some c =>
    let a := accOf c.p acc
    if a.rdo.kind = 0 ∨ a.rdo.kind > 3 ∨ !tileRuns s t then .next s
    else if !hasDemands c.p c.x c.e (targetsOf c.i c.f) then .next (setWait s c (some .noDemand))
    else
      let r := readoutAt c a.rdo.kind a.rdo.pos a
      let put (s : State) (g : AccSet → AccSet) : State := modPlane s t c.b fun p => withAcc p acc (g (accOf p acc))
      match enabledLane c.l.rcd.fpen r.fls with
      | some k =>
        .next (trapAt (put s fun a => { a with rdo := {} }) c cFpException none
          (payload3 (allFlags r.fls).toNat k (r.row + r.col * 2 ^ 16)) c.e.fflg)
      | none =>
        let s := modElem s c.x c.b fun el => { el with fflg := el.fflg ||| allFlags r.fls, lfsr := r.lfsr.getD el.lfsr, wait := none }
        let clr := (a.rdo.kind == 1 || a.rdo.kind == 3) && c.md 0
        let s := put s fun a => { a with
          cells := if clr then r.cells.foldl (fun l k => l.del k) a.cells else a.cells
          rdo := if r.last then {} else { a.rdo with pos := a.rdo.pos + 1 } }
        .next ((targetsOf c.i c.f).foldl (fun s m => emitTo s c.x c.b m.1 m.2 ⟨r.w, r.sb⟩) s)

/-- A cell image that ALDI refuses, R190. -/
def badImage (v : Nat) : Bool :=
  decide (v % 2 ^ 15 ≠ 0) || (!v.testBit 16 && (decide (v / 2 ^ 22 ≠ 0) || v.testBit 15))

/-- ALDI, R190. -/
def execAldi (f : Fields) (s : State) : Host.Outcome State Fault Refusal :=
  fire (.aldi f) f (stdQuiet fun _ c =>
    let k := c.e.nf.toNat % (1 + 8 * nrow f)
    let w := c.va 512
    let bad := if k = 0 then decide (w.toNat / 64 ≠ 0) else (List.range 4).any fun j => badImage (lane 128 w j)
    let set (a : AccSet) : AccSet :=
      if k = 0 then (if allRows f then { a with scnt := BitVec.ofNat 6 (w.toNat % 64) } else a)
      else
        let base := 32 * (row0 f + (k - 1) / 8) + 4 * ((k - 1) % 8)
        { a with cells := (List.range 4).foldl (fun l j =>
            let x := cellOfImage (lane 128 w j)
            if x = {} then l.del (base + j) else l.put (base + j) x) a.cells }
    accFree c (if bad then .trap cAccImage none (payload3 (w.toNat % 2 ^ 64) 0 0)
      else .done { emits := if k = 8 * nrow f then zeroAll c 0b11 else [], take := c.ops, post := postAcc c set })) s

/-- RROOT, R195. -/
def execRroot (f : Fields) (s : State) : Host.Outcome State Fault Refusal :=
  fire (.rroot f) f (std fun _ c =>
    let rnd := rndF f
    let rda := sx 10 (lane 64 (c.vb 64) 0 % 1024)
    let (rks, lf) := drawn c rnd 8
    let rs := rks.zipIdx.map fun (rk, j) => roundDy (fmtOf f.typ) rnd (satF f) (rnd == .rm) ⟨sx 64 (lane 64 (c.va 64) j), rda - 56⟩ rk
    .done { emits := emitAll c (ofLanes c.n (rs.map Fr.bits)), take := c.ops, fls := laneFlags rs, lfsr := lf }) s

/-! ### Sort mode -/

/-- The rank of a key in the order of R197, as a number. -/
def keyRank (t : Ty) (v : Nat) : Int :=
  if isFloat t then
    let m := fmtOf t
    if unpack m v = .nan then 2 ^ 40
    else
      let h := 2 ^ (m.eb + m.mb)
      if v ≥ h then -((v - h : Nat) : Int) - 1 else v
  else rd (tySigned t) (tyBits t) v

/-- Key x comes before or ties with key y under DESC. -/
def keyLe (t : Ty) (desc : Bool) (x y : Nat) : Bool := if desc then decide (keyRank t x ≥ keyRank t y) else decide (keyRank t x ≤ keyRank t y)

/-- Merges two lists of keys, ties to the first. -/
def mergeBy {α : Type} (le : α → α → Bool) : Nat → List α → List α → List α
  | 0, a, b => a ++ b
  | _ + 1, [], b => b
  | _ + 1, a, [] => a
  | n + 1, x :: a, y :: b => if le x y then x :: mergeBy le n a (y :: b) else y :: mergeBy le n (x :: a) b

/-- A stable merge sort over `n` halvings. -/
def sortBy {α : Type} (le : α → α → Bool) : Nat → List α → List α
  | 0, l => l
  | n + 1, l =>
    if l.length ≤ 1 then l
    else
      let h := l.length / 2
      mergeBy le l.length (sortBy le n (l.take h)) (sortBy le n (l.drop h))

/-- Cuts a list into words of `k` lanes. -/
def chunks {α : Type} (k : Nat) : Nat → List α → List (List α)
  | 0, _ => []
  | n + 1, l => if l.isEmpty then [] else l.take k :: chunks k n (l.drop k)

/-- Words for a target, the last of them with sideband `sb`. -/
def wordsFor (tgt : Nat) (sb : BitVec 2) (l : List Word) : List (Nat × Token) :=
  l.zipIdx.map fun (w, i) => (tgt, ⟨w, if i + 1 = l.length then sb else 0⟩)

/-- Puts the words of two targets in turn, `k` of the second after each of the first (log 98). -/
def interleave (k : Nat) : List (Nat × Token) → List (Nat × Token) → List (Nat × Token)
  | [], b => b
  | x :: a, b => x :: b.take k ++ interleave k a (b.drop k)

/-- The words that leave a closed chunk, R196, R197. -/
def chunkWords (f : Fields) (sb : BitVec 2) (keys : List (Nat × Nat)) : List (Nat × Token) :=
  let n := tyBits f.typ
  let per := 512 / n
  let l := sortBy (fun x y => keyLe f.typ (f.md.getLsbD 4) x.1 y.1) 11 keys
  let ks := (chunks per l.length l).map fun g => ofLanes n (g.map (·.1))
  match f.md.toNat / 4 % 4 with
  | 0 => wordsFor 0 sb ks
  | 1 =>
    let ix := (chunks 16 l.length l).map fun g => ofLanes 32 (g.map (·.2))
    interleave (per / 16) (wordsFor 0 sb ks) (wordsFor 1 sb ix)
  | _ => wordsFor 0 sb ((chunks 8 l.length l).map fun g => ofLanes 64 (g.map fun x => x.1 * 2 ^ 32 + x.2))

/-- XSORT, R196 to R198. The chunk is open while RDO shows KIND 4 and no word waits to leave. -/
def execXsort (f : Fields) (s : State) : Host.Outcome State Fault Refusal :=
  fire (.xsort f) f (fun _ c =>
    let a := accOf c.p (asel c)
    let isOpen := decide (a.rdo.kind = 4) && decide (a.rdo.slot = c.x.slot) && a.sort.words.isEmpty
    match c.ha with
    | none => missing c
    | some t =>
      if isCtl t then
        if isOpen then
          .done { poisonOn c 5 [] c.outs with post := postAcc c fun a => { a with cells := [], rdo := {}, sort := { runs := a.sort.runs.del c.x.slot } } }
        else .idle
      else if a.rdo.kind ≠ 0 ∧ !isOpen then .wait .other
      else
        let pos : Nat := a.sort.runs.get c.x.slot 0
        let ks : List (Nat × Nat) := (lanesOf c.n t.pay).zipIdx.map fun (v, i) => (v, (pos + i) % 2 ^ 32)
        let keys := a.sort.keys ++ ks
        let ends := endsRow t
        let closed := ends || decide (keys.length ≥ 1024)
        let chunk : SortChunk :=
          { keys := if closed then [] else keys
            runs := if ends then a.sort.runs.del c.x.slot else a.sort.runs.put c.x.slot (pos + ks.length)
            words := if closed then chunkWords f (if ends then t.sb else 0b10) keys else [] }
        .done { take := [.a], post := postAcc c fun a => { a with rdo := ⟨4, c.x.slot, 0⟩, sort := chunk } }) s

/-- SORT_CHUNK_WORD, R196: the next word leaves under demand; after the last the set is unset and RDO returns to 0. -/
def execSortChunkWord (t : Nat) (acc : Bool) (s : State) : Host.Outcome State Fault Refusal :=
  match readoutOwner s t acc with
  | none => .next s
  | some c =>
    let a := accOf c.p acc
    match a.sort.words with
    | [] => .next s
    | (k, tok) :: rest =>
      match (targetsOf c.i c.f).find? fun m => m.1 == k with
      | none => .next s
      | some (_, tg) =>
        if !tileRuns s t then .next s
        else if !hasDemands c.p c.x c.e [(k, tg)] then .next (setWait s c (some .noDemand))
        else
          let s := modPlane s t c.b fun p => withAcc p acc (let a := accOf p acc
            if rest.isEmpty then { a with cells := [], rdo := {}, sort := { a.sort with words := [] } }
            else { a with rdo := { a.rdo with pos := a.rdo.pos + 1 }, sort := { a.sort with words := rest } })
          .next (emitTo s c.x c.b k tg tok)

/-! ### Merging -/

/-- Merges what is held until 8 pairs wait or an unfinished run has no pair left. -/
def xmRun (t : Ty) (desc : Bool) : Nat → Xmerge → Xmerge
  | 0, m => m
  | n + 1, m =>
    if m.pend.length ≥ 8 then m
    else match m.bufA, m.bufB with
      | x :: a, y :: b =>
        if keyLe t desc (x / 2 ^ 32) (y / 2 ^ 32) then xmRun t desc n { m with bufA := a, pend := m.pend ++ [x] }
        else xmRun t desc n { m with bufB := b, pend := m.pend ++ [y] }
      | x :: a, [] => if m.db then xmRun t desc n { m with bufA := a, pend := m.pend ++ [x] } else m
      | [], y :: b => if m.da then xmRun t desc n { m with bufB := b, pend := m.pend ++ [y] } else m
      | [], [] => m

/-- Nothing of a run is held. -/
def xmIdle (m : Xmerge) : Bool := m.bufA.isEmpty && m.bufB.isEmpty && m.pend.isEmpty && !m.da && !m.db

/-- XMERGE, R199. One firing takes a word of one input, or emits a word. -/
def execXmerge (f : Fields) (s : State) : Host.Outcome State Fault Refusal :=
  fire (.xmerge f) f (fun _ c =>
    let m := c.e.xm
    let set (m : Xmerge) : State → State := fun s => modElem s c.x c.b fun e => { e with xm := m }
    let run (m : Xmerge) : Xmerge := xmRun f.typ (f.md.getLsbD 4) 32 m
    let hard (h : Option Token) : Bool := match h with | some t => isCtl t && !isBubble t | none => false
    let done := m.da && m.db && m.bufA.isEmpty && m.bufB.isEmpty
    let sbEnd : BitVec 2 := if m.xa && m.xb then 0b11 else 0b10
    if done && m.pend.isEmpty then
      .done { emits := toAll c (bubble (m.xa && m.xb)), nf := false, post := set {} }
    else if done || decide (m.pend.length ≥ 8) then
      .done { emits := toAll c ⟨ofLanes 64 m.pend, if done then sbEnd else 0⟩, nf := false,
              post := set (if done then {} else run { m with pend := [] }) }
    else
      let take (op : Opnd) (t : Token) : Res :=
        let ps := if isData t then lanesOf 64 t.pay else []
        let row := endsRow t
        let str := endsStream t
        .done { take := [op], nf := isData t, post := set (run (match op with
          | .a => { m with bufA := ps, da := row, xa := str }
          | _ => { m with bufB := ps, db := row, xb := str })) }
      let needA := m.bufA.isEmpty && !m.da
      let needB := m.bufB.isEmpty && !m.db
      if xmIdle m && hard c.ha && hard c.hb then .idle
      else if xmIdle m && (hard c.ha || hard c.hb) && (c.ha.isNone || c.hb.isNone) then missing c
      else if needA && hard c.ha then .done { poisonOn c 8 [] (targetsOf c.i c.f) with post := set (run { m with da := true, xa := true }) }
      else if needB && hard c.hb then .done { poisonOn c 8 [] (targetsOf c.i c.f) with post := set (run { m with db := true, xb := true }) }
      else match needA, c.ha, needB, c.hb with
        | true, some t, _, _ => take .a t
        | _, _, true, some t => take .b t
        | _, _, _, _ => missing c) s

end Sys2Proof.Machine
end

