-- ==== Sys2Proof/Machine/Banks.lean ====
section
/-! DEFINITION. Bank power: wakes, drowsing and grants, and the places of scratch accesses (R276, R334 to R338). -/

namespace Sys2Proof.Machine

open Sys2Proof

/-- The place that stands for the requester of a COPY node's job, which has no tile. -/
def noTile : Nat := 65536

/-- Bytes of a bank and of a slice. -/
def bankBytes : Nat := 65536
def sliceBytes : Nat := 1048576

/-- Key of a byte of a tile's slice in `scratch`. -/
def scrKey (t off : Nat) : Nat := t * sliceBytes + off

/-- The bank of an offset. -/
def bankOf (off : Nat) : Nat := off % sliceBytes / bankBytes

def granted (x : Tile) (b : Nat) : Bool := x.bankg.getLsbD b

def bankMode (x : Tile) (b : Nat) : Bpm := x.bpm.get b .off

/-- The bank serves accesses: ACTIVE, with no wake or scrub to wait for. -/
def bankReady (x : Tile) (b : Nat) : Bool := bankMode x b == .active && (x.wakes.find b).isNone

def setBank (x : Tile) (b : Nat) (m : Bpm) : Tile := { x with bpm := x.bpm.put b m }

/-- An access or a wake clears BIDLE. -/
def touchBank (x : Tile) (b : Nat) : Tile := { x with bidle := x.bidle.del b, touched := x.touched ||| (1#16 <<< b) }

/-- Zeros and empty full-empty bits in a bank. -/
def clearBank (s : State) (t b : Nat) : State :=
  let lo := scrKey t (b * bankBytes)
  { s with scratch := Memory.clear s.scratch lo bankBytes
           feb := s.feb.filter fun g => decide (g < lo / 16 ∨ lo / 16 + bankBytes / 16 ≤ g) }

/-- Starts the wake of a bank that is not waking already (R335, R336). -/
def wakeBank (s : State) (t b : Nat) : State :=
  let x := tileAt s t
  if (x.wakes.find b).isSome then s
  else
    let go (n ev : Nat) : State :=
      countEvent (modTile s t fun x => touchBank { x with wakes := x.wakes.put b n } b) x.tlease.toNat ev 1
    match bankMode x b with
    | .retain => go 6 20
    | .discard => go 1184 21
    | _ => s

/-- BANK_WAKE_DONE, R335: a bank that wakes from DISCARD is zeros. -/
def execBankWakeDone (t b : Nat) (s : State) : Host.Outcome State Fault Refusal :=
  let x := tileAt s t
  if x.wakes.find b = some 0 ∧ x.scrub.getLsbD b = false then
    let s := if bankMode x b = .discard then clearBank s t b else s
    .next (modTile s t fun x => touchBank (setBank { x with wakes := x.wakes.del b } b .active) b)
  else .next s

/-- BANK_GRANT_SCRUB_DONE, R334: a granted bank becomes ACTIVE with zeros and empty full-empty bits. -/
def execBankGrantScrubDone (t b : Nat) (s : State) : Host.Outcome State Fault Refusal :=
  let x := tileAt s t
  if x.wakes.find b = some 0 ∧ x.scrub.getLsbD b = true then
    .next (modTile (clearBank s t b) t fun x => touchBank (setBank
      { x with wakes := x.wakes.del b, scrub := x.scrub &&& ~~~(1#16 <<< b) } b .active) b)
  else .next s

/-- Grants banks: each starts its scrub (R334). -/
def grantBanks (x : Tile) (mask : Nat) : Tile :=
  (bitsOf 16 mask).foldl (fun x b =>
    { x with bankg := x.bankg ||| (1#16 <<< b), scrub := x.scrub ||| (1#16 <<< b), wakes := x.wakes.put b 1024 }) x

/-- Takes banks out of a tile's grant: scrubbed and OFF (R341). -/
def ungrantBanks (s : State) (t mask : Nat) : State :=
  (bitsOf 16 mask).foldl (fun s b =>
    modTile (clearBank s t b) t fun x => touchBank (setBank
      { x with wakes := x.wakes.del b, scrub := x.scrub &&& ~~~(1#16 <<< b), bankg := x.bankg &&& ~~~(1#16 <<< b) } b .off) b) s

/-- RTH, SBC and PWH of a BWPH register (Table 11.2). -/
def bwphRth (v : BitVec 32) : Nat := fld v.toNat 12 16
def bwphSbc (v : BitVec 32) : Nat := fld v.toNat 30 2
def bwphPwh (v : BitVec 32) : Nat := fld v.toNat 10 2

/-- BWPH of the lease of a tile. -/
def tileBwph (s : State) (t : Nat) : BitVec 32 := (leaseAt s (tileAt s t).tlease.toNat).rcd.bwph

/-- BANK_DROWSE, Table 11.11. -/
def execBankDrowse (t b : Nat) (s : State) : Host.Outcome State Fault Refusal :=
  let x := tileAt s t
  let rth := bwphRth (tileBwph s t)
  if bankReady x b ∧ rth ≠ 0 ∧ (x.bidle.get b 0).toNat ≥ 16 * rth then .next (modTile s t fun x => setBank x b .retain) else .next s

/-- The banks of a tile that are ACTIVE, waking ones not counted. -/
def activeBanks (x : Tile) : List Nat := (List.range 16).filter fun b => bankReady x b

/-- BANK_SBC_LIMIT, Table 11.11: the ACTIVE bank with the largest BIDLE, the lowest on a tie, drowses. -/
def execBankSbcLimit (t : Nat) (s : State) : Host.Outcome State Fault Refusal :=
  let x := tileAt s t
  let l := activeBanks x
  if l.length > 4 * (bwphSbc (tileBwph s t) + 1) then
    match l with
    | [] => .next s
    | b :: r =>
      let pick := r.foldl (fun b k => if (x.bidle.get k 0).toNat > (x.bidle.get b 0).toNat then k else b) b
      .next (modTile s t fun x => setBank x pick .retain)
  else .next s

/-- The module tile and slice offset of a scratch address of a lease, as the placement stands now (R276). -/
def scrPlace (s : State) (lid addr : Nat) : Nat × Nat :=
  let r := (leaseAt s lid).rcd
  (tileOfTi r.lorg r.lext (addr / sliceBytes), addr % sliceBytes)

/-- Banks of a tile that a piece of a request lies in. -/
def pieceBanks (s : State) (lid t : Nat) (p : Piece) : List Nat :=
  match p.sp with
  | .scr =>
    let (u, off) := scrPlace s lid p.addr
    if u = t then (List.range 16).filter fun b => decide (off < (b + 1) * bankBytes) && decide (b * bankBytes < off + p.len) else []
  | _ => []

/-- A TI inside the issuing region's load-time rectangle moves with the plane's RDSP (R276): for a plane of a tile. -/
def rebaseAt (t : Tile) (p : Plane) (addr : Nat) : Nat :=
  let dx := dispX p.rdsp
  let dy := dispY p.rdsp
  let lw := regX t.lext + 1
  let ti := addr / sliceBytes
  let ox := (regX p.rorg : Int) - dx
  let oy := (regY p.rorg : Int) - dy
  let x : Int := (ti % lw : Nat)
  let y : Int := (ti / lw : Nat)
  if ox ≤ x ∧ x < ox + regX p.cext + 1 ∧ oy ≤ y ∧ y < oy + regY p.cext + 1 then
    ((ti : Int) + dy * lw + dx).toNat * sliceBytes + addr % sliceBytes
  else addr

/-- A range of bytes of a slice meets a bank. -/
def inBank (b lo hi : Nat) : Bool := decide (lo < (b + 1) * bankBytes) && decide (b * bankBytes < hi)

/-- The ranges of a job's footprint as the placement stands now: scratch ranges cut at the slices, each at its module tile, with offsets. Those
of an element's card are rebased with its plane (R276) (log 19). -/
def footNow (s : State) (lid : Nat) (who : Option Site) (plane : Bool) (foot : List (Bool × Nat × Nat)) : List (Nat × Nat × Nat) :=
  (foot.filter (·.1)).flatMap fun (_, lo, hi) =>
    (List.range ((hi - 1) / sliceBytes + 1 - lo / sliceBytes)).map fun i =>
      let ti := lo / sliceBytes + i
      let a := max lo (ti * sliceBytes)
      let z := min hi ((ti + 1) * sliceBytes)
      let a' := match who with | some x => rebaseAt (tileAt s x.tile) (planeOf (tileAt s x.tile) plane) a | none => a
      let (t, off) := scrPlace s lid a'
      (t, off, off + (z - a))

end Sys2Proof.Machine
end

