-- ==== Sys2Proof/Machine/Notices.lean ====
section
/-! DEFINITION. Completion queues of the physical functions, the notices in them and their MSI-X vectors (R483, R485, R486). -/

namespace Sys2Proof.Machine

open Sys2Proof

def pfAt (s : State) (pf : Nat) : Pf := s.pfs.get pf {}

def modPf (s : State) (pf : Nat) (g : Pf → Pf) : State := { s with pfs := s.pfs.put pf (g (pfAt s pf)) }

/-- A tenant's PF (R483). -/
def isTenant (pf : Nat) : Bool := decide (1 ≤ pf) && decide (pf ≤ 32)

/-- The host port that presents a PF is up (R483, R490). -/
def portUp (s : State) (pf : Nat) : Bool := if pf ≤ 16 then s.linkUp0 else s.linkUp1

/-- The physical address of a host address (R346) (log 58). -/
def hostPa (a : Nat) : Nat := 2 ^ 50 + a % 2 ^ 50

/-- EN and k of RCTL, QEN and k of QCTL (Table 22.1). -/
def ctlOn (v : BitVec 32) : Bool := v.getLsbD 31
def ctlLog (v : BitVec 32) : Nat := v.toNat % 32

/-- Distance of two free-running 32-bit indices. -/
def indexDist (a b : Nat) : Nat := (a + 2 ^ 32 - b % 2 ^ 32) % 2 ^ 32

/-- The completion queue has a free slot (R485). -/
def queueRoom (p : Pf) : Bool := ctlOn p.qctl && decide (indexDist p.qtail.toNat p.qhead.toNat < 2 ^ ctlLog p.qctl)

/-! ### MSI-X -/

/-- The vector of a completion-queue entry (R483): stop, blast and lease notices, page-fault records, and everything else (log 107). -/
def vectorOf (status : Nat) : Nat :=
  match status with
  | 0x81 | 0x82 | 0x86 => 1
  | 0x83 => 2
  | _ => 0

/-- A half of an entry of the MSI-X table: the address of a vector, or its data with the mask bit at bit 32, masked at reset (log 107). -/
def msixHalf (p : Pf) (i : Nat) : BitVec 64 := p.msix.get i (if i % 2 = 1 then 0x100000000 else 0)

/-- A vector is signalled: its message is sent, or it is pending while it is masked. -/
def signal (p : Pf) (v : Nat) : Pf :=
  if (msixHalf p (2 * v + 1)).getLsbD 32 then { p with pba := p.pba ||| BitVec.ofNat 3 (2 ^ v) } else { p with msgs := p.msgs ++ [v] }

/-- A half of the table is written: a pending vector that is no longer masked is sent. -/
def writeMsix (p : Pf) (i : Nat) (v : BitVec 64) : Pf :=
  let p := { p with msix := p.msix.put i v }
  if i % 2 = 1 ∧ p.pba.getLsbD (i / 2) ∧ !v.getLsbD 32 then { p with pba := p.pba &&& ~~~(BitVec.ofNat 3 (2 ^ (i / 2))), msgs := p.msgs ++ [i / 2] } else p

/-! ### Entries -/

/-- The 16 bytes of a completion-queue entry (R485). -/
def entryBytes (e : CEntry) (ph : Nat) : List Byte :=
  toBytes 8 e.tag.toNat ++ toBytes 6 e.res.toNat ++ toBytes 1 e.status ++ toBytes 1 (ph * 128 + (if e.outc then 8 else 0) + e.ring % 8)

/-- Writes an entry at QTAIL and signals its vector; PH flips each time QTAIL wraps (R485, log 4). -/
def writeEntry (s : State) (pf : Nat) (e : CEntry) : State :=
  let p := pfAt s pf
  let k := ctlLog p.qctl
  let t := p.qtail.toNat
  modPf { s with mem := Memory.putBytes s.mem (hostPa (p.qbase.toNat + 16 * (t % 2 ^ k))) (entryBytes e (t / 2 ^ k % 2)) } pf fun p =>
    signal { p with qtail := p.qtail + 1 } (vectorOf e.status)

/-- The entry of a notice. -/
def noticeEntry (n : Notice) : CEntry := { tag := n.va, res := n.res, status := n.code, outc := false, ring := 0 }

/-- Writes the oldest buffered notice, or, with none from before the merge left, one NOTICE_LOST (R486). -/
def writeNotice (s : State) (pf : Nat) (p : Pf) : State :=
  match p.nmerged, p.nbefore with
  | (k, n) :: r, 0 =>
    modPf (writeEntry s pf { tag := BitVec.ofNat 64 k, res := BitVec.ofNat 48 n, status := 0x87, outc := false, ring := 0 }) pf fun p =>
      { p with nmerged := r, cwait := p.cwait.map fun e => { e with after := e.after - 1 } }
  | _, _ => match p.nbuf with
    | n :: r => modPf (writeEntry s pf (noticeEntry n)) pf fun p =>
      { p with nbuf := r, nbefore := p.nbefore - 1, cwait := p.cwait.map fun e => { e with after := e.after - 1 } }
    | [] => s

/-- With a free slot in the queue and its port's link up, the entry that has waited longest is written (R485, R486, R490). Merged notices come
behind those from before the merge, one NOTICE_LOST for each code. -/
def writeOldest (s : State) (pf : Nat) : State :=
  let p := pfAt s pf
  if !queueRoom p || !portUp s pf then s
  else match p.cwait with
    | e :: r =>
      if e.after = 0 || p.nbuf.isEmpty && p.nmerged.isEmpty then modPf (writeEntry s pf e) pf fun p => { p with cwait := r } else writeNotice s pf p
    | [] => writeNotice s pf p

/-- Writes so many of the entries that wait. -/
def writeWaiting (pf : Nat) : Nat → State → State
  | 0, s => s
  | n + 1, s => writeWaiting pf n (writeOldest s pf)

/-! ### Notices -/

/-- Merges a notice into the count of its code (R486). -/
def mergeNotice (s : State) (pf : Nat) (n : Notice) : State :=
  modPf s pf fun p => { p with nmerged := p.nmerged.put n.code (p.nmerged.get n.code 0 + 1), nbefore := p.nbuf.length }

/-- A notice takes a slot of the queue behind what waits for one. It is buffered while the queue is full or the link down, and merged when the buffer is
full too (R486, R490). -/
def notify (s : State) (pf : Nat) (n : Notice) : State :=
  let p := pfAt s pf
  let s := writeWaiting pf (p.cwait.length + p.nbuf.length + p.nmerged.length) s
  let p := pfAt s pf
  if queueRoom p && portUp s pf then writeEntry s pf (noticeEntry n)
  else if p.nbuf.length < 64 then modPf s pf fun p => { p with nbuf := p.nbuf ++ [n] }
  else mergeNotice s pf n

/-- A notice to the PF of a lease's tenant. -/
def notifyLease (s : State) (lid code : Nat) (va : BitVec 64) (res : BitVec 48) : State :=
  notify s (leaseAt s lid).rcd.tenid.toNat ⟨code, va, res⟩

end Sys2Proof.Machine
end

