-- ==== Sys2Proof/Machine/Mem.lean ====
section
/-! DEFINITION. Requests: issue, the accesses at scratch banks, replies, and the scratch instructions (R276 to R282, R305 to R312, R319,
R338, R339, R374). A request holds the pieces that it has still to perform, each in one or more 16-byte granules. -/

namespace Sys2Proof.Machine

open Sys2Proof

/-! ### Issue -/

/-- Requests that an element holds at most (R312). -/
def maxOuts : Nat := 16

/-- The numbers of a firing's targets. -/
def outNums (c : Ctx) : List Nat := c.outs.map (·.1)

/-- A request of the element of a context. -/
def reqOf (c : Ctx) (op : ReqOp) (pieces : List Piece) (dest : Dest) (phase : Phase) : Req :=
  { lease := c.lid, ten := c.l.rcd.tenid.toNat, who := c.x, plane := c.b, epoch := c.p.mepoch, op := op, rest := pieces, all := pieces,
    dest := dest, sb := c.sb, phase := phase }

/-- The module tile that a request on the mesh goes to, or its reply comes from. -/
def meshGoal (s : State) (r : Req) : Nat := match (r.rest ++ r.all).head? with | some p => (scrPlace s r.lease p.addr).1 | none => r.who.tile

/-- The packet of a request, or of its reply, is on the mesh. -/
def onMesh (s : State) (r : Req) : Bool :=
  r.phase == .mesh || (r.phase == .done && r.all.any (fun p => p.sp == .scr) && meshGoal s r != r.who.tile)

/-- The mesh routers and the seam link that a request enters as it is issued, as structures (Table 13.7, log 79). -/
def meshStructs (s : State) (r : Req) : List Nat :=
  if r.phase == .mesh then [4096 + Config.dieOf r.who.tile, 4096 + Config.dieOf (meshGoal s r)] ++ seamStruct r.who.tile (meshGoal s r) else []

/-- Puts a request in flight and counts it in OUTS. -/
def issueReq (s : State) (r : Req) : State :=
  let s := claim { s with reqs := s.reqs.put s.nextReq r, nextReq := s.nextReq + 1 } r.ten (meshStructs s r)
  if r.counted then modElem s r.who r.plane fun e => { e with outs := e.outs + 1 } else s

/-- Cuts a range into pieces that lie in one granule each. -/
def cutPieces (sp : Space) : Nat → Nat → Nat → Nat → List Piece
  | 0, _, _, _ => []
  | n + 1, addr, len, pos =>
    if len = 0 then []
    else
      let k := min len (16 - addr % 16)
      { sp := sp, addr := addr, len := k, pos := pos } :: cutPieces sp n (addr + k) (len - k) (pos + k)

/-- The address of an access of the element of a context (R276). -/
def rebase (c : Ctx) (addr : Nat) : Nat := rebaseAt c.t c.p addr

/-- The tiles of a lease. -/
def tileCount (c : Ctx) : Nat := leaseW c.l.rcd * leaseH c.l.rcd

/-- A scratch address names a byte of the lease: bits [63:34] are zero and TI is below the tile count (Table 11.4). -/
def scrOk (c : Ctx) (addr : Nat) : Bool := decide (addr < 2 ^ 34) && decide (addr / sliceBytes < tileCount c)

/-- The cause of an access of `w` bytes at `ea` whose base address is `base`, if it has one (Table 11.4). -/
def scrCause (c : Ctx) (base ea w : Nat) : Option Nat :=
  if !scrOk c ea || !scrOk c base || decide (ea / sliceBytes ≠ base / sliceBytes) then some cScratchRange
  else if ea % w ≠ 0 then some cAlign
  else none

/-- A memory trap with its scratch address or element index, TID and virtual address (Table 15.5). -/
def memTrap (cause addr tid va : Nat) : Res := .trap cause none (payload3 addr tid va)

/-- A request over scratch addresses, all of one slice: home at once in the issuing tile's own slice, over the mesh otherwise (R276). -/
def scrReq (c : Ctx) (op : ReqOp) (pieces : List Piece) : Req :=
  let ps := pieces.map fun p => { p with addr := rebase c p.addr }
  let home := ps.all fun p => p.addr / sliceBytes == c.ti
  { reqOf c op ps (.targets (outNums c) c.sb) (if home then .home else .mesh) with opw := BitVec.ofNat 64 c.aa }

/-- A firing that issues one scratch request and reserves its targets (R312). -/
def scrFire (c : Ctx) (r : Req) : Res :=
  if c.e.outs.toNat ≥ maxOuts then .wait .other
  else .done { take := c.ops, reserve := c.outs, post := fun s => issueReq s r }

/-! ### Access at a bank -/

/-- The part of a piece between two addresses. -/
def Piece.part (p : Piece) (lo hi : Nat) : Piece :=
  { p with addr := lo, len := hi - lo, pos := p.pos + (lo - p.addr), va := p.va + (lo - p.addr) }

/-- One granule of a list of pieces, by number, and the pieces without it. -/
def pickGranule : List Piece → Nat → Option (Piece × List Piece)
  | [], _ => none
  | p :: r, i =>
    let n := (p.addr + p.len - 1) / 16 - p.addr / 16 + 1
    if i < n then
      let lo := max p.addr ((p.addr / 16 + i) * 16)
      let hi := min (p.addr + p.len) ((p.addr / 16 + i + 1) * 16)
      let left : List Piece := if lo > p.addr then [{ p with len := lo - p.addr }] else []
      let right : List Piece := if hi < p.addr + p.len then [p.part hi (p.addr + p.len)] else []
      some (p.part lo hi, left ++ right ++ r)
    else (pickGranule r (i - n)).map fun (q, l) => (q, p :: l)

/-- The new value of an atomic, Table 11.8, with whether it is written. -/
def atomicNew (opc n : Nat) (sgn : Bool) (m b d : Nat) : Nat × Bool :=
  match opc with
  | 0xB0 => ((m + b) % 2 ^ n, true)
  | 0xB1 => ((fAdd fFp32 .rn false 0 (unpack fFp32 m) (unpack fFp32 b)).bits, true)
  | 0xB2 => (wrap n (min (rd sgn n m) (rd sgn n b)), true)
  | 0xB3 => (wrap n (max (rd sgn n m) (rd sgn n b)), true)
  | 0xB4 => (Nat.land m b, true)
  | 0xB5 => (Nat.lor m b, true)
  | 0xB6 => (Nat.xor m b, true)
  | 0xB7 => (b, true)
  | 0xB8 => if m = d then (b, true) else (m, false)
  | _ => (if m ≥ b then 0 else m + 1, true)

/-- Bytes of a word at a place. -/
def wordBytes (w : Word) (pos len : Nat) : Nat := w.toNat / 2 ^ (8 * pos) % 2 ^ (8 * len)

/-- A word with bytes put at a place. -/
def withBytes (w : Word) (pos len v : Nat) : Word := low (setFld w.toNat (8 * pos) (8 * len) v)

/-- A request fails at its target and is not performed further (R319). -/
def failReq (r : Req) (cause : Nat) : Req :=
  { r with rest := [], phase := .done, err := some (BitVec.ofNat 16 cause), waitFe := false, begun := false }

/-- The same at a channel, with the physical address that it refused. -/
def failReqAt (r : Req) (cause pa : Nat) : Req := { failReq r cause with errPa := pa }

/-- Closes a request whose pieces are all performed. -/
def closeReq (r : Req) : Req := if r.rest.isEmpty then { r with phase := .done, waitFe := false, begun := false } else r

/-- One piece of a request fails, `rest` being the others, at physical address `pa` of a channel. A job goes on with its other granules and
notes its first error and the bytes that it lost (R331); any other request fails as a whole (R319). -/
def failPiece (r : Req) (p : Piece) (rest : List Piece) (cause pa : Nat) : Req :=
  match r.dest with
  | .job _ _ => closeReq { r with
      rest := rest, err := some (r.err.getD (BitVec.ofNat 16 cause)), errPa := if r.err.isSome then r.errPa else pa,
      lost := Nat.lor r.lost ((2 ^ p.len - 1) * 2 ^ p.pos) }
  | _ => failReqAt r cause pa

/-- Counts a refusal by a channel under the requesting lease (R355). A job counts one for each 512-byte block of a channel (log 19). -/
def countRefusal (s : State) (r : Req) (cause pa : Nat) : State :=
  if cause ≠ cFrameOwner then s
  else match r.dest with
    | .job j _ => match (leaseAt s r.lease).jobt.find j with
      | some b =>
        if b.refused.contains (pa / 512) then s
        else modLease (countEvent s r.lease 6 1) r.lease fun l => { l with jobt := l.jobt.put j { b with refused := b.refused ++ [pa / 512] } }
      | none => s
    | _ => countEvent s r.lease 6 1

/-- A store to scratch: data and full-empty bits change together (R280). -/
def scrStore (s : State) (key len v : Nat) : State :=
  { s with scratch := Memory.writeN s.scratch len key v, feb := febSet s.feb (key / 16) true }

/-- The places of a request's pieces in one granule of a tile's slice: all of them, for a read (R309). -/
def sameGranule (s : State) (r : Req) (t g : Nat) (p : Piece) : Bool :=
  let (u, off) := scrPlace s r.lease p.addr
  p.sp == .scr && u == t && decide (off / 16 ≤ g) && decide (g ≤ (off + p.len - 1) / 16)

/-- A piece is part of another. -/
def withinPiece (p q : Piece) : Bool :=
  p.sp == q.sp && decide (q.addr ≤ p.addr) && decide (p.addr + p.len ≤ q.addr + q.len) && q.pos + (p.addr - q.addr) == p.pos

/-- FEB of the granule of a piece is 1. -/
def febHere (s : State) (r : Req) (p : Piece) : Bool :=
  let (t, off) := scrPlace s r.lease p.addr
  febAt s.feb (scrKey t off / 16)

/-- A .F load may take what it covers granule by granule: a lane of LDSI waits for its own granule only (R309), an LDS until all of its are full (R308). -/
def feOpen (s : State) (r : Req) : Bool := r.begun || r.rest.all (febHere s r)

/-- A .F.C load that reached the bank earlier and could take the granule too takes it first (R280). -/
def feAhead (s : State) (k : Nat) (r : Req) (t g : Nat) : Bool :=
  s.reqs.any fun (j, q) => j != k && (match q.op with | .read f c _ => f && c | _ => false) && decide (q.stamp ≠ 0) &&
    (decide (r.stamp = 0) || decide (q.stamp < r.stamp)) && feOpen s q && q.rest.any (sameGranule s q t g)

/-- A .F load may read a granule now (R280, R308, R309) (log 27). Only one that clears must leave it to an earlier one. -/
def feReady (s : State) (k : Nat) (r : Req) (p : Piece) : Bool :=
  let (t, off) := scrPlace s r.lease p.addr
  febHere s r p && feOpen s r && !((match r.op with | .read _ c _ => c | _ => false) && feAhead s k r t (off / 16))

/-- A .F load waits, from when it first reached the bank (R280). -/
def feWait (s : State) (k : Nat) (r : Req) : State :=
  if r.waitFe then s
  else if r.stamp = 0 then { s with reqs := s.reqs.put k { r with waitFe := true, stamp := s.nextReq + 1 }, nextReq := s.nextReq + 1 }
  else { s with reqs := s.reqs.put k { r with waitFe := true } }

/-- Performs the read of one granule for every piece in it. -/
def readGranule (s : State) (k : Nat) (r : Req) (t g : Nat) (clear : Bool) : State :=
  let here := r.rest.filter (sameGranule s r t g)
  let got := here.foldl (fun w p =>
    withBytes w p.pos p.len (Memory.readN s.scratch p.len (scrKey t (scrPlace s r.lease p.addr).2))) r.got
  let r := closeReq { r with got := got, rest := r.rest.filter fun p => !sameGranule s r t g p }
  let s := if clear then { s with feb := febSet s.feb (scrKey t (16 * g) / 16) false } else s
  { s with reqs := s.reqs.put k r }

/-- The entry of `badMem` for a scratch granule (R437). -/
def scrBad (key : Nat) : Nat := 2 ^ 60 + key / 16

/-- A request that stores a whole granule makes it good again (R437). -/
def wholeWrite (op : ReqOp) (len : Nat) : Bool := match op with | .write _ => decide (len = 16) | _ => false

/-- Performs one granule `p` of a request at its bank, `rest` being the pieces without it. -/
def performScr (s : State) (k : Nat) (r : Req) (t off : Nat) (p : Piece) (rest : List Piece) : State :=
  let key := scrKey t off
  let fin (s : State) (r : Req) : State := { s with reqs := s.reqs.put k (closeReq { r with rest := rest }) }
  let bad := s.badMem.contains (scrBad key)
  if bad && !wholeWrite r.op p.len then countEvent { s with reqs := s.reqs.put k (failPiece r p rest cUncorrectable 0), pf0log := s.pf0log + 1 } r.lease 9 1
  else
  let s := if bad then { s with badMem := s.badMem.filter (· != scrBad key) } else s
  match r.op with
  | .read f c _ =>
    if f && !feReady s k r p then feWait s k r
    else readGranule s k { r with begun := f, waitFe := r.waitFe && rest.any fun q => !febHere s r q } t (off / 16) c
  | .write d => fin (scrStore s key p.len (wordBytes d p.pos p.len)) r
  | .feb b => fin { s with feb := febSet s.feb (key / 16) b } r
  | .atomic opc n sgn b d _ _ =>
    let m := Memory.readN s.scratch (n / 8) key
    let (v, w) := atomicNew opc n sgn m b d
    fin (if w then scrStore s key (n / 8) v else s) { r with got := low m }
  | _ => fin s r

/-- A request of an element of a tile, not of its jobs, which are agents of their own (R322). -/
def ofTile (t : Nat) (r : Req) : Bool := r.who.tile == t && r.counted

/-- A piece lies on a page of kind UN. -/
def onUn (p : Piece) : Bool := p.sp == .pa && p.okind == 2

/-- A request writes. -/
def reqWrites (r : Req) : Bool := match r.op with | .write _ => true | .atomic .. => true | .px8 _ _ _ _ w => w | .feb _ => true | _ => false

/-- A request reads. -/
def reqReads (r : Req) : Bool := match r.op with | .read .. => true | .atomic .. => true | .px8 _ _ _ _ w => !w | _ => false

/-- A request with an access to memory still to be performed. -/
def accessDue (r : Req) : Bool := (reqReads r || reqWrites r) && !r.rest.isEmpty

/-! ### Going ahead of accesses (R291, R292)

A fence, or an atomic that acquires or releases, orders accesses for the agents of its scope only. It need not wait for an access that is about to
be performed: it goes ahead and marks it, and an access of an agent in its scope that could tell stands back until the marked one is performed
(log 99). -/

/-- The agent of a request belongs to the observers of a scope of a tile and its lease, Table 10.3. A COPY node's job stands on no die; it counts
as one of each (log 99). -/
def inScope (t lid scope : Nat) (q : Req) : Bool :=
  match scope with
  | 0 => ofTile t q
  | 1 => q.lease == lid
  | 2 => decide (q.who.tile ≥ noTile) || Config.dieOf q.who.tile == Config.dieOf t
  | _ => true

/-- The granules of a piece: scratch ones by their place now, others by the address. -/
def pieceGranules (s : State) (r : Req) (p : Piece) : Nat × Nat :=
  let a := match p.sp with
    | .scr => scrKey (scrPlace s r.lease p.addr).1 (scrPlace s r.lease p.addr).2
    | _ => p.addr
  (a / 16, (a + p.len - 1) / 16)

/-- Pieces of two requests share a granule. -/
def piecesMeet (s : State) (q r : Req) (p u : Piece) : Bool :=
  (p.sp == .scr) == (u.sp == .scr) && decide ((pieceGranules s q p).1 ≤ (pieceGranules s r u).2) &&
    decide ((pieceGranules s r u).1 ≤ (pieceGranules s q p).2)

/-- Two requests of different agents, one of which writes, have a granule in common. -/
def reqsMeet (s : State) (q r : Req) : Bool :=
  q.who != r.who && (reqWrites q || reqWrites r) && q.rest.any fun p => r.rest.any (piecesMeet s q r p)

/-- An access of a request to a piece stands back for a marked one. -/
def standsBack (s : State) (r : Req) (p : Piece) : Bool :=
  s.reqs.any fun (_, q) => q.marks.any (fun sc => inScope q.who.tile q.lease sc r) && reqsMeet s q { r with rest := [p] }

/-- A request of plain accesses, translated and first among its agent's: it will be performed whatever other requests do. -/
def onItsWay (s : State) (k : Nat) (q : Req) : Bool :=
  (match q.op with | .read f c _ => !f && !c | .write _ => true | .feb _ => true | _ => false) && q.phase != .faulted &&
    q.rest.all (fun p => p.sp != .va) && !s.reqs.any fun (j, p) => decide (j < k) && p.who == q.who && p.lease == q.lease && accessDue p

/-- Requests that a fence or ordered atomic may go ahead of: all on their way, and none in the way of another or of a marked one. -/
def mayPass (s : State) (l : Tab Req) : Bool :=
  l.all fun (k, q) => onItsWay s k q && !l.any (fun m => reqsMeet s q m.2) && !s.reqs.any fun (_, m) => !m.marks.isEmpty && reqsMeet s q m

/-- Marks the requests that a fence or ordered atomic of a scope has gone ahead of. -/
def markReqs (s : State) (scope : Nat) (l : Tab Req) : State :=
  if l.isEmpty then s
  else { s with reqs := s.reqs.map fun (k, q) => (k, if l.any (fun m => m.1 == k) then { q with marks := q.marks ++ [scope] } else q) }

/-- Accesses that a tile issued before key `k` and that are still to be performed: those of some requests, with a piece on pages of some kinds. -/
def tileDue (s : State) (t k : Nat) (which : Req → Bool) (page : Piece → Bool) : Tab Req :=
  s.reqs.filter fun m => decide (m.1 < k) && ofTile t m.2 && which m.2 && m.2.rest.any page

/-- The reads before key `k` that an acquire of a tile covers: on SO and RC pages and in scratch (R291, R292). -/
def acquireDue (s : State) (t k : Nat) : Tab Req := tileDue s t k reqReads fun p => !onUn p

/-- What a release atomic on a SO or RC page or in scratch covers: every access that its tile issued before it (R292). -/
def releaseDue (s : State) (k : Nat) (r : Req) (okind : BitVec 2) : Tab Req :=
  match r.op with
  | .atomic _ _ _ _ _ ord _ => if ord.getLsbD 1 ∧ okind ≠ 2 then tileDue s r.who.tile k accessDue fun _ => true else []
  | _ => []

/-- SCOPE of an atomic. -/
def atomicScope (r : Req) : Nat := match r.op with | .atomic _ _ _ _ _ _ scope => scope.toNat | _ => 0

/-- What the reply of an acquire atomic covers, as an ACQ fence would; one on a UN page orders nothing (R292). -/
def replyDue (s : State) (k : Nat) (r : Req) : Tab Req :=
  match r.op with
  | .atomic _ _ _ _ _ ord _ => if ord.getLsbD 0 && r.err.isNone && !r.all.any (fun p => p.okind == 2) then acquireDue s r.who.tile k else []
  | _ => []

/-- No earlier request of the same element has an access to come on the granule (R289), nor, for a ring operation, an earlier one (R253). -/
def scrTurn (s : State) (k : Nat) (r : Req) (t g : Nat) : Bool :=
  !s.reqs.any fun (j, q) => decide (j < k) && ((q.who == r.who && q.lease == r.lease) || (q.ring && r.ring)) && q.rest.any (sameGranule s q t g)

/-- BANK_ACCESS, R279: a bank serves one granule of a request. The access waits while the bank wakes or drains or its tile moves (R295); a bank that
is not granted answers with BANK_UNGRANTED. -/
def execBankAccess (k i : Nat) (s : State) : Host.Outcome State Fault Refusal :=
  match s.reqs.find k with
  | none => .next s
  | some r =>
    if r.phase != .home then .next s
    else match pickGranule r.rest i with
      | none => .next s
      | some (p, rest) =>
        if p.sp != .scr then .next s
        else
          let (t, off) := scrPlace s r.lease p.addr
          let b := bankOf off
          let x := tileAt s t
          let held := match x.drain with | some d => d.mask.getLsbD b && decide (k ≥ d.before) | none => false
          let isRead := match r.op with | .read _ _ _ => true | _ => false
          let earlier := (r.rest.takeWhile fun q => !withinPiece p q).any (sameGranule s r t (off / 16))
          if !granted x b then .next { s with reqs := s.reqs.put k (failPiece r p rest cBankUngranted 0) }
          else if held || shut x || !scrTurn s k r t (off / 16) || !mayPass s (releaseDue s k r 0) || standsBack s r p then .next s
          else if !bankReady x b then .next (wakeBank s t b)
          else if r.op == .wake then .next { s with reqs := s.reqs.put k (closeReq { r with rest := rest }) }
          else if !isRead && earlier && !rest.isEmpty then .next s
          else .next (performScr (modTile (markReqs s (atomicScope r) (releaseDue s k r 0)) t fun x => touchBank x b) k r t off p rest)

/-- FE_LOAD_RELEASE, R280: a waiting .F load reads a granule that it may take, in its element's order (R289). -/
def execFeLoadRelease (k : Nat) (s : State) : Host.Outcome State Fault Refusal :=
  match s.reqs.find k with
  | none => .next s
  | some r =>
    let ready (p : Piece) : Bool :=
      let (t, off) := scrPlace s r.lease p.addr
      let x := tileAt s t
      feReady s k r p && scrTurn s k r t (off / 16) && !standsBack s r p && !shut x && granted x (bankOf off) && bankReady x (bankOf off)
    match r.op, r.rest.find? ready with
    | .read true _ _, some p =>
      let (t, off) := scrPlace s r.lease p.addr
      if r.waitFe then .next (performScr (modTile s t fun x => touchBank x (bankOf off)) k r t off p (r.rest.erase p)) else .next s
    | _, _ => .next s

/-- MESH_PACKET_ARRIVAL, R377, R451: a request packet reaches the tile of its slice; a tile of another lease refuses it with FIREWALL. The request of an
RDCTR reaches the home of its counter, behind those that its element sent earlier. -/
def execMeshPacketArrival (k : Nat) (s : State) : Host.Outcome State Fault Refusal :=
  match s.reqs.find k with
  | none => .next s
  | some r =>
    if r.phase != .mesh then .next s
    else if let .ctr n := r.op then
      if s.reqs.any fun (j, q) => decide (j < k) && q.who == r.who && q.phase == .mesh && (match q.op with | .ctr _ => true | _ => false) then .next s
      else .next { s with reqs := s.reqs.put k { r with op := .note ⟨ofLanes 64 [counterOf s (leaseAt s r.lease) n, s.tick.toNat], r.sb⟩, phase := .done } }
    else match r.rest.head? with
      | none => .next { s with reqs := s.reqs.put k { r with phase := .done } }
      | some p =>
        let x := tileAt s (scrPlace s r.lease p.addr).1
        if shut x then .next s
        else if tileBound x ∧ x.tlease.toNat = r.lease then .next { s with reqs := s.reqs.put k { r with phase := .home } }
        else .next { s with reqs := s.reqs.put k (failReq r cFirewall) }

/-! ### Replies -/

/-- Spreads packed 6-bit elements over 8-bit lanes (R92). -/
def spread6 (n : Nat) (w : Word) : Word := ofLanes 8 ((List.range n).map fun i => w.toNat / 2 ^ (6 * i) % 64)

/-- The token that a performed request answers with. -/
def replyTok (r : Req) (sb : BitVec 2) (ti : Nat) : Token :=
  if r.err.isSome then poisonTok 0x0A ti
  else match r.op with
    | .read _ _ n => ⟨if n = 0 then r.got else spread6 n r.got, sb⟩
    | .atomic .. => ⟨r.got, sb⟩
    | .note t => t
    | .px8 _ _ _ _ false => if r.raw = 1 then ⟨r.got, sb⟩ else poisonTok 2 ti
    | _ => ⟨0, sb⟩

/-- The plane register address of an element's word in a plane. -/
def fieldsAt (p : Plane) (e slot : Nat) : Option (Instr × Fields) :=
  match elemIn p e slot with
  | none => none
  | some el => match instrAt el with
    | none => none
    | some i => (WellFormed.instrFields i).map fun f => (i, f)

/-- The requesting element faults with the cause of an error completion (R319). -/
def faultReq (s : State) (r : Req) : State :=
  match r.err with
  | none => s
  | some cause =>
    let x := tileAt s r.who.tile
    let p := planeOf x r.plane
    let (d, s) := memDetail s cause.toNat r.errPa
    let fl := match elemIn p r.who.eng r.who.slot with | some e => e.fflg | none => 0
    let (a, va) := match r.all.head? with
      | some q => if q.sp = .scr then (q.addr, 0) else (q.element, q.addr)
      | none => (0, 0)
    trap s r.lease cause.toNat d (placeOf x p r.who.eng r.who.slot) (payload3 a r.tid va) fl

/-- A request of the same element with an earlier issue, and a reply to the same kind of place, is still to be delivered (R312, R319). The
completion of a range waits for every earlier access of the element (R316, R318). -/
def replyBehind (s : State) (k : Nat) (r : Req) : Bool :=
  let kind (d : Dest) : Nat := match d with | .targets _ _ => 0 | .desc .. => 1 | .ring .. => 2 | .none => 3 | .job j m => 4 + j * 2 ^ 64 + m
  let after := match r.op with | .note _ => true | .wake => true | _ => false
  let isJob := match r.dest with | .job .. => true | _ => false
  !isJob && s.reqs.any fun (j, q) => decide (j < k) && q.who == r.who && q.plane == r.plane && (kind q.dest == kind r.dest || (after && (q.phase != .done || q.err.isSome)))

/-- The next completion of the element behind a failed store becomes POISON (R319). -/
def poisonNote (s : State) (k : Nat) (r : Req) : State :=
  if r.err.isNone then s
  else match s.reqs.find? fun (j, q) => decide (j > k) && q.who == r.who && q.plane == r.plane && (match q.op with | .note t => isData t | _ => false) with
    | some (j, q) => { s with reqs := s.reqs.put j { q with op := .note (poisonTok 0x0A (tiOf (tileAt s r.who.tile))) } }
    | none => modElem s r.who r.plane fun e => { e with rqp := { e.rqp with bad := true, did := (poisonTok 0x0A (tiOf (tileAt s r.who.tile))).pay.toNat } }

/-- Takes a request out of flight. -/
def retireReq (s : State) (k : Nat) (r : Req) : State :=
  let s := { s with reqs := s.reqs.del k }
  if r.counted then modElem s r.who r.plane fun e => { e with outs := e.outs - 1 } else s

/-- Results of earlier firings of the element are still to leave (R312, R454, R460). -/
def resultsBehind (s : State) (c : Ctx) : Bool :=
  s.reqs.any fun (_, r) => r.who == c.x && r.plane == c.b && (match r.dest with | .targets (_ :: _) _ => true | _ => false)

/-- Such results that are no replies to its requests: the status of an ENQ, the completion of a job on T1, and the answer of a BANKP. A control
token waits for them (R460). -/
def answersBehind (s : State) (c : Ctx) : Bool :=
  c.l.enqs.any (fun m => m.who == c.x && m.plane == c.b) || c.l.jobt.any (fun (_, j) => j.who == some c.x && j.plane == c.b && j.out10) ||
    (match (tileAt s c.x.tile).drain with | some d => d.who == c.x && d.plane == c.b | none => false)

/-- The consumer that a K0 descriptor of a plane names, with the plane's displacement (R50, R373). -/
def kDest (x : Tile) (p : Plane) (k : Nat) : Dest :=
  let T : Int := (fld k 11 14 : Int) + dispY p.rdsp * (regX x.lext + 1) + dispX p.rdsp
  .desc T.toNat (fld k 9 2) (fld k 2 7) (match fld k 0 2 with | 0 => .a | 1 => .b | 2 => .c | _ => .p)

/-- The consumer of a COPY job's completion token, or of a GATH's words (R326, R327). -/
def jobDest (s : State) (j : Job) : Dest :=
  match j.who with
  | some x => (match j.owed with
    | some (T, e, n, o) => .desc T e n o
    | none => if j.kind = .copy ∨ j.kind = .gath then kDest (tileAt s x.tile) (planeOf (tileAt s x.tile) j.plane) j.desc.toNat else .none)
  | none => .none

/-- The tile that takes a reply addressed by a K0 descriptor (R373, R374): the tile that T names, or the one that a forward entry there names. A
reply that was on the mesh as its whole lease moved is at the tile that the consumer vacated, and the entry there forwards it (R482). None while the
slab there is not rebound, and when nothing matches. -/
def replyTileOf (s : State) (lid : Nat) (epoch : BitVec 4) (T : Nat) : Option Nat :=
  let rc := (leaseAt s lid).rcd
  let t := tileOfTi rc.lorg rc.lext T
  let x := tileAt s t
  let hit (t : Nat) : Bool :=
    let x := tileAt s t
    tileBound x && decide (x.tlease.toNat = lid) && (activePlane x).pst != .empty && (activePlane x).mepoch == epoch
  if hit t then some t
  else match x.fwd.find? fun w => w.lease == lid && w.epoch == epoch with
    | some w =>
      let u : Int := (t : Int) + dispY w.disp * 256 + dispX w.disp
      if w.rebound then some u.toNat else none
    | none =>
      let from_ (v : Nat) (w : Fwd) : Bool := w.lease == lid && w.epoch == epoch && w.rebound && (v : Int) + dispY w.disp * 256 + dispX w.disp == (t : Int)
      if s.tiles.any (fun m => m.2.fwd.any (from_ m.1)) then some t else none

/-- The same for a request. -/
def replyTile (s : State) (r : Req) (T : Nat) : Option Nat := replyTileOf s r.lease r.epoch T

/-- The block holds an AWAIT, so a reply addressed to it may land (R105, R412) (log 28). -/
def mayLand (p : Plane) (e : Nat) : Bool :=
  match blockOf p e with
  | some b => b.elems.any fun el => el.word >>> 56 == 0xE6
  | none => false

/-- The landing entries of a tile that requests in flight and COPY jobs have reserved (R105) (log 28). -/
def landReserved (s : State) (t : Nat) : Nat :=
  (s.reqs.filter fun (_, r) => match r.dest with
    | .desc T e _ _ => replyTile s r T == some t && mayLand (activePlane (tileAt s t)) e
    | _ => false).length +
  ((s.leases.map fun (lid, l) => (l.jobt.filter fun (_, j) => j.kind == .copy && match jobDest s j with
    | .desc T e _ _ => replyTileOf s lid j.epoch T == some t && mayLand (activePlane (tileAt s t)) e
    | _ => false).length).foldl (· + ·) 0)

/-- A request whose reply may land finds no free landing entry at the consumer's tile (R105). -/
def landFull (s : State) (r : Req) : Bool :=
  match r.dest with
  | .desc T e _ _ =>
    (match replyTile s r T with
     | some t => mayLand (activePlane (tileAt s t)) e && decide (16 ≤ (tileAt s t).landb.length + landReserved s t)
     | none => false)
  | _ => false

/-- An earlier reply to the same operand waits in LANDB. -/
def landedBefore (x : Tile) (eng slot : Nat) (op : Opnd) : Bool :=
  x.lands.any fun k => k.plane == x.planeB && k.eng == eng && k.slot == slot && k.opnd == some op

/-- A word of a PX8 reply as the unpack stage of its consumer's MEM channel leaves it: once a block was malformed, POISON of the consumer's tile
stands for it and every later word of the stream (R98). -/
def memToken (s : State) (t eng slot : Nat) (op : Opnd) (tok : Token) : Token :=
  let p := activePlane (tileAt s t)
  match feedOf p eng slot op with
  | some key => if (p.px8.get key {}).bad || isPoison tok then poisonTok 2 (tiOf (tileAt s t)) else tok
  | none => tok

/-- Puts a reply on its consumer's MEM channel. It takes an entry of LANDB, the one reserved for it or a free one, when the channel is full
or the block waits in AWAIT (R105, R223), behind an earlier one to the same operand. False when neither has room. -/
def landReply (s : State) (t eng slot : Nat) (op : Opnd) (tok : Token) (tag : Nat) (px : Bool) : State × Bool :=
  let x := tileAt s t
  let p := activePlane x
  match feedOf p eng slot op with
  | none => (s, true)
  | some key =>
    let q := p.lbuf.get key []
    let u := p.px8.get key {}
    let bad := if px then isPoison tok else if isCtl tok && codeOf tok == kSOT then false else u.bad
    let s := if bad != u.bad then modActive s t fun p => { p with px8 := p.px8.put key { u with bad := bad } } else s
    if !landedBefore x eng slot op && !suspended p eng && decide (q.length < (p.salloc.get key 0).toNat) then
      (modActive s t fun p => { p with lbuf := p.lbuf.put key (q ++ [tok]), late := p.late ++ [key] }, true)
    else if x.spill.isEmpty && decide (x.landb.length + (if mayLand p eng then 0 else landReserved s t) < 16) then
      (modTile s t fun x => { x with landb := x.landb ++ [⟨tok, x.planeB, eng, slot, some op, BitVec.ofNat 32 tag⟩] }, true)
    else (s, false)

/-- An access of a job has been performed or has failed (R331). What it read goes on with the bytes that it lost; a write into a ring is
noted as landed (R258). -/
def jobReply (s : State) (r : Req) (j m : Nat) : State :=
  modLease s r.lease fun l => match l.jobt.find j with
    | some b => { l with jobt := l.jobt.put j { b with
        left := b.left - 1
        err := match b.err with | some e => some e | none => r.err
        errAt := if b.err.isSome then b.errAt else match r.all.head? with
          | some q => if q.sp == .scr then (q.addr, r.tid, 0) else (q.element, r.tid, q.addr)
          | none => (0, 0, 0)
        errPa := if b.err.isSome then b.errPa else r.errPa
        buf := if m % 4 == 1 && !b.card.getLsbD 229 then b.buf else b.buf.put m (r.got.toNat, r.lost) } }
    | none => l

/-- The first failure of a GATH's words is kept for its completion (R331). -/
def gathNote (s : State) (r : Req) (j : Nat) : State :=
  modLease s r.lease fun l => match l.jobt.find j with
    | some b => if b.err.isSome || r.err.isNone then l
      else { l with jobt := l.jobt.put j { b with
        err := r.err, errPa := r.errPa, errAt := match r.all.head? with | some q => (q.element, r.tid, q.addr) | none => (0, 0, 0) } }
    | none => l

/-- REPLY_DELIVERY, R319, R374: the reply of a performed request, or POISON of cause 0x0A in its place, reaches its targets or its
consumer, in issue order. -/
def execReplyDelivery (k : Nat) (s : State) : Host.Outcome State Fault Refusal :=
  match s.reqs.find k with
  | none => .next s
  | some r =>
    if r.phase != .done ∨ replyBehind s k r ∨ stored (leaseAt s r.lease) ∨ !mayPass s (replyDue s k r) then .next s
    else
      let s := markReqs s (atomicScope r) (replyDue s k r)
      let x := tileAt s r.who.tile
      let p := planeOf x r.plane
      match r.dest with
      | .targets outs sb =>
        if shut x then .next s else
        let tok := replyTok r sb (tiOf x)
        let s := retireReq s k r
        let s := match fieldsAt p r.who.eng r.who.slot with
          | some (i, f) => ((targetsOf i f).filter fun m => outs.contains m.1).foldl (fun s m => putTo s r.who r.plane m.1 m.2 tok) s
          | none => s
        let s := if r.err.isSome then markPoisoned (countPoison s r.who.tile 1) r.who.tile r.plane true else s
        .next (faultReq s r)
      | .desc T eng slot op =>
        (match replyTile s r T with
         | none =>
           -- a reply that neither the tile nor a forward entry takes waits for the rebinding, or is rejected (R376)
           let rc := (leaseAt s r.lease).rcd
           let t := tileOfTi rc.lorg rc.lext T
           if shut (tileAt s t) ∨ (tileAt s t).fwd.any (fun w => w.lease == r.lease && w.epoch == r.epoch) then .next s
           else if !tileBound (tileAt s t) ∨ (tileAt s t).tlease.toNat ≠ r.lease then
             -- a tile of another lease refuses it with an error completion (R377)
             .next (faultReq (retireReq s k r) (failReq r cFirewall))
           else
             let (d, s) := free (retireReq s k r)
             .next (trap s r.lease cFirewall d ⟨T, 3, 0xFF, 0xFFFF, 0xFFFF⟩
               (payload3 (r.got.toNat % 2 ^ 64) (r.sb.toNat * 256 + 7 * 32) 0) 0)
         | some t =>
           if shut (tileAt s t) then .next s else
           let px := (match r.op with | .px8 _ _ _ _ w => !w | _ => false) && r.err.isNone
           let tok := replyTok r r.sb (tiOf x)
           let tok := if px then memToken s t eng slot op tok else tok
           let (s', ok) := landReply s t eng slot op tok k px
           let s' := retireReq s' k r
           -- POISON arises where a block was malformed, at the consumer (R98), or where a request failed (R319)
           let s' := if px && isPoison tok then markPoisoned (countPoison s' t 1) t (tileAt s t).planeB true else s'
           let s' := if r.err.isSome then markPoisoned (countPoison s' r.who.tile 1) r.who.tile r.plane true else s'
           let s' := match r.job with | some j => gathNote s' r j | none => faultReq s' r
           if ok then .next s'
           else
             -- no slot and no landing entry: the switch holds the reply and the lease faults (R223)
             let (d, s') := free (modTile s' t fun x => { x with spill := x.spill ++ [⟨tok, x.planeB, eng, slot, some op, BitVec.ofNat 32 k⟩] })
             .next (trap s' r.lease cRateOverflow d ⟨tiOf (tileAt s t), 3, 0xFF, p.graph, p.node⟩ (payload3 (tok.pay.toNat % 2 ^ 64) 0 0) 0))
      | .ring _ _ _ => .next s
      | .job j m => .next (jobReply (retireReq s k r) r j m)
      | .none => .next (faultReq (poisonNote (retireReq s k r) k r) r)

/-- FE_WATCHDOG, R282: a .F load that has waited 2^24 cycles has no effect, and its element traps. -/
def execFeWatchdog (k : Nat) (s : State) : Host.Outcome State Fault Refusal :=
  match s.reqs.find k with
  | none => .next s
  | some r =>
    if !r.waitFe ∨ r.fewait.toNat + 1 < 2 ^ 24 then .next s
    else
      let s := retireReq s k r
      let x := tileAt s r.who.tile
      let p := planeOf x r.plane
      let (d, s) := free s
      let fl := match elemIn p r.who.eng r.who.slot with | some e => e.fflg | none => 0
      .next (trap s r.lease cFeWatchdog d (placeOf x p r.who.eng r.who.slot) (payload3 r.opw.toNat 0 0) fl)

/-- A reply that the switch held takes a landing entry once one is free (R223). -/
def refillLandb (x : Tile) : Tile :=
  match x.spill with
  | e :: r => if x.landb.length < 16 then { x with landb := x.landb ++ [e], spill := r } else x
  | [] => x

/-- LANDB_DELIVER, R105: the first entry of the landing buffer enters its consumer's channel when a slot is free. The tile runs (R420). -/
def execLandbDeliver (t : Nat) (s : State) : Host.Outcome State Fault Refusal :=
  let x := tileAt s t
  let drop (r : List Land) (s : State) : State := modTile s t fun x => refillLandb { x with landb := r }
  match (if tileRuns s t then x.landb else []) with
  | [] => .next (if tileRuns s t then modTile s t refillLandb else s)
  | e :: r =>
    match e.opnd with
    | none => .next (drop r (modElem s ⟨t, e.eng, e.slot⟩ e.plane fun el => { el with s := e.tok.pay }))
    | some op =>
      let p := planeOf x e.plane
      if blockShut (leaseAt s x.tlease.toNat) p e.eng then .next s
      else match feedOf p e.eng e.slot op with
      | none => .next (drop r s)
      | some key =>
        let q := p.lbuf.get key []
        if q.length < (p.salloc.get key 0).toNat then
          .next (drop r (modPlane s t e.plane fun p => { p with lbuf := p.lbuf.put key (q ++ [e.tok]), late := p.late ++ [key] }))
        else .next s

/-! ### Scratch instructions -/

/-- The displacement of LDS and STS, and the bytes of an access (R308). -/
def accBytes (f : Fields) : Nat := tyBits f.typ / 8

def ldsEa (c : Ctx) : Nat := (((c.aa : Int) + c.f.imm.toInt * (accBytes c.f : Int)) % (2 ^ 64 : Int)).toNat

/-- A single access at A plus displacement. -/
def scrAccess (c : Ctx) (op : ReqOp) : Res :=
  let ea := ldsEa c
  let w := accBytes c.f
  match scrCause c c.aa ea w with
  | some cause => memTrap cause ea 0 0
  | none => scrFire c (scrReq c op (cutPieces .scr 5 ea w 0))

/-- LDS, R308. -/
def execLds (f : Fields) (s : State) : Host.Outcome State Fault Refusal :=
  fire (.lds f) f (std fun _ c => scrAccess c (.read (c.md 5) (c.md 4) 0)) s

/-- STS, R308. -/
def execSts (f : Fields) (s : State) : Host.Outcome State Fault Refusal :=
  fire (.sts f) f (std fun _ c => scrAccess c (.write (c.vb c.n))) s

/-- The lanes of an indexed access: K and the address of each (R309). -/
def laneAddrs (c : Ctx) : List Nat :=
  let w := accBytes c.f
  (List.range (min 16 (64 / w))).map fun j => c.aa + lane 32 (c.vb 32) j * w

/-- An indexed access; one failing lane suppresses it, and under .F each lane waits for its own granule (R309). -/
def scrIndexed (c : Ctx) (op : ReqOp) : Res :=
  let w := accBytes c.f
  let eas := laneAddrs c
  match eas.findSome? fun ea => (scrCause c c.aa ea w).map fun k => (k, ea) with
  | some (cause, ea) => memTrap cause ea 0 0
  | none => scrFire c { scrReq c op (eas.zipIdx.map fun (ea, j) => { sp := .scr, addr := ea, len := w, pos := j * w }) with begun := true }

/-- LDSI, R309. -/
def execLdsi (f : Fields) (s : State) : Host.Outcome State Fault Refusal :=
  fire (.ldsi f) f (std fun _ c => scrIndexed c (.read (c.md 5) (c.md 4) 0)) s

/-- STSI, R309. -/
def execStsi (f : Fields) (s : State) : Host.Outcome State Fault Refusal :=
  fire (.stsi f) f (std fun _ c => scrIndexed c (.write (c.vc c.n))) s

/-- FESET and FECLR, R310: a range of granules. -/
def febRange (c : Ctx) (b : Bool) : Res :=
  let w := c.va 64
  let a := lane 64 w 0
  let n := lane 64 w 1
  if !scrOk c a || decide (n = 0) || decide (n > 65536) || decide (a % sliceBytes + 16 * n > sliceBytes) then memTrap cScratchRange a 0 0
  else if a % 16 ≠ 0 then memTrap cAlign a 0 0
  else scrFire c (scrReq c (.feb b) [{ sp := .scr, addr := a, len := 16 * n, pos := 0 }])

/-- FESET, R310. -/
def execFeset (f : Fields) (s : State) : Host.Outcome State Fault Refusal := fire (.feset f) f (std fun _ c => febRange c true) s

/-- FECLR, R310. -/
def execFeclr (f : Fields) (s : State) : Host.Outcome State Fault Refusal := fire (.feclr f) f (std fun _ c => febRange c false) s

/-- Pieces of one byte in each bank that a range of a slice touches. -/
def bankPieces (base lo n : Nat) : List Piece :=
  ((List.range 16).filter fun b => decide (lo < (b + 1) * bankBytes) && decide (b * bankBytes < lo + n)).map fun b =>
    { sp := .scr, addr := base + b * bankBytes, len := 1, pos := 0 }

/-- PREFW, R311: starts wakes, and answers when every bank of the range is ACTIVE. -/
def execPrefw (f : Fields) (s : State) : Host.Outcome State Fault Refusal :=
  fire (.prefw f) f (std fun _ c =>
    let w := c.va 64
    let a := lane 64 w 0
    let n := lane 64 w 1
    if !scrOk c a || decide (n = 0) || decide (n > 2 ^ 20) || decide (a % sliceBytes + n > sliceBytes) then memTrap cScratchRange a 0 0
    else scrFire c (scrReq c .wake (bankPieces (a / sliceBytes * sliceBytes) (a % sliceBytes) n))) s

/-! ### Bank power instructions -/

/-- BWPH, R338. -/
def execBwph (f : Fields) (s : State) : Host.Outcome State Fault Refusal :=
  fire (.bwph f) f (std fun _ c =>
    let v := lane 64 (c.va 64) 0 % 2 ^ 32
    let m (k : Nat) : Bool := f.imm.getLsbD k
    if (m 2 && decide (fld v 28 2 = 3)) || (m 0 && decide (fld v 10 2 = 3)) || decide (v % 1024 ≠ 0) then
      .trap cBwphValue none (payload3 v 0 0)
    else
      let put (old lo len k : Nat) : Nat := if m k then setFld old lo len (fld v lo len) else old
      .done { emits := zeroAllOf c, take := c.ops, post := fun s => modLease s c.lid fun l =>
        let o := l.rcd.bwph.toNat
        let n := put (put (put (put o 30 2 3) 28 2 2) 12 16 1) 10 2 0
        { l with rcd := { l.rcd with bwph := BitVec.ofNat 32 n } } }) s
where
  /-- A zero word to each target. -/
  zeroAllOf (c : Ctx) : List (Nat × Target × Token) := c.outs.map fun (k, t) => (k, t, ⟨0, c.sb⟩)

/-- A firing that meets banks of its tile that are not granted: a request to them, which they answer with BANK_UNGRANTED (Table 11.4, R319). -/
def ungrantedFire (c : Ctx) (banks : List Nat) : Res :=
  scrFire c { reqOf c .wake (banks.map fun b => { sp := .scr, addr := c.ti * sliceBytes + b * bankBytes, len := 1, pos := 0 })
    (.targets (outNums c) c.sb) .home with opw := BitVec.ofNat 64 c.aa }

/-- The mask of BANKP and its check (R339). -/
def bankpFire (c : Ctx) (g : Nat → Res) : Res :=
  let mask := c.aa % 65536
  let out := Nat.land mask (65535 - c.t.bankg.toNat)
  if out ≠ 0 then ungrantedFire c (bitsOf 16 out) else g mask

/-- BANKP WAKE, R339. -/
def execBankpWake (f : Fields) (s : State) : Host.Outcome State Fault Refusal :=
  fire (.bankpWake f) f (std fun _ c => bankpFire c fun mask =>
    if mask = 0 then result c 0 false
    else scrFire c { reqOf c .wake ((bitsOf 16 mask).map fun b => { sp := .scr, addr := c.ti * sliceBytes + b * bankBytes, len := 1, pos := 0 })
      (.targets (outNums c) c.sb) .home with opw := BitVec.ofNat 64 c.aa }) s

/-- A drain of banks; one at a time in a tile (R341). -/
def startDrain (c : Ctx) (mask : Nat) (release : Bool) : Res :=
  if c.t.drain.isSome then .wait .other
  else .done { take := c.ops, reserve := c.outs, post := fun s => modTile s c.x.tile fun x =>
    { x with drain := some { who := c.x, plane := c.b, release := release, mask := BitVec.ofNat 16 mask, sb := c.sb, before := s.nextReq } } }

/-- BANKP DISCARD, R339, R340. -/
def execBankpDiscard (f : Fields) (s : State) : Host.Outcome State Fault Refusal :=
  fire (.bankpDiscard f) f (std fun _ c => bankpFire c fun mask =>
    if mask = 0 then result c 0 false else startDrain c mask false) s

/-- The banks that the configurations of a tile demand. -/
def demanded (x : Tile) : Nat :=
  let d (p : Plane) : Nat := if p.pst = .empty then 0 else p.banks.toNat
  Nat.lor (d x.pa) (d x.pb)

/-- BANKP RELEASE, R339, R341. -/
def execBankpRelease (f : Fields) (s : State) : Host.Outcome State Fault Refusal :=
  fire (.bankpRelease f) f (std fun _ c => bankpFire c fun mask =>
    if mask = 0 then result c 0 false
    else if Nat.land mask (demanded c.t) ≠ 0 then memTrap cBankDemand c.aa 0 0
    else startDrain c mask true) s

/-- BPM of a tile as BANKP STATUS reports it, Table 11.10. -/
def bpmWord (x : Tile) : Nat :=
  packLanes 2 ((List.range 16).map fun b => match bankMode x b with | .off => 0 | .retain => 1 | .active => 2 | .discard => 3)

/-- BANKP STATUS, R339. -/
def execBankpStatus (f : Fields) (s : State) : Host.Outcome State Fault Refusal :=
  fire (.bankpStatus f) f (std fun _ c => bankpFire c fun _ =>
    result c (ofLanes 64 [bpmWord c.t, c.t.bankg.toNat]) false) s

end Sys2Proof.Machine
end

