-- ==== Sys2Proof/Machine/Rings.lean ====
section
/-! DEFINITION. Scratch rings and the ring form of MMA (R177, R178, R252 to R259). -/

namespace Sys2Proof.Machine

open Sys2Proof

/-- Ring of a plane. -/
def ringAt (p : Plane) (n : Nat) : Ring := p.rings.get n {}

def modRing (s : State) (t : Nat) (b : Bool) (n : Nat) (g : Ring → Ring) : State :=
  modPlane s t b fun p => { p with rings := p.rings.put n (g (ringAt p n)) }

/-- Words of an entry, and entries of a ring. -/
def ringWords (r : Ring) : Nat := r.esz.toNat + 1
def ringEntries (r : Ring) : Nat := r.nent.toNat + 1
def ringBytes (r : Ring) : Nat := ringEntries r * ringWords r * 64

/-- Offset of word `w` of entry `k`, R252. -/
def ringOff (r : Ring) (k w : Nat) : Nat := r.base.toNat + (k * ringWords r + w) * 64

/-- Full, R252; reserved entries count as written (R258). -/
def ringFull (r : Ring) : Bool :=
  let n := r.cnt.toNat + r.resv.length
  decide (n ≥ ringEntries r) || (decide (n = r.nent.toNat) && decide (r.wpos ≠ 0))

/-- Entries that have landed become complete in the order of their reservation (R258). -/
def ringSettle : Nat → Ring → Ring
  | 0, r => r
  | n + 1, r => match r.resv with
    | (_, true) :: l => ringSettle n { r with resv := l, cnt := r.cnt + 1 }
    | _ => r

/-- The next entry index. -/
def ringNext (r : Ring) (k : BitVec 12) : BitVec 12 := BitVec.ofNat 12 ((k.toNat + 1) % ringEntries r)

/-- Entry TAIL is complete; behind reserved entries it waits for them (R255, R258). -/
def ringComplete (r : Ring) : Ring :=
  let q := { r with wpos := 0, tail := ringNext r r.tail }
  if r.resv.isEmpty then { q with cnt := r.cnt + 1 } else { q with resv := r.resv ++ [(r.tail.toNat, true)] }

/-- pop of R256. -/
def ringPop (r : Ring) : Ring := { r with rpos := 0, head := ringNext r r.head, cnt := r.cnt - 1 }

/-- Reserves entry TAIL for an engine (R258); the number of the entry (log 30). -/
def ringReserve (r : Ring) : Nat × Ring := (r.tail.toNat, { r with tail := ringNext r r.tail, resv := r.resv ++ [(r.tail.toNat, false)] })

/-- Marks a reserved entry as landed. -/
def ringLand (r : Ring) (k : Nat) : Ring :=
  ringSettle (r.resv.length + 1) { r with resv := r.resv.map fun e => if e.1 = k then (k, true) else e }

/-- A bank of a tile that is to drain holds new accesses and reservations (R341). -/
def drains (x : Tile) (b : Nat) : Bool := match x.drain with | some d => d.mask.getLsbD b | none => false

/-- One of the next `n` entries of a ring lies in a bank that is to drain. -/
def entriesHeld (x : Tile) (r : Ring) (n : Nat) : Bool :=
  (List.range n).any fun i =>
    let e := (r.tail.toNat + i) % ringEntries r
    (List.range (bankOf (ringOff r e (ringWords r - 1)) + 1 - bankOf (ringOff r e 0))).any fun k => drains x (bankOf (ringOff r e 0) + k)

/-- Under PWH 2 the banks that hold a reserved ring entry wake with its reservation (R337). -/
def wakeEntry (s : State) (t : Nat) (r : Ring) (e : Nat) : State :=
  if bwphPwh (tileBwph s t) = 2 then
    wakeBank (wakeBank s t (bankOf (ringOff r e 0))) t (bankOf (ringOff r e (ringWords r - 1)))
  else s

/-- The descriptor, Table 9.2. -/
def ringBits (r : Ring) : Nat :=
  let b (v : Bool) (k : Nat) : Nat := if v then 2 ^ k else 0
  b r.v 127 + b r.dual 126 + r.efmt.toNat * 2 ^ 122 + r.esz.toNat * 2 ^ 116 + r.nent.toNat * 2 ^ 104 + r.base.toNat * 2 ^ 84 +
    r.head.toNat * 2 ^ 72 + r.tail.toNat * 2 ^ 60 + r.cnt.toNat * 2 ^ 47 + r.wpos.toNat * 2 ^ 41 + r.rpos.toNat * 2 ^ 35

/-- The descriptor that RSTAT.SET loads, R254. -/
def ringOfBits (v : Nat) : Ring where
  v := v.testBit 127
  dual := v.testBit 126
  efmt := BitVec.ofNat 4 (fld v 122 4)
  esz := BitVec.ofNat 6 (fld v 116 6)
  nent := BitVec.ofNat 12 (fld v 104 12)
  base := BitVec.ofNat 20 (fld v 84 20)

/-- The ring that IMM16 names. -/
def ringNo (c : Ctx) : Nat := c.f.imm.toNat % 8

/-- An entry-slot RSTAT.SET of a ring that has yet to fire in this segment: it comes before every other operation on the ring (R253). -/
def ringSetDue (p : Plane) (n : Nat) : Bool :=
  (elemsOf p).any fun m => m.2.2.due && match instrAt m.2.2 with | some (.rstatSet f) => f.imm.toNat % 8 == n | _ => false

/-- An operation on rings waits for the RSTAT.SETs that come first. -/
def ringTurn (c : Ctx) (ns : List Nat) (r : Res) : Res := if ns.any (ringSetDue c.p) then .wait .other else r

def ringMisuse (c : Ctx) : Res := .trap cRingMisuse none (payload3 (c.va 512).toNat 0 0)

/-- An operation that reads its own slice as it fires does so when the banks serve it (R279) (log 100). Of the offsets that it accesses an
ungranted bank answers BANK_UNGRANTED, a sleeping one starts its wake, and a draining one holds the access. -/
def bankGate (c : Ctx) (offs : List Nat) (r : Res) : Res :=
  let x := c.t
  match (offs.map bankOf).eraseDups.filter fun b => !granted x b with
  | b :: _ => ungrantedFire c [b]
  | [] =>
    if offs.any fun o => drains x (bankOf o) then .wait .other
    else match offs.find? fun o => !bankReady x (bankOf o) with
      | some o => .waitPost .wake fun s => wakeBank s c.x.tile (bankOf o)
      | none => r

/-- Marks banks of the tile as accessed. -/
def touchBanks (s : State) (t : Nat) (offs : List Nat) : State := modTile s t fun x => offs.foldl (fun x o => touchBank x (bankOf o)) x

/-- Reads a 64-byte word of a slice. -/
def scrWord (s : State) (t off : Nat) : Word := low (Memory.readN s.scratch 64 (scrKey t off))

/-- Writes a 64-byte word of a slice, granule by granule (R278). -/
def putScrWord (s : State) (t off : Nat) (w : Word) : State :=
  [0, 16, 32, 48].foldl (fun s i => scrStore s (scrKey t (off + i)) 16 (wordBytes w i 16)) s

/-- The request by which a ring operation accesses the word at an offset of its own slice (R279). Ring operations on one granule are performed in
the order in which they issue (R253). -/
def ringReq (c : Ctx) (op : ReqOp) (off : Nat) (dest : Dest) : Req :=
  { reqOf c op (cutPieces .scr 4 (c.ti * sliceBytes + off) 64 0) dest .home with ring := true, opw := BitVec.ofNat 64 c.aa }

/-- A word of a slice as the ring operations that have issued leave it (R253). -/
def ringWord (s : State) (t off : Nat) : Word :=
  s.reqs.foldl (fun w (_, q) => match q.op with
    | .write d => if q.ring && q.who.tile == t then
        q.rest.foldl (fun w p => if (scrPlace s q.lease p.addr).2 / 64 = off / 64 then withBytes w p.pos p.len (wordBytes d p.pos p.len) else w) w
      else w
    | _ => w) (scrWord s t off)

/-- RPUSH, R255. -/
def execRpush (f : Fields) (s : State) : Host.Outcome State Fault Refusal :=
  fire (.rpush f) f (stdQuiet fun _ c =>
    let n := ringNo c
    let r := ringAt c.p n
    ringTurn c [n] <| if !r.v then ringMisuse c
    else if ringFull r then .wait .ringFull
    else if c.e.outs.toNat ≥ maxOuts then .wait .other
    else
      let off := ringOff r r.tail.toNat r.wpos.toNat
      let last := decide (r.wpos.toNat + 1 ≥ ringWords r)
      .done {
        emits := if last then zeroAll c 0 else [], take := c.ops
        post := fun s => modRing (issueReq s (ringReq c (.write (c.va 512)) off (.targets [] 0))) c.x.tile c.b n fun r =>
          if last then ringComplete r else { r with wpos := r.wpos + 1 } }) s

/-- RPOP, R256. -/
def execRpop (f : Fields) (s : State) : Host.Outcome State Fault Refusal :=
  fire (.rpop f) f (std fun _ c =>
    let n := ringNo c
    let r := ringAt c.p n
    ringTurn c [n] <| if !r.v then ringMisuse c
    else if r.cnt = 0 then .wait .ringEmpty
    else if c.e.outs.toNat ≥ maxOuts then .wait .other
    else
      let off := ringOff r r.head.toNat r.rpos.toNat
      let last := decide (r.rpos.toNat + 1 ≥ ringWords r)
      .done {
        take := c.ops, reserve := c.outs
        post := fun s => modRing (issueReq s (ringReq c (.read false false 0) off (.targets (outNums c) (if last then 0b10 else 0)))) c.x.tile c.b n
          fun r => if last then ringPop r else { r with rpos := r.rpos + 1 } }) s

/-- RPOP under DISC, R256. -/
def execRpopDisc (f : Fields) (s : State) : Host.Outcome State Fault Refusal :=
  fire (.rpopDisc f) f (std fun _ c =>
    let n := ringNo c
    let r := ringAt c.p n
    ringTurn c [n] <| if !r.v then ringMisuse c
    else if r.cnt = 0 then .wait .ringEmpty
    else if r.rpos ≠ 0 then ringMisuse c
    else .done { emits := zeroAll c 0, take := c.ops, post := fun s => modRing s c.x.tile c.b n ringPop }) s

/-- RSTAT, R254. -/
def execRstat (f : Fields) (s : State) : Host.Outcome State Fault Refusal :=
  fire (.rstat f) f (std fun _ c =>
    let w := low (ringBits (ringAt c.p (ringNo c)))
    ringTurn c [ringNo c] (.done { emits := c.outs.map (fun (k, t) => (k, t, ⟨w, 0⟩)), take := c.ops })) s

/-- Offsets at which a ring's banks are met. -/
def ringBankOffs (r : Ring) : List Nat :=
  ((List.range 16).map (· * bankBytes)).filter fun o => decide (r.base.toNat < o + bankBytes) && decide (o < r.base.toNat + ringBytes r)

/-- RSTAT.SET, R254. -/
def execRstatSet (f : Fields) (s : State) : Host.Outcome State Fault Refusal :=
  fire (.rstatSet f) f (std fun _ c =>
    let n := ringNo c
    let old := ringAt c.p n
    let v := (c.va 512).toNat % 2 ^ 128
    let r := ringOfBits v
    let busy := old.v && (decide (old.cnt ≠ 0) || decide (old.wpos ≠ 0) || decide (old.rpos ≠ 0))
    let beyond := r.v && decide (r.base.toNat + ringBytes r > 2 ^ 20)
    let ungranted := r.v && (ringBankOffs r).any fun o => !granted c.t (bankOf o)
    if !c.ops.isEmpty && ringSetDue c.p n then .wait .other
    else if busy || !old.resv.isEmpty || beyond || ungranted || decide (fld v 84 6 ≠ 0) || decide (fld v 0 35 ≠ 0) then ringMisuse c
    else .done { emits := zeroAll c c.sb, take := c.ops, post := fun s => modRing s c.x.tile c.b n fun _ => r }) s

/-- First word of each operand's part of a head entry and the words it offers (R257). Under DUAL an entry of an odd number of words, for which
the rule names no check, gives each operand the floor of half of them (log 105). -/
def ringPart (r : Ring) (second same : Bool) : Nat × Nat :=
  let h := ringWords r / 2
  if r.dual && (second || same) then (if second then h else 0, h) else (0, if r.dual then h else ringWords r)

/-- MMA in ring mode, R177 to R179, R257. -/
def execMmaRing (f : Fields) (s : State) : Host.Outcome State Fault Refusal :=
  fire (.mmaRing f) f (std fun s c =>
    let na := f.imm.toNat / 512 % 8
    let nb := f.imm.toNat / 64 % 8
    let ks := f.imm.toNat % 64 + 1
    let ra := ringAt c.p na
    let rb := ringAt c.p nb
    let same := decide (na = nb)
    let (wa, la) := ringPart ra false same
    let (wb, lb) := ringPart rb true same
    let need := if f.typ = .mx then 2 * ks else ks
    ringTurn c [na, nb] <| if !ra.v || !rb.v || (same && !ra.dual) || decide (la < need) || decide (lb < need) then ringMisuse c
    else if sorting c.p then .wait .other
    else accFree c (
      if ra.cnt = 0 ∨ rb.cnt = 0 then .wait .ringEmpty
      else if ra.rpos ≠ 0 ∨ rb.rpos ≠ 0 then ringMisuse c
      else
        let offA (k : Nat) : Nat := ringOff ra ra.head.toNat (wa + k)
        let offB (k : Nat) : Nat := ringOff rb rb.head.toNat (wb + k)
        let offs := (List.range need).map offA ++ (List.range need).map offB
        let contrib (k : Nat) : Nat → Contrib :=
          let sa := ringWord s c.x.tile (offA (ks + k))
          let sb := ringWord s c.x.tile (offB (ks + k))
          mmaContrib f (ringWord s c.x.tile (offA k)) (ringWord s c.x.tile (offB k))
            (fun i => lane 8 sa (mmaBlk f i)) (fun j => lane 8 sb (mmaBlk f j))
        bankGate c offs (.done {
          emits := zeroAll c 0, take := c.ops
          post := fun s =>
            let s := (List.range ks).foldl (fun s k => postStep c (contrib k) s) (touchBanks s c.x.tile offs)
            let s := modRing s c.x.tile c.b na ringPop
            if same then s else modRing s c.x.tile c.b nb ringPop }))) s

/-- A piece of a ring operation lies in the word at an offset of its slice. -/
def ringMeets (s : State) (q : Req) (off : Nat) (p : Piece) : Bool := (scrPlace s q.lease p.addr).2 / 64 == off / 64

/-- RING_DELIVERY_LAND, R258: a performed read lands in its reserved ring entry; the entry is complete in its turn. A failed one lands no
data. -/
def execRingDeliveryLand (k : Nat) (s : State) : Host.Outcome State Fault Refusal :=
  match s.reqs.find k with
  | none => .next s
  | some r =>
    match r.dest with
    | .ring n entry w =>
      if r.phase != .done || stored (leaseAt s r.lease) then .next s
      else
        let t := r.who.tile
        let g := ringAt (planeOf (tileAt s t) r.plane) n
        let off := ringOff g entry w
        let r := if r.err.isNone && !granted (tileAt s t) (bankOf off) then failReq r cBankUngranted else r
        if r.err.isNone && s.reqs.any (fun (j, q) => decide (j < k) && q.ring && q.who.tile == t && q.rest.any (ringMeets s q off)) then .next s
        else if r.err.isNone && !bankReady (tileAt s t) (bankOf off) then .next (wakeBank s t (bankOf off))
        else
          let s := if r.err.isSome then s else touchBanks (putScrWord s t off r.got) t [off]
          let s := retireReq s k r
          let more := s.reqs.any fun (_, q) => q.who.tile == t && q.plane == r.plane && (match q.dest with | .ring m e _ => m == n && e == entry | _ => false)
          let s := if more then s else modRing s t r.plane n fun g => ringLand g entry
          .next (faultReq s r)
    | _ => .next s

end Sys2Proof.Machine
end

