-- ==== Sys2Proof/Machine/Translate.lean ====
section
/-! DEFINITION. Physical memory behind the frame-owner check, page walks, TLBs and page faults (R346 to R350, R352 to R358), the accesses at
HBM channels and the host port, and the device's own reads and writes of lease memory. -/

namespace Sys2Proof.Machine

open Sys2Proof

/-! ### Physical memory -/

/-- Address class, PA[51:50]. -/
def paClass (pa : Nat) : Nat := pa / 2 ^ 50 % 4

/-- Stack and frame of an HBM address, R346. -/
def paStack (pa : Nat) : Nat := pa / 2 ^ 36 % 16
def paFrame (pa : Nat) : Nat := pa / 2 ^ 21 % 2 ^ 15

/-- The FOT entry of a frame; 63 is FREE (R355). -/
def fotOf (s : State) (stack frame : Nat) : Nat := (s.fot.get (stack * 32768 + frame) 63).toNat

/-- The key slot of a tenant at a base die holds a key (R378). -/
def keyHeld (s : State) (die ten : Nat) : Bool := (s.kslot.find (die * 64 + ten)).isSome

/-- Why a channel refuses a request of a tenant: the frame's owner, its key, or an uncorrectable error (R355, R378, R437). -/
def channelCause (s : State) (ten pa : Nat) : Option Nat :=
  if paClass pa = 0 then
    if fotOf s (paStack pa) (paFrame pa) ≠ ten then some cFrameOwner
    else if !keyHeld s (paStack pa) ten then some cKeyAbsent
    else if s.badMem.contains (pa / 16) then some cUncorrectable
    else none
  else none

/-! ### Walks -/

/-- Shift of the index of a level, and the entries of a table (Table 12.2). -/
def lvlShift (n : Nat) : Nat := match n with | 3 => 39 | 2 => 30 | 1 => 21 | _ => 16
def lvlEntries (n : Nat) : Nat := if n = 0 then 32 else 512

/-- A PTE that the walker may not use, R349. `next` is the size to which ADDR is aligned. -/
def pteBad (lvl pte : Nat) : Bool :=
  let leaf := pte.testBit 57
  let addr := fld pte 8 44 * 256
  let al := if leaf then 2 ^ lvlShift lvl else lvlEntries (lvl - 1) * 8
  decide (fld pte 52 5 ≠ 0) || decide (fld pte 60 2 = 3) || (leaf && decide (lvl = 3)) || (!leaf && decide (lvl = 0)) ||
    decide (addr % al ≠ 0) || decide (paClass addr = 3) || (decide (paClass addr = 0) && decide (fld addr 40 10 ≠ 0))

/-- Host memory that a PF's port cannot reach now, its link being down (R490). -/
def behindLink (s : State) (ten pa : Nat) : Bool := paClass pa == 1 && !portUp s ten

/-- Outcome of a walk: a leaf with its level, ordering kind, W and D; absent; or a failure, with the address of the PTE at which it fails. -/
inductive Walk where
  | leaf (lvl base : Nat) (ok : BitVec 2) (w d : Bool)
  | absent
  | fail (cause pa : Nat)
  deriving DecidableEq, Repr

/-- The walk from a level's table down (R347 to R350). It sets A, and D for a write, in the PTEs that it uses. A PTE in host memory behind a link that
is down holds the step (R490). -/
def walkFrom (s : State) (ten va : Nat) (write : Bool) : Nat → Nat → State × Walk
  | 0, t => (s, .fail cPteInvalid t)
  | n + 1, table =>
    let pa := table + va / 2 ^ lvlShift n % lvlEntries n * 8
    if behindLink s ten pa then ({ s with linkHeld := true }, .fail 0 pa)
    else match channelCause s ten pa with
    | some c => (s, .fail c pa)
    | none =>
      let pte := Memory.readN s.mem 8 pa
      if !pte.testBit 63 then (s, .absent)
      else if pteBad n pte then (s, .fail cPteInvalid pa)
      else if pte.testBit 57 then
        if write && !pte.testBit 62 then (s, .fail cPermission pa)
        else
          let a := if pte.testBit 59 then pte else pte + 2 ^ 59
          let v := if write && !a.testBit 58 then a + 2 ^ 58 else a
          let s := if v = pte then s else { s with mem := Memory.writeN s.mem 8 pa v }
          (s, .leaf n (fld pte 8 44 * 256) (BitVec.ofNat 2 (fld pte 60 2)) (pte.testBit 62) (v.testBit 58))
      else
        let v := if pte.testBit 59 then pte else pte + 2 ^ 59
        let s := if v = pte then s else { s with mem := Memory.writeN s.mem 8 pa v }
        walkFrom s ten va write n (fld pte 8 44 * 256)

/-- A walk of a lease's tables for a virtual address. -/
def walkLease (s : State) (lid va : Nat) (write : Bool) : State × Walk :=
  let l := leaseAt s lid
  if va ≥ 2 ^ 48 then (s, .fail cPteInvalid 0)
  else walkFrom s l.rcd.tenid.toNat va write 4 (fld l.rcd.ptbr.toNat 12 40 * 4096)

/-- The physical address of a virtual one in a page at a level. -/
def pageAddr (lvl base va : Nat) : Nat := base + va % 2 ^ lvlShift lvl

/-! ### The device's own accesses to lease memory -/

/-- Cuts `n` bytes at an address into runs that stay in one 64 KiB page: each address and length. -/
def pageRuns : Nat → Nat → Nat → List (Nat × Nat)
  | 0, _, _ => []
  | f + 1, va, n => if n = 0 then [] else (let k := min n (65536 - va % 65536); (va, k) :: pageRuns f (va + k) (n - k))

/-- Counts a refusal of one of the device's own accesses under the lease (R355), or an uncorrectable error, which PF0 logs too (R437, R489). -/
def refused (s : State) (lid cause : Nat) : State :=
  if cause = cFrameOwner then countEvent s lid 6 1
  else if cause = cUncorrectable then countEvent { s with pf0log := s.pf0log + 1 } lid 9 1
  else s

/-- Why a channel refuses a run of bytes in one page, for a tenant: at its ends, or for an error in it (R355, R437). -/
def runCause (s : State) (ten pa n : Nat) : Option Nat :=
  match channelCause s ten pa with
  | some c => some c
  | none => match channelCause s ten (pa + n - 1) with
    | some c => some c
    | none => if s.badMem.any fun g => decide (pa / 16 ≤ g) && decide (g ≤ (pa + n - 1) / 16) then some cUncorrectable else none

/-- Reads bytes at a physical address for the device itself, TENID 0 (R31). -/
def devRead (s : State) (pa n : Nat) : Except Nat (List Byte) :=
  match runCause s 0 pa n with
  | some c => .error c
  | none => .ok (Memory.bytes s.mem pa n)

/-- Writes bytes there; a refused write writes nothing (R355). -/
def devWrite (s : State) (pa : Nat) (b : List Byte) : State :=
  if (runCause s 0 pa b.length).isSome then s else { s with mem := Memory.putBytes s.mem pa b }

/-- The physical address of each run, or the cause that meets one of them. An absent page is a translation fault (R351, R386); host memory
behind a link that is down holds the step (R490). -/
def resolveRuns (s : State) (lid : Nat) (write : Bool) : List (Nat × Nat) → State × Except Nat (List (Nat × Nat))
  | [] => (s, .ok [])
  | (va, n) :: r =>
    match walkLease s lid va write with
    | (s, .absent) => (s, .error cTranslation)
    | (s, .fail c _) => (refused s lid c, .error c)
    | (s, .leaf lvl base _ _ _) =>
      let pa := pageAddr lvl base va
      let ten := (leaseAt s lid).rcd.tenid.toNat
      if behindLink s ten pa then ({ s with linkHeld := true }, .error 0)
      else match runCause s ten pa n with
      | some c => (refused s lid c, .error c)
      | none => match resolveRuns s lid write r with
        | (s, .ok l) => (s, .ok ((pa, n) :: l))
        | (s, .error c) => (s, .error c)

/-- Reads bytes of lease memory. -/
def vaRead (s : State) (lid va n : Nat) : State × Except Nat (List Byte) :=
  match resolveRuns s lid false (pageRuns (n / 65536 + 2) va n) with
  | (s, .ok l) => (s, .ok ((l.map fun (pa, k) => Memory.bytes s.mem pa k).flatten))
  | (s, .error c) => (s, .error c)

/-- Reads a number of lease memory. -/
def vaReadN (s : State) (lid va n : Nat) : State × Except Nat Nat :=
  match vaRead s lid va n with
  | (s, .ok b) => (s, .ok (ofBytes b))
  | (s, .error c) => (s, .error c)

/-- Writes runs in order. -/
def putRuns (s : State) : List (Nat × Nat) → List Byte → State
  | [], _ => s
  | (pa, k) :: r, b => putRuns { s with mem := Memory.putBytes s.mem pa (b.take k) } r (b.drop k)

/-- Writes bytes of lease memory: all of them, or none and a cause. -/
def vaWrite (s : State) (lid va : Nat) (b : List Byte) : State × Except Nat Unit :=
  match resolveRuns s lid true (pageRuns (b.length / 65536 + 2) va b.length) with
  | (s, .ok l) => (putRuns s l b, .ok ())
  | (s, .error c) => (s, .error c)

/-- A write of the device that nothing waits for: behind a link that is down it is held, and its step goes on (R490). -/
def postWrite (s : State) (lid va : Nat) (b : List Byte) : State × Except Nat Unit :=
  match vaWrite s lid va b with
  | (t, .error c) => if t.linkHeld && !s.linkHeld then ({ s with heldWrites := s.heldWrites ++ [(lid, va, b)] }, .ok ()) else (t, .error c)
  | r => r

/-! ### The journal -/

/-- Entries of the journal: 256 until the first die has joined (R273, Table 22.5). -/
def journalSize (s : State) : Nat := if fld s.stage.toNat 4 8 = 0 then 256 else 2 ^ s.jlog2

/-- The 64 bytes of an entry, Table 9.7. -/
def journalBytes (e : JEntry) : List Byte :=
  toBytes 8 e.seq ++ toBytes 1 e.ten ++ toBytes 1 e.kind ++ toBytes 1 e.state ++ toBytes 1 e.lease ++ toBytes 4 0 ++ toBytes 16 e.digest.toNat ++
    toBytes 8 e.tacc.toNat ++ toBytes 8 e.tfin.toNat ++ toBytes 16 0

/-- The physical address of an entry: SEQ lies at index SEQ mod 2^n of the region (R273). -/
def journalPa (s : State) (seq : Nat) : Nat := Config.journalBase + 64 * (seq % journalSize s)

/-- The frames of an entry's place are TENID 0's (R273, R355). -/
def journalHeld (s : State) (seq : Nat) : Bool := (runCause s 0 (journalPa s seq) 64).isNone

/-- The Arbiter writes the changed entries to their places in HBM; one whose place is not yet reserved for TENID 0 waits (R273, R274) (log 102). -/
def journalFlush (s : State) : State :=
  let put (m : List Host.Cell) (e : JEntry) : List Host.Cell := if journalHeld s e.seq then Memory.putBytes m (journalPa s e.seq) (journalBytes e) else m
  if s.jdirty.isEmpty then s
  else { s with
    mem := (s.journal.filter fun e => s.jdirty.contains e.seq).foldl put s.mem
    jdirty := s.jdirty.filter fun q => !journalHeld s q && s.journal.any fun e => e.seq == q }

/-- The next slot of the journal is free: no entry stands there whose STATE is 1 or 2 (R274). -/
def slotFree (s : State) : Bool :=
  !s.journal.any fun e => decide (e.seq + journalSize s = s.jhead.toNat + 1) && (e.state == 1 || e.state == 2)

/-- The journal takes a new command: a slot is free, and no entry waits for one. -/
def journalRoom (s : State) : Bool := slotFree s && s.jpend.isEmpty

/-- Appends an entry with the next SEQ; it takes the slot of the entry that is so many older (R273). -/
def journalAppend (s : State) (e : JEntry) : State :=
  let seq := s.jhead.toNat + 1
  { s with
    journal := (s.journal.filter fun j => decide (j.seq + journalSize s > seq)) ++ [{ e with seq := seq }], jhead := BitVec.ofNat 64 seq
    jdirty := s.jdirty ++ [seq] }

/-- Entries that waited for a slot are appended, in order (R274). -/
def journalDrain : Nat → State → State
  | 0, s => s
  | n + 1, s => match s.jpend with
    | e :: r => if slotFree s then journalDrain n (journalAppend { s with jpend := r } e) else s
    | [] => s

/-- Journals an event: at once, or once a slot is free (R274). -/
def journalAdd (s : State) (ten kind state lease : Nat) (digest : BitVec 128) : State :=
  let e : JEntry := { seq := 0, ten := ten, kind := kind, state := state, lease := lease, digest := digest, tacc := s.tick,
                      tfin := if state ≥ 3 then s.tick else 0 }
  if journalRoom s then journalAppend s e else { s with jpend := s.jpend ++ [e] }

/-! ### Removal -/

/-- Answers every request and job of a lease, and drops its continuation records, queues, barriers and open snapshots (R433): nothing further is
performed for them. -/
def dropWork (s : State) (lid : Nat) : State :=
  let n := (s.reqs.filter fun (_, r) => r.lease == lid).length + (leaseAt s lid).jobt.length
  let s := { s with reqs := s.reqs.filter fun (_, r) => r.lease != lid, shards := s.shards.filter fun (k, _) => k / 64 != lid }
  modLease s lid fun l => { l with
    rmReqs := l.rmReqs + n, jobt := [], cards := [], colls := [], queues := [], enqs := [], bars := [], barMsgs := [], snps := [], deadSnaps := [],
    pfrecs := [], recs := [], stopOpen := false, scan := false, checked := [] }

/-- Starts the removal of a lease: HLINE rises, nothing more issues, and REMOVAL_COMPLETE does the rest (R433). A SAVE_FAULT is logged in PF0
and in the journal (R425), there in a form of the model's (log 7). -/
def startRemoval (s : State) (lid cause : Nat) : State :=
  let l := leaseAt s lid
  if !l.v || l.lstate == .removing then s
  else
    let s := dropWork (modLease s lid fun l => { l with hline := true, lstate := .removing, rmCause := BitVec.ofNat 16 cause }) lid
    if cause = cSaveFault then journalAdd { s with pf0log := s.pf0log + 1 } 0 0x45 5 lid 0 else s

/-! ### Requests over virtual addresses -/

/-- The home base die of a tile's requests, R352. -/
def homeDie (s : State) (lid ti : Nat) : Nat :=
  let ds := bitsOf 16 (leaseAt s lid).rcd.homeb.toNat
  ds.getD (ti % max 1 ds.length) 0

/-- The base die that translates a request. -/
def dieOfReq (s : State) (r : Req) : Nat := homeDie s r.lease (tiOf (tileAt s r.who.tile))

/-- Two requests belong to one stream of a base die: one job's, or one element's own (R352, R357). -/
def sameStream (q r : Req) : Bool :=
  q.lease == r.lease && q.job == r.job && (q.job.isSome || q.who == r.who)

/-- The MTLB that a request's engine uses: the base die, and behind it the engine (R345). -/
def mtlbKey (s : State) (r : Req) : Nat :=
  let n := match r.job with | some j => j | none => 256 + (r.who.tile * 8 + r.who.eng) * 256 + r.who.slot
  dieOfReq s r + 16 * Config.engineOf n

/-- A request behind a page fault of its stream is held (R357). -/
def streamHeld (s : State) (k : Nat) (r : Req) : Bool := s.reqs.any fun (j, q) => decide (j < k) && sameStream q r && q.phase == .faulted

/-- An entry maps an address for a lease and tenant. -/
def tlbHits (e : TlbE) (lid ten va : Nat) : Bool := e.lease == lid && e.ten == ten && decide (va / 2 ^ lvlShift e.level = e.vpn)

/-- Keeps the newest entries of a TLB. -/
def tlbPut (l : List TlbE) (n : Nat) (e : TlbE) : List TlbE := (e :: l.filter fun x => !(x.lease == e.lease && x.ten == e.ten && x.level == e.level && x.vpn == e.vpn)).take n

/-- Changes the pieces of a request in a page into their physical places, and notes the page's kind. -/
def placePiece (r : Req) (e : TlbE) : Req :=
  let here (p : Piece) : Bool := p.sp == .va && p.addr / 2 ^ lvlShift e.level == e.vpn
  { r with
    rest := r.rest.map fun p =>
      if here p then { p with sp := .pa, addr := e.pa + p.addr % 2 ^ lvlShift e.level, okind := e.okind, va := p.addr, lvl := e.level } else p
    all := r.all.map fun p => if here p then { p with okind := e.okind } else p }

/-- The first piece of a request that is still to be translated. -/
def untranslated (r : Req) : Option Piece := r.rest.find? fun p => p.sp == .va

/-- The piece of a request that is to be translated fails (R319, R331). -/
def failUntranslated (r : Req) (cause pa : Nat) : Req :=
  match untranslated r with
  | some p => failPiece r p (r.rest.erase p) cause pa
  | none => failReqAt r cause pa

/-- The pieces of a held request in a declined page fail; what a job has besides goes on (R331, R358). -/
def failPage (r : Req) (page cause : Nat) : Req :=
  let q := (r.rest.filter fun p => p.sp == .va && p.addr / 65536 == page).foldl (fun r p => failPiece r p (r.rest.erase p) cause 0) r
  if q.phase == .faulted then { q with phase := .issued } else q

/-- The channel queues and reach ports that hold a request's translated pieces, as structures (Table 13.7, log 79). -/
def queueStructs (r : Req) : List Nat :=
  (r.rest.flatMap fun p => if p.sp != .pa then [] else match paClass p.addr with
    | 0 => [4 * 4096 + 32 * paStack p.addr + p.addr / 512 % 32]
    | 2 => [5 * 4096 + p.addr / 2 ^ 44 % 64]
    | _ => []).eraseDups

/-- What a hit in a TLB does for a request: none when the walker must set D first (R350). -/
def useEntry (s : State) (k : Nat) (r : Req) (e : TlbE) : Option State :=
  if reqWrites r && !e.w then some { s with reqs := s.reqs.put k (failUntranslated r cPermission 0) }
  else if reqWrites r && !e.d then none
  else some (claim { s with reqs := s.reqs.put k (placePiece r e) } r.ten (queueStructs (placePiece r e)))

/-- The entry of a TLB that maps a piece of a request. -/
def tlbHit (r : Req) (p : Piece) (l : List TlbE) : Option TlbE := l.find? fun e => tlbHits e r.lease r.ten p.addr

/-- A request must walk: it misses both TLBs, or it writes through an entry whose D is 0 (R350, R353). -/
def mustWalk (s : State) (r : Req) (p : Piece) : Bool :=
  match tlbHit r p (s.mtlb.get (mtlbKey s r) []), tlbHit r p (s.lltlb.get (dieOfReq s r) []) with
  | some e, _ => reqWrites r && e.w && !e.d
  | none, some e => reqWrites r && e.w && !e.d
  | none, none => true

/-- TRANSLATE, R353: the MTLB of the request's engine, then the LLTLB of its base die, maps the next address of a request. A double miss is left to
WALK. -/
def execTranslate (k : Nat) (s : State) : Host.Outcome State Fault Refusal :=
  match s.reqs.find k with
  | none => .next s
  | some r =>
    match untranslated r with
    | none => .next s
    | some p =>
      if r.phase != .issued || streamHeld s k r then .next s
      else
        let d := mtlbKey s r
        match tlbHit r p (s.mtlb.get d []) with
        | some e => .next ((useEntry s k r e).getD s)
        | none => match tlbHit r p (s.lltlb.get (dieOfReq s r) []) with
          | some e => .next ((useEntry (claim { s with mtlb := s.mtlb.put d (tlbPut (s.mtlb.get d []) 64 e) } r.ten [3 * 4096 + dieOfReq s r]) k r e).getD s)
          | none => .next s

/-- The place in its lease of a configuration-relative tile of a region. -/
def cfgPlace (r : Region) (x y : Nat) : Nat × Nat :=
  match r.behind.find? fun m => m.1 == (x, y) with
  | some m => m.2
  | none => (r.ox + x, r.oy + y)

/-- The configuration-relative tile of a region that stands at a place of its lease. -/
def cfgAt (r : Region) (lx ly : Nat) : Option (Nat × Nat) :=
  match r.behind.find? fun m => m.2 == (lx, ly) with
  | some m => some m.1
  | none =>
    if r.ox ≤ lx ∧ lx < r.ox + r.w ∧ r.oy ≤ ly ∧ ly < r.oy + r.h ∧ !(r.behind.any fun m => m.1 == (lx - r.ox, ly - r.oy)) then some (lx - r.ox, ly - r.oy)
    else none

/-- The region of a tile: the one that its active plane was loaded for, else one that covers it. -/
def regionOf (s : State) (lid : Nat) (t : Nat) : Option Region :=
  let l := leaseAt s lid
  let x := tileAt s t
  let lx := regX x.tlxy
  let ly := regY x.tlxy
  let here := l.regions.filter fun r => (cfgAt r lx ly).isSome
  match here.find? fun r => r.rid == (activePlane x).rid with
  | some r => some r
  | none => here.head?

/-- Tiles of a region. -/
def regionTiles (rc : BindRec) (r : Region) : List Nat :=
  ((List.range r.h).map fun y => (List.range r.w).map fun x => tileOfXy rc (cfgPlace r x y).1 (cfgPlace r x y).2).flatten

/-- Changes a region by its number. -/
def modRegion (l : Lease) (rid : Nat) (g : Region → Region) : Lease :=
  { l with regions := l.regions.map fun r => if r.rid = rid then g r else r }

/-- The number of the region that makes a request, 0 for a COPY node's. -/
def reqRegion (s : State) (r : Req) : Nat :=
  if r.who.tile ≥ noTile then 0 else match regionOf s r.lease r.who.tile with | some g => g.rid | none => 0

/-- The 64 bytes of a PFREC in a layout of the model's (log 7): tag, VA, TID, kind of access, element. -/
def pfrecBytes (f : Pfrec) : List Byte :=
  toBytes 8 f.tag.toNat ++ toBytes 8 f.va.toNat ++ toBytes 4 f.tid ++ toBytes 4 (if f.write then 1 else 0) ++ toBytes 8 f.element ++ toBytes 32 0

/-- Posts a PFREC: its bytes in the save area, the tenant's notice and the count (R345, R357). -/
def postPfrec (s : State) (lid : Nat) (f : Pfrec) : State :=
  let at_ := (leaseAt s lid).rcd.saveb.toNat + Config.pfrecAt f.tag.toNat
  let s := match postWrite s lid at_ (pfrecBytes f) with
    | (s, .ok _) => s
    | (s, .error _) => startRemoval s lid cSaveFault
  countEvent (notifyLease s lid 0x83 (BitVec.ofNat 64 at_) 0) lid 13 1

/-- A page fault, R357: the request is held, a PFREC is written for its page unless one is open, the region's clocks stop and the tenant is
told. Beyond 16 records of a region the request is held until the region goes on, and then faults again (R345). -/
def pageFault (s : State) (k : Nat) (r : Req) (p : Piece) : State :=
  let s := { s with reqs := s.reqs.put k { r with phase := .faulted } }
  let rid := reqRegion s r
  let l := leaseAt s r.lease
  let mine := l.pfrecs.filter fun f => f.rid == rid && !f.loader
  if mine.length ≥ 16 || mine.any fun f => !f.resolved && f.va.toNat / 65536 == p.addr / 65536 then s
  else
    let f : Pfrec := { tag := l.ftag, va := BitVec.ofNat 64 p.addr, tid := r.tid, write := reqWrites r, element := p.element, rid := rid }
    let tiles := match l.regions.find? (fun g => g.rid == rid) with | some g => regionTiles l.rcd g | none => []
    let s := tiles.foldl (fun s t => modTile s t fun x => { x with frozen := true }) s
    let s := modLease s r.lease fun l =>
      modRegion { l with pfrecs := l.pfrecs ++ [f], ftag := l.ftag + 1 } rid fun g => { g with frozen := true }
    postPfrec s r.lease f

/-- WALK, R349, R350: the walker completes a translation that missed both TLBs, fails it, or meets an absent page. -/
def execWalk (k : Nat) (s : State) : Host.Outcome State Fault Refusal :=
  match s.reqs.find k with
  | none => .next s
  | some r =>
    match untranslated r with
    | none => .next s
    | some p =>
      if r.phase != .issued || streamHeld s k r || !mustWalk s r p then .next s
      else match walkLease s r.lease p.addr (reqWrites r) with
        | (s, .fail c pa) =>
          let s := countRefusal s r c pa
          .next { s with reqs := s.reqs.put k (failUntranslated r c pa) }
        | (s, .absent) => .next (pageFault s k r p)
        | (s, .leaf lvl base ok w d) =>
          let e : TlbE := ⟨r.lease, r.ten, lvl, p.addr / 2 ^ lvlShift lvl, base, w, ok, d⟩
          let b := dieOfReq s r
          let m := mtlbKey s r
          let s := claim { s with
            mtlb := s.mtlb.put m (tlbPut (s.mtlb.get m []) 64 e), lltlb := s.lltlb.put b (tlbPut (s.lltlb.get b []) 4096 e) } r.ten [3 * 4096 + b]
          .next ((useEntry s k r e).getD s)

/-- Bytes that two pieces have in common. -/
def shareBytes (p q : Piece) : Bool := decide (p.addr < q.addr + q.len) && decide (q.addr < p.addr + p.len)

/-- An earlier request of the same element has an access to come that this one may not overtake: on SO pages any SO access, on RC pages one
to the same granule (R283, R289), and on any page a write to the same byte where the TID maps two elements to one (R351). An access whose page kind
is not known yet counts as each. -/
def orderHolds (s : State) (k : Nat) (r : Req) (p : Piece) : Bool :=
  let clash (q : Piece) : Bool :=
    q.sp == .va || (q.sp == .pa && ((p.okind == 1 && q.okind == 1) || (p.okind == 0 && q.okind == 0 && q.addr / 16 == p.addr / 16)))
  !(decide (p.okind ≠ 2) && s.reqs.any fun (j, q) => decide (j < k) && q.who == r.who && q.lease == r.lease && q.rest.any clash) &&
    !(r.asc && s.reqs.any fun (j, q) => decide (j < k) && q.asc && q.who == r.who && q.lease == r.lease && q.tid == r.tid &&
      q.rest.any fun u => u.sp == .va || (u.sp == .pa && shareBytes p u)) &&
    -- behind a page fault every later request of the stream is held (R357)
    !streamHeld s k r

/-- Of an access that straddles two SO pages the part at the lower address is performed first (R284). Pieces of one access follow each other in its
word as in memory. -/
def soTurn (r : Req) (p : Piece) : Bool :=
  let page (q : Piece) (va : Nat) : Bool := decide (va < p.va) && va + p.pos == p.va + q.pos && va / 2 ^ lvlShift p.lvl != p.va / 2 ^ lvlShift p.lvl
  !(p.okind == 1) || !r.rest.any fun q => (q.sp == .va && page q q.addr) || (q.sp == .pa && q.okind == 1 && page q q.va)

/-- Lanes that address one granule are performed in ascending order (R288, R351). -/
def laneTurn (r : Req) (p : Piece) : Bool :=
  (r.rest.takeWhile fun q => !withinPiece p q).all fun q => q.sp == .pa && q.addr / 16 != p.addr / 16

/-- Walks the LEN fields of a group of so many blocks: byte offset and length of block `j`, when they add up to GLEN (R97, R98). -/
def pxScan (grp : Nat) : Nat → Nat → Nat → Nat → Option (Nat × Nat) → Option (Nat × Nat)
  | 0, _, _, left, got => if left = 0 then got else none
  | f + 1, j, at_, left, got =>
    let len := pxLen (grp / 256 ^ at_ % 65536)
    if len = 0 ∨ len > left then none
    else pxScan grp f (j - 1) (at_ + 2 * len) (left - len) (if j = 0 ∧ got.isNone then some (at_, 2 * len) else got)

/-- Byte offset in its group and byte length of block `j` of a tensor of `n` blocks, from a directory entry and the group's bytes behind it. A
group holds 16 blocks, or those to the last (R97). -/
def pxBlock (raw j n : Nat) : Option (Nat × Nat) :=
  pxScan (raw / 256 ^ 8) (min 16 (n - j / 16 * 16)) (j % 16) 0 (fld raw 48 10) none

/-- Counts an HBM request that is performed, EVC[22]. Whether its slot lies beyond HBMSH, EVC[23], is free, since the spec gives the channels'
slots no time (R380, log 6); under HDC 0 none does (R337). -/
def countHbm (s : State) (lid : Nat) : State :=
  let s := countEvent s lid 22 1
  if fld (leaseAt s lid).rcd.bwph.toNat 28 2 = 0 then s
  else
    let (v, s) := free s
    countEvent s lid 23 (v % 2)

/-- Performs one piece of a request in physical memory. A bad entry of a PX8 directory gives POISON (R97) (log 98). -/
def performPa (s : State) (k : Nat) (r : Req) (p : Piece) (rest : List Piece) : State :=
  let fin (s : State) (r : Req) : State :=
    let r := closeReq { r with rest := rest }
    let s := { s with reqs := s.reqs.put k r }
    if r.phase == .done && paClass p.addr == 0 then countHbm s r.lease else s
  match r.op with
  | .read _ _ _ =>
    -- the lanes in one granule read it as one write left it (R278)
    let here (q : Piece) : Bool := q.sp == .pa && q.addr / 16 == p.addr / 16 && decide ((q.addr + q.len - 1) / 16 = p.addr / 16)
    let got := (p :: rest.filter here).foldl (fun w q => withBytes w q.pos q.len (Memory.readN s.mem q.len q.addr)) r.got
    let r := closeReq { r with got := got, rest := rest.filter fun q => !here q }
    let s := { s with reqs := s.reqs.put k r }
    if r.phase == .done && paClass p.addr == 0 then countHbm s r.lease else s
  | .write d =>
    -- a job writes what it has for a granule at once (R328)
    let here (q : Piece) : Bool := r.job.isSome && q.sp == .pa && q.addr / 16 == p.addr / 16
    let s := { s with mem := (p :: rest.filter here).foldl (fun m (q : Piece) => Memory.writeN m q.len q.addr (wordBytes d q.pos q.len)) s.mem }
    let r := closeReq { r with rest := rest.filter fun q => !here q }
    let s := { s with reqs := s.reqs.put k r }
    if r.phase == .done && paClass p.addr == 0 then countHbm s r.lease else s
  | .atomic opc n sgn b d _ _ =>
    -- an element of two granules is updated once, as one (log 19)
    let m := (p :: rest).foldl (fun m q => setFld m (8 * q.pos) (8 * q.len) (Memory.readN s.mem q.len q.addr)) 0
    let (v, w) := atomicNew opc n sgn m b d
    let s := if w then (p :: rest).foldl (fun s q => { s with mem := Memory.writeN s.mem q.len q.addr (fld v (8 * q.pos) (8 * q.len)) }) s else s
    let s := { s with reqs := s.reqs.put k (closeReq { r with got := low m, rest := [] }) }
    if paClass p.addr == 0 then countHbm s r.lease else s
  | .px8 e5m2 base j n w =>
    let r := { r with raw := r.raw + Memory.readN s.mem p.len p.addr * 256 ^ p.pos }
    if !rest.isEmpty then fin s r
    else if r.all.all fun q => decide (q.pos < 8) then
      -- the directory entry is read: the group's bytes come next, unless it breaks R97 (log 98)
      let glen := fld r.raw 48 10
      let off := r.raw % 2 ^ 48
      if glen < 13 ∨ glen > 720 ∨ r.raw / 2 ^ 58 % 64 ≠ 0 ∨ off % 2 ≠ 0 then fin s { r with raw := 0 }
      else
        let ps := (cutPieces .va 200 (base + off) (2 * glen) 8).map fun q => { q with element := p.element }
        { s with reqs := s.reqs.put k { r with rest := ps, all := r.all ++ ps } }
    else if w then
      -- what a store leaves in the block is not stated: each granule takes a free value (log 18)
      match pxBlock r.raw j n with
      | some (lo, n) =>
        let (v, s) := free s
        let ps := r.all.filter fun q => decide (8 ≤ q.pos) && decide (q.pos < 8 + lo + n) && decide (8 + lo < q.pos + q.len)
        let ps := ps.map fun q =>
          let a := max q.pos (8 + lo)
          { q with addr := q.addr + (a - q.pos), len := min (q.pos + q.len) (8 + lo + n) - a, pos := (a - 8) % 16 }
        { s with reqs := s.reqs.put k { r with op := .write (low v), rest := ps } }
      | none => fin s r
    else
      let ok := (pxBlock r.raw j n).bind fun (lo, n) => pxDecode e5m2 (r.raw / 256 ^ (8 + lo) % 256 ^ n)
      match ok with
      | some bytes => countEvent (fin s { r with got := ofLanes 8 bytes, raw := 1 }) r.lease 26 1
      | none => fin s { r with raw := 0 }
  | _ => fin s r

/-- The access of piece `i` of request `k` at its home, for the address classes that the home takes. -/
def servePa (cls : Nat → Bool) (k i : Nat) (s : State) : State :=
  match s.reqs.find k with
  | none => s
  | some r =>
    if r.phase != .issued then s
    else match pickGranule r.rest i with
      | none => s
      | some (p, rest) =>
        let one := match r.op with | .atomic .. => true | _ => false
        if p.sp != .pa || !cls (paClass p.addr) || !orderHolds s k r p || !soTurn r p || !laneTurn r p || standsBack s r p ||
            !mayPass s (releaseDue s k r p.okind) || (one && !rest.all fun q => q.sp == .pa && orderHolds s k r q) then s
        else match (if one then p :: rest else [p]).findSome? (fun q => (channelCause s r.ten q.addr).map fun c => (c, q)) with
          | some (c, q) =>
            if c = cUncorrectable ∧ wholeWrite r.op p.len then performPa { s with badMem := s.badMem.filter (· != p.addr / 16) } k r p rest
            else
            let s := if c = cUncorrectable then refused s r.lease c else countRefusal s r c q.addr
            { s with reqs := s.reqs.put k (failPiece r q (if one then [] else rest) c q.addr) }
          | none => performPa (markReqs s (atomicScope r) (releaseDue s k r p.okind)) k r p rest

/-- HBM_REQUEST_SERVE, R355: a channel checks the frame owner and performs or refuses. A peer's memory is served as its reach port passes the
request on (log 7). -/
def execHbmRequestServe (k i : Nat) (s : State) : Host.Outcome State Fault Refusal := .next (servePa (fun c => c == 0 || c == 2) k i s)

/-- A marked access to the granule stands before an agent outside the module (R286). -/
def agentWaits (s : State) (pa : Nat) : Bool :=
  s.reqs.any fun (_, q) => q.marks.any (fun sc => decide (4 ≤ sc)) && q.rest.any fun p => p.sp == .pa && p.addr / 16 == pa / 16

/-- A host agent writes host memory, or a peer module its own (R288), at most a granule at once (R278). -/
def agentWrite (s : State) (pa : Nat) (data : List Byte) : State :=
  if (paClass pa = 1 ∨ paClass pa = 2) ∧ pa % 16 + data.length ≤ 16 ∧ agentWaits s pa = false then
    { s with mem := Memory.putBytes s.mem pa data }
  else s

/-- A request has an access to host memory before it. -/
def hostNext (r : Req) : Bool := r.phase == .issued && r.rest.any fun p => p.sp == .pa && paClass p.addr == 1

/-- An earlier request that the same port's link has held goes on first (R490). -/
def heldFirst (s : State) (k : Nat) (r : Req) : Bool :=
  r.held && s.reqs.any fun (j, q) => decide (j < k) && q.held && hostNext q && decide (q.ten ≤ 16) == decide (r.ten ≤ 16)

/-- HOST_MEMORY_REQUEST, R279, R285: the host port of the tenant's PF performs an access to host memory, while its link is up (R346, R490);
or another agent's write takes its place in the order of such memory (R288). -/
def execHostMemoryRequest (k : Nat) (a : HostAccess) (s : State) : Host.Outcome State Fault Refusal :=
  match a with
  | .agent pa data => .next (agentWrite s pa data)
  | .piece i => match s.reqs.find k with
    | none => .next s
    | some r => if portUp s r.ten && !heldFirst s k r then .next (servePa (fun c => c == 1) k i s) else .next s

end Sys2Proof.Machine
end

