-- ==== Sys2Proof/Machine/Tensor.lean ====
section
/-! DEFINITION. Tensors: element addresses, LDT, STT, atomics and FENCE (R91, R92, R97, R287, R291, R292, R313 to R322, R351 to R353). -/

namespace Sys2Proof.Machine

open Sys2Proof

/-! ### Tensors -/

/-- The key under which a lease holds a TID entry as a node's placement read it (R351). -/
def tidKey (g n t : Nat) : Nat := (g * 65536 + n) * 4096 + t

/-- The tensor of a TID for the element of a context. -/
def tidFor (c : Ctx) (t : Nat) : Tid := c.l.tids.get (tidKey c.p.graph c.p.node t) {}

/-- TID of IMM16[15:4] (R38). -/
def immTid (c : Ctx) : Nat := c.f.imm.toNat / 16

/-- Elements of a tensor. -/
def tidCount (t : Tid) : Nat := t.exts.foldl (· * ·) 1

/-- MXE code of a format 0xC to 0xF, 0 otherwise. -/
def fmtMxe (fmt : Nat) : Nat := if fmt ≥ 12 then fmt - 11 else 0

def isMx (t : Tid) : Bool := decide (t.fmt ≥ 12)
def isPx (t : Tid) : Bool := decide (t.fmt = 10 ∨ t.fmt = 11)

/-- Bits of an element in memory, and of a token lane (Table 4.1). -/
def fmtBits (fmt : Nat) : Nat :=
  match fmt with
  | 1 => 8 | 2 => 16 | 3 => 32 | 4 => 64 | 5 => 32 | 6 => 16 | 7 => 16 | 8 => 8 | 9 => 8 | 10 => 8 | 11 => 8
  | 12 => 4 | 13 => 6 | 14 => 6 | 15 => 8 | _ => 8
def fmtLane (fmt : Nat) : Nat := if fmt = 13 ∨ fmt = 14 then 8 else fmtBits fmt

/-- Blocks of a PX8 tensor (R97). -/
def pxBlocks (t : Tid) : Nat := (tidCount t + 63) / 64

/-- Elements in a word, R315. -/
def epw (t : Tid) : Nat := 512 / fmtLane t.fmt

/-- Byte address of element `n` by its coordinates, innermost fastest (R353). -/
def strideAddr : List Nat → List Nat → Nat → Nat
  | e :: es, st :: ss, n => n % e * st + strideAddr es ss (n / e)
  | _, _, _ => 0

def elemAddr (t : Tid) (n : Nat) : Nat := t.base + strideAddr t.exts t.strs n

/-- Joins elements that follow each other in memory into runs, so that each granule is accessed once (R278). -/
def joinRuns (w : Nat) : List (Nat × Nat) → List (Nat × Nat × Nat)
  | [] => []
  | (a, pos) :: r => match joinRuns w r with
    | (b, len, q) :: l => if b = a + w ∧ q = pos + w then (a, len + w, pos) :: l else (a, w, pos) :: (b, len, q) :: l
    | [] => [(a, w, pos)]

/-- The pieces of elements `n` to `n + k - 1` of a tensor. -/
def elemPieces (t : Tid) (n k : Nat) : List Piece :=
  let runs : List (Nat × Nat × Nat) :=
    if isMx t then [(t.base + n * fmtBits t.fmt / 8, k * fmtBits t.fmt / 8, 0)]
    else
      let w := fmtBits t.fmt / 8
      joinRuns w ((List.range k).map fun i => (elemAddr t (n + i), i * w))
  (runs.map fun (a, len, pos) => (cutPieces .va 5 a len pos).map fun p => { p with element := n + p.pos * 8 / fmtBits t.fmt }).flatten

/-- The pieces of the scales of blocks of elements `n` to `n + k - 1` (R91). -/
def scalePieces (t : Tid) (n k : Nat) : List Piece :=
  (cutPieces .va 2 (t.aux + n / 32) ((k + 31) / 32) 0).map fun p => { p with element := n + 32 * p.pos }

/-- The pieces of the directory entry of an element's PX8 block (R97). -/
def dirPieces (t : Tid) (n : Nat) : List Piece := (cutPieces .va 2 (t.aux + n / 1024 * 8) 8 0).map fun p => { p with element := n }

/-- Inserts a dimension, extent and stride, in the order of the strides. -/
def dimInsert (d : Nat × Nat) : List (Nat × Nat) → List (Nat × Nat)
  | [] => [d]
  | e :: r => if d.2 ≤ e.2 then d :: e :: r else e :: dimInsert d r

/-- The TID may map two elements to one byte (R351): a stride is shorter than what the dimensions of smaller strides reach over. -/
def selfOverlap (t : Tid) : Bool :=
  let ds := ((t.exts.zip t.strs).filter fun d => decide (d.1 > 1)).foldl (fun l d => dimInsert d l) []
  !isMx t && !isPx t && (ds.foldl (fun (a : Bool × Nat) d => (a.1 || decide (d.2 < a.2), a.2 + (d.1 - 1) * d.2)) (false, fmtBits t.fmt / 8)).1

/-! ### Ranges -/

/-- The parameter word, Table 11.6, with ROWLEN and STRIDE resolved, or why it is refused (R314). -/
structure Param where
  start : Nat
  count : Nat
  rowlen : Nat
  stride : Nat
  deriving DecidableEq, Repr

/-- Rows of a range, and the elements of row `k`. -/
def Param.rows (p : Param) : Nat := (p.count + p.rowlen - 1) / max 1 p.rowlen
def Param.lenOf (p : Param) (k : Nat) : Nat := if k + 1 ≥ p.rows then p.count - (p.rows - 1) * p.rowlen else p.rowlen

/-- Checks a parameter word against R314 and the tensor's extent. A COUNT or ROWLEN beyond the limits of Table 11.6 is refused like the values that
R314 lists (log 105). -/
def readParam (w : Word) (t : Tid) (ix stt : Bool) : Except Nat Param :=
  let st := lane 64 w 0
  let n := lane 64 w 1
  let rl := lane 64 w 2
  let sd := lane 64 w 3
  let m := if isPx t then 64 else if isMx t then 32 else 1
  let p : Param := ⟨st, n, if rl = 0 then n else rl, if sd = 0 then (if rl = 0 then n else rl) else sd⟩
  if n = 0 ∨ n ≥ 2 ^ 40 ∨ rl ≥ 2 ^ 24 ∨ w.toNat / 2 ^ 256 ≠ 0 ∨ (ix ∧ rl = 0) ∨ (stt ∧ p.stride < p.rowlen) ∨
      st % m ≠ 0 ∨ n % m ≠ 0 ∨ rl % m ≠ 0 ∨ sd % m ≠ 0 then .error cSpbInvalid
  else
    let k := p.rows
    let top := max (st + (k - 1) * p.stride + p.lenOf (k - 1)) (if k ≥ 2 then st + (k - 2) * p.stride + p.rowlen else 0)
    if top > tidCount t then .error cTensorRange else .ok p

/-- The consumer that K0 names, with the displacement of the plane (R50, R373). -/
def descDest (c : Ctx) : Dest := kDest c.t c.p c.e.k0.toNat

/-- One unit of RBKT, which has 10 fraction bits. -/
def rbktUnit : BitVec 16 := 1024

/-- A control token or completion that joins an element's reply stream behind its earlier requests and uses one RBKT unit. -/
def noteReq (c : Ctx) (t : Token) : Req := { reqOf c (.note t) [] (descDest c) .done with counted := false, sb := t.sb }

def postNote (c : Ctx) (t : Token) : State → State := fun s =>
  issueReq (modElem s c.x c.b fun e => { e with rbkt := e.rbkt - rbktUnit }) (noteReq c t)

/-- A completion word to the element's own targets behind its earlier requests. -/
def doneReq (c : Ctx) (sb : BitVec 2) : Req := { reqOf c .wake [] (.targets (outNums c) sb) .done with counted := false }

/-! ### LDT -/

/-- The heads of LDT and STT: parameters at A (token or S) and words at B. -/
def paramHead (c : Ctx) : Option Token := if c.f.a == .tok then c.ha else some ⟨c.e.s, 0⟩

/-- The rows that an index word names, up to the first lane of all ones (R317). -/
def indexRows (w : Word) : List Nat := ((List.range 16).map (lane 32 w)).takeWhile (· ≠ 0xFFFFFFFF)

/-- Opens a range. -/
def openRange (c : Ctx) (p : Param) (rows : List Nat) (ix : Bool) (esb : BitVec 2) : Rqp :=
  { act := true, start := p.start, count := p.count, rowlen := p.rowlen, stride := p.stride,
    row := if ix then rows.headD 0 else 0, rows := rows.drop 1, ix := ix, esb := esb, asb := c.sb }

/-- LDT, R316, R317. Entry slots and predicates follow the common rules; the sidebands of A and B do not meet (log 29). -/
def ldtAct (_ : State) (c : Ctx) : Res :=
  let ix := c.md 0
  let t := tidFor c (immTid c)
  if c.ops.isEmpty && !c.e.due then .idle
  else if c.ops.any fun o => (match c.head o with | some t => isCtl t | none => false) then .idle
  else if !c.ops.isEmpty && c.ops.any fun o => (c.head o).isNone then missing c
  else if predOff c then .done { take := c.ops, nf := false }
  else if c.e.rqp.act then .wait .other
  else
    let w := match paramHead c with | some t => t.pay | none => 0
    match readParam w t ix false with
    | .error cause => memTrap cause (lane 64 w 0) (immTid c) 0
    | .ok p =>
      let bsb : BitVec 2 := match c.hb with | some b => b.sb | none => 0
      let rows := match c.hb with | some b => if ix then indexRows b.pay else [] | none => []
      let bad := ix && rows.any fun r => decide (r ≥ p.rows)
      if bad then memTrap cTensorRange (p.start) (immTid c) 0
      else
        let esb : BitVec 2 := if ix then (if bsb = 0b11 then 0b11 else 0b10)
          else if c.f.a != .tok then 0b11 else match c.ha with | some a => if a.sb = 0b11 then 0b11 else 0b10 | none => 0b10
        let q : Rqp := { openRange c p rows ix esb with act := !ix || !rows.isEmpty, asb := match c.ha with | some a => a.sb | none => 0 }
        let take := c.ops.filter fun o => o != .a || !ix || bsb == 0b11
        .done { take := take, reserve := c.outs, post := fun s =>
          let s := modElem s c.x c.b fun e => { e with rqp := q }
          if q.act then s else c.outs.foldl (fun s m => putTo s c.x c.b m.1 m.2 ⟨0, q.asb⟩) s }

/-- LDT, R316, R317. -/
def execLdt (f : Fields) (s : State) : Host.Outcome State Fault Refusal := fire (.ldt f) f ldtAct s

/-- The next request of an open range with the state of the range after it (R315). -/
def nextRequest (c : Ctx) (t : Tid) (q : Rqp) : ReqOp × List Piece × BitVec 2 × Rqp :=
  let p : Param := ⟨q.start, q.count, q.rowlen, q.stride⟩
  let len := p.lenOf q.row
  let n := min (epw t) (len - q.col)
  let el := q.start + q.row * q.stride + q.col
  let rowEnd := decide (q.col + n ≥ len)
  let lastRow := if q.ix then q.rows.isEmpty else decide (q.row + 1 ≥ p.rows)
  let sb : BitVec 2 := if rowEnd then (if lastRow then q.esb else 0b10) else 0
  let adv : Rqp :=
    if !rowEnd then { q with col := q.col + n, scale := false }
    else if lastRow then { q with act := false, scale := false, col := 0 }
    else { q with col := 0, scale := false, row := if q.ix then q.rows.headD 0 else q.row + 1, rows := q.rows.drop 1 }
  let _ := c
  if isMx t then
    if q.scale then (.read false false 0, scalePieces t el n, sb, adv)
    else (.read false false (if fmtBits t.fmt = 6 then n else 0), elemPieces t el n, sb, { q with scale := true })
  else if isPx t then (.px8 (decide (t.fmt = 11)) t.base (el / 64) (pxBlocks t) false, dirPieces t el, sb, adv)
  else (.read false false 0, elemPieces t el n, sb, adv)

/-- RANGE_REQUEST_ISSUE, R316: the next request of an open LDT range, paced by RBKT (R223), LANDB (R105) and OUTS (R312). At the end of the range its
completion token follows. -/
def execRangeRequestIssue (x : Site) (s : State) : Host.Outcome State Fault Refusal :=
  let t := tileAt s x.tile
  match fieldsAt (activePlane t) x.eng x.slot with
  | none => .next s
  | some (i, f) =>
    match ctxAt s x i f with
    | none => .next s
    | some c =>
      let q := c.e.rqp
      if i != .ldt f || !q.act || !tileRuns s x.tile then .next s
      else if t.hold then .next (setWait s c (some .quiesce))
      else if c.e.rbkt < rbktUnit then .next (setWait s c (some .noDemand))
      else if landFull s (noteReq c ⟨0, 0⟩) then .next (setWait s c (some .landing))
      else if c.e.outs.toNat ≥ maxOuts then .next (setWait s c (some .hbm))
      else
        let tid := tidFor c (immTid c)
        let (op, ps, sb, q') := nextRequest c tid q
        let s := modElem s x c.b fun e => { e with rbkt := e.rbkt - rbktUnit, rqp := q', wait := none }
        let s := issueReq s { reqOf c op ps (descDest c) .issued with sb := sb, tid := immTid c }
        .next (if q'.act || c.outs.isEmpty then s else issueReq s (doneReq c q.asb))

/-! ### STT -/

/-- Packs 6-bit lanes as memory holds them; none when a lane has bits [7:6] set (R92). -/
def pack6 (n : Nat) (w : Word) : Option Word :=
  let l := (List.range n).map (lane 8 w)
  if l.any fun v => decide (v ≥ 64) then none else some (low (packLanes 6 l))

/-- STT, R318. -/
def sttAct (s : State) (c : Ctx) : Res :=
  let t := tidFor c (immTid c)
  let tok := c.f.a == .tok
  match c.hb with
  | none => missing c
  | some b =>
    if (isCtl b && !(isPoison b)) || (match c.hp with | some p => isCtl p | none => false) then .idle
    else if c.ops.contains .p && c.hp.isNone then missing c
    else if predOff c then .done { take := c.ops.filter (· != .a), nf := false }
    else
      let q0 := c.e.rqp
      let opened : Except Res Rqp :=
        if q0.act then .ok q0
        else match paramHead c with
          | none => .error (missing c)
          | some a =>
            if isCtl a then .error .idle
            else match readParam a.pay t false true with
              | .error cause => .error (memTrap cause (lane 64 a.pay 0) (immTid c) 0)
              | .ok p => .ok (openRange c p [] false 0)
      match opened with
      | .error r => r
      | .ok q =>
        let p : Param := ⟨q.start, q.count, q.rowlen, q.stride⟩
        let len := p.lenOf q.row
        let n := min (epw t) (len - q.col)
        let el := q.start + q.row * q.stride + q.col
        let pois := isPoison b
        let mx := isMx t
        let ends := !pois && endsRow b
        let str := !pois && endsStream b
        let packed : Option Word := if pois then none else if mx && !q.scale && fmtBits t.fmt = 6 then pack6 n b.pay else some b.pay
        let writes : List (ReqOp × List Piece) := match packed with
          | none => []
          | some w =>
            if mx && q.scale then [(.write w, scalePieces t el n)]
            else if isPx t then [(.px8 (decide (t.fmt = 11)) t.base (el / 64) (pxBlocks t) true, dirPieces t el)]
            else [(.write w, elemPieces t el n)]
        let bad := q.bad || packed.isNone
        let did := if q.bad then q.did else if pois then b.pay.toNat else if packed.isNone then (poisonTok 4 c.ti).pay.toNat else 0
        let half := mx && !q.scale
        let full := decide (q.col + n ≥ len)
        let rowDone := !half && (full || ends)
        let last := !half && ((rowDone && decide (q.row + 1 ≥ p.rows)) || str)
        let q' : Rqp :=
          if last then {}
          else if half then { q with scale := true, bad := bad, did := did }
          else if rowDone then { q with row := q.row + 1, col := 0, scale := false, bad := bad, did := did }
          else { q with col := q.col + n, scale := false, bad := bad, did := did }
        let take : List Opnd := (c.ops.filter fun o => o != .a) ++ (if last && tok then [.a] else [])
        let fin : Token := if bad then ⟨low did, sbCtl⟩ else ⟨0, if str then 0b11 else 0b10⟩
        if c.e.outs.toNat + writes.length > maxOuts then .wait .hbm
        else if last && c.e.rbkt < rbktUnit then .wait .noDemand
        else if last && landFull s (noteReq c fin) then .wait .landing
        else .done { take := take, nf := !pois, poison := if packed.isNone && !pois then 1 else 0, post := fun s =>
          let s := modElem s c.x c.b fun e => { e with rqp := q' }
          let s := writes.foldl (fun s (op, ps) => issueReq s { reqOf c op ps .none .issued with tid := immTid c, asc := selfOverlap t }) s
          if last then postNote c fin s else s }

/-- STT, R318. -/
def execStt (f : Fields) (s : State) : Host.Outcome State Fault Refusal := fire (.stt f) f sttAct s

/-! ### Atomics -/

/-- The format that an atomic's type needs at a TID (R321). -/
def atomicFmt (ty : Ty) : Nat := match ty with | .i64 => 4 | .n64 => 4 | .fp32 => 5 | _ => 3

/-- SCOPE, MOD[4:2] (R52). -/
def scopeOf (f : Fields) : Nat := f.md.toNat / 4 % 8

/-- The firing of an atomic, R320, R321. -/
def atomicAct (opc : Nat) (_ : State) (c : Ctx) : Res :=
  let n := c.n
  let b := lane n (c.vb n) 0
  let d := lane n (c.vc n) 0
  let op : ReqOp := .atomic opc n (tySigned c.f.typ) b d (BitVec.ofNat 2 (c.f.md.toNat % 4)) (BitVec.ofNat 3 (scopeOf c.f))
  if c.md 5 then
    let t := tidFor c (immTid c)
    let e := c.aa
    if t.fmt ≠ atomicFmt c.f.typ then .trap cTidFormat none (payload3 e 0 0)
    else if e ≥ tidCount t then memTrap cTensorRange e (immTid c) 0
    else if elemAddr t e % (n / 8) ≠ 0 then memTrap cAlign e (immTid c) (elemAddr t e)
    else if c.e.outs.toNat ≥ maxOuts then .wait .hbm
    else
      let ps : List Piece := [{ sp := .va, addr := elemAddr t e, len := n / 8, pos := 0, element := e }]
      .done { take := c.ops, reserve := c.outs, post := fun s =>
        issueReq s { reqOf c op ps (.targets (outNums c) c.sb) .issued with tid := immTid c, opw := BitVec.ofNat 64 e } }
  else match scrCause c c.aa c.aa (n / 8) with
    | some cause => memTrap cause c.aa 0 0
    | none => scrFire c (scrReq c op [{ sp := .scr, addr := c.aa, len := n / 8, pos := 0 }])

/-- AADD, R320. -/
def execAadd (f : Fields) (s : State) : Host.Outcome State Fault Refusal := fire (.aadd f) f (std (atomicAct 0xB0)) s
/-- AFADD, R320. -/
def execAfadd (f : Fields) (s : State) : Host.Outcome State Fault Refusal := fire (.afadd f) f (std (atomicAct 0xB1)) s
/-- AMIN, R320. -/
def execAmin (f : Fields) (s : State) : Host.Outcome State Fault Refusal := fire (.amin f) f (std (atomicAct 0xB2)) s
/-- AMAX, R320. -/
def execAmax (f : Fields) (s : State) : Host.Outcome State Fault Refusal := fire (.amax f) f (std (atomicAct 0xB3)) s
/-- AAND, R320. -/
def execAand (f : Fields) (s : State) : Host.Outcome State Fault Refusal := fire (.aand f) f (std (atomicAct 0xB4)) s
/-- AOR, R320. -/
def execAor (f : Fields) (s : State) : Host.Outcome State Fault Refusal := fire (.aor f) f (std (atomicAct 0xB5)) s
/-- AXOR, R320. -/
def execAxor (f : Fields) (s : State) : Host.Outcome State Fault Refusal := fire (.axor f) f (std (atomicAct 0xB6)) s
/-- AXCH, R320. -/
def execAxch (f : Fields) (s : State) : Host.Outcome State Fault Refusal := fire (.axch f) f (std (atomicAct 0xB7)) s
/-- ACAS, R320. -/
def execAcas (f : Fields) (s : State) : Host.Outcome State Fault Refusal := fire (.acas f) f (std (atomicAct 0xB8)) s
/-- AINCB, R320. -/
def execAincb (f : Fields) (s : State) : Host.Outcome State Fault Refusal := fire (.aincb f) f (std (atomicAct 0xB9)) s

/-! ### FENCE -/

/-- What a fence of a kind on a tile covers: the accesses that its elements have issued and that are still to be performed (R291). -/
def fenceDue (s : State) (t kind : Nat) : Tab Req :=
  match kind with
  | 0 => acquireDue s t s.nextReq
  | 1 => tileDue s t s.nextReq accessDue fun p => !onUn p
  | 2 => tileDue s t s.nextReq accessDue fun _ => true
  | _ => tileDue s t s.nextReq reqWrites fun _ => true

/-- A fence of a kind on a tile need not wait longer (R291): all that it covers is performed, or it may go ahead of it (log 99). An ASYNC fence
goes ahead of nothing. -/
def fenceReady (s : State) (t kind : Nat) : Bool := if kind < 3 then mayPass s (fenceDue s t kind) else (fenceDue s t kind).isEmpty

/-- A fence of a kind and scope has gone ahead of what it covers. The scope of an ASYNC fence has no effect (R291). -/
def fenceMark (s : State) (t kind scope : Nat) : State := if kind < 3 then markReqs s scope (fenceDue s t kind) else s

/-- What the acquire half of a FENCE FULL covers: reads on every page kind (R408). -/
def readsDue (s : State) (t : Nat) : Tab Req := tileDue s t s.nextReq reqReads fun _ => true

/-- FENCE, R322: the token of A leaves unchanged, control tokens other than SWITCH among them. -/
def execFence (f : Fields) (s : State) : Host.Outcome State Fault Refusal :=
  fire (.fence f) f (fun s c =>
    match c.ha with
    | none => missing c
    | some t =>
      if isSwitch t || (match c.hp with | some p => isCtl p | none => false) then .idle
      else if c.ops.contains .p && c.hp.isNone then (if isCtl t then .idle else missing c)
      else if isData t && predOff c then .done { take := c.ops, nf := false }
      else if !fenceReady s c.x.tile (f.md.toNat % 4) then .wait .fence
      else .done {
        emits := toAll c t, take := c.ops, nf := isData t
        post := fun s => fenceMark (execDrop.passSnap c t s) c.x.tile (f.md.toNat % 4) (scopeOf f) }) s

end Sys2Proof.Machine
end

