-- ==== Sys2Proof/Machine/Nodes.lean ====
section
/-! DEFINITION. Node and graph states, their records in graph memory, edge tokens and graph completion (R383, R387 to R389, R403), and the
start of a removal (R433). -/

namespace Sys2Proof.Machine

open Sys2Proof

/-- The key of the management context (R398). -/
def mgmtKey : Nat := 255

/-- Reads graph memory; the management context's lies at physical addresses (log 7), under the channels' checks (R31). -/
def gRead (s : State) (lid va n : Nat) : State × Except Nat (List Byte) :=
  if lid = mgmtKey then (if behindLink s 0 va then ({ s with linkHeld := true }, .error 0) else (s, devRead s va n)) else vaRead s lid va n

/-- Writes graph memory; a write that fails removes the lease with SAVE_FAULT (R383). -/
def gWrite (s : State) (lid va : Nat) (b : List Byte) : State :=
  if lid = mgmtKey then (if behindLink s 0 va then { s with heldWrites := s.heldWrites ++ [(lid, va, b)] } else devWrite s va b)
  else match postWrite s lid va b with
    | (s, .ok _) => s
    | (s, .error _) => startRemoval s lid cSaveFault

/-- Byte 15 of a save-directory entry (R430). -/
def dirByte (l : Lease) (i : Nat) : Nat := l.rcd.saveb.toNat + 16 * i + 15

/-- Clears V of a save-directory entry (R430). -/
def clearV (s : State) (lid i : Nat) : State :=
  let l := leaseAt s lid
  let (s, v) := match vaReadN s lid (dirByte l i) 1 with | (s, .ok v) => (s, v % 128) | (s, .error _) => (s, 0)
  gWrite s lid (dirByte l i) (toBytes 1 v)

/-- STATE codes, Table 14.3. -/
def nodeCode (x : NodeState) : Nat :=
  match x with
  | .waiting => 0 | .ready => 1 | .armed => 2 | .running => 3 | .done => 4 | .faulted => 5 | .cancelled => 6 | .retry => 7

/-- Writes the Q fields of a node record (Table 14.3) (log 88). -/
def writeNode (s : State) (lid g n : Nat) : State :=
  let l := leaseAt s lid
  match l.graphs.find g, nodeAt l g n with
  | some x, some nd =>
    let base := x.nodesVa.toNat + 128 * n
    let q := toBytes 4 nd.pend ++ toBytes 4 nd.ctok.toNat ++ toBytes 2 nd.skip.toNat ++ toBytes 1 nd.rtry.toNat ++ [0] ++
      toBytes 4 nd.fcause.toNat ++ toBytes 4 nd.gcur.toNat ++ toBytes 4 nd.giss.toNat ++ toBytes 4 nd.gcomp.toNat
    gWrite (gWrite s lid (base + 1) (toBytes 1 (nodeCode nd.state))) lid (base + 44) q
  | _, _ => s

/-- The out-edges of a node with their destination and kind. -/
def outEdges (x : Graph) (nd : Node) : List (BitVec 64) := (x.edges.drop nd.efirst).take nd.nout

def edgeDst (e : BitVec 64) : Nat := e.toNat % 65536
def edgeKind (e : BitVec 64) : Nat := fld e.toNat 16 2
def edgeTrack (e : BitVec 64) : Bool := e.getLsbD 18

/-- Sends the tokens of a node's out-edges of a kind (R389). They reach their nodes at EDGE_TOKEN. -/
def sendTokens (l : Lease) (g n kind : Nat) : Lease :=
  match l.graphs.find g, nodeAt l g n with
  | some x, some nd =>
    { l with etoks := l.etoks ++ ((outEdges x nd).filter fun e => edgeKind e == kind).map fun e => (g, edgeDst e, edgeTrack e) }
  | _, _ => l

/-- A node that no further event is due to. -/
def nodeEnded (x : NodeState) : Bool := x == .done || x == .faulted || x == .cancelled

/-- Table 14.2 fields of a graph entry that the sequencer writes. -/
def writeGraph (s : State) (lid g : Nat) : State :=
  let l := leaseAt s lid
  match l.graphs.find g with
  | some x => gWrite s lid (l.rcd.grtab.toNat + 32 * g + 24) (toBytes 1 x.gstate ++ [0] ++ toBytes 2 x.cdone ++ toBytes 2 x.ccanc ++ toBytes 2 x.cfault)
  | none => s

/-- Ends a graph with a GSTATE: counts are written, it leaves ACTG and the tenant is told (R403). -/
def endGraph (s : State) (lid g st : Nat) : State :=
  let l := leaseAt s lid
  match l.graphs.find g with
  | some x =>
    let cnt (k : NodeState) : Nat := (x.nodes.filter fun n => n.state == k).length
    let x := { x with gstate := st, cdone := cnt .done, ccanc := cnt .cancelled, cfault := cnt .faulted }
    let s := setLease s lid { l with graphs := l.graphs.put g x, actg := l.actg.filter (· != g), etoks := l.etoks.filter fun t => t.1 != g }
    let s := writeGraph (List.foldl (fun s i => writeNode s lid g i) s (List.range x.nodes.length)) lid g
    notifyLease s lid 0x80 (l.rcd.grtab + BitVec.ofNat 64 (32 * g)) 0
  | none => s

/-- A faulted node that is to run again (R400). -/
def willRetry (nd : Node) : Bool := nd.policy.toNat % 4 == 0 && decide (nd.rtry.toNat < nd.rbudg)

/-- A node that no further event is due to: a faulted one once its policy has been applied and it does not run again. -/
def nodeOver (nd : Node) : Bool := nodeEnded nd.state && !(nd.state == .faulted && (!nd.polDone || willRetry nd))

/-- A graph completes when every node has ended and no late event is in flight (R403). One of a lease that is being removed ends ABORTED instead. -/
def checkGraph (s : State) (lid g : Nat) : State :=
  let l := leaseAt s lid
  match l.graphs.find g with
  | some x =>
    if l.lstate != .removing && x.gstate == 1 && x.nodes.all nodeOver && !l.etoks.any (fun t => t.1 == g) then
      endGraph s lid g (if x.nodes.all fun n => n.state == .done then 2 else 3)
    else s
  | none => s

/-- RDYQ with a node at its place in READY order (R392) (logs 46 and 47). -/
def rdyqAdd (l : Lease) (g n : Nat) : Lease :=
  if l.rdyq.contains (g, n) then l
  else
    let order (e : Nat × Nat) : Nat := match nodeAt l e.1 e.2 with | some x => x.rorder | none => 0
    let k := order (g, n)
    { l with rdyq := l.rdyq.takeWhile (fun e => Nat.ble (order e) k) ++ [(g, n)] ++ l.rdyq.dropWhile (fun e => Nat.ble (order e) k), woken := true }

/-- Gives a node a state, with the tokens that the move sends, and writes its record (R387). Each edge delivers once: a node that is armed again
by a retry sends none (R389). -/
def stepNode (s : State) (lid g n : Nat) (st : NodeState) : State :=
  let s := modLease s lid fun l =>
    let l := modNode l g n fun x => { x with state := st }
    let sent := match nodeAt l g n with | some x => x.sent | none => true
    let l := if st = .done then sendTokens l g n 0
      else if st = .armed && !sent then modNode (sendTokens l g n 1) g n fun x => { x with sent := true } else l
    let cfg := match nodeAt l g n with | some x => x.kind.toNat % 8 == 0 | none => false
    if st = .ready then
      let l := { l with rseq := l.rseq + 1, woken := true }
      if cfg then rdyqAdd (modNode l g n fun x => { x with rorder := l.rseq }) g n else l
    else if st = .armed || st = .running then l
    else { l with rdyq := l.rdyq.filter (· != (g, n)) }
  writeNode s lid g n

/-- Writes the records of nodes that have faulted since (R383) (log 88). -/
def writeDue (s : State) (lid : Nat) : State :=
  match (leaseAt s lid).qdue with
  | [] => s
  | q => q.foldl (fun s m => writeNode s lid m.1 m.2) (modLease s lid fun l => { l with qdue := [] })

/-- Moves a node to a state; its graph may have ended with that. -/
def moveNode (s : State) (lid g n : Nat) (st : NodeState) : State := checkGraph (stepNode s lid g n st) lid g

end Sys2Proof.Machine
end

