-- ==== Sys2Proof/Machine/Regions.lean ====
section
/-! DEFINITION. Regions and segments (R19, R26, R229, R391, R392, R394, R399, R406, R407): issue, FORK on a tile, completion, and release. -/

namespace Sys2Proof.Machine

open Sys2Proof

/-- A region of a lease by its number. -/
def regionAt (l : Lease) (rid : Nat) : Option Region := l.regions.find? fun r => r.rid == rid

/-- The key of a lease's list in a shard (R261). -/
def shardKey (lid sh : Nat) : Nat := lid * 64 + sh

/-- GRAPH, NODE and G of a continuation record (Table 9.3). -/
def recGraph (w : Word) : Nat := fld w.toNat 80 16
def recNode (w : Word) : Nat := fld w.toNat 64 16
def recG (w : Word) : Nat := fld w.toNat 32 32

/-- The records of a node that are resident in the lease's shards. -/
def residentRecords (s : State) (lid g n : Nat) : Nat :=
  ((List.range 64).map fun sh => ((s.shards.get (shardKey lid sh) []).filter fun w => recGraph w == g && recNode w == n).length).foldl (· + ·) 0

/-- CONFIG node. -/
def isConfig (nd : Node) : Bool := nd.kind.toNat % 8 == 0

/-- CONFIG node whose segments come from continuation records (R399). -/
def isCont (nd : Node) : Bool := nd.kind.getLsbD 3

/-- Segments that a node has still to issue; a continuation node's are its resident records (log 21). -/
def unissued (s : State) (lid g n : Nat) (nd : Node) : Nat :=
  if isCont nd then residentRecords s lid g n else nd.gcur.toNat - nd.giss.toNat

/-- Regions that a node holds. One whose turn is over, or that is armed with the next configuration, counts no more (R229, R394). -/
def heldBy (l : Lease) (g n : Nat) : Nat := (l.regions.filter fun r => r.graph == g && r.node == n && r.next.isNone && !r.turnOver && !r.stopped).length

/-- Puts a node into RDYQ or takes it out as its regions and unissued segments say (R392). -/
def requeue (s : State) (lid g n : Nat) : State :=
  let l := leaseAt s lid
  match nodeAt l g n with
  | none => s
  | some nd =>
    let live := nd.state == .armed || nd.state == .running
    let keep := isConfig nd &&
      (nd.state == .ready || (live && decide (heldBy l g n < nd.nreg) && decide (unissued s lid g n nd > 0) && !(nd.viaTrack && nd.pend != 0)))
    if keep && !l.rdyq.contains (g, n) then setLease s lid (rdyqAdd l g n)
    else if !keep then setLease s lid { l with rdyq := l.rdyq.filter (· != (g, n)) }
    else s

/-! ### FORK on a tile -/

/-- An instruction of an element is FORK or RDV. -/
def isFork (el : Elem) : Bool := match instrAt el with | some (.fork _) => true | _ => false
def isRdv (el : Elem) : Bool := match instrAt el with | some (.rdv _) => true | _ => false

/-- What FORK does to a block's elements for segment g (R406): S, NF, FFLG and LFSR, and the entry slots fall due. -/
def forkBlock (g ct eng : Nat) (b : Block) : Block :=
  { b with elems := b.elems.zipIdx.map fun (el, i) => { el with
      s := el.sInit, nf := 0, fflg := 0, lfsr := lfsrSeed g ct eng i, xm := {}, wait := none
      due := b.ents.contains i || isFork el } }

/-- The configuration-relative index of a tile (R88). -/
def configIndex (x : Tile) (p : Plane) : Nat :=
  (regY x.tlxy - regY p.rorg) * (regX p.cext + 1) + (regX x.tlxy - regX p.rorg)

/-- RDVA at FORK: a present block with no RDV counts as arrived (R407). -/
def rdvaAtFork (p : Plane) : BitVec 3 :=
  BitVec.ofNat 3 (([0, 1, 2].filter fun e => match blockOf p e with | some b => !b.elems.any isRdv | none => false).foldl (fun a e => a + 2 ^ e) 0)

/-- The effects of FORK for segment g on a tile's active plane (R406). `word`: S of the stream block's ENT0 from a continuation record (R263).
Under PWH 1 every RETAIN bank wakes (R337). -/
def forkEffects (s : State) (t g : Nat) (word : Option Word) : State :=
  let x := tileAt s t
  let p := activePlane x
  let ct := configIndex x p
  let go (e : Nat) (b : Option Block) : Option Block := b.map (forkBlock g ct e)
  let b0 := go 0 p.blk0
  let b0 := match word, b0 with
    | some w, some b => some { b with elems := match b.ents with | k :: _ => modAt b.elems k (fun el => { el with s := w }) | [] => b.elems }
    | _, b => b
  let p := { p with
    blk0 := b0, blk1 := go 1 p.blk1, blk2 := go 2 p.blk2
    segg := BitVec.ofNat 32 g, rdva := rdvaAtFork p, inSeg := true, poisoned := false }
  let s := setTile s t (withPlane x x.planeB p)
  let s := if bwphPwh (tileBwph s t) = 1 then
      ((List.range 16).filter fun b => bankMode x b == .retain && granted x b).foldl (fun s b => wakeBank s t b) s
    else s
  -- the FORK of its first segment on any tile makes the node RUNNING (Table 14.4)
  match nodeAt (leaseAt s x.tlease.toNat) p.graph p.node with
  | some nd => if nd.state == .armed then moveNode s x.tlease.toNat p.graph p.node .running else s
  | none => s

/-- The region's segment that a tile has to start: its plane is active and was loaded for the region, the region has issued a segment that the
tile has not completed, and nothing holds it back (R406, R427). -/
def forkDue (s : State) (t : Nat) : Option (Region × Nat) :=
  let x := tileAt s t
  let p := activePlane x
  let l := leaseAt s x.tlease.toNat
  if p.pst != .active || p.inSeg || l.lstate == .gating then none
  else match regionAt l p.rid with
    | some r => (match r.seg with
      | some g => if r.left.contains t && !r.stopped && !r.held then some (r, g) else none
      | none => none)
    | none => none

/-- Starts the segment on a tile: its FORK element falls due, or, with none, the effects of FORK come about at once. -/
def startTile (s : State) (t : Nat) : State :=
  match forkDue s t with
  | none => s
  | some (r, g) =>
    let x := tileAt s t
    match (activePlane x).blk0 with
    | some b =>
      if b.elems.any isFork then
        modActive s t fun p => withBlock p 0 { b with elems := b.elems.map fun el => if isFork el then { el with due := true } else el }
      else forkEffects s t g ((leaseAt s x.tlease.toNat).conts.find r.rid)
    | none => forkEffects s t g ((leaseAt s x.tlease.toNat).conts.find r.rid)

/-! ### Issue and completion -/

/-- Issues segment g to a region (R394, R399). -/
def issueSeg (s : State) (lid rid g : Nat) (word : Option Word) : State :=
  let l := leaseAt s lid
  match regionAt l rid with
  | none => s
  | some r =>
    let tiles := regionTiles l.rcd r
    let l := modRegion l rid fun r => { r with seg := some g, left := tiles, turn := r.turn + 1, poisoned := false }
    let l := modNode l r.graph r.node fun nd => { nd with giss := nd.giss + 1, gset := if isCont nd && !nd.gset.contains g then g :: nd.gset else nd.gset }
    let l := { l with conts := match word with | some w => l.conts.put rid w | none => l.conts.del rid }
    tiles.foldl startTile (requeue (setLease s lid l) lid r.graph r.node)

/-- The dispatcher may arm and issue: the lease is ACTIVE, or MOVING for what does not move (R393). -/
def mayIssue (l : Lease) : Bool := (l.lstate == .active || l.lstate == .moving) && !l.hline

/-- A region at a segment boundary goes on with the node's next g, or gives up its turn (R394). It keeps still while the dispatcher may issue
nothing. -/
def boundary (s : State) (lid rid : Nat) : State :=
  let l := leaseAt s lid
  match regionAt l rid with
  | none => s
  | some r => match nodeAt l r.graph r.node with
    | none => s
    | some nd =>
      let s := modLease s lid fun l => modRegion l rid fun r => { r with ended := none }
      let done := r.next.isSome || decide (unissued s lid r.graph r.node nd = 0) || (decide (nd.squant ≠ 0) && decide (r.turn ≥ nd.squant)) ||
        !(nd.state == .armed || nd.state == .running)
      if done then requeue (modLease s lid fun l => modRegion { l with woken := true } rid fun r => { r with turnOver := true }) lid r.graph r.node
      else if isCont nd || !mayIssue l || r.stopped || r.held then s
      else issueSeg s lid rid nd.giss.toNat none

/-- The completion condition of a CONFIG node (R391), and the closure by NFAIL (R413). A continuation node has issued every g below GCNT once records
have named each, or NDONE has closed it (R26) (log 21). -/
def checkDone (s : State) (lid g n : Nat) : State :=
  let l := leaseAt s lid
  match nodeAt l g n with
  | none => s
  | some nd =>
    let issued := if isCont nd then nd.closed || decide (nd.gset.length ≥ nd.gcur.toNat) else decide (nd.giss = nd.gcur)
    if nd.state != .running || !isConfig nd || decide (nd.gcomp ≠ nd.giss) || !issued then s
    else match nd.nfail with
      | some d => graphFault s lid 4 g n cNodeFail d.toNat 0
      | none =>
        if decide (nd.pend ≠ 0) || l.jobt.any (fun (_, j) => j.graph == g && j.node == n) || l.cards.any (fun c => c.graph == g && c.node == n) ||
            (isCont nd && decide (residentRecords s lid g n ≠ 0)) then s
        else
          -- its regions' turns end (R394)
          let s := modLease s lid fun l =>
            { l with woken := true, regions := l.regions.map fun r => if r.graph = g ∧ r.node = n then { r with turnOver := true } else r }
          moveNode s lid g n .done

/-- A region's segment has completed on every tile (R407): GCOMP, and POISONED as a fault of the node (R211). The dispatcher goes on with the region in
a later cycle (R394, R473). -/
def segmentEnd (s : State) (lid rid : Nat) : State :=
  let l := leaseAt s lid
  match regionAt l rid with
  | none => s
  | some r =>
    let s := modLease s lid fun l => modRegion { l with conts := l.conts.del rid, woken := true } rid fun r => { r with seg := none, ended := some s.cycle }
    match nodeAt l r.graph r.node with
    | none => s
    | some nd =>
      if r.stopped || !(nd.state == .armed || nd.state == .running) then s
      else
        let s := modLease s lid fun l => modNode l r.graph r.node fun nd => { nd with gcomp := nd.gcomp + 1 }
        if r.poisoned then graphFault s lid 4 r.graph r.node cPoisoned 0 0
        else checkDone s lid r.graph r.node

/-- A tile has completed its region's segment (R407). -/
def tileDone (s : State) (t : Nat) (poisoned : Bool) : State :=
  let x := tileAt s t
  let lid := x.tlease.toNat
  let rid := (activePlane x).rid
  let s := modLease s lid fun l => modRegion l rid fun r => { r with left := r.left.filter (· != t), poisoned := r.poisoned || poisoned }
  match regionAt (leaseAt s lid) rid with
  | some r => if r.seg.isSome && r.left.isEmpty then segmentEnd s lid rid else s
  | none => s

/-! ### Release -/

/-- Held SWITCH tokens and other tokens of a plane (R232, R422). -/
def planeTokens (p : Plane) : Nat × Nat :=
  let toks := (p.lbuf.map fun (_, q) => q).flatten ++ (p.px8.map fun (_, u) => u.out).flatten ++
    ((elemsOf p).map fun (_, _, el) => el.qa ++ el.qb ++ el.qc ++ el.qp).flatten
  let sw := (toks.filter isSwitch).length
  (sw, toks.length - sw)

/-- The plane-load reset of a plane's registers. -/
def emptyPlane : Plane := {}

/-- A token on a link enters a tile by a portal path of which one end is a live region other than `rid` (R372, R402). -/
def onPortal (s : State) (lid rid : Nat) (w : Wire) : Bool :=
  let live (k : Nat) : Bool := k != rid && (regionAt (leaseAt s lid) k).isSome
  (tileAt s w.tile).ptab.any fun e => e.ip == w.port && e.ic == w.ch && (live e.src.1 || live e.dst)

/-- Sends the increments of a tile to LSTL of its lease (R442). -/
def sendDeltas (s : State) (t : Nat) : State :=
  let x := tileAt s t
  if x.delta.isEmpty then s
  else x.delta.foldl (fun s d => countIn s x.tlease.toNat (0x1000 + d.1) d.2) (setTile s t { x with delta := [] })

/-- Empties the planes of a tile that were loaded for a region, its tokens counted in EVC[2] and EVC[3]; its LANDB entries, the
tokens that its BRK elements hold and the tokens on its incoming links go with them (R394, R422) (log 35). -/
def releaseTile (rid : Nat) (s : State) (t : Nat) : State :=
  let x := tileAt s t
  let lid := x.tlease.toNat
  let mine (p : Plane) : Bool := p.pst != .empty && p.rid == rid
  let one (s : State) (b : Bool) : State :=
    let x := tileAt s t
    let p := planeOf x b
    if !mine p then s
    else
      let (sw, n) := planeTokens p
      let lost := (x.lands.filter fun e => e.plane == b).length
      let held (m : Site × Bool × Token) : Bool := m.1.tile == t && m.2.1 == b
      let brks := ((leaseAt s lid).brk.filter held).length
      let s := countEvent (countEvent s lid 3 sw) lid 2 (n + lost + brks)
      let s := modLease s lid fun l => { l with brk := l.brk.filter fun m => !held m }
      modTile s t fun x => withPlane (x.keepLands fun e => e.plane != b) b emptyPlane
  let s := one (one s false) true
  let x := tileAt s t
  if x.pa.pst == .empty && x.pb.pst == .empty then
    let keep (w : Wire) : Bool := w.tile != t || onPortal s lid rid w
    let on := (s.wires.filter fun w => !keep w).length
    let s := countEvent { s with wires := s.wires.filter keep } lid 2 on
    sendDeltas (modTile s t fun x => { x with swf := 0, halted := false, capture := none }) t
  else s

/-- The end of a stream's path by which tokens of an input channel entered a region, back along its forwarding routes. -/
def streamEntry (s : State) (rid : Nat) : Nat → Nat → Nat → Option (Nat × Ptab)
  | 0, _, _ => none
  | k + 1, t, key =>
    match (tileAt s t).ptab.find? fun e => e.op == 7 && e.dst == rid && e.ip == key / 8 && e.oc == key % 8 with
    | some e => some (t, e)
    | none =>
      match (if key / 8 < 4 then neighbour t (key / 8) else none) with
      | none => none
      | some u =>
        let x := tileAt s u
        let p := if x.pa.rid == rid && x.pa.pst != .empty then x.pa else x.pb
        let out := facing (key / 8) * 8 + key % 8
        match p.route.find? fun (_, v) => v.getLsbD 15 && !v.getLsbD 14 && decide (v.toNat % 64 = out) with
        | some (i, _) => streamEntry s rid k u i
        | none => none

/-- The demands of a released region's waiting tokens that go back to producers that run on (R402): one for each token of a stream (log 87). -/
def streamDemands (s : State) (lid rid : Nat) (ts : List Nat) : List Demand :=
  let live (k : Nat) : Bool := k != rid && (regionAt (leaseAt s lid) k).isSome
  let lbufs (t : Nat) : List (Nat × List Token) :=
    ([(tileAt s t).pa, (tileAt s t).pb].filter fun p => p.pst != .empty && p.rid == rid).map (·.lbuf) |>.flatten
  let of (t key n : Nat) : List Demand :=
    let key := if key < 64 then key else if key ≥ 200000 then (key - 200000) % 64 else 63
    match streamEntry s rid (ts.length + 1) t key with
    | some (u, e) =>
      let d : Nat × Nat := if e.ip < 4 then ((neighbour u e.ip).getD u, facing e.ip) else (u, e.ip)
      if live e.src.1 then List.replicate n ⟨d.1, d.2, e.ic, lid, e.src.1, e.src.2.1, e.src.2.2⟩ else []
    | none => []
  (ts.map fun t => ((lbufs t).map fun (key, q) => of t key q.length).flatten).flatten

/-- Frees the portal paths whose two ends are gone, with the tokens on them (R372). -/
def freePortals (s : State) (lid : Nat) : State :=
  let l := leaseAt s lid
  let live (k : Nat) : Bool := l.regions.any fun q => q.rid == k
  let dead (e : Ptab) : Bool := !live e.src.1 && !live e.dst
  (leaseTiles l.rcd).foldl (fun s t =>
    let tab := (tileAt s t).ptab
    if !tab.any dead then s
    else
      let lost (w : Wire) : Bool := w.tile == t && tab.any fun e => dead e && e.ip == w.port && e.ic == w.ch
      let n := (s.wires.filter lost).length
      let s := if n = 0 then s else countEvent { s with wires := s.wires.filter fun w => !lost w } lid 2 n
      modTile s t fun x => { x with ptab := x.ptab.filter fun e => !dead e }) s

/-- Releases a region at once (R394, R422): its tiles are free for the placer; scratch stays. Producers that still stream into it get back the
demands of the tokens that are removed (R402), and portal paths whose two ends are gone are freed (R372). -/
def releaseRegion (s : State) (lid rid : Nat) : State :=
  let l := leaseAt s lid
  match regionAt l rid with
  | none => s
  | some r =>
    let back := streamDemands s lid rid (regionTiles l.rcd r)
    let s := (regionTiles l.rcd r).foldl (releaseTile rid) s
    let s := { s with demands := s.demands ++ back }
    -- the images of its freeze-scan and of its snapshots lose V (R430)
    let s := match r.entry with | some i => clearV s lid i | none => s
    let s := ((leaseAt s lid).imgs.filter fun m => m.2 == rid).foldl (fun s m => clearV s lid m.1) s
    let s := modLease s lid fun l => { l with imgs := l.imgs.filter fun m => m.2 != rid }
    let l := leaseAt s lid
    let regions := (l.regions.filter fun q => q.rid != rid).map fun q =>
      { q with pred := if q.pred = some rid then none else q.pred, next := if q.next = some rid then none else q.next }
    -- an open snapshot of it stays until its time is over (R234)
    let l := { l with regions := regions, conts := l.conts.del rid, woken := true }
    requeue (freePortals (setLease s lid l) lid) lid r.graph r.node

/-- Requests, jobs, messages and arrivals of a tile are outstanding. -/
def tileOutstanding (s : State) (lid t : Nat) : Bool :=
  let l := leaseAt s lid
  s.reqs.any (fun (_, r) => r.lease == lid && r.who.tile == t) || l.cards.any (fun c => match c.who with | some x => x.tile == t | none => false) ||
    l.barMsgs.any (fun m => m.who.tile == t) || l.enqs.any (fun m => m.who.tile == t) || (tileAt s t).drain.isSome ||
    l.jobt.any fun (_, j) => match j.who with | some x => x.tile == t && (j.out10 || j.kind == .gath || cardRing j) | none => false
where
  /-- The job delivers into a ring of its tile. -/
  cardRing (j : Job) : Bool := !j.ents.isEmpty

/-- A stopped region has come to rest. -/
def regionQuiet (s : State) (lid : Nat) (r : Region) : Bool := (regionTiles (leaseAt s lid).rcd r).all fun t => !tileOutstanding s lid t

end Sys2Proof.Machine
end

