-- ==== Sys2Proof/Machine/Jobs.lean ====
section
/-! DEFINITION. Asynchronous engines: job cards, the footprint checker, the jobs and their completion (R296 to R299, R323 to R331). A job in
progress advances one access at a time, at JOB_START and COLL_START, and its accesses are requests like any other (log 19). -/

namespace Sys2Proof.Machine

open Sys2Proof

/-! ### Cards -/

/-- A field of a card by its bits (Table 11.9). -/
def cf (w : Word) (hi lo : Nat) : Nat := fld w.toNat lo (hi - lo + 1)

def cSoff (w : Word) : Nat := cf w 511 472
def cDoff (w : Word) : Nat := cf w 471 432
def cCount (w : Word) : Nat := cf w 431 392
def cRowlen (w : Word) : Nat := if cf w 391 368 = 0 then cCount w else cf w 391 368
def cSstr (w : Word) : Nat := if cf w 367 344 = 0 then cRowlen w else cf w 367 344
def cDstr (w : Word) : Nat := if cf w 343 320 = 0 then cRowlen w else cf w 343 320
def cStid (w : Word) : Nat := cf w 319 308
def cDtid (w : Word) : Nat := cf w 307 296
def cItid (w : Word) : Nat := cf w 295 284
def cIoff (w : Word) : Nat := cf w 283 244
def cOp (w : Word) : Nat := cf w 243 240
def cEsize (w : Word) : Nat := cf w 239 232
def cSscr (w : Word) : Bool := w.getLsbD 231
def cDscr (w : Word) : Bool := w.getLsbD 230
def cDring (w : Word) : Bool := w.getLsbD 229
def cRing (w : Word) : Nat := cf w 228 226
def cGroup (w : Word) : Nat := cf w 225 210
def cGsize (w : Word) : Nat := cf w 209 204
def cRank (w : Word) : Nat := cf w 203 198

/-- Bits of an element that a job moves. -/
def jobBits (w : Word) (src dst : Option Tid) : Nat :=
  match src, dst with
  | some t, _ => fmtBits t.fmt
  | none, some t => fmtBits t.fmt
  | none, none => 8 * cEsize w

/-- Bytes of `n` elements. -/
def jobBytes (bits n : Nat) : Nat := (n * bits + 7) / 8

/-- Rows that a card moves, and the elements of row `k` (R313, R327, R328). -/
def jobRows (k : JobKind) (w : Word) : Nat :=
  match k with
  | .copy => (cCount w + cRowlen w - 1) / max 1 (cRowlen w)
  | .coll => 1
  | _ => cCount w

def jobRowLen (k : JobKind) (w : Word) (r : Nat) : Nat :=
  match k with
  | .copy => if r + 1 ≥ jobRows k w then cCount w - (jobRows k w - 1) * cRowlen w else cRowlen w
  | .coll => cCount w
  | _ => cRowlen w

/-- A card field that its kind does not use is not zero, or a field is out of range (R324). COPY leaves a fixed list of fields unused; for the
other kinds a TID beside a scratch side is one of them. -/
def cardBad (k : JobKind) (w : Word) : Bool :=
  let z (b : Bool) (hi lo : Nat) : Bool := b && decide (cf w hi lo ≠ 0)
  let copy := decide (k = .copy)
  let coll := decide (k = .coll)
  let gath := decide (k = .gath)
  let ix := !copy && !coll
  let eBoth := cSscr w && (cDscr w || cDring w)
  decide (cf w 197 0 ≠ 0) || decide (cCount w = 0) ||
    z (!ix) 295 244 || z (copy || gath || decide (k = .scat)) 243 240 || z (!coll) 225 198 || z (!copy) 229 226 || z (copy && !cDring w) 228 226 ||
    z coll 391 320 || z gath 471 432 || z gath 343 320 || z gath 307 296 || z gath 231 230 || z ix 230 230 ||
    z (cSscr w && !copy) 319 308 || z (cDscr w && !copy) 307 296 ||
    (if eBoth then !([1, 2, 4, 8, 16, 64].contains (cEsize w)) else decide (cEsize w ≠ 0)) ||
    (decide (k = .scata) && decide (cOp w > 5)) || (coll && (decide (cOp w > 2) || decide (cRank w > cGsize w)))

/-- The TID entry of the lease's table, with its extension (R351): none when it breaks the rules. -/
def parseTid (e x : Nat) : Option Tid :=
  let fmt := fld e 250 4
  let rank := fld e 247 3
  let mx := decide (fmt ≥ 12)
  let px := decide (fmt = 10 ∨ fmt = 11)
  let d : List (Nat × Nat) := [(fld e 100 24, fld e 62 38), (fld e 38 24, fld e 0 38), (fld x 224 24, fld x 186 38),
    (fld x 162 24, fld x 124 38), (fld x 100 24, fld x 62 38), (fld x 38 24, fld x 0 38)]
  let used := d.take rank
  let exts : List Nat := used.map fun v => v.1 + 1
  let extra := decide (rank ≥ 3)
  let bad : Bool := decide (fld e 254 2 ≠ 1 ∨ fmt = 0 ∨ rank = 0 ∨ rank > 6 ∨ fld e 240 4 ≠ 0 ∨ fld e 124 20 ≠ 0) ||
    decide (fld e 244 3 ≠ (if mx then 5 else if px then 6 else 0)) || (!mx && !px && decide (fld e 144 48 ≠ 0)) ||
    (extra && decide (fld x 254 2 ≠ 2 ∨ fld x 248 6 ≠ 0)) ||
    ((d.drop rank).take (if extra then 6 else 2 - rank)).any (fun v => decide (v.1 ≠ 0 ∨ v.2 ≠ 0)) ||
    ((mx || px) && used.any (fun v => decide (v.2 ≠ 0))) || Nat.ble (2 ^ 40) (exts.foldl (· * ·) 1) || (mx && exts.headD 1 % 32 != 0)
  if bad then none
  else some { fmt := fmt, base := fld e 192 48, aux := fld e 144 48, exts := exts, strs := used.map (·.2) }

/-- Reads a TID entry of a lease (R351): the entry, or the memory cause, or none for an entry that breaks the rules.
Nothing follows the last entry, so no extension can. -/
def readTid (s : State) (lid t : Nat) : State × Except Nat (Option Tid) :=
  let base := (leaseAt s lid).rcd.tidb.toNat + 32 * t
  match vaReadN s lid base 32 with
  | (s, .error c) => (s, .error c)
  | (s, .ok e) =>
    if fld e 247 3 ≥ 3 ∧ t = 4095 then (s, .ok none)
    else if fld e 247 3 ≥ 3 then
      match vaReadN s lid (base + 32) 32 with
      | (s, .error c) => (s, .error c)
      | (s, .ok x) => (s, .ok (parseTid e x))
    else (s, .ok (parseTid e 0))

/-- The span of a whole tensor; of a PX8 tensor all that its directory can name. -/
def tidSpan (t : Tid) (lo hi : Nat) : List (Bool × Nat × Nat) :=
  if isPx t then [(false, t.base, t.base + 2 ^ 48), (false, t.aux + lo / 1024 * 8, t.aux + hi / 1024 * 8 + 8)]
  else if isMx t then [(false, t.base + lo * fmtBits t.fmt / 8, t.base + (hi + 1) * fmtBits t.fmt / 8), (false, t.aux + lo / 32, t.aux + hi / 32 + 1)]
  else
    let span := ((t.exts.zip t.strs).map fun (e, st) => (e - 1) * st).foldl (· + ·) 0
    [(false, t.base, t.base + span + fmtBits t.fmt / 8)]

/-- The range of bytes of a direct side, from its first element to its last (R325). -/
def tidRange (t : Tid) (lo hi : Nat) : List (Bool × Nat × Nat) :=
  if isPx t || isMx t then tidSpan t lo hi
  else [(false, min (elemAddr t lo) (elemAddr t hi), max (elemAddr t lo) (elemAddr t hi) + fmtBits t.fmt / 8)]

/-- The same for a side of a PX8 copy: from the start of its first group to the end of its last, as the directory names them now. A group of a
destination ends where the length of its source group puts it. A directory that cannot be read leaves the whole span (log 18). -/
def pxRange (s : State) (lid : Nat) (t lens : Tid) (lo hi llo lhi : Nat) : State × List (Bool × Nat × Nat) :=
  let dir (t : Tid) (e : Nat) (s : State) : State × Option Nat :=
    match vaReadN s lid (t.aux + e / 1024 * 8) 8 with
    | (s, .ok v) => (s, some v)
    | (s, .error _) => (s, none)
  let (s, a) := dir t lo s
  let (s, b) := dir t hi s
  let (s, c) := dir lens llo s
  let (s, d) := dir lens lhi s
  match a, b, c, d with
  | some a, some b, some c, some d =>
    let x := t.base + a % 2 ^ 48
    let y := t.base + b % 2 ^ 48
    (s, [(false, min x y, max (x + 2 * fld c 48 10) (y + 2 * fld d 48 10)), (false, t.aux + lo / 1024 * 8, t.aux + hi / 1024 * 8 + 8)])
  | _, _, _, _ => (s, tidSpan t lo hi)

/-- The first element that a side does not reach: behind the last row, or behind the last whole one when that reaches further. -/
def rowsEnd (k : JobKind) (w : Word) (str : Nat) : Nat :=
  let rows := jobRows k w
  max ((rows - 1) * str + jobRowLen k w (rows - 1)) (if rows ≥ 2 then (rows - 2) * str + jobRowLen k w (rows - 2) else 0)

/-- Elements of the destination of a collective: one member's, or all members' (R329). -/
def collCount (w : Word) : Nat := if cOp w = 1 then (cGsize w + 1) * cCount w else cCount w

/-- The footprints of a card: read and write ranges, half open (R325). Scratch ranges are as the card names them. -/
def footprints (s : State) (lid : Nat) (k : JobKind) (w : Word) (src dst itid : Option Tid) (ringLo ringHi : Nat) :
    State × List (Bool × Nat × Nat) × List (Bool × Nat × Nat) :=
  let bits := jobBits w src dst
  let rows := jobRows k w
  -- the last element of the last row
  let last (str : Nat) : Nat := (rows - 1) * str + jobRowLen k w (rows - 1) - 1
  let side (t : Option Tid) (off str : Nat) : List (Bool × Nat × Nat) :=
    match t with
    | some t => tidRange t off (off + last str)
    | none => [(true, off, off + jobBytes bits (last str + 1))]
  let whole (t : Option Tid) : List (Bool × Nat × Nat) := match t with | some t => tidSpan t 0 (tidCount t - 1) | none => []
  let ix := match itid with | some t => tidRange t (cIoff w) (cIoff w + cCount w - 1) | none => []
  match k with
  | .copy =>
    (match src, dst with
     | some a, some b =>
       if isPx a then
         let al := cSoff w + last (cSstr w)
         let bl := cDoff w + last (cDstr w)
         let (s, x) := pxRange s lid a a (cSoff w) al (cSoff w) al
         let (s, y) := pxRange s lid b a (cDoff w) bl (cSoff w) al
         (s, x, y)
       else (s, side src (cSoff w) (cSstr w), side dst (cDoff w) (cDstr w))
     | _, _ => (s, side src (cSoff w) (cSstr w), if cDring w then [(true, ringLo, ringHi)] else side dst (cDoff w) (cDstr w)))
  | .gath => (s, whole src ++ ix, [])
  | .coll =>
    let d := match dst with
      | some t => tidRange t (cDoff w) (cDoff w + collCount w - 1)
      | none => [(true, cDoff w, cDoff w + jobBytes bits (collCount w))]
    (s, side src (cSoff w) 0, d)
  | _ => (s, side src (cSoff w) (cSstr w) ++ ix, whole dst)

/-- Two ranges share a granule. -/
def overlaps (a b : Bool × Nat × Nat) : Bool := a.1 == b.1 && decide (a.2.1 / 16 < (b.2.2 + 15) / 16) && decide (b.2.1 / 16 < (a.2.2 + 15) / 16)

def anyOverlap (a b : List (Bool × Nat × Nat)) : Bool := a.any fun x => b.any (overlaps x)

/-- A job's ranges as they are compared: virtual ones as they are, scratch ones where they stand now (R276, R296). -/
def placedFoot (s : State) (lid : Nat) (who : Option Site) (plane : Bool) (foot : List (Bool × Nat × Nat)) : List (Bool × Nat × Nat) :=
  foot.filter (fun r => !r.1) ++ (footNow s lid who plane foot).map fun (t, lo, hi) => (true, scrKey t lo, scrKey t hi)

/-- An earlier job's footprint meets a later one's, one of them writing (R297). -/
def jobsMeet (s : State) (lid : Nat) (j q : Job) : Bool :=
  let f (j : Job) : List (Bool × Nat × Nat) → List (Bool × Nat × Nat) := placedFoot s lid j.who j.plane
  anyOverlap (f j j.wfoot) (f q q.rfoot) || anyOverlap (f j j.rfoot) (f q q.wfoot) || anyOverlap (f j j.wfoot) (f q q.wfoot)

/-- The last element that each side of a card reaches, `n` elements from its start, lies in its tensor or slice. A scratch side beyond the lease or
34 bits, or misaligned, has the causes of a scratch access (log 105). -/
def sideOk (s : State) (lid : Nat) (t : Option Tid) (off n bits : Nat) : Option Nat :=
  match t with
  | some t => if off + n > tidCount t then some cTensorRange else none
  | none =>
    let r := (leaseAt s lid).rcd
    if (off + jobBytes bits n - 1) / sliceBytes ≥ leaseW r * leaseH r ∨ off ≥ 2 ^ 34 then some cScratchRange
    else if off % max 1 (min 16 (bits / 8)) ≠ 0 then some cAlign else none

/-- What acceptance decides: the job, a wait, or a cause with the element or scratch address, TID and virtual address at fault (R324, R424). -/
inductive CardRes where
  | ok (j : Job)
  | wait
  | bad (cause : Nat) (at_ : Nat × Nat × Nat)

/-- Reads the TIDs that a card names. -/
def cardTids (s : State) (lid : Nat) : List (Option Nat) → State × Except (Nat × Nat × Nat × Nat) (List (Option Tid))
  | [] => (s, .ok [])
  | none :: r => match cardTids s lid r with
    | (s, .ok l) => (s, .ok (none :: l))
    | (s, .error c) => (s, .error c)
  | some t :: r => match readTid s lid t with
    | (s, .error c) => (s, .error (c, 0, t, (leaseAt s lid).rcd.tidb.toNat + 32 * t))
    | (s, .ok none) => (s, .error (cTidFormat, 0, t, 0))
    | (s, .ok (some x)) => match cardTids s lid r with
      | (s, .ok l) => (s, .ok (some x :: l))
      | (s, .error c) => (s, .error c)

/-- The cards of a group's members: those that wait for others, or all that a started collective has (R329). -/
def groupCards (l : Lease) (slots : List Nat) : List Word :=
  let js := slots.filterMap fun k => l.jobt.find k
  match js.find? fun j => !j.mates.isEmpty with
  | some j => j.mates.map (·.card)
  | none => js.map (·.card)

/-- The checks of Table 11.4 on a card, and the job that passes them (R324 to R329). -/
def checkCard (s : State) (lid : Nat) (m : CardMsg) : State × CardRes :=
  let w := m.card
  let k := m.kind
  let l := leaseAt s lid
  let ix := k != .copy && k != .coll
  let sT : Option Nat := if cSscr w then none else some (cStid w)
  let dT : Option Nat := if cDscr w || cDring w || k == .gath then none else some (cDtid w)
  let iT : Option Nat := if ix then some (cItid w) else none
  let acc (t : Nat) : BitVec 2 := (l.tids.get (tidKey m.graph m.node t) {}).acc
  let bound (t : Option Nat) (need : BitVec 2) : Bool := match t with | some t => m.who.isNone || acc t &&& need == need | none => true
  let none_ : Nat × Nat × Nat := (0, 0, 0)
  if cardBad k w then (s, .bad cJobCard none_)
  else if !bound sT 1 || !bound dT (if k = .scata then 3 else 2) || !bound iT 1 then (s, .bad cTidBinding none_)
  else match cardTids s lid [sT, dT, iT] with
    | (s, .error (c, a)) => (s, .bad c a)
    | (s, .ok [src, dst, itid]) =>
      let bits := jobBits w src dst
      let tile := match m.who with | some x => tileAt s x.tile | none => {}
      let ring := ringAt (planeOf tile m.plane) (cRing w)
      let ebytes := ringWords ring * 64
      let fmtBad :=
        (match src, dst with | some a, some b => a.fmt != b.fmt | _, _ => false) ||
        (match itid with | some t => t.fmt != 3 | none => false) ||
        (match k with
         | .scata => (match dst with
            | some t => if cOp w = 1 then t.fmt != 5 else decide (t.fmt > 4)
            | none => false)
         | .coll => cOp w == 2 && bits != 64
         | _ => false) ||
        (match src, dst with
         | some t, none => isPx t && k != .gath
         | none, some t => isPx t
         | some t, some _ => isPx t && k != .copy
         | none, none => false)
      let px := match src with | some t => isPx t | none => false
      let mx := match src, dst with | some t, _ => isMx t | none, some t => isMx t | none, none => false
      let unit := if px && k == .copy then 1024 else if px then 64 else if mx then 32 else 1
      let unitBad := decide (cSoff w % (if cSscr w then 1 else unit) ≠ 0) || decide (cCount w % (if ix then 1 else unit) ≠ 0) ||
        decide (cRowlen w % unit ≠ 0) || decide (cDoff w % (if cDscr w || cDring w then 1 else unit) ≠ 0) ||
        decide (cSstr w % unit ≠ 0) || decide (cDstr w % (if cDring w then 1 else unit) ≠ 0)
      -- the ring of the tile, named as at load, so that a move carries it with the rest of the card (R276)
      let p := planeOf tile m.plane
      let own : Nat := ((tiOf tile : Int) - dispY p.rdsp * (regX tile.lext + 1) - dispX p.rdsp).toNat
      let (s, rfoot, wfoot) := footprints s lid k w src dst itid (own * sliceBytes + ring.base.toNat) (own * sliceBytes + ring.base.toNat + ringBytes ring)
      let job : Job := { serial := l.jser, kind := k, card := w, who := m.who, plane := m.plane, graph := m.graph, node := m.node,
                         src := src, dst := dst, itid := itid, rfoot := rfoot, wfoot := wfoot }
      let l := leaseAt s lid
      let rangeBad : Option (Nat × Nat × Nat × Nat) :=
        match (if k = .gath then none else sideOk s lid src (cSoff w) (rowsEnd k w (cSstr w)) bits) with
        | some c => some (c, cSoff w, sT.getD 0, 0)
        | none => match (if ix || cDring w then none else sideOk s lid dst (cDoff w) (if k = .coll then collCount w else rowsEnd k w (cDstr w)) bits) with
          | some c => some (c, cDoff w, dT.getD 0, 0)
          | none => match itid with
            | some t => if cIoff w + cCount w > tidCount t then some (cTensorRange, cIoff w, cItid w, 0) else none
            | none => none
      let entsPer := (List.range (jobRows k w)).all fun r => decide (jobBytes bits (jobRowLen k w r) % ebytes = 0)
      let total := jobBytes bits (cCount w) / max 1 ebytes
      if fmtBad then (s, .bad cTidFormat none_)
      else if unitBad then (s, .bad cJobCard none_)
      else match rangeBad with
        | some (c, a) => (s, .bad c a)
        | none =>
          if k == .copy && anyOverlap (placedFoot s lid m.who m.plane rfoot) (placedFoot s lid m.who m.plane wfoot) then (s, .bad cJobCard none_)
          else if cDring w && (!ring.v || !entsPer) then (s, .bad cRingMisuse none_)
          else
            let group := match l.colls.find? fun g => g.1 == cGroup w with | some g => groupCards l g.2 | none => []
            if k == .coll && group.any (fun c => cOp c != cOp w || cCount c != cCount w || cGsize c != cGsize w || cRank c == cRank w) then
              (s, .bad cCollMismatch none_)
            else if l.jobt.length ≥ 256 then (s, .wait)
            else if cDring w && (decide (ring.cnt.toNat + ring.resv.length + total > ringEntries ring) || decide (ring.wpos ≠ 0) || entriesHeld tile ring total) then
              (s, .wait)
            else (s, .ok { job with edges := (l.jobt.filter fun (_, j) => jobsMeet s lid j job).map fun (_, j) => j.serial.toNat })
    | (s, .ok _) => (s, .bad cJobCard none_)

/-- The payload of a card's fault, Table 15.5: the memory causes name the place, the others the operand word. -/
def cardPayload (w : Word) (cause : Nat) (a : Nat × Nat × Nat) : BitVec 256 :=
  if 0x40 ≤ cause ∧ cause ≤ 0x56 then payload3 a.1 a.2.1 a.2.2 else payload3 (w.toNat % 2 ^ 64) 0 0

/-- Reserves the ring entries of a job (R258, R326). -/
def reserveEnts (s : State) (x : Site) (b : Bool) (n : Nat) : Nat → List Nat → State × List Nat
  | 0, l => (s, l)
  | k + 1, l =>
    let r := ringAt (planeOf (tileAt s x.tile) b) n
    let (e, r') := ringReserve r
    reserveEnts (wakeEntry (modRing s x.tile b n fun _ => r') x.tile r e) x b n k (l ++ [e])

/-- Enters an accepted job in JOBT with the next serial: the state and the job's handle (R324). -/
def enterJob (s : State) (lid : Nat) (j : Job) : State × Nat :=
  let slot := (leaseAt s lid).jobt.freeKey 256 0
  let bits := jobBits j.card j.src j.dst
  let (s, ents) := match j.who with
    | some x =>
      if cDring j.card then
        let r := ringAt (planeOf (tileAt s x.tile) j.plane) (cRing j.card)
        reserveEnts s x j.plane (cRing j.card) (jobBytes bits (cCount j.card) / (ringWords r * 64)) []
      else (s, [])
    | none => (s, [])
  let s := modLease s lid fun l =>
    let colls := if j.kind = .coll then
        (match l.colls.find? fun g => g.1 == cGroup j.card with
         | some _ => l.colls.map fun g => if g.1 == cGroup j.card then (g.1, g.2 ++ [slot]) else g
         | none => l.colls ++ [(cGroup j.card, [slot])])
      else l.colls
    { l with jobt := l.jobt.put slot { j with ents := ents }, jser := l.jser + 1, colls := colls }
  (countEvent s lid 18 1, j.serial.toNat * 256 + slot)

/-! ### Firings and acceptance -/

/-- A job firing sends its card to the checker and waits there for the answer (R324), a COPY for its landing entry too (R105). -/
def jobFire (k : JobKind) (s : State) (c : Ctx) : Res :=
  let l := leaseAt s c.lid
  if l.cards.any fun m => m.who == some c.x then .wait (if k == .copy && landFull s (noteReq c ⟨0, 0⟩) then .landing else .jobEdge)
  else .waitPost .jobEdge fun s => modLease s c.lid fun l =>
    { l with cards := l.cards ++ [⟨k, c.va 512, some c.x, c.b, c.p.graph, c.p.node⟩] }

/-- COPY, R326. -/
def execCopy (f : Fields) (s : State) : Host.Outcome State Fault Refusal := fire (.copy f) f (std (jobFire .copy)) s
/-- GATH, R327. -/
def execGath (f : Fields) (s : State) : Host.Outcome State Fault Refusal := fire (.gath f) f (std (jobFire .gath)) s
/-- SCAT, R328. -/
def execScat (f : Fields) (s : State) : Host.Outcome State Fault Refusal := fire (.scat f) f (std (jobFire .scat)) s
/-- SCATA, R328. -/
def execScata (f : Fields) (s : State) : Host.Outcome State Fault Refusal := fire (.scata f) f (std (jobFire .scata)) s
/-- COLL, R329. -/
def execColl (f : Fields) (s : State) : Host.Outcome State Fault Refusal := fire (.coll f) f (std (jobFire .coll)) s

/-- A card whose job makes requests with a consumer in the region is held at issue while a move drains its slab (R368, log 52). -/
def cardHeld (s : State) (m : CardMsg) : Bool :=
  (m.kind == .copy || m.kind == .gath) && match m.who with | some x => (tileAt s x.tile).hold | none => false

/-- JOB_ACCEPT, R324: the checker takes the first card, behind a due RSTAT.SET of the ring that it names (R253) and with a landing entry
reserved for a completion that may land (R105). An accepted card completes its element's firing with the handle on T0; a failing one
faults the element, whose firing is suppressed. A COPY node's card arms or faults the node (R396). -/
def execJobAccept (lid : Nat) (s : State) : Host.Outcome State Fault Refusal :=
  let l := leaseAt s lid
  match l.cards.find? fun m => !cardHeld s m with
  | none => .next s
  | some m =>
    let drop (s : State) : State := modLease s lid fun l => { l with cards := l.cards.erase m }
    match m.who with
    | none =>
      -- the dispatcher arms nothing now: it sends the card again later
      if !(match nodeAt l m.graph m.node with | some nd => nd.state == .ready | none => false) || !mayIssue l then .next (drop s)
      else (match checkCard s lid m with
       | (s, .wait) => .next s
       | (s, .bad c _) => let (d, s) := free (drop s); .next (graphFault s lid 4 m.graph m.node c d 0)
       | (s, .ok j) =>
         let (s, _) := enterJob (drop s) lid j
         .next (moveNode s lid m.graph m.node .armed))
    | some x =>
      let p := planeOf (tileAt s x.tile) m.plane
      match fieldsAt p x.eng x.slot with
      | none => .next (drop s)
      | some (i, f) => match ctxAt s x i f with
        | none => .next (drop s)
        | some c =>
          if c.b != m.plane then .next (drop s)
          else if !mayFire s c ∨ !hasDemands c.p c.x c.e c.outs ∨ (cDring m.card ∧ ringSetDue c.p (cRing m.card)) then .next s
          else if m.kind = .copy ∧ landFull s (noteReq c ⟨0, 0⟩) then .next (setWait s c (some .landing))
          else match checkCard s lid m with
            | (s, .wait) => .next s
            | (s, .bad cause a) =>
              let (d, s) := free (drop s)
              .next (trap (setWait s c none) lid cause d (placeOf c.t c.p x.eng x.slot) (cardPayload m.card cause a) c.e.fflg)
            | (s, .ok j) =>
              let (s, h) := enterJob (drop s) lid { j with desc := c.e.k0, epoch := c.p.mepoch, out10 := f.out == .two, sb := c.sb }
              let outs := c.outs.filter fun m => m.1 == 0
              .next (commit s c { emits := outs.map (fun (k, t) => (k, t, ⟨low h, c.sb⟩)), take := c.ops, reserve := c.outs.filter fun m => m.1 != 0 })

/-! ### Progress -/

/-- A side of a job is an MX tensor. -/
def mxSide (t : Option Tid) : Bool := match t with | some t => isMx t | none => false

/-- The destination may hold two elements in one byte: the job makes one access at a time, in ascending order of its elements (R351). -/
def jobAsc (j : Job) : Bool := match j.dst with | some t => selfOverlap t | none => false

/-- The strides of a tensor whose elements follow each other. -/
def denseStrs : Nat → List Nat → List Nat → Bool
  | w, e :: es, st :: ss => (e == 1 || st == w) && denseStrs (w * e) es ss
  | _, _, _ => true

/-- The elements that the destination holds in one granule do not follow each other, or some lie in two granules. -/
def jobSparse (j : Job) (bits : Nat) : Bool :=
  match j.dst with
  | some t => !isMx t && !isPx t && !selfOverlap t && (t.base % max 1 (bits / 8) != 0 || !denseStrs (bits / 8) t.exts t.strs)
  | none => false

/-- Elements that one access moves: one where elements combine or overlap, else what one granule of the destination holds, or three for 6-bit
elements. -/
def jobGroup (j : Job) (bits : Nat) : Nat :=
  if j.kind = .scata ∨ (j.kind = .coll ∧ cOp j.card = 2) ∨ jobAsc j then 1 else if bits = 6 then 64 else max 1 (128 / max 1 bits)

/-- Accesses to elements and to scales of a row, upper bounds whose surplus moves nothing. One access moves the scales of a granule, 16 blocks
of 32 (R91). Scales are moved where the destination has them. -/
def dataUnits (j : Job) (bits : Nat) : Nat :=
  if jobSparse j bits ∧ jobGroup j bits ≠ 1 then 2 * jobRowLen j.kind j.card 0 else jobRowLen j.kind j.card 0 / jobGroup j bits + 2
def scaleUnits (j : Job) : Nat := if mxSide j.dst then jobRowLen j.kind j.card 0 / 512 + 2 else 0
def jobUnits (j : Job) (bits : Nat) : Nat := dataUnits j bits + scaleUnits j

/-- Pieces of elements, or of the scales of their blocks, at one side of a job; scratch addresses are rebased with the plane of the element whose
card names them (R276). -/
def jobPieces (s : State) (who : Option Site) (plane : Bool) (t : Option Tid) (off bits e n : Nat) (scale : Bool) : List Piece :=
  match t with
  | some t => if scale then scalePieces t (off + e) n else elemPieces t (off + e) n
  | none =>
    if scale then []
    else (cutPieces .scr 6 (off + e * bits / 8) (jobBytes bits n) 0).map fun p => match who with
      | some x => { p with addr := rebaseAt (tileAt s x.tile) (planeOf (heldTile s x.tile) plane) p.addr }
      | none => p

/-- Pieces of a job's ring delivery at a byte of its stream. -/
def ringPieces (s : State) (j : Job) (x : Site) (byte n : Nat) : List Piece :=
  let t := heldTile s x.tile
  let r := ringAt (planeOf t j.plane) (cRing j.card)
  let eb := ringWords r * 64
  cutPieces .scr 6 (tiOf t * sliceBytes + ringOff r (j.ents.getD (byte / eb) 0) 0 + byte % eb) n 0

/-- A job as a member of its collective. -/
def mateOf (j : Job) : Mate := ⟨j.card, j.src, j.who, j.plane⟩

/-- The member of a job's collective with a rank. -/
def mateAt (j : Job) (rank : Nat) : Mate := (j.mates.find? fun m => cRank m.card == rank).getD (mateOf j)

/-- A read of a job: the member that it reads from, the place there, and the row, elements and rank that it stands for. `els`: the elements of a granule
of the destination, with its number, where they do not follow each other. -/
structure JobRead where
  mate : Mate
  stid : Nat
  off : Nat
  row : Nat
  lo : Nat
  n : Nat
  rank : Nat
  scale : Bool
  els : Option (List Nat × Nat) := none

/-- The element of its destination at which a row starts, for a side that is a tensor. -/
def rowDst (j : Job) (row rank : Nat) : Nat :=
  cDoff j.card + (match j.kind with | .scat | .scata => j.idx.get row 0 | _ => row) * cDstr j.card +
    (if j.kind = .coll ∧ cOp j.card = 1 then rank * cCount j.card else 0)

/-- Elements by which the destination of a row lies behind the start of a unit: of a granule, of three for 6-bit elements, or of 16 scales. -/
def rowSkew (j : Job) (bits row rank : Nat) (scale : Bool) : Nat :=
  let g := jobGroup j bits
  let off := rowDst j row rank
  if cDring j.card then 0
  else if bits = 6 ∧ !scale then (if j.dst.isSome then off else off - cDoff j.card) % g
  else match j.dst with
    | some t =>
      if scale then (t.aux + off / 32) % 16 * 32
      else if isMx t then (t.base * 8 / bits + off) % g
      else elemAddr t off % 16 * 8 / max 1 bits % g
    | none => (cDoff j.card + (off - cDoff j.card) * bits / 8) % 16 * 8 / max 1 bits % g

/-- The elements of a row, from element `e` of a tensor on, that have bytes in a granule. -/
def granuleEls (t : Tid) (e len g : Nat) : List Nat :=
  (List.range len).filter fun i => decide (elemAddr t (e + i) / 16 ≤ g) && decide (g ≤ (elemAddr t (e + i) + fmtBits t.fmt / 8 - 1) / 16)

/-- Unit `k` of a row whose granules hold scattered elements: the granule of the first byte of element `k / 2`, or of its last, with all its elements,
unless an earlier unit has it. -/
def sparseUnit (t : Tid) (e len k : Nat) : List Nat × Nat :=
  let a := elemAddr t (e + k / 2)
  let z := (a + fmtBits t.fmt / 8 - 1) / 16
  let g := if k % 2 = 0 then a / 16 else z
  let els := granuleEls t e len g
  (if els.head? == some (k / 2) && (k % 2 == 0 || z != a / 16) then els else [], g)

/-- Rows in the order in which a job takes them: by their indices where its destination's elements may overlap (R351). -/
def jobRow (j : Job) (n : Nat) : Nat :=
  if jobAsc j ∧ j.itid.isSome then
    (((List.range (cCount j.card)).foldl (fun l r => dimInsert (r, j.idx.get r 0) l) []).getD n (n, 0)).1
  else n

/-- Read number `q` of a job. The reads of a row follow the granules of its destination, so that one access writes each (R328). -/
def jobRead (j : Job) (q : Nat) : JobRead :=
  let bits := jobBits j.card j.src j.dst
  let u := jobUnits j bits
  let n := cGsize j.card + 1
  let (row, k, rank) : Nat × Nat × Nat :=
    if j.kind = .coll then (match cOp j.card with | 0 => (0, q, 0) | 1 => (0, q % u, q / u) | _ => (0, q / n, q % n)) else (jobRow j (q / u), q % u, 0)
  let scale := decide (dataUnits j bits ≤ k)
  let g := if scale then 512 else jobGroup j bits
  let k := if scale then k - dataUnits j bits else k
  let m := if j.kind = .coll then mateAt j rank else mateOf j
  let off := cSoff m.card + (if m.src.isSome then row * cSstr j.card else row * cSstr j.card * bits / 8)
  let skew := if g = 1 then 0 else rowSkew j bits row rank scale
  let lo := k * g - skew
  let hi := min ((k + 1) * g - skew) (jobRowLen j.kind j.card row)
  let els := match j.dst with
    | some t => if jobSparse j bits ∧ g ≠ 1 then some (sparseUnit t (rowDst j row rank) (jobRowLen j.kind j.card row) k) else none
    | none => none
  ⟨m, if m.src.isSome then cStid m.card else 0, off, row, lo, hi - lo, rank, scale, els⟩

/-- Reads that a job makes besides its indices. -/
def jobReads (j : Job) : Nat :=
  let u := jobUnits j (jobBits j.card j.src j.dst)
  match j.kind with
  | .coll => (match cOp j.card with | 0 => u | 1 => u * (cGsize j.card + 1) | _ => cCount j.card * (cGsize j.card + 1))
  | _ => jobRows j.kind j.card * u

/-- A request of a job. A COPY node's has no tile. -/
def jobReq (s : State) (lid : Nat) (j : Job) (slot : Nat) (op : ReqOp) (ps : List Piece) (m tid : Nat) : Req :=
  let tile := match j.who with | some x => x.tile | none => noTile
  { lease := lid, ten := (leaseAt s lid).rcd.tenid.toNat, who := ⟨tile, 9, s.nextReq⟩, plane := j.plane, epoch := j.epoch, op := op, rest := ps,
    all := ps, dest := .job slot m, tid := tid, job := some slot, ring := cDring j.card && m % 4 == 1, phase := if ps.all fun p => p.sp == .scr then .home else .issued, counted := false }

/-- Changes a job that is still in JOBT. -/
def modJob (s : State) (lid slot : Nat) (g : Job → Job) : State :=
  modLease s lid fun l => match l.jobt.find slot with
    | some j => { l with jobt := l.jobt.put slot (g j) }
    | none => l

/-- Issues a request of a job, if it moves anything. -/
def jobIssue (s : State) (lid slot : Nat) (j : Job) (op : ReqOp) (ps : List Piece) (m tid : Nat) : State :=
  if ps.isEmpty then s else issueReq (modJob s lid slot fun j => { j with left := j.left + 1 }) (jobReq s lid j slot op ps m tid)

/-- The atomic that an OP of SCATA names, with its signedness (R328). -/
def scataOp (op : Nat) : Nat × Bool :=
  match op with
  | 0 => (0xB0, false) | 1 => (0xB1, false) | 2 => (0xB2, true) | 3 => (0xB3, true) | 4 => (0xB2, false) | _ => (0xB3, false)

/-- The index that a row has when it could not be read or lies beyond the tensor: nothing moves for the row (R331). -/
def noIndex : Nat := 2 ^ 64

/-- TID of a job's destination. -/
def dstTid (j : Job) : Nat := if j.dst.isSome then cDtid j.card else 0

/-- The pieces of a write whose bytes have all been read: the granules of the others keep their old values (R331). -/
def readWhole (lost : Nat) (ps : List Piece) : List Piece := ps.filter fun p => fld lost p.pos p.len == 0

/-- The pieces of elements of a row at one side that do not follow each other. -/
def elsPieces (s : State) (who : Option Site) (plane : Bool) (t : Option Tid) (off bits : Nat) (els : List Nat) : List Piece :=
  let w := bits / 8
  let runs (f : Nat → Nat) : List (Nat × Nat × Nat) := joinRuns w (els.zipIdx.map fun (e, i) => (f e, i * w))
  match t with
  | some t => (runs fun e => elemAddr t (off + e)).flatMap fun (a, len, pos) => (cutPieces .va 5 a len pos).map fun p =>
      { p with element := off + els.getD (p.pos / w) 0 }
  | none => (runs fun e => off + e * w).flatMap fun (a, len, pos) => (cutPieces .scr 6 a len pos).map fun p => match who with
      | some x => { p with addr := rebaseAt (tileAt s x.tile) (planeOf (heldTile s x.tile) plane) p.addr }
      | none => p

/-- What a read of a job reads, and where its data go at an offset of the destination. -/
def readPieces (s : State) (j : Job) (r : JobRead) : List Piece :=
  let bits := jobBits j.card j.src j.dst
  match r.els with
  | some (els, _) => elsPieces s r.mate.who r.mate.plane r.mate.src r.off bits els
  | none => jobPieces s r.mate.who r.mate.plane r.mate.src r.off bits r.lo r.n r.scale
def writePieces (s : State) (j : Job) (r : JobRead) (off : Nat) : List Piece :=
  let bits := jobBits j.card j.src j.dst
  match r.els with
  | some (els, g) => (elsPieces s j.who j.plane j.dst off bits els).filter fun p => p.addr / 16 == g
  | none => jobPieces s j.who j.plane j.dst off bits r.lo r.n r.scale

/-- A write of a job at its destination. -/
def jobWrite (s : State) (lid slot : Nat) (j : Job) (q : Nat) (r : JobRead) (off v lost : Nat) : State :=
  jobIssue s lid slot j (.write (low v)) (readWhole lost (writePieces s j r off)) (4 * q + 1) (dstTid j)

/-- Counts bytes of a job's stream that have landed in its ring entries; an entry whose bytes are all there is complete in its turn (R258). -/
def landBytes (s : State) (lid slot : Nat) (j : Job) (x : Site) (byte n : Nat) : State :=
  let eb := ringWords (ringAt (planeOf (heldTile s x.tile) j.plane) (cRing j.card)) * 64
  (List.range ((byte + n - 1) / eb + 1 - byte / eb)).foldl (fun s i =>
    let e := byte / eb + i
    let here := min (byte + n) ((e + 1) * eb) - max byte (e * eb)
    let had := match (leaseAt s lid).jobt.find slot with | some j => j.landed.get e 0 | none => 0
    let s := modJob s lid slot fun j => { j with landed := j.landed.put e (had + here) }
    if had + here < eb then s else modHeldPlane s x.tile j.plane fun p => { p with rings := p.rings.put (cRing j.card) (ringLand (ringAt p (cRing j.card)) (j.ents.getD e 0)) }) s

/-- The byte of its ring stream at which a read of a job stands. -/
def ringByte (j : Job) (r : JobRead) : Nat := jobBytes (jobBits j.card j.src j.dst) (r.row * cRowlen j.card + r.lo)

/-- What follows a read of a job, of which `lost` bytes failed: the write of its data, one combination, or a partial sum. -/
def jobFollow (s : State) (lid slot : Nat) (j : Job) (m v lost : Nat) : State :=
  let bits := jobBits j.card j.src j.dst
  let q := m / 4
  let r := jobRead j q
  match j.kind with
  | .scata =>
    (match j.dst with
     | some t =>
       let e := cDoff j.card + j.idx.get r.row 0 * cDstr j.card
       let (opc, sg) := scataOp (cOp j.card)
       jobIssue s lid slot j (.atomic opc bits sg (v % 2 ^ bits) 0 0 0) (readWhole lost (elemPieces t (e + r.lo) r.n)) (4 * q + 1) (dstTid j)
     | none => s)
  | .scat => jobWrite s lid slot j q r (cDoff j.card + j.idx.get r.row 0 * cDstr j.card) v lost
  | .coll =>
    (match cOp j.card with
     | 2 =>
       -- a partial sum, with the number of its members above it and a mark when one is lost
       let n := cGsize j.card + 1
       let u := q / n
       let old := j.idx.get u 0
       let count := old / 2 ^ 64 % 2 ^ 8 + 1
       let gone := old / 2 ^ 72 + (if lost = 0 then 0 else 1)
       let sum := (old + v) % 2 ^ 64
       let s := modJob s lid slot fun j => { j with idx := j.idx.put u (sum + count * 2 ^ 64 + gone * 2 ^ 72) }
       if count = n ∧ gone = 0 then jobWrite s lid slot j q { r with row := 0, lo := u, n := 1, scale := false, els := none } (cDoff j.card) sum 0 else s
     | op =>
       let skip := if op = 1 then r.rank * cCount j.card else 0
       let skip := if j.dst.isSome then skip else skip * bits / 8
       jobWrite s lid slot j q r (cDoff j.card + skip) v lost)
  | _ =>
    if cDring j.card then
      (match j.who with
       | some x =>
         let ps := readWhole lost (ringPieces s j x (ringByte j r) (jobBytes bits r.n))
         if ps.isEmpty then landBytes s lid slot j x (ringByte j r) (jobBytes bits r.n)
         else jobIssue s lid slot j (.write (low v)) ps (4 * q + 1) 0
       | none => s)
    else
      let row := if j.dst.isSome then r.row * cDstr j.card else r.row * cDstr j.card * bits / 8
      jobWrite s lid slot j q r (cDoff j.card + row) v lost

/-! ### Copies between PX8 tensors -/

/-- A COPY between PX8 tensors. -/
def pxJob (j : Job) : Option (Tid × Tid) :=
  match j.kind, j.src, j.dst with
  | .copy, some a, some b => if isPx a then some (a, b) else none
  | _, _, _ => none

/-- Accesses of a directory group: its two directory entries, 64 bytes at a time of up to 1,023 units, and the new entry. -/
def pxUnits : Nat := 35

/-- Directory groups of a card, and the first element of group `g` at its source and its destination. -/
def pxGroups (j : Job) : Nat := (cCount j.card + 1023) / 1024
def pxAt (j : Job) (g off str : Nat) : Nat :=
  let per := max 1 (cRowlen j.card / 1024)
  off + g / per * str + g % per * 1024

/-- The bytes that unit `u` of a group moves, from byte `64 * (u - 2)` of the group on: how many. -/
def pxBytes (dir u : Nat) : Nat := min 64 (2 * fld dir 48 10 - 64 * (u - 2))

/-- The pieces of a group's unit at a tensor whose directory entry is `dir`; `glen` is the entry that gives the length. -/
def pxPieces (t : Tid) (e dir glen u : Nat) : List Piece :=
  if u = 0 ∨ u = 1 ∨ u = 34 then dirPieces t e
  else (cutPieces .va 5 (t.base + dir % 2 ^ 48 + 64 * (u - 2)) (pxBytes glen u) 0).map fun p => { p with element := e }

/-- The next access of a PX8 copy: the group's directory entries, then its bytes, which go bit for bit to the place that the destination's directory
names, and its length with them (R326) (log 18). Nothing moves for a group whose entries could not be read. -/
def pxIssue (s : State) (lid slot : Nat) (j : Job) (a b : Tid) (n : Nat) : State :=
  let g := n / pxUnits
  let u := n % pxUnits
  let ea := pxAt j g (cSoff j.card) (cSstr j.card)
  let eb := pxAt j g (cDoff j.card) (cDstr j.card)
  let go (s : State) : State := modJob s lid slot fun j => { j with next := j.next + 1 }
  if u = 0 then jobIssue (go s) lid slot j (.read false false 0) (pxPieces a ea 0 0 0) (4 * (2 * g) + 2) (cStid j.card)
  else if u = 1 then jobIssue (go s) lid slot j (.read false false 0) (pxPieces b eb 0 0 1) (4 * (2 * g + 1) + 2) (cDtid j.card)
  else match j.idx.find (2 * g), j.idx.find (2 * g + 1) with
    | some x, some y =>
      if x ≥ noIndex ∨ y ≥ noIndex then go s
      else if u = 34 then
        jobIssue (go s) lid slot j (.write (low (y % 2 ^ 48 + fld x 48 10 * 2 ^ 48))) (pxPieces b eb 0 0 34) (4 * n + 1) (cDtid j.card)
      else jobIssue (go s) lid slot j (.read false false 0) (pxPieces a ea x x u) (4 * n) (cStid j.card)
    | _, _ => s

/-- The write that follows a read of a group's bytes. -/
def pxFollow (s : State) (lid slot : Nat) (j : Job) (b : Tid) (m v lost : Nat) : State :=
  let n := m / 4
  let g := n / pxUnits
  let u := n % pxUnits
  let x := j.idx.get (2 * g) 0
  let y := j.idx.get (2 * g + 1) 0
  jobIssue s lid slot j (.write (low v)) (readWhole lost (pxPieces b (pxAt j g (cDoff j.card) (cDstr j.card)) y x u)) (4 * n + 1) (cDtid j.card)

/-! ### Steps of a job -/

/-- The next words of a GATH, paced by its element's RBKT (R327). Word `n` of the job. -/
def gathIssue (s : State) (lid slot : Nat) (j : Job) (n : Nat) : State :=
  match j.who, j.src with
  | some x, some t =>
    let per := (cRowlen j.card + epw t - 1) / epw t
    let half := if isMx t then 2 else 1
    let row := n / (per * half)
    let word := n % (per * half) / half
    let scale := decide (n % half = 1)
    let e := cSoff j.card + j.idx.get row 0 * cSstr j.card
    let k := min (epw t) (cRowlen j.card - word * epw t)
    let lastRow := decide (row + 1 ≥ cCount j.card)
    let rowEnd := decide (word + 1 ≥ per)
    let sb : BitVec 2 := if rowEnd then (if lastRow then 0b11 else 0b10) else 0
    let el := (elemIn (planeOf (tileAt s x.tile) j.plane) x.eng x.slot).getD {}
    let tile := tileAt s x.tile
    let dest := jobDest s j
    let step (s : State) (g : Job → Job) : State := modJob s lid slot g
    let base : Req := { lease := lid, ten := (leaseAt s lid).rcd.tenid.toNat, who := x, plane := j.plane, epoch := j.epoch, op := .wake, dest := dest,
                        sb := sb, phase := .issued, counted := false, opw := BitVec.ofNat 64 j.serial.toNat, tid := cStid j.card, job := some slot }
    if (j.idx.find row).isNone ∨ el.rbkt < rbktUnit ∨ landFull s base then s
    else
      let s := modElem s x j.plane fun e => { e with rbkt := e.rbkt - rbktUnit }
      let unread := decide (j.idx.get row 0 = noIndex)
      if unread ∨ e + cRowlen j.card > tidCount t then
        -- one POISON stands for the row (R327, R331)
        step (countPoison (issueReq s { base with op := .note (poisonTok 0x0A (tiOf tile)), phase := .done }) x.tile 1) fun j =>
          { j with next := cCount j.card + (row + 1) * per * half, err := some (j.err.getD (BitVec.ofNat 16 cTensorRange))
                   errAt := if j.err.isSome then j.errAt else (e, cStid j.card, 0) }
      else
        let at_ := e + word * epw t
        let (op, ps) : ReqOp × List Piece :=
          if scale then (.read false false 0, scalePieces t at_ k)
          else if isPx t then (.px8 (decide (t.fmt = 11)) t.base (at_ / 64) (pxBlocks t) false, dirPieces t at_)
          else (.read false false (if fmtBits t.fmt = 6 then k else 0), elemPieces t at_ k)
        step (issueReq s { base with op := op, rest := ps, all := ps }) fun j => { j with next := j.next + 1 }
  | _, _ => s

/-- Words that a GATH sends. -/
def gathWords (j : Job) : Nat :=
  match j.src with
  | some t => (cRowlen j.card + epw t - 1) / epw t * (if isMx t then 2 else 1) * cCount j.card
  | none => 0

/-- Indices that a job reads. -/
def jobIndices (j : Job) : Nat := if j.itid.isSome then cCount j.card else 0

/-- The accesses that a job issues in all. -/
def jobTotal (j : Job) : Nat :=
  match pxJob j with
  | some _ => pxGroups j * pxUnits
  | none => jobIndices j + (if j.kind = .gath then gathWords j else jobReads j)

/-- An index that a job has read, or a directory entry of a PX8 copy; none of them counts when it could not be read, nor an index whose row lies
beyond the destination (R327, R328). -/
def jobIndex (s : State) (lid slot : Nat) (j : Job) (row v lost : Nat) : State :=
  if lost ≠ 0 then modJob s lid slot fun j => { j with idx := j.idx.put row noIndex }
  else if (pxJob j).isSome then modJob s lid slot fun j => { j with idx := j.idx.put row (v % 2 ^ 64) }
  else
    let i := v % 2 ^ 32
    let e := cDoff j.card + i * cDstr j.card
    let past := j.kind != .gath && (match j.dst with | some t => decide (e + cRowlen j.card > tidCount t) | none => false)
    modJob s lid slot fun j => if past then
        { j with idx := j.idx.put row noIndex, err := some (j.err.getD (BitVec.ofNat 16 cTensorRange))
                 errAt := if j.err.isNone then (e, cDtid j.card, 0) else j.errAt }
      else { j with idx := j.idx.put row i }

/-- One read of a job that is neither an index nor a GATH's word, once the index of its row is known. -/
def jobReadIssue (s : State) (lid slot : Nat) (j : Job) (q : Nat) : State :=
  let r := jobRead j q
  let go (s : State) : State := modJob s lid slot fun j => { j with next := j.next + 1 }
  if j.itid.isSome && ((j.idx.find r.row).isNone || (jobAsc j && !(List.range (cCount j.card)).all fun r => (j.idx.find r).isSome)) then s
  else if j.itid.isSome && decide (j.idx.get r.row 0 = noIndex) then go s
  else if r.scale && r.mate.src.isNone then
    -- a scratch source has no scales: what the blocks get is not stated (log 18)
    let (v, s) := free s
    jobFollow (go s) lid slot j (4 * q) v 0
  else jobIssue (go s) lid slot j (.read false false 0) (readPieces s j r) (4 * q) r.stid

/-- One step of a job in progress: what follows a value that has been read or has landed, else the next read. -/
def jobStep (s : State) (lid slot : Nat) (j : Job) : State :=
  match j.buf with
  | (m, v) :: _ =>
    let s := modJob s lid slot fun j => { j with buf := j.buf.del m }
    (match m % 4, pxJob j, j.who with
     | 2, _, _ => jobIndex s lid slot j (m / 4) v.1 v.2
     | 1, _, some x =>
       let r := jobRead j (m / 4)
       landBytes s lid slot j x (ringByte j r) (jobBytes (jobBits j.card j.src j.dst) r.n)
     | _, some (_, b), _ => pxFollow s lid slot j b m v.1 v.2
     | _, none, _ => jobFollow s lid slot j m v.1 v.2)
  | [] =>
    if decide (j.next ≥ jobTotal j) || (jobAsc j && decide (j.left ≠ 0)) then s
    else match pxJob j, j.itid with
      | some (a, b), _ => pxIssue s lid slot j a b j.next
      | none, some t =>
        if j.next < jobIndices j then
          jobIssue (modJob s lid slot fun j => { j with next := j.next + 1 }) lid slot j (.read false false 0) (elemPieces t (cIoff j.card + j.next) 1)
            (4 * j.next + 2) (cItid j.card)
        else if j.kind = .gath then gathIssue s lid slot j (j.next - jobIndices j)
        else jobReadIssue s lid slot j (j.next - jobIndices j)
      | none, none => jobReadIssue s lid slot j j.next

/-- The edges of a job that are still open (R297). -/
def openEdges (l : Lease) (j : Job) : Nat := (j.edges.filter fun e => l.jobt.any fun (_, q) => q.serial.toNat == e).length

/-- JOB_START, R297: a held job starts once its edges are complete; a job in progress takes its next step (log 19). A COLL waits for
COLL_START. Held jobs stay held under a halt (R343). -/
def execJobStart (lid slot : Nat) (s : State) : Host.Outcome State Fault Refusal :=
  let l := leaseAt s lid
  match l.jobt.find slot with
  | none => .next s
  | some j =>
    if l.lstate = .removing then .next s
    else if j.running then .next (jobStep s lid slot j)
    else if openEdges l j = 0 ∧ j.kind ≠ .coll ∧ mayIssue l = true then .next (modJob s lid slot fun j => { j with running := true, since := s.nextReq })
    else .next s

/-- COLL_START, R329: a collective starts when every member has been accepted and none has an open edge. Each member then holds what it needs of
the others, which may complete before it. -/
def execCollStart (lid g : Nat) (s : State) : Host.Outcome State Fault Refusal :=
  let l := leaseAt s lid
  match l.colls.find? fun x => x.1 == g with
  | none => .next s
  | some (_, slots) =>
    let js := slots.filterMap fun k => l.jobt.find k
    let full := match js.head? with | some j => decide (js.length = cGsize j.card + 1) | none => false
    if full && mayIssue l && js.all (fun j => openEdges l j == 0 && !j.running) then
      .next (slots.foldl (fun s k => modJob s lid k fun j => { j with running := true, since := s.nextReq, mates := js.map mateOf }) s)
    else .next s

/-- Every access of a job is performed. -/
def jobDone (s : State) (lid : Nat) (j : Job) : Bool :=
  j.running && j.buf.isEmpty && decide (j.left = 0) && decide (j.next ≥ jobTotal j) &&
    !(j.kind == .gath && s.reqs.any fun (_, r) => r.lease == lid && some r.who == j.who && r.opw.toNat == j.serial.toNat && r.phase != .done)

/-- JOB_COMPLETE, R326, R328, R331: a job whose accesses are performed leaves JOBT, its ring entries complete (R258); its completion token
leaves, POISON when an access failed, and then its element faults. A COPY node becomes DONE or FAULTED (R396). -/
def execJobComplete (lid slot : Nat) (s : State) : Host.Outcome State Fault Refusal :=
  let l := leaseAt s lid
  match l.jobt.find slot with
  | none => .next s
  | some j =>
    if !jobDone s lid j || (j.who.isSome && stored l) then .next s
    else
      let leave (s : State) : State := countEvent (modLease s lid fun l =>
        let rest := l.jobt.del slot
        let colls := (l.colls.map fun g => if g.1 = cGroup j.card ∧ j.kind = .coll then (g.1, g.2.filter (· != slot)) else g).filter fun g => !g.2.isEmpty
        { l with jobt := rest, colls := colls }) lid 19 1
      match j.who with
      | none =>
        let s := leave s
        let armed : Bool := (match nodeAt l j.graph j.node with | some nd => nd.state == .armed | none => false)
        (match j.err with
         | none => .next (if armed then moveNode s lid j.graph j.node .done else s)
         | some c =>
           let (d, s) := memDetail s c.toNat j.errPa
           .next (trap s lid c.toNat d ⟨0xFFFF, 4, 0xFF, j.graph, j.node⟩ (payload3 j.errAt.1 j.errAt.2.1 j.errAt.2.2) 0))
      | some x =>
        let t := tileAt s x.tile
        let p := planeOf t j.plane
        let el := (elemIn p x.eng x.slot).getD {}
        let tok (sb : BitVec 2) : Token := if j.err.isSome then poisonTok 0x0A (tiOf t) else ⟨0, sb⟩
        let here := decide (p.graph = j.graph) && decide (p.node = j.node) && j.owed.isNone
        if decide (j.kind = .copy) && here && el.rbkt < rbktUnit then .next s
        else
          let s := leave s
          let note : Req := { lease := lid, ten := l.rcd.tenid.toNat, who := x, plane := j.plane, epoch := j.epoch, op := .note (tok 0b11), dest := jobDest s j,
                              phase := .done, counted := false, sb := 0b11 }
          let told := decide (j.kind = .copy) || (here && j.out10)
          let s :=
            if j.kind = .copy then issueReq (if here then modElem s x j.plane fun e => { e with rbkt := e.rbkt - rbktUnit } else s) note
            else if here && j.out10 then
              match fieldsAt p x.eng x.slot with
              | some (i, f) => ((targetsOf i f).filter fun m => m.1 == 1).foldl (fun s m => putTo s x j.plane m.1 m.2 (tok j.sb)) s
              | none => s
            else s
          match j.err with
          | none => .next (checkDone s lid j.graph j.node)
          | some c =>
            let s := if told then countPoison s x.tile 1 else s
            let (d, s) := memDetail (if here then markPoisoned s x.tile j.plane true else s) c.toNat j.errPa
            let place : Place := if here then placeOf t p x.eng x.slot else { placeOf t p x.eng x.slot with graph := j.graph, node := j.node }
            .next (trap s lid c.toNat d place (payload3 j.errAt.1 j.errAt.2.1 j.errAt.2.2) (if here then el.fflg else 0))

/-! ### WAITJ and JSTAT -/

/-- WAITJ, R330: answers once the job is complete. -/
def execWaitj (f : Fields) (s : State) : Host.Outcome State Fault Refusal :=
  fire (.waitj f) f (std fun _ c => if (jobOfHandle c.l c.aa).isSome then .wait .jobEdge else result c 0 false) s

/-- JSTAT, R330. -/
def execJstat (f : Fields) (s : State) : Host.Outcome State Fault Refusal :=
  fire (.jstat f) f (std fun _ c =>
    let (st, n) : Nat × Nat := match jobOfHandle c.l c.ab with
      | none => (0, 0)
      | some j => if j.running then (2, openEdges c.l j) else (1, openEdges c.l j)
    result c (ofLanes 64 [st, n]) false) s

end Sys2Proof.Machine
end

