-- ==== Sys2Proof/Machine/Drains.lean ====
section
/-! DEFINITION. Banks that drain (R339 to R341): what is outstanding against a bank, and the outcome of BANKP DISCARD and RELEASE. -/

namespace Sys2Proof.Machine

open Sys2Proof

/-- The first read of a job that has not been followed by a landed write. -/
def firstOpen (s : State) (lid slot : Nat) (j : Job) : Nat :=
  let out := s.reqs.filterMap fun (_, r) => match r.dest with | .job k m => if r.lease == lid && k == slot then some (m / 4) else none | _ => none
  (out ++ j.buf.map fun (m : Nat × Nat × Nat) => m.1 / 4).foldl min (j.next - jobIndices j)

/-- The scratch ranges into which a job has yet to deliver: from the first place of its first open read on. Entries of rings count as reserved. -/
def yetInto (s : State) (lid slot : Nat) (j : Job) : List (Bool × Nat × Nat) :=
  if cDring j.card || j.dst.isSome then []
  else
    let bits := jobBits j.card j.src j.dst
    let r := jobRead j (firstOpen s lid slot j)
    let lo := if cDstr j.card < cRowlen j.card then 0 else r.lo
    let row := if j.kind = .coll then r.rank * (if cOp j.card = 1 then cCount j.card else 0) else r.row * cDstr j.card
    if firstOpen s lid slot j ≥ jobReads j then []
    else j.wfoot.map fun (b, _, hi) => (b, cDoff j.card + (row + lo) * bits / 8, hi)

/-- A job that started before request `k` has yet to deliver into a bank of a tile. -/
def jobInto (s : State) (t k b : Nat) : Bool :=
  s.leases.any fun (lid, l) => l.jobt.any fun (n, j) =>
    j.running && decide (j.since ≤ k) && (footNow s lid j.who j.plane (yetInto s lid n j)).any fun (u, lo, hi) => u == t && decide (lo < hi) && inBank b lo hi

/-- A bank of a tile has an access queued from before key `k`, a ring entry reserved in it, or a job that has yet to deliver into it (R341). -/
def bankBusy (s : State) (t k b : Nat) : Bool :=
  let inRing (p : Plane) : Bool := p.rings.any fun (_, r) =>
    let n := (r.esz.toNat + 1) * 64
    r.v && r.resv.any fun e => inBank b (r.base.toNat + e.1 * n) (r.base.toNat + (e.1 + 1) * n)
  let x := tileAt s t
  inRing x.pa || inRing x.pb || jobInto s t k b ||
    s.reqs.any fun (j, r) => decide (j < k) && r.rest.any fun p => (pieceBanks s r.lease t p).contains b

/-- The answer of BANKP DISCARD or RELEASE: status and the banks that did not drain (R339). -/
def drainAnswer (s : State) (d : Drain) (st busy : Nat) : State :=
  match elemIn (planeOf (tileAt s d.who.tile) d.plane) d.who.eng d.who.slot with
  | none => s
  | some el => match instrAt el with
    | none => s
    | some i => match WellFormed.instrFields i with
      | none => s
      | some f => (targetsOf i f).foldl (fun s m => putTo s d.who d.plane m.1 m.2 ⟨ofLanes 64 [st, busy], d.sb⟩) s

/-- BANK_DRAINED, R340, R341. -/
def execBankDrained (t : Nat) (s : State) : Host.Outcome State Fault Refusal :=
  match (tileAt s t).drain with
  | none => .next s
  | some d =>
    let banks := bitsOf 16 d.mask.toNat
    if banks.any (bankBusy s t d.before) then .next s
    else
      let s := modTile s t fun x => { x with drain := none }
      let s :=
        if d.release then
          let x := tileAt s t
          modLease (ungrantBanks s t d.mask.toNat) x.tlease.toNat fun l =>
            { l with grants := l.grants.put (tiOf x) (l.grants.get (tiOf x) 0 &&& ~~~d.mask) }
        else modTile s t fun x => banks.foldl (fun x b =>
          if bankMode x b = .active ∨ bankMode x b = .retain then { setBank x b .discard with wakes := x.wakes.del b } else x) x
      .next (drainAnswer s d 0 0)

/-- BANK_DRAIN_TIMEOUT, R341: after 512 cycles nothing moves, and BANK_BUSY is reported. -/
def execBankDrainTimeout (t : Nat) (s : State) : Host.Outcome State Fault Refusal :=
  match (tileAt s t).drain with
  | none => .next s
  | some d =>
    if d.cycles < 512 then .next s
    else
      let busy := ((bitsOf 16 d.mask.toNat).filter (bankBusy s t d.before)).foldl (fun v b => v + 2 ^ b) 0
      .next (drainAnswer (modTile s t fun x => { x with drain := none }) d 1 busy)

end Sys2Proof.Machine
end

