-- ==== Sys2Proof/Machine/Queues.lean ====
section
/-! DEFINITION. Continuation records (R260 to R263, R399), group growth (R25, R264) and message queues (R265 to R269, R505). -/

namespace Sys2Proof.Machine

open Sys2Proof

/-! ### Continuation records -/

/-- The shard of a record, R261. -/
def shardOf (key : Nat) : Nat := Nat.xor (Nat.xor (key / 2 ^ 21) (key / 2 ^ 27)) (Nat.xor (key / 2 ^ 33) (key / 2 ^ 39)) % 64

/-- Records that a lease may hold in a shard, R261. -/
def cquota : Nat := 256

/-- The record as POSTC forms it: STAMP from the bind record, reserved fields zero (R260). -/
def stampRecord (w : Word) (ten lid : Nat) : Word := low (setFld (setFld w.toNat 0 32 0) 96 32 (ten % 64 * 128 + lid % 128))

/-- POSTC, R262. -/
def execPostc (f : Fields) (s : State) : Host.Outcome State Fault Refusal :=
  fire (.postc f) f (std fun s c =>
    let w := c.va 512
    let k := shardKey c.lid (shardOf (fld w.toNat 128 64))
    let post (s : State) : State :=
      let s := { s with shards := s.shards.put k (s.shards.get k [] ++ [stampRecord w c.l.rcd.tenid.toNat c.lid]) }
      requeue (countEvent s c.lid 16 1) c.lid (recGraph w) (recNode w)
    if (s.shards.get k []).length ≥ cquota then .wait .ringFull
    else .done { emits := zeroAll c 0, take := c.ops, post := post }) s

/-- CTOK counts a record of a node that is over (R263). -/
def countLate (s : State) (lid g n : Nat) : State := modLease s lid fun l => modNode l g n fun nd => { nd with ctok := nd.ctok + 1 }

/-- A region of a node that waits for its next record. -/
def idleRegion (l : Lease) (g n : Nat) : Option Region :=
  l.regions.find? fun r => r.graph == g && r.node == n && r.seg.isNone && r.next.isNone && !r.turnOver && !r.stopped && !r.held

/-- CONT_DEQUEUE, R263, R399: the sequencer takes the oldest record of a shard. It starts a segment, is counted when its node is over, or is
recorded with CONT_TARGET (log 32). -/
def execContDequeue (lid sh : Nat) (s : State) : Host.Outcome State Fault Refusal :=
  let l := leaseAt s lid
  let k := shardKey lid sh
  match s.shards.get k [] with
  | [] => .next s
  | w :: rest =>
    let g := recGraph w
    let n := recNode w
    let pop (s : State) : State := countEvent { s with shards := s.shards.put k rest } lid 17 1
    let refuse : State := graphFault (pop s) lid 4 g n cContTarget 0 (BitVec.ofNat 256 w.toNat)
    if !l.v || !mayIssue l then .next s
    else match nodeAt l g n with
      | none => .next refuse
      | some nd =>
        if nd.state == .cancelled || nd.state == .done || ((nd.state == .armed || nd.state == .running) && nd.closed) then
          .next (checkDone (countLate (pop s) lid g n) lid g n)
        else if !isCont nd || !isConfig nd then .next refuse
        else if !(nd.state == .armed || nd.state == .running) then .next s
        else if recG w ≥ nd.gcur.toNat then .next refuse
        else match idleRegion l g n with
          | none => .next s
          | some r => .next (issueSeg (pop s) lid r.rid (recG w) (some (low (w.toNat / 2 ^ 128))))

/-! ### Group growth -/

/-- The greatest group count that a launch header allows (R25): 2^P and 2^32 − 1. -/
def growLimit (h : BitVec 128) : Nat :=
  min (2 ^ ((List.range 7).foldl (fun a k => if 1 ≤ k ∧ k ≤ launchSched h then a + launchW h k else a) 0)) (2 ^ 32 - 1)

/-- GROW, R25, R264. A node that is not RUNNING accepts none, and the firing waits (log 31). -/
def execGrow (f : Fields) (s : State) : Host.Outcome State Fault Refusal :=
  fire (.grow f) f (std fun _ c =>
    let nd := c.node
    let d := c.aa % 2 ^ 32
    let v := nd.gcur.toNat + d
    if nd.closed then .trap cNodeClosed none (payload3 c.aa 0 0)
    else if nd.state != .running then .wait .other
    else if v > growLimit nd.launch then .trap cGrowRange none (payload3 c.aa 0 0)
    else .done { emits := emitAll c (low v), take := c.ops, post := grown c v }) s
where
  /-- GCNT takes its new value. -/
  grown (c : Ctx) (v : Nat) (s : State) : State :=
    requeue (modLease s c.lid fun l => modNode l c.p.graph c.p.node fun nd => { nd with gcur := BitVec.ofNat 32 v }) c.lid c.p.graph c.p.node

/-! ### Message queues -/

/-- GEN and QID of a handle, and whether its reserved bits are zero (R265). -/
def hGen (h : Nat) : Nat := h / 2 ^ 48 % 65536
def hQid (h : Nat) : Nat := h % 1024
def hClean (h : Nat) : Bool := decide (fld h 10 38 = 0)

/-- The queue that a handle names, unless the handle is stale (Table 9.4). -/
def queueOf (l : Lease) (h : Nat) : Option MsgQueue :=
  let q := l.queues.get (hQid h) {}
  if q.v && hClean h && decide (q.gen.toNat = hGen h) then some q else none

/-- Current GEN of the queue that a handle names. -/
def curGen (l : Lease) (h : Nat) : Nat := (l.queues.get (hQid h) {}).gen.toNat

/-- The module tile whose slice holds a queue's resident ring. -/
def queueTile (s : State) (lid : Nat) (q : MsgQueue) : Nat :=
  let rc := (leaseAt s lid).rcd
  tileOfTi rc.lorg rc.lext q.home

/-- Offset of the message at place `k` of a resident ring, counted from the oldest (R265, log 36). -/
def queueOff (q : MsgQueue) (k : Nat) : Nat := (q.base.toNat + 64 * ((q.head + k) % max 1 q.cap)) % sliceBytes

/-- The resident messages, oldest first. -/
def queueMsgs (s : State) (lid : Nat) (q : MsgQueue) : List Word :=
  (List.range q.count).map fun k => scrWord s (queueTile s lid q) (queueOff q k)

/-- A queue with one more message, and with its oldest message gone. -/
def queuePut (q : MsgQueue) : MsgQueue := { q with count := q.count + 1 }
def queuePop (q : MsgQueue) : MsgQueue := { q with head := (q.head + 1) % max 1 q.cap, count := q.count - 1 }

/-- What an access of the home tile to a word of its slice meets (R336, R341): nothing, a bank that is not granted, one that drains or one
that sleeps. -/
inductive BankCase where
  | ready | ungranted | draining | asleep
  deriving DecidableEq, Repr

def bankCase (x : Tile) (off : Nat) : BankCase :=
  if !granted x (bankOf off) then .ungranted
  else if (match x.drain with | some d => d.mask.getLsbD (bankOf off) | none => false) then .draining
  else if !bankReady x (bankOf off) then .asleep
  else .ready

/-- HEAD and TAIL of a memory-backed ring (R505). -/
def ringHeadTail (s : State) (lid va : Nat) : State × Except Nat (Nat × Nat) :=
  match vaReadN s lid va 16 with
  | (s, .ok v) => (s, .ok (v % 2 ^ 64, v / 2 ^ 64))
  | (s, .error c) => (s, .error c)

/-- Address of message m of a memory-backed ring. -/
def ringSlotVa (va cap m : Nat) : Nat := va + 64 + 64 * (m % max 1 cap)

/-- Appends to a swapped queue: false when the queue is full. -/
def swapPut (s : State) (lid va cap : Nat) (m : Word) : State × Except Nat Bool :=
  match ringHeadTail s lid va with
  | (s, .error c) => (s, .error c)
  | (s, .ok (h, t)) =>
    if t - h ≥ cap then (s, .ok false)
    else match vaWrite s lid (ringSlotVa va cap t) (toBytes 64 m.toNat) with
      | (s, .error c) => (s, .error c)
      | (s, .ok _) => match vaWrite s lid (va + 8) (toBytes 8 (t + 1)) with
        | (s, .error c) => (s, .error c)
        | (s, .ok _) => (s, .ok true)

/-- Removes the oldest message of a swapped queue: none when it is empty. -/
def swapGet (s : State) (lid va cap : Nat) : State × Except Nat (Option Word) :=
  match ringHeadTail s lid va with
  | (s, .error c) => (s, .error c)
  | (s, .ok (h, t)) =>
    if t ≤ h then (s, .ok none)
    else match vaReadN s lid (ringSlotVa va cap h) 64 with
      | (s, .error c) => (s, .error c)
      | (s, .ok m) => match vaWrite s lid va (toBytes 8 (h + 1)) with
        | (s, .error c) => (s, .error c)
        | (s, .ok _) => (s, .ok (some (low m)))

/-- Writes a queue of a lease. -/
def setQueue (lid qid : Nat) (q : MsgQueue) (s : State) : State := modLease s lid fun l => { l with queues := l.queues.put qid q }

/-- ENQ, R266: the message leaves for the queue's home tile. An element holds at most 16 outstanding requests (R312). -/
def execEnq (f : Fields) (s : State) : Host.Outcome State Fault Refusal :=
  fire (.enq f) f (std fun _ c =>
    let m : EnqMsg := { who := c.x, plane := c.b, handle := BitVec.ofNat 64 c.aa, msg := c.vb 512, nb := c.md 0 }
    let post (s : State) : State := modElem (modLease s c.lid fun l => { l with enqs := l.enqs ++ [m] }) c.x c.b fun e => { e with outs := e.outs + 1 }
    if c.e.outs.toNat ≥ 16 then .wait .other
    else .done { take := c.ops, reserve := c.outs, post := post }) s

/-- Gives back the demand that a firing reserved for a token that does not come. -/
def giveBack (s : State) (x : Site) (b : Bool) : State :=
  match fieldsAt (planeOf (tileAt s x.tile) b) x.eng x.slot with
  | none => s
  | some (i, f) => (targetsOf i f).foldl (fun s m => match m.2 with
      | .elem _ _ => modElem s x b fun el => setDk el m.1 (dkOf el m.1 + 1)
      | .port p c _ => modPlane s x.tile b fun pl =>
          let key := chKey p.toNat c.toNat
          if pl.reduce.contains key then pl else { pl with dcnt := pl.dcnt.put key (pl.dcnt.get key 0 + 1) }) s

/-- A token to every target of an element, whose demands were reserved. -/
def putTargets (s : State) (x : Site) (b : Bool) (tok : Token) : State :=
  match fieldsAt (planeOf (tileAt s x.tile) b) x.eng x.slot with
  | none => s
  | some (i, f) => (targetsOf i f).foldl (fun s m => putTo s x b m.1 m.2 tok) s

/-- What the home tile decides about a message (Table 9.4): nothing yet, that it finds the queue full and is sent again, an answer, or a fault without
one. -/
inductive EnqRes where
  | later (s : State)
  | again (s : State)
  | answer (s : State) (tok : Token)
  | refuse (s : State)

/-- The first message is decided by its queue, at the queue's home tile, which writes it into the slice. An access to the ring that fails is answered
as one to a swapped queue's area is (log 36). -/
def enqDecide (lid : Nat) (m : EnqMsg) (s : State) : EnqRes :=
  let l := leaseAt s lid
  let h := m.handle.toNat
  let x := tileAt s m.who.tile
  let p := planeOf x m.plane
  let ok (s : State) (v : Nat) : EnqRes := .answer s ⟨low v, 0⟩
  let fault (s : State) (cause : Nat) (pl : BitVec 256) : State :=
    let (d, s) := free s
    let fl := match elemIn p m.who.eng m.who.slot with | some e => e.fflg | none => 0
    trap s lid cause d (placeOf x p m.who.eng m.who.slot) pl fl
  let full (s : State) : EnqRes := if m.nb then ok (countEvent s lid 25 1) 2 else .again s
  match queueOf l h with
  | none => .refuse (fault (giveBack s m.who m.plane) cStaleHandle (payload3 h (curGen l h) 0))
  | some q =>
    let t := queueTile s lid q
    let off := queueOff q q.count
    let fails (s : State) (c at_ : Nat) : EnqRes :=
      .answer (fault (markPoisoned (countPoison s m.who.tile 1) m.who.tile m.plane true) c (payload3 h 0 at_)) (poisonTok 0x0A (tiOf x))
    if shut (tileAt s t) then .later s
    else match q.ring with
      | none =>
        if q.count ≥ q.cap then full s
        else match bankCase (tileAt s t) off with
          | .ungranted => fails s cBankUngranted off
          | .draining => .later s
          | .asleep => .later (wakeBank s t (bankOf off))
          | .ready => ok (touchBanks (putScrWord (setQueue lid (hQid h) (queuePut q) s) t off m.msg) t [off]) 0
      | some va =>
        (match swapPut s lid va.toNat q.cap m.msg with
         | (s, .error c) => fails s c va.toNat
         | (s, .ok true) => ok s 1
         | (s, .ok false) => full s)

/-- Two messages come from one element. -/
def sameSender (a b : EnqMsg) : Bool := a.who == b.who && a.plane == b.plane

/-- The messages that may be decided now, by their places: the oldest undecided one of its element for its queue (R267). -/
def enqHeads (l : List EnqMsg) : List (Nat × EnqMsg) :=
  (l.zipIdx.filter fun (m, i) => m.ans.isNone && !(l.take i).any fun k => k.ans.isNone && sameSender k m && hQid k.handle.toNat == hQid m.handle.toNat).map
    fun (m, i) => (i, m)

/-- A message is answered: its element has one request fewer. -/
def enqRetire (m : EnqMsg) (s : State) : State := modElem s m.who m.plane fun e => { e with outs := e.outs - 1 }

/-- Answers leave in the order of their element's messages. -/
def enqFlush (lid : Nat) : Nat → State → State
  | 0, s => s
  | n + 1, s =>
    let l := (leaseAt s lid).enqs
    match (l.zipIdx.filter fun (m, i) => m.ans.isSome && !(l.take i).any (sameSender m)).head? with
    | none => s
    | some (m, i) =>
      let s := modLease s lid fun l => { l with enqs := l.enqs.eraseIdx i }
      enqFlush lid n (match m.ans with | some tok => putTargets (enqRetire m s) m.who m.plane tok | none => s)

/-- Decides the first of some messages that can be: those that cannot yet are left. -/
def enqStep (lid : Nat) : List (Nat × EnqMsg) → State → State
  | [], s => s
  | (i, m) :: r, s =>
    let put (s : State) (g : EnqMsg → EnqMsg) : State := modLease s lid fun l => { l with enqs := modAt l.enqs i g }
    match enqDecide lid m s with
    | .later s => enqStep lid r s
    | .again s => enqStep lid r (put s fun m => { m with retry := true })
    | .answer s tok => put s fun m => { m with ans := some tok }
    | .refuse s => modLease (enqRetire m s) lid fun l => { l with enqs := l.enqs.eraseIdx i }

/-- ENQ_ARRIVAL, R265 to R267: a message is decided. Those of one element to one queue keep their order, and which sender's comes first is free; one that
finds its queue full is sent again while others go on. -/
def execEnqArrival (lid : Nat) (s : State) : Host.Outcome State Fault Refusal :=
  let l := leaseAt s lid
  if stored l then .next s
  else
    let hs := enqHeads l.enqs
    let k := if hs.length ≤ 1 then 0 else Config.pick (2 * s.fresh) % hs.length
    let s := if hs.length ≤ 1 then s else { s with fresh := s.fresh + 1 }
    .next (enqFlush lid l.enqs.length (enqStep lid (hs.drop k ++ hs.take k) s))

/-- The words of DEQ: the message on T0 and, under NB, its status on T1. -/
def deqEmits (c : Ctx) (w : Word) (st : Nat) : List (Nat × Target × Token) :=
  c.outs.map fun (k, t) => (k, t, if k = 0 then ⟨w, 0⟩ else ⟨low st, 0⟩)

/-- DEQ, R268. -/
def execDeq (f : Fields) (s : State) : Host.Outcome State Fault Refusal :=
  fire (.deq f) f (std fun s c =>
    let h := c.ab
    let nb := c.md 0
    let empty : Res := if nb then .done { emits := deqEmits c 0 3, take := c.ops } else .wait .ringEmpty
    match queueOf c.l h with
    | none => .trap cStaleHandle none (payload3 h (curGen c.l h) 0)
    | some q => match q.ring with
      | none =>
        let t := queueTile s c.lid q
        let off := queueOff q 0
        if q.count = 0 then empty
        else if shut (tileAt s t) then .wait .other
        else (match bankCase (tileAt s t) off with
          | .ungranted =>
            .done { emits := c.outs.map (fun (k, t) => (k, t, poisonTok 0x0A c.ti)), take := c.ops, nf := false, poison := 1, post := failed c cBankUngranted h off }
          | .draining => .wait .other
          | .asleep => .waitPost .wake fun s => wakeBank s t (bankOf off)
          | .ready => .done {
              emits := deqEmits c (scrWord s t off) 0, take := c.ops
              post := fun s => touchBanks (setQueue c.lid (hQid h) (queuePop q) s) t [off] })
      | some va =>
        (match swapGet s c.lid va.toNat q.cap with
         | (_, .error cause) =>
           .done { emits := c.outs.map (fun (k, t) => (k, t, poisonTok 0x0A c.ti)), take := c.ops, nf := false, poison := 1, post := failed c cause h va.toNat }
         | (_, .ok none) => empty
         | (_, .ok (some m)) => .done { emits := deqEmits c m 1, take := c.ops, post := fun s => (swapGet s c.lid va.toNat q.cap).1 })) s
where
  /-- An access to the area failed: the element faults with the cause (R505). -/
  failed (c : Ctx) (cause h va : Nat) (s : State) : State :=
    let (d, s) := free s
    trap s c.lid cause d (placeOf c.t c.p c.x.eng c.x.slot) (payload3 h 0 va) c.e.fflg

/-- QSTAT, R269. A count that the device cannot read from a swapped queue's area is a free value (log 22). For a handle that names no queue count and
capacity are 0 (log 105). -/
def execQstat (f : Fields) (s : State) : Host.Outcome State Fault Refusal :=
  fire (.qstat f) f (std fun s c =>
    let h := c.ab
    let q := c.l.queues.get (hQid h) {}
    let known := (queueOf c.l h).isSome
    let n := match q.ring with
      | none => q.count
      | some va => (match (ringHeadTail s c.lid va.toNat).2 with
        | .ok (a, b) => b - a
        | .error _ => Config.freeNat s.fresh)
    let st := if !known then 0 else if q.ring.isNone then 1 else 2
    let post (s : State) : State :=
      if known && q.ring.isSome then { (ringHeadTail s c.lid ((q.ring.getD 0).toNat)).1 with fresh := s.fresh + 1 } else s
    .done { emits := emitAll c (ofLanes 64 [st, if known then n else 0, if known then q.cap else 0, q.gen.toNat]), take := c.ops, post := post }) s

end Sys2Proof.Machine
end

