-- ==== Sys2Proof/Machine/Routes.lean ====
section
/-! DEFINITION. Routes (R36, R210, R216 to R218, R230, R376): where a token at an input channel of a tile goes, its rejection, and a SWITCH that
passes the head of its channel. -/

namespace Sys2Proof.Machine

open Sys2Proof

/-! ### Routes -/

/-- A route entry of a plane, R36. -/
def routeAt (p : Plane) (key : Nat) : Nat := (p.route.get key 0).toNat
def routeValid (v : Nat) : Bool := v.testBit 15
def routeDelivers (v : Nat) : Bool := v.testBit 14
/-- Key of the output channel of a forwarding route. -/
def routeOutKey (v : Nat) : Nat := v % 64

/-- The plane whose entry routes an input channel, R218: the new one behind a SWITCH, or when the old one has no valid route. -/
def applicable (x : Tile) (key : Nat) : Bool :=
  let act := activePlane x
  if !x.swf.getLsbD key && act.pst != .empty && routeValid (routeAt act key) then x.planeB else !x.planeB

/-- The queue in which a forwarded token waits at a reduction join (R219, log 15). -/
def fwdJoinKey (outKey inKey : Nat) : Nat := 200000 + outKey * 64 + inKey

/-! ### A token at an input channel -/

/-- A lease that a stamp names and that is live. -/
def liveLease (s : State) (stamp : Option Nat) : Option Nat :=
  match stamp with
  | some l => if (leaseAt s l).v then some l else none
  | none => none

/-- Rejects a token, R376: the stamped lease takes the record and the halt, PF0's log a stamp of no live lease, and a receiver of another
lease counts it. -/
def rejectToken (s : State) (t p c : Nat) (w : Wire) : State :=
  let x := tileAt s t
  let own := tileBound x
  let s := if own && w.stamp != some x.tlease.toNat then countIn s x.tlease.toNat 0x3002 1 else s
  match liveLease s w.stamp with
  | none => { s with pf0log := s.pf0log + 1 }
  | some l =>
    let ti := if own && x.tlease.toNat == l then tiOf x else 0xFFFF
    let (d, s) := free (countEvent s l 7 1)
    trap s l cFirewall d ⟨ti, 3, 0xFF, 0xFFFF, 0xFFFF⟩ (payload3 (w.tok.pay.toNat % 2 ^ 64) (w.tok.sb.toNat * 256 + p * 32 + c) 0) 0

/-- Puts a token into a plane at an input channel: into its LBUF, or on over its forwarding route, where a join may hold it (R216, R219). -/
def routeToken (s : State) (t : Nat) (b : Bool) (key : Nat) (tok : Token) : State :=
  let p := planeOf (tileAt s t) b
  let v := routeAt p key
  if routeDelivers v then modPlane s t b fun p => { p with lbuf := p.lbuf.put key (p.lbuf.get key [] ++ [tok]), late := p.late ++ [key] }
  else
    let o := routeOutKey v
    if p.reduce.contains o then
      let q := fwdJoinKey o key
      modPlane s t b fun p => { p with lbuf := p.lbuf.put q (p.lbuf.get q [] ++ [tok]) }
    else sendOut s t (o / 8) (o % 8) tok

/-- A token with a reserved control code becomes POISON of cause 0x03 (R210). -/
def cleanToken (s : State) (t : Nat) (tok : Token) : State × Token :=
  if isCtl tok && (codeOf tok == 0 || decide (codeOf tok > 7)) then (countPoison s t 1, poisonTok 3 (tiOf (tileAt s t))) else (s, tok)

/-- A token at an input channel of the configuration of a tile (R217, R218). False when no route takes it. A SWITCH that a forwarding entry
sends on has passed the channel's head; one that is delivered passes it when it stands at the head of its queue (`passSwitch`). -/
def arriveAt (s : State) (t key : Nat) (tok : Token) : State × Bool :=
  let x := tileAt s t
  let b := applicable x key
  let p := planeOf x b
  if p.pst == .empty || !routeValid (routeAt p key) then (s, false)
  else
    let s := if isSwitch tok && b == x.planeB && !routeDelivers (routeAt p key) then modTile s t fun x => { x with swf := x.swf ||| BitVec.ofNat 64 (2 ^ key) } else s
    (routeToken s t b key tok, true)

/-! ### A SWITCH at the head of its channel -/

/-- Hands tokens on to the plane that a channel now follows; one that has no route there is rejected (R217, R230). -/
def handOn (s : State) (t key : Nat) (toks : List Token) : State :=
  toks.foldl (fun s tok =>
    let (u, ok) := arriveAt s t key tok
    if ok then u else rejectToken s t (key / 8) (key % 8) ⟨t, key / 8, key % 8, tok, some (tileAt s t).tlease.toNat⟩) s

/-- SWITCH passes the head of an input channel (R218, R230, Table 8.6): SWF is set, and what stands behind the first `n` tokens of the channel
goes to the new plane. Replies (port 7) go to the plane of their request by R105. -/
def passSwitch (s : State) (t n key : Nat) : State :=
  let x := tileAt s t
  let p := activePlane x
  let u := p.px8.get key {}
  let q := p.lbuf.get key []
  if key ≥ 56 ∨ x.swf.getLsbD key then s
  else
    let m := n - u.out.length
    let s := modTile s t fun x => withPlane { x with swf := x.swf ||| BitVec.ofNat 64 (2 ^ key) } x.planeB
      { activePlane x with px8 := p.px8.put key { u with out := u.out.take n }, lbuf := p.lbuf.put key (q.take m) }
    handOn s t key (u.out.drop n ++ q.drop m)

/-- The channels of the active plane at whose head a SWITCH stands. -/
def switchHeads (x : Tile) : List Nat :=
  let p := activePlane x
  (List.range 56).filter fun k => !x.swf.getLsbD k && match chanFirst p k with | some t => isSwitch t | none => false

/-- One demand back over the link that enters a tile on an input channel, with its tag (R215). -/
def demandOver (s : State) (t key lid rid g n : Nat) : State :=
  let port := key / 8
  if port < 4 then
    match neighbour t port with
    | some u => { s with demands := s.demands ++ [⟨u, facing port, key % 8, lid, rid, g, n⟩] }
    | none => if (reachFor t port (key % 8)).isSome then { s with peerDemands := s.peerDemands ++ [⟨t, port, key % 8, lid, rid, g, n⟩] } else s
  else if port < 7 then { s with demands := s.demands ++ [⟨t, port, key % 8, lid, rid, g, n⟩] }
  else s

/-- One demand back from an input channel of a configuration: where a portal path ends there, in the path's channel and with its producer's
tag (R372). -/
def demandBack (s : State) (t key lid rid g n : Nat) : State :=
  match (tileAt s t).ptab.find? fun e => e.op == 7 && e.ip == key / 8 && e.oc == key % 8 with
  | some e => demandOver s t (chKey e.ip e.ic) lid e.src.1 e.src.2.1 e.src.2.2
  | none => demandOver s t key lid rid g n

/-- A source of a join: the key of its queue, and the input channel of a forwarding route. -/
def joinSources (p : Plane) (out : Nat) : List (Nat × Option Nat) :=
  ((p.route.filter fun (_, v) => routeValid v.toNat && !routeDelivers v.toNat && routeOutKey v.toNat == out).map fun (i, _) => (fwdJoinKey out i, some i)) ++
  ((elemsOf p).map fun (e, slot, el) => match instrAt el with
    | some i => (match WellFormed.instrFields i with
      | some f => (portsOf i f).filterMap fun (k, q, c) => if chKey q c == out then some (joinKey out e slot k, (none : Option Nat)) else none
      | none => [])
    | none => []).flatten

end Sys2Proof.Machine
end

