-- ==== Sys2Proof/Machine/Sha.lean ====
section
/-! DEFINITION. SHA-256, named by R32 and R59; its text is FIPS 180-4, which the spec does not repeat (log 13, PRESUMED).
The constants are computed from what defines them (roots of primes), and the eight working words are kept as the two
sequences they are: `p` the last four values of the first word, `q` those of the fifth, newest first. -/

namespace Sys2Proof.Machine

open Sys2Proof

/-- The largest `r` below `lo + 2 ^ n` with `r ^ k ≤ v`, found bit by bit from `lo`. -/
def rootFrom (k v : Nat) : Nat → Nat → Nat
  | 0, lo => lo
  | n + 1, lo => if v < (lo + 2 ^ n) ^ k then rootFrom k v n lo else rootFrom k v n (lo + 2 ^ n)

/-- The first 32 bits of the fractional part of the `k`th root of `v`. -/
def rootFraction (k v : Nat) : Nat := rootFrom k (v * 2 ^ (32 * k)) 37 0 % 2 ^ 32

/-- The primes below `n`. -/
def primesBelow (n : Nat) : List Nat := (List.range n).filter fun v => v > 1 && (List.range v).all fun d => d < 2 || v % d != 0

/-- The 64 round constants: cube roots. -/
def roundKeys : List Nat := (primesBelow 312).map (rootFraction 3)

/-- The starting digest, as the two sequences: square roots. -/
def digestStart : List Nat × List Nat := (((primesBelow 8).map (rootFraction 2)), ((primesBelow 20).drop 4).map (rootFraction 2))

/-- `x` turned right by `n` in 32 bits. -/
def turn (x n : Nat) : Nat := x * (2 ^ 32 + 1) / 2 ^ n % 2 ^ 32

/-- Three turns of one word, joined. -/
def mix (x a b c : Nat) : Nat := Nat.xor (turn x a) (Nat.xor (turn x b) (turn x c))

/-- Two turns and a shift of one word, joined. -/
def mixShift (x a b c : Nat) : Nat := Nat.xor (turn x a) (Nat.xor (turn x b) (x / 2 ^ c))

/-- The schedule word that follows the sixteen of `w`, oldest first. -/
def nextWord (w : List Nat) : Nat :=
  (w.getD 0 0 + mixShift (w.getD 1 0) 7 18 3 + w.getD 9 0 + mixShift (w.getD 14 0) 17 19 10) % 2 ^ 32

/-- The rounds of the constants `ks`, over a window of sixteen schedule words. -/
def rounds : List Nat → List Nat → List Nat × List Nat → List Nat × List Nat
  | [], _, st => st
  | k :: ks, w, (p, q) =>
    let e := q.getD 0 0
    let choice := Nat.xor (q.getD 2 0) (Nat.land e (Nat.xor (q.getD 1 0) (q.getD 2 0)))
    let most := Nat.lor (Nat.land (p.getD 0 0) (Nat.lor (p.getD 1 0) (p.getD 2 0))) (Nat.land (p.getD 1 0) (p.getD 2 0))
    let t := q.getD 3 0 + mix e 6 11 25 + choice + k + w.getD 0 0
    rounds ks (w.drop 1 ++ [nextWord w])
      (((t + mix (p.getD 0 0) 2 13 22 + most) % 2 ^ 32) :: p.take 3, ((p.getD 3 0 + t) % 2 ^ 32) :: q.take 3)

/-- `n` big-endian groups of `k` bytes. -/
def groups (k : Nat) : Nat → List Byte → List Nat
  | 0, _ => []
  | n + 1, m => ofBytes (m.take k).reverse :: groups k n (m.drop k)

/-- One 64-byte group into the digest. -/
def absorb (st : List Nat × List Nat) (m : List Byte) : List Nat × List Nat :=
  let r := rounds roundKeys (groups 4 16 m) st
  let add (x y : List Nat) := x.zipWith (fun a b => (a + b) % 2 ^ 32) y
  (add st.1 r.1, add st.2 r.2)

/-- `n` groups of 64 bytes, in turn. -/
def absorbAll : Nat → List Byte → List Nat × List Nat → List Nat × List Nat
  | 0, _, st => st
  | n + 1, m, st => absorbAll n (m.drop 64) (absorb st (m.take 64))

/-- The bytes that fill a message of `k` bytes up to `n` groups: a one bit, zeros, the length in bits. -/
def filler (k n : Nat) : List Byte := (toBytes (64 * n - k) (2 ^ (8 * (64 * n - k) - 1) + 8 * k)).reverse

/-- SHA-256 of a byte string. -/
def sha256 (m : List Byte) : BitVec 256 :=
  let n := m.length / 64 + (if m.length % 64 < 56 then 1 else 2)
  let st := absorbAll n (m ++ filler m.length n) digestStart
  BitVec.ofNat 256 ((st.1 ++ st.2).foldl (fun a x => a * 2 ^ 32 + x) 0)

/-- The digest as stored: byte 0 is the first byte of the digest. -/
def shaBytes (d : BitVec 256) : List Byte := (toBytes 32 d.toNat).reverse

end Sys2Proof.Machine
end

