-- ==== Sys2Proof/Machine/Save.lean ====
section
/-! DEFINITION. Images in the save area (R189, R191, R201, R410, R430 to R432): the directory, the sections of Table 15.6, and what resumption takes
from them. Where the spec names an item but not its place in a section or in the header, the place is the model's (log 7). -/

namespace Sys2Proof.Machine

open Sys2Proof

/-- Tokens of a plane of a tile. -/
def queued (p : Plane) : List Token :=
  (p.lbuf.map fun (_, q) => q).flatten ++ (p.px8.map fun (_, u) => u.out).flatten ++ ((elemsOf p).map fun (_, _, el) => el.qa ++ el.qb ++ el.qc ++ el.qp).flatten

/-- Code of a PST, Table 5.2. -/
def pstCode (p : Pst) : Nat := match p with | .empty => 0 | .loading => 1 | .complete => 2 | .active => 3

/-! ### Sections, Table 15.6 -/

/-- A section of an image (R431): its header and its items; one with no items is left out. -/
def section_ (id tile : Nat) (items : List (List Byte)) : List Byte :=
  if items.isEmpty then []
  else toBytes 2 id ++ toBytes 2 tile ++ toBytes 4 items.length ++ toBytes 8 (items.map (·.length)).sum ++ items.flatten

/-- Section 1: the registers of both planes, and SWF. -/
def statusItem (x : Tile) : List Byte :=
  let one (p : Plane) : List Byte := toBytes 2 p.cext.toNat ++ toBytes 2 p.rorg.toNat ++ toBytes 4 p.segg.toNat ++ toBytes 2 p.rdsp.toNat ++
    toBytes 1 p.mepoch.toNat ++ toBytes 1 p.rdva.toNat
  toBytes 1 (if x.planeB then 1 else 0) ++ toBytes 1 (pstCode x.pa.pst) ++ toBytes 1 (pstCode x.pb.pst) ++ [0] ++ one x.pa ++ one x.pb ++ toBytes 4 0 ++
    toBytes 8 x.swf.toNat ++ toBytes 24 0

/-- AWST as its bits, Table 14.1. -/
def awstBits (a : Awst) : Nat := (if a.v then 2 ^ 65 else 0) + (if a.kind then 2 ^ 64 else 0) + a.val.toNat

/-- RQP as 128 bits in a form of the model's. -/
def rqpBits (q : Rqp) : Nat := (if q.act then 2 ^ 127 else 0) + q.did % 2 ^ 47 * 2 ^ 80 + q.row % 2 ^ 40 * 2 ^ 40 + q.col % 2 ^ 40

/-- Section 2: an element. K0 and K1 stand in a freeze-scan only. -/
def elemItem (b scan : Bool) (e slot : Nat) (el : Elem) : List Byte :=
  toBytes 64 el.s.toNat ++ toBytes 8 (if scan then el.k0.toNat else 0) ++ toBytes 8 (if scan then el.k1.toNat else 0) ++ toBytes 4 el.nf.toNat ++
    toBytes 4 el.lfsr.toNat ++ toBytes 1 el.fflg.toNat ++ toBytes 1 (if b then 1 else 0) ++ toBytes 1 e ++ toBytes 1 slot ++ toBytes 9 (awstBits el.awst) ++
    toBytes 3 0 ++ toBytes 16 (rqpBits el.rqp) ++ toBytes 8 0

/-- Section 3: the tokens of a queue, with its kind (0 input channel, 1 operand, 2 join, 3 unpack stage) and its place. -/
def tokenItems (b : Bool) (kind eng key op : Nat) (q : List Token) : List (List Byte) :=
  q.zipIdx.map fun (t, i) => toBytes 64 t.pay.toNat ++ toBytes 1 t.sb.toNat ++ toBytes 1 (if b then 1 else 0) ++ toBytes 1 kind ++ toBytes 1 eng ++
    toBytes 4 key ++ toBytes 1 op ++ toBytes 2 i ++ toBytes 5 0

/-- Code of an operand in an image; 4 stands for S. -/
def opndCode (o : Option Opnd) : Nat := match o with | some .a => 0 | some .b => 1 | some .c => 2 | some .p => 3 | none => 4

/-- Section 3 of a plane. -/
def planeTokenItems (b : Bool) (p : Plane) : List (List Byte) :=
  (p.lbuf.flatMap fun (k, q) => tokenItems b (if k < 64 then 0 else 2) 0 k 0 q) ++ (p.px8.flatMap fun (k, u) => tokenItems b 3 0 k 0 u.out) ++
    (elemsOf p).flatMap fun (e, slot, el) => [Opnd.a, .b, .c, .p].flatMap fun o => tokenItems b 1 e slot (opndCode (some o)) (opqOf el o)

/-- Section 4 of a plane: the demands of output channels (0) and of kind-0 targets (1), and the buckets of reply links (2). -/
def demandItems (b : Bool) (p : Plane) : List (List Byte) :=
  let item (kind e slot k v : Nat) : List Byte := toBytes 1 kind ++ toBytes 1 (if b then 1 else 0) ++ toBytes 1 e ++ toBytes 1 slot ++ toBytes 2 k ++ toBytes 2 v
  (p.dcnt.map fun (k, v) => item 0 0 0 k v) ++ (elemsOf p).flatMap fun (e, slot, el) =>
    (match fieldsAt p e slot with
     | some (i, f) => (targetsOf i f).filterMap fun (k, t) => match t with | .elem _ _ => some (item 1 e slot k (dkOf el k)) | .port _ _ _ => none
     | none => []) ++ if el.rslots = 0 then [] else [item 2 e slot 0 el.rbkt.toNat]

/-- An accumulator set as its image: the header word and 256 row words (R189). -/
def setImage (a : AccSet) : List Byte :=
  toBytes 64 a.scnt.toNat ++ (List.range 1024).flatMap fun k => toBytes 16 (cellImage (a.cells.get k {}))

/-- A window register as its bits (R303). -/
def winBits (k : Nat) (w : Win) : Nat :=
  (if w.v then 2 ^ 143 else 0) + (if w.nofeed then 2 ^ 142 else 0) + k * 2 ^ 139 + w.tid.toNat * 2 ^ 127 + w.low.toNat * 2 ^ 87 +
    w.feed.toNat * 2 ^ 47 + w.stop.toNat * 2 ^ 7

/-- Rings and windows of a plane (Table 15.6). -/
def ringItems (p : Plane) : List (List Byte) :=
  ((List.range 8).map fun k => toBytes 16 (ringBits (p.rings.get k {}))) ++
    (List.range 8).map fun k => toBytes 32 (match p.wins.find k with | some w => winBits k w | none => 0)

/-- The route table of a plane, entry after entry (R36). -/
def routeImage (p : Plane) : List Byte := (List.range 64).flatMap fun k => toBytes 2 (p.route.get k 0).toNat

/-- RDO of a set, and the workspace of its open sort chunk as raw cell words (R201): of a key its value and number, of an output word its 64 bytes. -/
def workItems (set : Nat) (a : AccSet) : List (List Byte) :=
  (if a.rdo.kind = 0 then [] else [toBytes 1 set ++ toBytes 1 a.rdo.kind ++ toBytes 2 a.rdo.slot ++ toBytes 4 a.rdo.pos ++ toBytes 8 0]) ++
    (a.sort.keys.map fun (u, v) => toBytes 8 u ++ toBytes 8 v) ++
    a.sort.words.flatMap fun (_, t) => (List.range 4).map fun i => toBytes 16 (fld t.pay.toNat (128 * i) 128)

/-- Section 7: a landing entry, those that the switch holds behind them. -/
def landItem (x : Land) : List Byte :=
  toBytes 64 x.tok.pay.toNat ++ toBytes 1 x.tok.sb.toNat ++ toBytes 1 (if x.plane then 1 else 0) ++ toBytes 1 x.eng ++ toBytes 1 x.slot ++
    toBytes 1 (opndCode x.opnd) ++ toBytes 4 x.tag.toNat ++ toBytes 7 0

/-- The sections of a tile in an image, of the planes given: a snapshot's hold no tokens and no counters, a freeze-scan's the route tables too. -/
def tileSections (x : Tile) (ps : List (Bool × Plane)) (scan snap : Bool) : List Byte :=
  let t := tiOf x
  let counts := ([0, 1, 2].map fun e => toBytes 8 (x.actc.get e 0).toNat) ++
    [0, 1, 2].flatMap fun e => (List.range 16).map fun k => toBytes 8 (x.stc.get (stcKey e k) 0).toNat
  section_ 1 t [statusItem x] ++ section_ 2 t (ps.flatMap fun (b, p) => (elemsOf p).map fun (e, slot, el) => elemItem b scan e slot el) ++
    (if snap then [] else section_ 3 t (ps.flatMap fun m => planeTokenItems m.1 m.2) ++ section_ 4 t (ps.flatMap fun m => demandItems m.1 m.2)) ++
    section_ 5 t (ps.flatMap fun m => [setImage m.2.acc0, setImage m.2.acc1]) ++ section_ 6 t (ps.flatMap fun m => ringItems m.2) ++
    (if snap then [] else section_ 7 t (x.lands.map landItem)) ++
    (if scan then section_ 8 t ((ps.map fun m => routeImage m.2) ++ ps.flatMap fun (b, p) =>
        let n := if b then 2 else 0
        workItems n p.acc0 ++ workItems (n + 1) p.acc1) else []) ++
    if snap then [] else section_ 9 t counts

/-- The planes of a tile that an image holds. -/
def savedPlanes (x : Tile) : List (Bool × Plane) := [(false, x.pa), (true, x.pb)].filter fun m => m.2.pst != .empty

/-! ### Images -/

/-- What the header of an image holds (R431). -/
structure ImgHead where
  kind : Nat := 0
  graph : Nat := 0xFFFF
  node : Nat := 0xFFFF
  org : BitVec 14 := 0
  ext : BitVec 14 := 0
  snapid : Nat := 0
  nextPat : Nat := 0xFFFF
  hashes : List (BitVec 256) := []
  deriving DecidableEq, Repr

/-- The header of a region's image. -/
def regionHead (l : Lease) (rid : Nat) : ImgHead :=
  match regionAt l rid with
  | some r => { graph := r.graph, node := r.node, org := mkReg r.ox r.oy, ext := mkReg (r.w - 1) (r.h - 1), nextPat := r.nextPat.getD 0xFFFF }
  | none => {}

/-- The header of a lease's image. NEXTPAT is that of its first region whose copy pass is not complete (log 7). -/
def leaseHead (l : Lease) : ImgHead :=
  { kind := 1, org := l.rcd.lorg, ext := l.rcd.lext, nextPat := (l.regions.findSome? (·.nextPat)).getD 0xFFFF }

/-- The 64 bytes of a header, and the retained hashes behind it. -/
def headBytes (s : State) (lid : Nat) (h : ImgHead) : List Byte :=
  [0x53, 0x56, 0x31, 0x00] ++ toBytes 1 h.kind ++ toBytes 1 lid ++ toBytes 1 (leaseAt s lid).rcd.tenid.toNat ++ [0] ++ toBytes 2 h.graph ++ toBytes 2 h.node ++
    toBytes 2 h.org.toNat ++ toBytes 2 h.ext.toNat ++ toBytes 4 h.snapid ++ toBytes 2 h.nextPat ++ toBytes 2 h.hashes.length ++ toBytes 40 0 ++
    h.hashes.flatMap shaBytes

/-- The sections of some tiles. -/
def imageBody (xs : List Tile) (scan : Bool) : List Byte := xs.flatMap fun x => tileSections x (savedPlanes x) scan false

/-- Bytes of an image, in whole words of 64 (R430). -/
def imageBytes (h : ImgHead) (body : List Byte) : Nat := (64 + 32 * h.hashes.length + body.length + 63) / 64 * 64

/-- OFF, CAP and LEN of a save-directory entry, or none when it cannot be read. -/
def dirEntry (s : State) (lid i : Nat) : State × Option (Nat × Nat × Nat) :=
  match vaReadN s lid ((leaseAt s lid).rcd.saveb.toNat + 16 * i) 16 with
  | (s, .ok v) => (s, some (v % 2 ^ 64, fld v 64 32, 64 * fld v 96 24))
  | (s, .error _) => (s, none)

/-- A SAVE record (R430): outcome, directory index and bytes needed. -/
def saveRecord (s : State) (lid cause i n : Nat) : State :=
  let r : StopRec := { kind := 6, cause := causeWord cause 0, graph := 0xFFFF, node := 0xFFFF, tile := 0xFFFF,
                       eng := 5, slot := 0xFF, payload := payload3 cause i n }
  modLease s lid fun l => { l with recs := l.recs ++ [r] }

/-- Writes an image into a directory entry's place, then LEN and V with the kind. True when the image fits. -/
def writeImage (s : State) (lid i : Nat) (h : ImgHead) (body : List Byte) : State × Bool :=
  let n := imageBytes h body
  match dirEntry s lid i with
  | (s, none) => (startRemoval s lid cSaveFault, false)
  | (s, some (off, cap, _)) =>
    if n > cap then (saveRecord s lid cSaveFull i n, false)
    else
      let va := (leaseAt s lid).rcd.saveb.toNat
      let given := headBytes s lid h ++ body
      let s := gWrite s lid (va + off) (given ++ List.replicate (n - given.length) 0)
      (gWrite s lid (va + 16 * i + 12) (toBytes 3 (n / 64) ++ [BitVec.ofNat 8 (128 + h.kind)]), true)

/-! ### What resumption takes from an image (R191, R428) -/

/-- The sections behind a header: ID, TILE and bytes. -/
def readSections : Nat → List Byte → List (Nat × Nat × List Byte)
  | 0, _ => []
  | n + 1, b =>
    let k := ofBytes ((b.drop 8).take 8)
    if ofBytes (b.take 2) = 0 then [] else (ofBytes (b.take 2), ofBytes ((b.drop 2).take 2), (b.drop 16).take k) :: readSections n (b.drop (16 + k))

/-- The sections of the image in a directory entry; none when it cannot be read. -/
def imageSections (s : State) (lid i : Nat) : State × List (Nat × Nat × List Byte) :=
  match dirEntry s lid i with
  | (s, none) => (s, [])
  | (s, some (off, _, n)) => match vaRead s lid ((leaseAt s lid).rcd.saveb.toNat + off) n with
    | (s, .ok b) => (s, readSections b.length (b.drop (64 + 32 * ofBytes ((b.drop 22).take 2))))
    | (s, .error _) => (s, [])

/-- A set from its image: cells and SCNT. -/
def setOfImage (a : AccSet) (b : List Byte) : AccSet :=
  { a with
    scnt := BitVec.ofNat 6 (ofBytes (b.take 64))
    cells := (List.range 1024).foldl (fun t k => let c := cellOfImage (ofBytes ((b.drop (64 + 16 * k)).take 16)); if c = {} then t else t.put k c) [] }

/-- An element from its item. -/
def elemOfItem (scan : Bool) (el : Elem) (b : List Byte) : Elem :=
  let n (o k : Nat) : Nat := ofBytes ((b.drop o).take k)
  { el with
    s := low (n 0 64), nf := BitVec.ofNat 32 (n 80 4), lfsr := BitVec.ofNat 32 (n 84 4), fflg := BitVec.ofNat 5 (n 88 1)
    k0 := if scan then BitVec.ofNat 64 (n 64 8) else el.k0, k1 := if scan then BitVec.ofNat 64 (n 72 8) else el.k1
    awst := ⟨(n 92 9).testBit 65, (n 92 9).testBit 64, BitVec.ofNat 64 (n 92 9)⟩ }

/-- A ring descriptor from its bits; the entries reserved stay. -/
def ringOfItem (g : Ring) (v : Nat) : Ring :=
  { ringOfBits v with
    head := BitVec.ofNat 12 (fld v 72 12), tail := BitVec.ofNat 12 (fld v 60 12), cnt := BitVec.ofNat 13 (fld v 47 13), wpos := BitVec.ofNat 6 (fld v 41 6)
    rpos := BitVec.ofNat 6 (fld v 35 6), resv := g.resv }

/-- A window register from its bits. -/
def winOfItem (v : Nat) : Win :=
  ⟨v.testBit 143, v.testBit 142, BitVec.ofNat 12 (fld v 127 12), BitVec.ofNat 40 (fld v 87 40), BitVec.ofNat 40 (fld v 47 40), BitVec.ofNat 40 (fld v 7 40)⟩

/-- A plane takes its sets, elements, rings and windows, and after a freeze-scan its routes, from an image in which it is the `i`-th of its tile. -/
def planeOfImage (secs : Nat → List Byte) (scan : Bool) (i first : Nat) (p : Plane) : Plane :=
  let set (k : Nat) : List Byte := ((secs 5).drop ((2 * i + k) * 16448)).take 16448
  let items := secs 2
  let p := (elemsOf p).zipIdx.foldl (fun q m => modElemIn q m.1.1 m.1.2.1 fun el => elemOfItem scan el ((items.drop (128 * (first + m.2))).take 128)) p
  let ring (k : Nat) : Nat := ofBytes (((secs 6).drop (384 * i + 16 * k)).take 16)
  let win (k : Nat) : Nat := ofBytes (((secs 6).drop (384 * i + 128 + 32 * k)).take 32)
  { p with
    acc0 := setOfImage p.acc0 (set 0), acc1 := setOfImage p.acc1 (set 1)
    rings := p.rings.map fun m => (m.1, if m.1 < 8 then ringOfItem m.2 (ring m.1) else m.2)
    wins := p.wins.map fun m => (m.1, if m.1 < 8 then winOfItem (win m.1) else m.2)
    route := if scan then p.route.map fun m => (m.1, BitVec.ofNat 16 (ofBytes (((secs 8).drop (128 * i + 2 * m.1)).take 2))) else p.route }

/-- A saved tile takes from an image what its sections hold of it; what has no layout in the spec and is none of these items comes back as the value that
was saved (log 7). -/
def tileOfImage (secs : List (Nat × Nat × List Byte)) (scan : Bool) (x : Tile) : Tile :=
  let mine (id : Nat) : List Byte := match secs.find? fun m => m.1 == id && m.2.1 == tiOf x with | some m => m.2.2 | none => []
  let st := mine 1
  let inA := st.getD 1 0 != 0
  let inB := st.getD 2 0 != 0
  let nA := if inA then (elemsOf x.pa).length else 0
  if st.isEmpty then x
  else { x with
    pa := if inA && x.pa.pst != .empty then planeOfImage mine scan 0 0 x.pa else x.pa
    pb := if inB && x.pb.pst != .empty then planeOfImage mine scan (if inA then 1 else 0) nA x.pb else x.pb
    swf := BitVec.ofNat 64 (ofBytes ((st.drop 32).take 8))
    actc := x.actc.map fun m => (m.1, BitVec.ofNat 48 (ofBytes (((mine 9).drop (8 * m.1)).take 8)))
    stc := x.stc.map fun m => (m.1, BitVec.ofNat 48 (ofBytes (((mine 9).drop (24 + 8 * m.1)).take 8))) }

end Sys2Proof.Machine
end

