-- ==== Sys2Proof/Machine/Sync.lean ====
section
/-! DEFINITION. Segments, barriers, snapshots, AWAIT, node closure and trap instructions, and castling (R200, R228 to R234, R342, R406 to
R415, R458, R469, R503). -/

namespace Sys2Proof.Machine

open Sys2Proof

/-! ### FORK and RDV -/

/-- FORK, R406: when its region's segment is due on the tile, it sets what FORK sets, and emits SOT with g once its targets hold demands. -/
def execFork (f : Fields) (s : State) : Host.Outcome State Fault Refusal :=
  match ctxAt s s.cur (.fork f) f with
  | none => .fault (.noElement s.cur)
  | some c =>
    let can := tileRuns s c.x.tile && c.p.pst == .active && !suspended c.p c.x.eng && c.t.capture.isNone && !throttledAt s c.x.tile && c.e.due
    let begun := if c.p.inSeg then some s
      else (forkDue s c.x.tile).map fun (r, g) => forkEffects s c.x.tile g (c.l.conts.find r.rid)
    match (if can then begun else none) with
    -- a gate, a move or a stop holds FORK back (R368, R402, R427)
    | none => .next s
    | some s => match ctxAt s s.cur (.fork f) f with
      | none => .next s
      | some c =>
        if !hasDemands c.p c.x c.e c.outs then .next (setWait s c (some .noDemand))
        else .next (commit s c { emits := toAll c (ctl kSOT c.p.segg.toNat), nf := false })

/-- RDV, R407: tokens are consumed; 11, BUBBLE_END or EOT is its arrival. -/
def execRdv (f : Fields) (s : State) : Host.Outcome State Fault Refusal :=
  fire (.rdv f) f (fun _ c =>
    match c.ha with
    | none => .idle
    | some t =>
      if isSwitch t || isSnap t then .idle
      else
        let here := endsStream t || (isCtl t && codeOf t == kEOT)
        let bit : BitVec 3 := BitVec.ofNat 3 (2 ^ c.x.eng)
        let post (s : State) : State := if here then modPlane s c.x.tile c.b fun p => { p with rdva := p.rdva ||| bit } else s
        .done { take := c.ops, nf := isData t, post := post }) s

/-- An entry slot has yet to have the turn that FORK gives it (R406) (log 49). -/
def unturned (p : Plane) (m : Nat × Nat × Elem) : Bool := m.2.2.due && m.2.2.wait.isNone && m.2.2.nf == 0 && !suspended p m.1

/-- Every present block of a plane has arrived, nothing is outstanding and no reply waits for it (R407), and FORK has reached its entry slots. -/
def segmentReady (x : Tile) (b : Bool) : Bool :=
  let p := planeOf x b
  p.inSeg && ([0, 1, 2].all fun e => (blockOf p e).isNone || p.rdva.getLsbD e) &&
    ((elemsOf p).all fun m => m.2.2.outs == 0 && !unturned p m) && !x.lands.any (fun e => e.plane == b)

/-- The RDV of the stream block with its slot and fields. -/
def streamRdv (p : Plane) : Option (Nat × Instr × Fields) :=
  match p.blk0 with
  | none => none
  | some b => b.elems.zipIdx.findSome? fun (el, i) => match instrAt el with
    | some (.rdv f) => some (i, .rdv f, f)
    | _ => none

/-- The stream block's RDV emits the first EOT that it owes, once it holds the demands (R407) (log 49). -/
def emitEot (s : State) (t : Nat) : State :=
  let x := tileAt s t
  let b := x.planeB
  let p := activePlane x
  match p.eots, streamRdv p with
  | g :: r, some (i, ins, f) => match ctxAt s ⟨t, 0, i⟩ ins f with
    | none => s
    | some c =>
      if !hasDemands c.p c.x c.e c.outs then setWait s c (some .noDemand)
      else modPlane ((toAll c (ctl kEOT g.toNat)).foldl (fun s m => emitTo s c.x b m.1 m.2.1 m.2.2) (setWait s c none)) t b fun p => { p with eots := r }
  | _, _ => s

/-- SEGMENT_COMPLETE, R407, R458: the tile has completed its segment, and the stream block's RDV emits EOT. -/
def execSegmentComplete (t : Nat) (s : State) : Host.Outcome State Fault Refusal :=
  let x := tileAt s t
  let b := x.planeB
  let p := activePlane x
  if !tileRuns s t then .next s
  else if !segmentReady x b then .next (emitEot s t)
  else
    let s := modPlane s t b fun p => { p with inSeg := false, eots := if (streamRdv p).isSome then p.eots ++ [p.segg] else p.eots }
    .next (tileDone (emitEot s t) t p.poisoned)

/-! ### Castling -/

/-- Some link of the plane ends on ports 0 to 6 of the tile (R229). -/
def linkEnds (p : Plane) : Bool := p.route.any fun (k, v) => decide (k < 56) && v.getLsbD 15 && v.getLsbD 14

/-- SWITCH has been received on every input channel of ports 0 to 6 that the plane routes (R229). -/
def switchEverywhere (x : Tile) (p : Plane) : Bool := p.route.all fun (k, v) =>
  !(decide (k < 56) && v.getLsbD 15) || x.swf.getLsbD k || (p.lbuf.get k []).any isSwitch || (p.px8.get k {}).out.any isSwitch

/-- The region that a plane was loaded for has the next configuration armed on its shadow planes, and this tile has completed the node's last
segment (R229). -/
def lastDone (s : State) (t : Nat) : Bool :=
  let x := tileAt s t
  let p := activePlane x
  match regionAt (leaseAt s x.tlease.toNat) p.rid with
  | some r => r.next.isSome && !p.inSeg && (r.seg.isNone || !r.left.contains t)
  | none => false

/-- SWITCH_DELIVERY, R229, R460: elements with no token operand are switched, and each emits SWITCH to its targets behind its results. Nothing is
delivered while a pre-emption gates the lease (R463) (log 106). -/
def execSwitchDelivery (t : Nat) (s : State) : Host.Outcome State Fault Refusal :=
  let x := tileAt s t
  let p := activePlane x
  let shadow := (shadowPlane x).pst
  let due := tileRuns s t && (leaseAt s x.tlease.toNat).lstate != .gating && p.pst == .active && (shadow == .loading || shadow == .complete) &&
    (if linkEnds p then switchEverywhere x p else lastDone s t && p.eots.isEmpty)
  if !due then .next s
  else .next ((elemsOf p).foldl (fun s m =>
    let at_ : Site := ⟨t, m.1, m.2.1⟩
    match fieldsAt p m.1 m.2.1 with
    | none => s
    | some (i, f) =>
      if m.2.2.sw || !(WellFormed.tokenOperands i).isEmpty then s
      else match ctxAt s at_ i f with
        | none => s
        | some c =>
          if resultsBehind s c || answersBehind s c then s
          else if !hasDemands c.p c.x c.e (targetsOf i f) then setWait s c (some .noDemand)
          else (targetsOf i f).foldl (fun s g => emitTo s at_ x.planeB g.1 g.2 (ctl kSWITCH 0)) (modElem s at_ x.planeB fun el => { el with sw := true })) s)

/-- A request of another tile whose reply is addressed to this tile (R231). -/
def repliesTo (s : State) (t : Nat) (b : Bool) : Bool :=
  let lid := (tileAt s t).tlease.toNat
  let rc := (leaseAt s lid).rcd
  let here (d : Dest) (e : BitVec 4) : Bool := match d with
    | .desc T _ _ _ => tileOfTi rc.lorg rc.lext T == t && e == (planeOf (tileAt s t) b).mepoch
    | _ => false
  s.reqs.any (fun (_, r) => r.lease == lid && here r.dest r.epoch) || (leaseAt s lid).jobt.any fun (_, j) => here (jobDest s j) j.epoch

/-- The conditions of Table 8.5, with R105, R200 and R342. A segment that is complete counts first (R407), and none castles while a pre-emption
gates the lease (R463) (log 106). -/
def castleReady (s : State) (t : Nat) : Bool :=
  let x := tileAt s t
  let p := activePlane x
  let q := shadowPlane x
  p.pst == .active && q.pst == .complete && tileRuns s t && (leaseAt s x.tlease.toNat).lstate != .gating && p.eots.isEmpty && !segmentReady x x.planeB &&
    ((elemsOf p).all fun (_, _, el) => el.sw && !el.rqp.act && el.outs == 0) && (queued p).all isCtl &&
    !x.lands.any (fun e => e.plane == x.planeB) && !tileOutstanding s x.tlease.toNat t && !repliesTo s t x.planeB &&
    p.acc0.rdo.kind == 0 && p.acc1.rdo.kind == 0 && p.acc0.sort.words.isEmpty && p.acc1.sort.words.isEmpty &&
    !p.rings.any (fun (_, r) => !r.resv.isEmpty)

/-- The region that follows another on its tiles stands alone once no tile holds the old one's planes (R394). -/
def passRegion (s : State) (lid rid : Nat) : State :=
  let l := leaseAt s lid
  match regionAt l rid with
  | some r => (match r.pred with
    | some old =>
      if (regionTiles l.rcd r).any fun t => (tileAt s t).pa.rid == old && (tileAt s t).pa.pst != .empty || (tileAt s t).pb.rid == old && (tileAt s t).pb.pst != .empty then s
      else modLease s lid fun l => modRegion { l with regions := l.regions.filter fun q => q.rid != old } rid fun r => { r with pred := none }
    | none => s)
  | none => s

/-- A plane after castling: EMPTY, its registers undefined until the next load sets them (R130). The elements hold nothing that can be read. -/
def leftPlane (v : Nat) : Plane := { cext := BitVec.ofNat 14 v, rorg := BitVec.ofNat 14 (v / 2 ^ 14), segg := BitVec.ofNat 32 (v / 2 ^ 28) }

/-- Jobs of a tile's active plane whose completion goes to another tile keep its consumer, as they run on (R326, R342). -/
def oweJobs (s : State) (lid t : Nat) : State :=
  let b := (tileAt s t).planeB
  modLease s lid fun l => { l with jobt := l.jobt.map fun (k, j) =>
    let mine := match j.who with | some x => x.tile == t && j.plane == b | none => false
    (k, if mine && j.kind == .copy then
          (match jobDest s j with | .desc T e n o => { j with owed := some (T, e, n, o) } | _ => j)
        else j) }

/-- CASTLING, R130, R231: the planes change places in one step. What is left in the old plane's queues besides SWITCH is counted as discarded. -/
def execCastling (t : Nat) (s : State) : Host.Outcome State Fault Refusal :=
  let x := tileAt s t
  let lid := x.tlease.toNat
  let open_ := match regionAt (leaseAt s lid) (shadowPlane x).rid with | some r => !r.stopped | none => true
  if !castleReady s t || !open_ then .next s
  else
    let left := ((queued (activePlane x)).filter fun k => !isSwitch k).length
    let new := { shadowPlane x with pst := .active }
    let (v, s) := free s
    let s := oweJobs s lid t
    let x := withPlane (withPlane { x with planeB := !x.planeB, swf := 0 } (!x.planeB) new) x.planeB (leftPlane v)
    let s := countEvent (countEvent (setTile s t x) lid 11 1) lid 2 left
    .next (startTile (passRegion s lid new.rid) t)

/-! ### Barriers -/

/-- The count of BAR and SIG (R408). -/
def barN (c : Ctx) : Nat := c.ab % 65536

def setBar (x : Site) (b : Bool) (v : BarSt) (s : State) : State := modElem s x b fun el => { el with bar := v }

/-- BAR and SIG (R408): the release half of FENCE FULL at their scope, then the arrival's way to the barrier unit, then the answer (log 38). -/
def barAct (sig : Bool) (done : Ctx → List (Nat × Target × Token)) (s : State) (c : Ctx) : Res :=
  match c.e.bar with
  | .none =>
    let n := barN c
    if n = 0 then .trap cBarMismatch none (payload3 c.ab 0 0)
    else if !fenceReady s c.x.tile 2 then .wait .fence
    else
      let m : BarMsg := { who := c.x, plane := c.b, bid := c.f.imm.toNat % 256, n := BitVec.ofNat 16 n, sig := sig, opw := BitVec.ofNat 64 c.ab }
      .waitPost .fence fun s =>
        setBar c.x c.b .travelling (modLease (fenceMark s c.x.tile 2 (scopeOf c.f)) c.lid fun l => { l with barMsgs := l.barMsgs ++ [m] })
  | .released =>
    if sig then .done { emits := done c, take := c.ops, post := setBar c.x c.b .none }
    else if !mayPass s (readsDue s c.x.tile) then .wait .fence
    else .done {
      emits := done c, take := c.ops
      post := fun s => setBar c.x c.b .none (markReqs s (scopeOf c.f) (readsDue s c.x.tile)) }
  | _ => .wait .fence

/-- BAR, R408: released, it waits as the acquire half of FENCE FULL and emits its A token. -/
def execBar (f : Fields) (s : State) : Host.Outcome State Fault Refusal :=
  fire (.bar f) f (std (barAct false fun c => match c.ha with | some t => toAll c t | none => [])) s

/-- SIG, R408: with OUT 01 a zero word once its arrival is recorded. -/
def execSig (f : Fields) (s : State) : Host.Outcome State Fault Refusal :=
  fire (.sig f) f (std (barAct true fun c => zeroAll c c.sb)) s

/-- Every tile of a lease that is bound to it now. -/
def boundTiles (s : State) (lid : Nat) : List Nat := (s.tiles.filter fun (_, x) => tileBound x && x.tlease.toNat == lid).map (·.1)

/-- Closes a phase: every BAR that waits at the barrier is to be released (R408). -/
def closePhase (bid : Nat) (s : State) (lid : Nat) : State :=
  let hit (el : Elem) : Bool := el.bar == .waiting && match instrAt el with | some (.bar f) => f.imm.toNat % 256 == bid | _ => false
  let free (el : Elem) : Elem := if hit el then { el with bar := .closed } else el
  (boundTiles s lid).foldl (fun s t => modTile s t fun x => { x with pa := mapElems x.pa free, pb := mapElems x.pb free }) s

/-- BARRIER_ARRIVAL, R408: the barrier unit records the first arrival, closes the phase at N, or refuses an arrival of another N. -/
def execBarrierArrival (lid : Nat) (s : State) : Host.Outcome State Fault Refusal :=
  let l := leaseAt s lid
  match (if stored l then [] else l.barMsgs) with
  | [] => .next s
  | m :: rest =>
    let s := modLease s lid fun l => { l with barMsgs := rest }
    let bar := l.bars.get m.bid {}
    let bar := if bar.n = 0 then { bar with n := m.n, arr := 0 } else bar
    if bar.n ≠ m.n then
      let s := setBar m.who m.plane .none s
      let x := tileAt s m.who.tile
      let p := planeOf x m.plane
      let (d, s) := free s
      let fl := match elemIn p m.who.eng m.who.slot with | some e => e.fflg | none => 0
      .next (trap s lid cBarMismatch d (placeOf x p m.who.eng m.who.slot) (payload3 m.opw.toNat 0 0) fl)
    else
      let arr := bar.arr + 1
      let s := setBar m.who m.plane (if m.sig then .released else .waiting) s
      if arr = bar.n then
        .next (closePhase m.bid (modLease s lid fun l => { l with bars := l.bars.put m.bid { phase := !bar.phase, n := 0, arr := 0 } }) lid)
      else .next (modLease s lid fun l => { l with bars := l.bars.put m.bid { bar with arr := arr } })

/-- BAR_RELEASE, R408: the release of a closed phase reaches a waiting BAR. -/
def execBarRelease (x : Site) (s : State) : Host.Outcome State Fault Refusal :=
  let t := tileAt s x.tile
  match elemIn (activePlane t) x.eng x.slot with
  | some el => if el.bar = .closed then .next (setBar x t.planeB .released s) else .next s
  | none => .next s

/-! ### Snapshots -/

/-- A snapshot of an identifier is open. -/
def snapOpen (l : Lease) (id : BitVec 32) : Bool := l.snps.any fun (_, v) => v.id == id

/-- Opens a snapshot in the lowest free entry: the image that an earlier one left in its slot loses V (R410). -/
def openSnap (id : BitVec 32) (rid : Nat) (lid : Nat) (s : State) : State :=
  let l := leaseAt s lid
  let k := l.snps.freeKey 4 0
  let tiles := match regionAt l rid with | some r => regionTiles l.rcd r | none => []
  let s := clearV s lid (1 + k)
  modLease s lid fun l => { l with snps := l.snps.put k { id := id, rid := rid, left := tiles }, deadSnaps := l.deadSnaps.filter (· != id) }

/-- SNAP, R409. -/
def execSnap (f : Fields) (s : State) : Host.Outcome State Fault Refusal :=
  fire (.snap f) f (std fun _ c =>
    let id : BitVec 32 := BitVec.ofNat 32 c.ab
    let known := snapOpen c.l id
    let post (s : State) : State :=
      modElem (if known then s else openSnap id c.p.rid c.lid s) c.x c.b fun e => { e with snaps := e.snaps ++ [id] }
    if c.l.rcd.snpto = 0 ∨ id = 0 then .trap cSnapDisabled none (payload3 c.ab 0 0)
    else if !known && decide (c.l.snps.length ≥ 4) then .wait .other
    else .done { emits := c.outs.map (fun (k, t) => (k, t, ctl kSNAP id.toNat)), take := c.ops, nf := false, post := post }) s

/-- Every element with a token operand has passed the SNAP (R410). -/
def allPassed (p : Plane) (id : BitVec 32) : Bool :=
  (elemsOf p).all fun (_, _, el) => (match instrAt el with | some i => (WellFormed.tokenOperands i).isEmpty | none => true) || el.snaps.contains id

/-- Elements forget a snapshot that is over. -/
def forgetSnap (id : BitVec 32) (rid lid : Nat) (s : State) : State :=
  let l := leaseAt s lid
  let tiles := match regionAt l rid with | some r => regionTiles l.rcd r | none => []
  let g (el : Elem) : Elem := { el with snaps := el.snaps.filter (· != id) }
  tiles.foldl (fun s t => modTile s t fun x => { x with pa := mapElems x.pa g, pb := mapElems x.pb g }) s

/-- The notice of a snapshot (R410): its SNAPID, its slot and the status that it ended with in bytes 0 to 7, in a layout of the model's (log 7), and zero
in bytes 8 to 13 (R485). -/
def snapNotice (s : State) (lid i : Nat) (id : BitVec 32) (st : Nat) : State :=
  notifyLease s lid 0x85 (BitVec.ofNat 64 (id.toNat + i % 256 * 2 ^ 32 + st % 256 * 2 ^ 40)) 0

/-- A tile's capture of a snapshot is under way. -/
def captures (v : Snap) (t : Nat) : Bool := v.left.contains t && v.got.any fun m => m.1 == t

/-- SNAP_CAPTURE, R410: a tile captures its active plane as it stands, and fires nothing until the capture is written. -/
def execSnapCapture (t i : Nat) (s : State) : Host.Outcome State Fault Refusal :=
  let x := tileAt s t
  let p := activePlane x
  let lid := x.tlease.toNat
  match (leaseAt s lid).snps.find i with
  | none => .next s
  | some v =>
    if v.left.contains t && x.capture.isNone && tileRuns s t && p.pst == .active && p.rid == v.rid && allPassed p v.id then
      let secs := tileSections x [(x.planeB, p)] false true
      let v := { v with got := v.got.filter (fun m => m.1 != t) ++ [(t, secs)] }
      .next (modLease (modTile s t fun x => { x with capture := some (secs.length / 64) }) lid fun l => { l with snps := l.snps.put i v })
    else .next s

/-- SNAP_CAPTURE_WRITTEN, R410: a tile's capture is written; with the last one the snapshot is complete, or abandoned with SAVE_FULL. -/
def execSnapCaptureWritten (t i : Nat) (s : State) : Host.Outcome State Fault Refusal :=
  let x := tileAt s t
  let lid := x.tlease.toNat
  match (leaseAt s lid).snps.find i with
  | none => .next s
  | some v =>
    if x.capture ≠ some 0 ∨ !captures v t then .next s
    else
      let s := modTile s t fun x => { x with capture := none }
      let left := v.left.filter (· != t)
      if !left.isEmpty then .next (modLease s lid fun l => { l with snps := l.snps.put i { v with left := left } })
      else
        let body := v.got.flatMap (·.2)
        let (s, ok) := writeImage s lid (1 + i) { regionHead (leaseAt s lid) v.rid with kind := 2, snapid := v.id.toNat } body
        let s := modLease (forgetSnap v.id v.rid lid s) lid fun l =>
          { l with snps := l.snps.del i, imgs := if ok then l.imgs.put (1 + i) v.rid else l.imgs.del (1 + i) }
        .next (snapNotice (countEvent s lid (if ok then 14 else 15) 1) lid i v.id (if ok then 0 else 0x13))

/-- Removes a head from a queue of a plane. -/
def dropHead (s : State) (t : Nat) (b : Bool) (k : Nat) : State := modPlane s t b fun p => { p with lbuf := p.lbuf.put k ((p.lbuf.get k []).drop 1) }

/-- Removes the tokens of a kind from the heads of the queues of a plane, and returns their demands: of OPQs, of input channels and of join
queues (R215, R234). -/
def dropHeads (gone : Token → Bool) (t : Nat) (s : State) (b : Bool) : State :=
  let p := planeOf (tileAt s t) b
  let held (q : List Token) : Bool := match q with | h :: _ => gone h | [] => false
  let s := (elemsOf p).foldl (fun s (e, slot, el) => [Opnd.a, .b, .c, .p].foldl (fun s o =>
    if (feedOf p e slot o).isNone && held (opqOf el o) then takeOp s ⟨t, e, slot⟩ b o else s) s) s
  let s := p.lbuf.foldl (fun s (k, q) => if decide (k < 64) && held q then returnDemand (dropHead s t b k) t b k else s) s
  let s := p.px8.foldl (fun s (k, u) => if held u.out then modPlane s t b fun p => { p with px8 := p.px8.put k { u with out := u.out.drop 1 } } else s) s
  ((p.reduce.map (joinSources p)).flatten).foldl (fun s (k, i) =>
    if held (p.lbuf.get k []) then
      let s := dropHead s t b k
      match i with | some i => demandBack s t i (tileAt s t).tlease.toNat p.rid p.graph p.node | none => s
    else s) s

/-- Abandons an open snapshot with SNAP_TIMEOUT (R234): held SNAP tokens of it go, counted in EVC[27], and later ones go where they arrive.
The status has no code in Table 22.2: its byte in the notice is free (log 8). -/
def abandonSnap (lid i : Nat) (s : State) : State :=
  let l := leaseAt s lid
  match l.snps.find i with
  | none => s
  | some v =>
    let gone (k : Token) : Bool := isSnap k && fld k.pay.toNat 32 32 == v.id.toNat
    let (st, s) := free s
    let s := modLease s lid fun l => { l with snps := l.snps.del i, deadSnaps := l.deadSnaps ++ [v.id] }
    let forget (p : Plane) : Plane := mapElems p fun el => { el with snaps := el.snaps.filter (· != v.id) }
    let tiles := match regionAt l v.rid with | some r => regionTiles l.rcd r | none => []
    let s := tiles.foldl (fun s t =>
      let held (s : State) : Nat := (queued (tileAt s t).pa).length + (queued (tileAt s t).pb).length
      let u := [false, true].foldl (dropHeads gone t) s
      modTile (countEvent u lid 27 (held s - held u)) t fun x => { x with
        pa := forget x.pa, pb := forget x.pb, capture := if captures v t then none else x.capture }) s
    snapNotice (countEvent s lid 15 1) lid i v.id st

/-- SNAP_TIMEOUT, R234. -/
def execSnapTimeout (lid i : Nat) (s : State) : Host.Outcome State Fault Refusal :=
  let l := leaseAt s lid
  match l.snps.find i with
  | none => .next s
  | some v => if v.cycles ≥ 1024 * l.rcd.snpto.toNat then .next (abandonSnap lid i s) else .next s

/-! ### PLANE and AWAIT -/

/-- PLANE, R411. -/
def execPlane (f : Fields) (s : State) : Host.Outcome State Fault Refusal :=
  fire (.plane f) f (std fun _ c =>
    if c.md 0 && (shadowPlane c.t).pst != .complete then .wait .castling
    else result c (ofLanes 32 [if c.t.planeB then 1 else 0, pstCode c.t.pa.pst, pstCode c.t.pb.pst, c.p.mepoch.toNat, c.p.segg.toNat]) false) s

/-- What AWAIT emits on resumption: its A token. -/
def awaitEmits (c : Ctx) : List (Nat × Target × Token) := match c.ha with | some t => toAll c t | none => []

/-- AWAIT, R412: suspends its block, unless its condition holds already. -/
def execAwait (f : Fields) (s : State) : Host.Outcome State Fault Refusal :=
  fire (.await f) f (std fun _ c =>
    let a : Awst := { v := true, kind := c.md 0, val := BitVec.ofNat 64 c.ab }
    if awaitMet c.l { c.e with awst := a } then .done { emits := awaitEmits c, take := c.ops }
    else .waitPost (if c.md 0 then .other else .jobEdge) fun s => modElem s c.x c.b fun el => { el with awst := a }) s

/-- A LANDB entry of the block can be delivered. -/
def landbReady (x : Tile) (b : Bool) (e : Nat) : Bool :=
  match x.landb with
  | k :: _ => k.plane == b && k.eng == e && match k.opnd with
    | some op => (match feedOf (planeOf x b) e k.slot op with
      | some key => decide (((planeOf x b).lbuf.get key []).length < ((planeOf x b).salloc.get key 0).toNat)
      | none => true)
    | none => true
  | [] => false

/-- AWAIT_RESUME, R412, R469: LANDB has delivered; the block resumes and AWAIT emits its A token. -/
def execAwaitResume (x : Site) (s : State) : Host.Outcome State Fault Refusal :=
  let t := tileAt s x.tile
  let p := activePlane t
  match elemIn p x.eng x.slot, fieldsAt p x.eng x.slot with
  | some el, some (i, f) =>
    if !(el.awst.v && awaitMet (leaseAt s t.tlease.toNat) el && tileRuns s x.tile && p.inSeg) || landbReady t t.planeB x.eng then .next s
    else match ctxAt s x i f with
      | none => .next s
      | some c =>
        if !hasDemands c.p c.x c.e c.outs then .next (setWait s c (some .noDemand))
        else .next (commit (modElem s x t.planeB fun el => { el with awst := {} }) c { emits := awaitEmits c, take := c.ops })
  | _, _ => .next s

/-! ### NDONE and NFAIL -/

/-- Closes a node at the segments issued (R413). -/
def closeNode (lid g n : Nat) (fail : Option (BitVec 16)) (s : State) : State :=
  let s := modLease s lid fun l => modNode l g n fun nd =>
    { nd with gcur := nd.giss, closed := true, nfail := match nd.nfail with | some d => some d | none => fail }
  checkDone (requeue s lid g n) lid g n

/-- NDONE, R413. -/
def execNdone (f : Fields) (s : State) : Host.Outcome State Fault Refusal :=
  fire (.ndone f) f (std fun _ c =>
    .done { emits := emitAll c (low c.node.giss.toNat), take := c.ops, post := closeNode c.lid c.p.graph c.p.node none }) s

/-- NFAIL, R413. -/
def execNfail (f : Fields) (s : State) : Host.Outcome State Fault Refusal :=
  fire (.nfail f) f (std fun _ c =>
    .done { emits := [], take := c.ops, post := closeNode c.lid c.p.graph c.p.node (some (BitVec.ofNat 16 c.ab)) }) s

/-! ### Trap instructions -/

/-- The firing of a trap instruction: its A token is consumed, and the trap taken with A and IMM16 (R414, Table 14.7) (log 34). -/
def trapEff (cause : Nat) (hold : Bool) (c : Ctx) : Eff :=
  let pl := payload3 (c.va 512).toNat c.f.imm.toNat 0
  let tok : Token := match c.ha with | some t => t | none => ⟨c.va 512, 0⟩
  let post (s : State) : State :=
    let s := trap s c.lid cause c.f.imm.toNat (placeOf c.t c.p c.x.eng c.x.slot) pl c.e.fflg
    if hold then modLease s c.lid fun l => { l with brk := l.brk ++ [(c.x, c.b, tok)], broken := true } else s
  { take := c.ops, reserve := if hold then c.outs else [], post := post }

/-- TRAP, R414. -/
def execTrap (f : Fields) (s : State) : Host.Outcome State Fault Refusal := fire (.trap f) f (stdQuiet fun _ c => .done (trapEff cTrap false c)) s

/-- BRK, R414: on CONTINUE its A token goes to T0. -/
def execBrk (f : Fields) (s : State) : Host.Outcome State Fault Refusal := fire (.brk f) f (std fun _ c => .done (trapEff cBreak true c)) s

/-- ASSERT, R414: traps when bit 0 of lane 0 of A is 0; otherwise A goes on unchanged. -/
def execAsrt (f : Fields) (s : State) : Host.Outcome State Fault Refusal :=
  fire (.asrt f) f (stdQuiet fun _ c =>
    if (c.va 512).getLsbD 0 then .done { emits := c.outs.map (fun (k, t) => (k, t, ⟨c.va 512, c.sb⟩)), take := c.ops }
    else .done (trapEff cAssert false c)) s

/-- HALT, R414: the policy HALT follows whatever POLICY holds. -/
def execHalt (f : Fields) (s : State) : Host.Outcome State Fault Refusal := fire (.halt f) f (stdQuiet fun _ c => .done (trapEff cHalt false c)) s

/-- FMASK of a die (log 5). -/
def fmaskOf (s : State) (d : Nat) : BitVec 32 := (s.fmask.get d 0).setWidth 32

/-- RDID, R415. -/
def execRdid (f : Fields) (s : State) : Host.Outcome State Fault Refusal :=
  fire (.rdid f) f (std fun s c =>
    let die := Config.dieOf c.x.tile
    result c (ofLanes 32 [c.t.tten.toNat, c.lid, c.p.graph, c.p.node, die, (fmaskOf s die).toNat, if c.t.planeB then 1 else 0, c.x.eng, c.x.slot]) false) s

end Sys2Proof.Machine
end

