-- ==== Sys2Proof/Machine/Counters.lean ====
section
/-! DEFINITION. Counting by engine and cause, counters and thresholds (R440 to R452). -/

namespace Sys2Proof.Machine

open Sys2Proof

/-- The link into a port of a tile crosses a seam (R10). -/
def seamPort (t p : Nat) : Bool := match neighbour t p with | some u => Config.dieOf u != Config.dieOf t | none => false

/-- The channel on which tokens of an input channel of a tile reach its switch: behind the end of a portal path the path's own (R372). -/
def wireKey (s : State) (t key : Nat) : Nat :=
  match (tileAt s t).ptab.find? fun e => e.op == 7 && e.ip == key / 8 && e.oc == key % 8 with
  | some e => chKey e.ip e.ic
  | none => key

/-- The hop before: the input at the neighbouring tile from which tokens go on to an input of this one, if a route or a portal entry passes them there. -/
def hopBack (s : State) (rid t key : Nat) : Option (Nat × Nat) :=
  match (if key / 8 < 4 then neighbour t (key / 8) else none) with
  | none => none
  | some u =>
    let x := tileAt s u
    let out := chKey (facing (key / 8)) (key % 8)
    match x.ptab.find? fun e => e.ip != 7 && chKey e.op e.oc == out with
    | some e => some (u, chKey e.ip e.ic)
    | none =>
      let p := if x.pa.rid == rid && x.pa.pst != .empty then x.pa else x.pb
      (p.route.find? fun (_, v) => routeValid v.toNat && !routeDelivers v.toNat && routeOutKey v.toNat == out).map fun (i, _) => (u, i)

/-- A token is in flight across a seam on the way to an input (R441). -/
def tokenOnSeam (s : State) (rid : Nat) : Nat → Nat → Nat → Bool
  | 0, _, _ => false
  | n + 1, t, key =>
    (seamPort t (key / 8) && s.wires.any fun w => w.tile == t && w.port == key / 8 && w.ch == key % 8) || match hopBack s rid t key with
      | some (u, k) => tokenOnSeam s rid n u k
      | none => false

/-- Tiles that a link passes at most, R9. -/
def linkTiles : Nat := Config.gridW + Config.gridH

/-- A head that an element lacks is in flight across a seam (R441). -/
def headOnSeam (s : State) (t : Nat) (p : Plane) (e slot : Nat) (el : Elem) : Bool :=
  match instrAt el with
  | some i => (WellFormed.tokenOperands i).any fun o => (headOf p e slot el o).isNone && match feedOf p e slot o with
    | some k => tokenOnSeam s p.rid linkTiles t (wireKey s t k)
    | none => false
  | none => false

/-- A demand that an element lacks is in flight across a seam (R441): it will come back over a hop that leads to the element's channel. -/
def demandOnSeam (s : State) (t : Nat) (p : Plane) (e slot : Nat) : Bool :=
  let crosses (d : Demand) : Bool := d.rid == p.rid && d.graph == p.graph && d.node == p.node && seamPort d.tile d.port
  let back (d : Demand) (out : Nat) : Bool := (d.tile == t && chKey d.port d.ch == out) || passes d.tile (chKey d.port d.ch) linkTiles out
  match fieldsAt p e slot with
  | some (i, f) => (portsOf i f).any fun (_, q, c) => p.dcnt.get (chKey q c) 0 == 0 && s.demands.any fun d => crosses d && back d (chKey q c)
  | none => false
where
  /-- What leaves a tile on an output channel has left tile `t` on channel `out`. -/
  passes (u key : Nat) : Nat → Nat → Bool
    | 0, _ => false
    | n + 1, out =>
      match hopBackOut u key with
      | some (v, k) => (v == t && k == out) || passes v k n out
      | none => false
  /-- The output of the hop before from which an output of a tile gets what it passes on. -/
  hopBackOut (u key : Nat) : Option (Nat × Nat) :=
    let x := tileAt s u
    let inKey : Option Nat := match x.ptab.find? fun e => chKey e.op e.oc == key with
      | some e => if e.ip == 7 then none else some (chKey e.ip e.ic)
      | none => ((planeOf x (x.pa.rid != p.rid || x.pa.pst == .empty)).route.find? fun (_, v) =>
          routeValid v.toNat && !routeDelivers v.toNat && routeOutKey v.toNat == key).map (·.1)
    match inKey with
    | some k => if k / 8 < 4 then (neighbour u (k / 8)).map fun v => (v, chKey (facing (k / 8)) (k % 8)) else none
    | none => none

/-- The access that an element has in progress and waits on (R282, R336, R353). PREFW and BANKP start wakes and make no access (R311, R339). -/
def accessCause (s : State) (x : Site) (b : Bool) : Option Stall :=
  match s.reqs.find? fun (_, r) => r.who == x && r.plane == b && r.phase != .done with
  | none => none
  | some (_, r) =>
    if r.waitFe then some .feWait
    else match r.phase with
      | .home =>
        let asleep (p : Piece) : Bool :=
          let u := scrPlace s r.lease p.addr
          p.sp == .scr && granted (tileAt s u.1) (bankOf u.2) && !bankReady (tileAt s u.1) (bankOf u.2)
        if r.op != .wake && r.rest.any asleep then some .wake else none
      | .issued => if (untranslated r).isSome then some .translate else some .hbm
      | _ => none

/-- A message of the element found its queue full and is sent again (R266). -/
def enqRetries (s : State) (x : Tile) (who : Site) : Bool :=
  (leaseAt s x.tlease.toNat).enqs.any fun m => m.who == who && m.plane == x.planeB && m.retry

/-- The element has a readout or a sort chunk to emit, and its next word lacks a demand (R175, R196). -/
def readoutWaits (p : Plane) (who : Site) (el : Elem) : Bool :=
  who.eng == 2 && [false, true].any fun acc =>
    let a := accOf p acc
    a.rdo.kind != 0 && a.rdo.slot == who.slot && match fieldsAt p who.eng who.slot with
      | none => false
      | some (i, f) => match a.sort.words with
        | [] => a.rdo.kind != 4 && !hasDemands p who el (targetsOf i f)
        | (k, _) :: _ => !hasDemands p who el ((targetsOf i f).filter fun m => m.1 == k)

/-- What an element of the active plane waits on, as R441 counts it: none when it is idle. -/
def waitCause (s : State) (t : Nat) (x : Tile) (e slot : Nat) (el : Elem) : Option Stall :=
  let p := activePlane x
  let starved : Stall := if demandOnSeam s t p e slot then .seam else .noDemand
  if el.sw && (shadowPlane x).pst == .complete then some .castling
  else if readoutWaits p ⟨t, e, slot⟩ el then some starved
  else if enqRetries s x ⟨t, e, slot⟩ then some .ringFull
  else match el.wait with
    | some .noInput => if headOnSeam s t p e slot el then some .seam else some .noInput
    | some .noDemand => some starved
    | some w => some w
    | none => if el.awst.v then some .other else accessCause s ⟨t, e, slot⟩ x.planeB

/-- The cause in progress of an engine: of its lowest-numbered slot that waits, no-input when none does (R441). -/
def engineCause (s : State) (t : Nat) (x : Tile) (e : Nat) (b : Block) : Stall :=
  if x.capture.isSome then .quiesce
  else if b.raise > 0 then .anchor
  else (b.elems.zipIdx.findSome? fun (el, i) => waitCause s t x e i el).getD .noInput

/-- An element could fire but for what holds its engine: the heads and demands of its next firing are there, and it waits on nothing else (R426,
R441). Of the instructions that choose among their heads by rules of their own it asks for every head (log 84). -/
def couldFire (p : Plane) (x : Site) (el : Elem) : Bool :=
  match fieldsAt p x.eng x.slot with
  | none => false
  | some (i, f) =>
    let ops := WellFormed.tokenOperands i
    p.pst == .active && p.inSeg && !el.sw && el.bar == .none && (if ops.isEmpty then el.due else ops.all fun o => (headOf p x.eng x.slot el o).isSome) &&
      hasDemands p x el (targetsOf i f) && match el.wait with
        | none | some .noInput | some .noDemand => true
        | _ => false

/-- Some element of a block could fire; none of a block in AWAIT can (R412, R426). -/
def blockReady (p : Plane) (t e : Nat) (b : Block) : Bool := !suspended p e && b.elems.zipIdx.any fun (el, i) => couldFire p ⟨t, e, i⟩ el

/-- What a block counts in a cycle (R441): none for ACTC, else a cause. Under throttling an engine that could otherwise have issued counts
other. -/
def engineCount (s : State) (t : Nat) (x : Tile) (e : Nat) (b : Block) : Option Stall :=
  if b.issued then none
  else if throttledAt s t && x.capture.isNone && decide (b.raise = 0) && blockReady (activePlane x) t e b then some .other
  else some (engineCause s t x e b)

/-! ### Reading counters -/

/-- The word that RDCTR emits for a value, R451. -/
def ctrWord (v : Nat) (tick : BitVec 64) : Word := ofLanes 64 [v, tick.toNat]

/-- A tile or element counter, Table 16.4, as it stands. -/
def tileCtr (x : Tile) (el : Elem) (ctr : Nat) : Nat :=
  if ctr / 4096 = 5 then
    if ctr / 64 % 2 = 1 then (x.actc.get (ctr / 16 % 4) 0).toNat else (x.stc.get (stcKey (ctr / 16 % 4) (ctr % 16)) 0).toNat
  else if ctr % 2 = 0 then el.nf.toNat else el.fflg.toNat

/-- How RDCTR reads a counter (R451): its own engine's and element's at the firing, those of the tile's other engines at the end of the firing's cycle,
with what they count in it, and any other one at its home, when its request arrives there. -/
def ctrReq (c : Ctx) (ctr : Nat) (tick : BitVec 64) : Req :=
  let base : Req := { reqOf c (.ctr ctr) [] (.targets (outNums c) c.sb) .mesh with counted := false }
  if ctr / 4096 = 5 ∧ ctr / 16 % 4 ≠ c.x.eng then { base with phase := .home }
  else if ctr / 4096 = 5 ∨ ctr / 4096 = 6 then { base with op := .note ⟨ctrWord (tileCtr c.t c.e ctr) tick, c.sb⟩, phase := .done }
  else base

/-- RDCTR, R451. -/
def execRdctr (f : Fields) (s : State) : Host.Outcome State Fault Refusal :=
  fire (.rdctr f) f (std fun s c => .done { take := c.ops, reserve := c.outs, post := fun u => issueReq u (ctrReq c f.imm.toNat s.tick) }) s

/-- A reading of another engine's counter is answered at the end of its cycle (R451). -/
def answerCtr (s : State) (x : Nat → Tile) (r : Req) : Req :=
  match r.op, r.phase with
  | .ctr n, .home => { r with op := .note ⟨ctrWord (tileCtr (x r.who.tile) {} n) s.tick, r.sb⟩, phase := .done }
  | _, _ => r

/-- A counter that TRIGGER may watch, Table 16.4. -/
def watchable (ctr : Nat) : Bool :=
  let k := ctr % 4096
  match ctr / 4096 with
  | 0 => decide (k < 64)
  | 1 => decide (k < 16)
  | 2 => decide (k < 4)
  | 3 => decide (k < 8)
  | 4 => decide (k < 16)
  | 8 => decide (k < 8)
  | _ => false

/-! ### TRIGGER nodes -/

/-- Fields of KPARAM of a TRIGGER node (R384). -/
def trigCtr (nd : Node) : Nat := fld nd.kparam.toNat 0 16
def trigDir (nd : Node) : Bool := nd.kparam.getLsbD 16
def trigSel (nd : Node) : Nat := fld nd.kparam.toNat 24 8
def trigThresh (nd : Node) : Nat := fld nd.kparam.toNat 64 64

/-- The lease whose counters a TRIGGER node means (R397, R500). -/
def trigLease (lid : Nat) (nd : Node) : Nat := if lid = mgmtKey ∧ trigSel nd ≥ 128 then trigSel nd % 128 else lid

/-- A CTRID that a TRIGGER node may watch (R390, R397, R500). -/
def trigOk (s : State) (lid : Nat) (nd : Node) : Bool :=
  watchable (trigCtr nd) && (lid != mgmtKey || decide (trigSel nd < 128) || (leaseAt s (trigSel nd % 128)).v)

/-- The value that a TRIGGER node watches. Counters of classes 0 to 3 of the management context read as zero (R398). -/
def trigValue (s : State) (lid : Nat) (nd : Node) : Nat :=
  if trigLease lid nd = mgmtKey ∧ trigCtr nd / 4096 < 4 then 0 else counterOf s (leaseAt s (trigLease lid nd)) (trigCtr nd)

/-- Kind of a node. -/
def nodeKind (nd : Node) : Nat := nd.kind.toNat % 8

/-- An armed TRIGGER node becomes DONE when its condition holds (R397). -/
def testTrigger (s : State) (lid g n : Nat) : State :=
  match nodeAt (leaseAt s lid) g n with
  | some nd =>
    if nd.state == .armed && nodeKind nd == 4 && thrHolds (trigDir nd) (trigValue s lid nd) (trigThresh nd) then moveNode s lid g n .done else s
  | none => s

/-- Every node of the lease's active graphs with graph and index. -/
def activeNodes (l : Lease) : List (Nat × Nat × Node) :=
  (l.actg.map fun g => match l.graphs.find g with
    | some x => x.nodes.zipIdx.map fun (nd, n) => (g, n, nd)
    | none => []).flatten

/-- Tests every armed TRIGGER node of a lease. -/
def testTriggers (s : State) (lid : Nat) : State :=
  (activeNodes (leaseAt s lid)).foldl (fun s m => if m.2.2.state == .armed && nodeKind m.2.2 == 4 then testTrigger s lid m.1 m.2.1 else s) s

/-- The write of THRk with its first evaluation (R449, R452). -/
def armThr (s : State) (lid k : Nat) (t : Thr) : State :=
  modLease s lid fun l =>
    let l := { l with thr := l.thr.put k t, txc := l.txc.put k 0 }
    evalThr l k (counterOf s l t.ctrid.toNat)

/-- Tests the TRIGGER nodes that may watch a lease's counters: its own, and those of the management context (R397, R500). -/
def testWatchers (s : State) (lid : Nat) : State := testTriggers (testTriggers s lid) mgmtKey

/-- TRIGR, R452. It clears TXCk, which TRIGGER nodes may watch: they are tested before the change and after it (R397). -/
def execTrigr (f : Fields) (s : State) : Host.Outcome State Fault Refusal :=
  fire (.trigr f) f (std fun _ c =>
    let w := (c.va 64).toNat
    let ctr := fld w 64 16
    let t : Thr := { v := w.testBit 81, dir := w.testBit 80, ctrid := BitVec.ofNat 16 ctr, thresh := BitVec.ofNat 64 (w % 2 ^ 64) }
    if decide (w / 2 ^ 82 ≠ 0) || !watchable ctr || decide (ctr / 4096 = 4) then .trap cTrigCounter none (payload3 (w % 2 ^ 64) (fld w 64 64) 0)
    else .done {
      emits := zeroAll c c.sb, take := c.ops
      post := fun s => testWatchers (armThr (testWatchers s c.lid) c.lid (f.imm.toNat % 16) t) c.lid }) s

/-- LSTL_DELTA_SEND, R442. -/
def execLstlDeltaSend (t : Nat) (s : State) : Host.Outcome State Fault Refusal := .next (sendDeltas s t)

end Sys2Proof.Machine
end

