-- ==== Sys2Proof/Machine/Control.lean ====
section
/-! DEFINITION. Control tokens at elements (R224 to R228, R234, R243, R316, R318, R454, R460): alignment, misalignment, POISON, SWITCH and SNAP. -/

namespace Sys2Proof.Machine

open Sys2Proof

/-- An alignment code, R225. -/
def isAligned (t : Token) : Bool := isCtl t && [1, 2, 4, 5, 6].contains (codeOf t)

/-- A head that is a control token other than BUBBLE and BUBBLE_END. -/
def hardHead (h : Option Token) : Bool := match h with | some t => isCtl t && !isBubble t | none => false
def ctlHead (h : Option Token) : Bool := match h with | some t => isCtl t | none => false
def dataHead (h : Option Token) : Bool := match h with | some t => isData t | none => false
def switchHead (h : Option Token) : Bool := match h with | some t => isSwitch t | none => false

/-- The element has a readout or a sort chunk in progress: its words leave before what stands behind its trigger (R175, R198). -/
def readingOut (c : Ctx) : Bool :=
  let own (a : AccSet) : Bool := a.rdo.kind != 0 && a.rdo.slot == c.x.slot
  c.x.eng == 2 && (own c.p.acc0 || own c.p.acc1)

/-- The token operands among which a control token is to be aligned now; none while the instruction's own rules handle its heads (R237 to
R250, R157, R198, R318, R407). -/
def ctlOps (c : Ctx) : List Opnd :=
  let all := c.ops
  let s (lo len : Nat) : Nat := fld c.e.s.toNat lo len
  -- an element reads P before it decides anything else (R213); CARRY outside its loop does not read P
  let carry := match c.i with | .carry _ => true | _ => false
  if readingOut c || (all.contains .p && c.hp.isNone && !carry) then []
  else match c.i with
    | .merge _ =>
      let open_ (h : Option Token) (f : Nat) : Bool := match h with | some t => (isData t || isBubble t || isPoison t) && decide (f = 0) | none => false
      let poison (h : Option Token) : Bool := match h with | some t => isPoison t | none => false
      if decide (s 0 2 ≠ 0) || open_ c.ha (s 2 1) || open_ c.hb (s 3 1) || !(ctlHead c.ha && ctlHead c.hb) || poison c.ha || poison c.hb then [] else all
    | .mergep _ => if dataHead c.hp then [] else all
    | .gate _ => if decide (s 0 1 = 1) || (dataHead c.hp && !hardHead c.ha) then [] else all
    | .drop _ => if switchHead c.ha then all else []
    | .testc _ => if switchHead c.ha || ctlHead c.hp then all else []
    | .carry _ =>
      if s 0 1 = 0 then (if ctlHead c.ha && !switchHead c.ha then [.a] else if switchHead c.ha || !c.ops.contains .a then all else [])
      else if switchHead c.hp || (dataHead c.hp && switchHead c.hb && c.pv) then all else []
    | .invar _ => if dataHead c.hp && ctlHead c.ha && !switchHead c.ha then [.a] else all
    | .count _ => if s 0 32 = 0 then all else []
    | .rpt _ => if s 0 32 = 0 then all else []
    | .strip _ => if hardHead c.ha then all else []
    | .intx _ => if xIdle c && hardHead c.ha && hardHead c.hb then all else []
    | .union _ => if xIdle c && hardHead c.ha && hardHead c.hb then all else []
    | .xmerge _ => if xmIdle c.e.xm && hardHead c.ha && hardHead c.hb then all else []
    | .route f => if decide (s 3 1 = 1) || (!hardHead c.ha && (f.b != .tok || dataHead c.hb)) then [] else all
    | .pkpx _ => if pkCount c.e.s = 0 then all else []
    | .rdv _ => if switchHead c.ha || (match c.ha with | some t => isSnap t | none => false) then all else []
    | .fence _ => if switchHead c.ha || ctlHead c.hp then all else []
    | .ldt _ => if c.e.rqp.act then [] else all
    | .stt _ =>
      -- a POISON on B counts as one word of a range, which it may open (R318)
      if (match c.hb with | some b => isPoison b | none => false) && !ctlHead c.hp && (c.e.rqp.act || !ctlHead c.ha) then [] else all
    | _ => all
where
  /-- INTX and UNION between rows. -/
  xIdle (c : Ctx) : Bool := let x := xRead c.e.s; !x.da && !x.db && !x.pv

/-- The targets of a control token: T0, T1 and T2 of FAN; for ROUTE every output and T1 (R225, R250). -/
def ctlTargets (c : Ctx) : List (Nat × Target) :=
  match c.i with
  | .route f => routeAll f
  | _ => targetsOf c.i c.f

/-- A FENCE keeps a control token until its condition holds (R322). -/
def fenced (s : State) (c : Ctx) : Bool :=
  match c.i with | .fence f => !fenceReady s c.x.tile (f.md.toNat % 4) | _ => false

/-- The FENCE that a control token passes has gone ahead of what it covers (R291, R322). -/
def fencePassed (c : Ctx) (e : Eff) : Eff :=
  match c.i with | .fence f => { e with post := fun s => fenceMark (e.post s) c.x.tile (f.md.toNat % 4) (scopeOf f) } | _ => e

/-- S after the heads of an element's operands have been consumed as control tokens: MERGE opens both inputs again (R237). -/
def ctlS (c : Ctx) : Option Word :=
  match c.i with
  | .merge _ => some (sLow c 4 0)
  | _ => none

/-- What a control step does: consume heads, and one token to each target. Behind earlier results the token waits for its turn. A POISON
that takes an open range's parameters ends the range (R318). -/
def ctlEff (s : State) (c : Ctx) (take : List Opnd) (tok : Token) (arise : Bool) (post : State → State) : Eff :=
  let ts := ctlTargets c
  let post (s : State) : State :=
    post (if c.e.rqp.act && take.contains .a then modElem s c.x c.b fun e => { e with rqp := {} } else s)
  let base : Eff := { take := take, nf := false, poison := if arise then 1 else 0, hold := true, post := post }
  if ts.isEmpty || !resultsBehind s c then { base with emits := ts.map fun (k, t) => (k, t, tok) }
  else
    let r : Req := { reqOf c (.note tok) [] (.targets (ts.map (·.1)) 0) .done with counted := false, sb := tok.sb }
    { base with reserve := ts, post := fun s => issueReq (post s) r }

/-- Control tokens of an element may move: its tile runs and nothing suspends its block (log 40). -/
def ctlCan (s : State) (c : Ctx) : Bool :=
  tileRuns s c.x.tile && c.p.pst == .active && !suspended c.p c.x.eng && c.t.capture.isNone && !throttledAt s c.x.tile

/-- The context of an element of the active plane at its site. -/
def siteCtx (s : State) (x : Site) : Option Ctx :=
  match fieldsAt (activePlane (tileAt s x.tile)) x.eng x.slot with
  | some (i, f) => ctxAt s x i f
  | none => none

/-- A control step at an element: `act` decides from the operands to align and their heads. -/
def ctlStep (x : Site) (always : Bool) (act : State → Ctx → List (Opnd × Option Token) → Res) (s : State) : Host.Outcome State Fault Refusal :=
  match siteCtx s x with
  | none => .next s
  | some c =>
    let ops := ctlOps c
    if !ctlCan s c || !(c.p.inSeg || always) || !(deadSnaps c).isEmpty || ops.isEmpty || !ops.any (fun o => ctlHead (c.head o)) then .next s
    else match act s c (ops.map fun o => (o, c.head o)) with
      | .idle => .next s
      | .done e => .next (settle s c (if fenced s c then .wait .fence else if answersBehind s c && !(ctlTargets c).isEmpty then .wait .other
        else .done (fencePassed c e)))
      | r => .next (settle s c r)

/-- A completion stream token: LDT and STT hand aligned control tokens to their consumer (R316, R318). -/
def noteStep (s : State) (c : Ctx) (take : List Opnd) (t : Token) (post : State → State) : Res :=
  if c.t.hold then .wait .quiesce
  else if c.e.rbkt < rbktUnit then .wait .noDemand
  else if landFull s (noteReq c t) then .wait .landing
  else .done { take := take, nf := false, hold := true, post := fun s => postNote c t (post s) }

/-- Whether an element hands aligned control tokens to the consumer that K0 names. -/
def toConsumer (c : Ctx) : Bool := match c.i with | .ldt _ | .stt _ => true | _ => false

/-- The copy of a control token that an element hands on: PKPX opens a carrier stream (R157). -/
def ctlCopy (c : Ctx) (t : Token) : Token :=
  match c.i with
  | .pkpx f => if codeOf t = kSOT then { t with pay := low (setFld t.pay.toNat 8 2 (if f.typ == .e5m2 then 3 else 1)) } else t
  | _ => t

/-- Consumes aligned control tokens and hands one copy on. -/
def forwardCtl (s : State) (c : Ctx) (hs : List (Opnd × Option Token)) (post : State → State) : Res :=
  match hs.head? with
  | some (_, some t) =>
    if toConsumer c then noteStep s c (hs.map (·.1)) t post
    else .done { ctlEff s c (hs.map (·.1)) (ctlCopy c t) false post with s := ctlS c }
  | _ => .idle

/-- A POISON leaves on every target, and from LDT and STT on the way of their completion tokens too (R227, R316, R318) (log 105). -/
def poisonOut (s : State) (c : Ctx) (take : List Opnd) (t : Token) (arise : Bool) : Res :=
  let e := ctlEff s c take t arise id
  if !toConsumer c then .done e
  else match noteStep s c take t id with
    | .done _ => .done { e with post := fun s => postNote c t (e.post s) }
    | r => r

/-- The decision of R225 and R226 where no head is SNAP alone, SWITCH alone or POISON. -/
def alignAct (s : State) (c : Ctx) (hs : List (Opnd × Option Token)) : Res :=
  let toks := hs.filterMap (·.2)
  let lone (t : Token) : Bool := isCtl t && !isSnap t
  if toks.any isPoison then .idle
  else match hs.find? fun h => dataHead h.2 with
    | some (o, _) =>
      -- data without a partner: the lowest operand that holds data
      if toks.any lone then poisonOut s c [o] (poisonTok 9 c.ti) true else .wait .noInput
    | none =>
      if hs.any (·.2.isNone) then .wait .noInput
      else if toks.any isSwitch then .idle
      else if toks.all isSnap then .idle
      else if toks.all fun t => toks.all fun u => codeOf t == codeOf u then forwardCtl s c hs id
      else match poisonOut s c (hs.map (·.1)) (poisonTok 8 c.ti) true with
        | .done e => .done { e with s := ctlS c }
        | r => r

/-- ALIGNED_CONTROL_FORWARD, R225 and R226. -/
def execAlignedControlForward (x : Site) (s : State) : Host.Outcome State Fault Refusal := ctlStep x false alignAct s

/-- The decision of R227: with data or POISON at every other operand all heads go, else the POISON alone. One POISON to each target. -/
def poisonAct (s : State) (c : Ctx) (hs : List (Opnd × Option Token)) : Res :=
  match hs.find? fun h => match h.2 with | some t => isPoison t | none => false with
  | some (o, some t) =>
    if hs.any fun h => match h.2 with | some u => isCtl u && !isPoison u | none => false then poisonOut s c [o] t false
    else if hs.any (·.2.isNone) then .wait .noInput
    else poisonOut s c (hs.map (·.1)) t false
  | _ => .idle

/-- POISON_PROPAGATE, R227. -/
def execPoisonPropagate (x : Site) (s : State) : Host.Outcome State Fault Refusal := ctlStep x false poisonAct s

/-- The SWITCH tokens that an element consumes have passed the heads of their channels (R218). -/
def switchPassed (c : Ctx) (s : State) : State :=
  (c.ops.filterMap fun o => feedOf c.p c.x.eng c.x.slot o).foldl (fun s k => passSwitch s c.x.tile 0 k) s

/-- The decision of R228: SWITCH on every operand switches the element; beside a held SWITCH another code is misaligned. Where the shadow plane
is EMPTY, SWITCH stays held (R232), and so it does while a pre-emption gates the lease (R463) (log 106). It changes no S (R469). -/
def switchAct (s : State) (c : Ctx) (hs : List (Opnd × Option Token)) : Res :=
  let toks := hs.filterMap (·.2)
  if !toks.any isSwitch || toks.any isPoison || toks.any isData then .idle
  else if decide (hs.length = c.ops.length) && hs.all (fun h => switchHead h.2) then
    if (shadowPlane c.t).pst == .empty || c.l.lstate == .gating then .idle
    else .done (ctlEff s c (hs.map (·.1)) (ctl kSWITCH 0) false (fun s => switchPassed c (modElem s c.x c.b fun e => { e with sw := true })))
  else if !c.p.inSeg then .idle
  else match hs.find? fun h => match h.2 with | some t => !isSwitch t && !isSnap t | none => false with
    | some (o, _) => poisonOut s c [o] (poisonTok 8 c.ti) true
    | none => .wait .noInput

/-- SWITCH_CONSUME, R228, R469. -/
def execSwitchConsume (x : Site) (s : State) : Host.Outcome State Fault Refusal := ctlStep x true switchAct s

/-- The decision of R234: SNAP, or a held SWITCH, at every operand lets one SNAP through. -/
def snapAct (s : State) (c : Ctx) (hs : List (Opnd × Option Token)) : Res :=
  let snaps := hs.filter fun h => match h.2 with | some t => isSnap t | none => false
  match snaps.head? with
  | some (_, some t) =>
    if hs.all fun h => match h.2 with | some u => isSnap u || isSwitch u | none => false then
      forwardCtl s c snaps fun s => modElem s c.x c.b fun e => { e with snaps := e.snaps ++ [snapId t] }
    else .idle
  | _ => .idle

/-- SNAP_ALIGN, R234, R469. The SNAPs of an abandoned snapshot go without emission at the first element that they reach (log 37). -/
def execSnapAlign (x : Site) (s : State) : Host.Outcome State Fault Refusal :=
  match siteCtx s x with
  | none => .next s
  | some c =>
    let dead := deadSnaps c
    if dead.isEmpty then ctlStep x false snapAct s
    else if ctlCan s c && c.p.inSeg then
      .next (commit s c { take := dead, nf := false, hold := true, post := fun s => countEvent s c.lid 27 dead.length })
    else .next s

end Sys2Proof.Machine
end

