-- ==== Sys2Proof/Machine/Links.lean ====
section
/-! DEFINITION. Links (R98, R99, R194, R215 to R219, R372, R376 to R378, R402, R478): arrival of tokens and demands, reduction joins, entry from
reach ports and the unpack stage of PX8 carriers. -/

namespace Sys2Proof.Machine

open Sys2Proof

/-! ### Arrival of a token -/

/-- A region that still takes tokens on its boundary links. -/
def regionOpen (l : Lease) (rid : Nat) : Bool := match regionAt l rid with | some r => !r.stopped | none => false

/-- A token at a tile would only pass its switch, on to the next hop. -/
def passesOn (x : Tile) (p c : Nat) : Bool :=
  match x.ptab.find? fun e => e.ip == p && e.ic == c with
  | some e => e.op != 7
  | none =>
    let v := routeAt (planeOf x (applicable x (chKey p c))) (chKey p c)
    !(routeValid v && routeDelivers v)

/-- A halt has reached the switches of a lease: a token goes no further than the next LBUF or switch (R419). In a freeze-scan it goes on to its LBUF,
which the scan reads (log 6). -/
def wiresHalted (l : Lease) : Bool := l.hline && !l.scan

/-- TOKEN_ARRIVAL, R216: the switch of a tile checks a token (R376), and its route, a portal entry or a forward entry takes it. -/
def execTokenArrival (t p c : Nat) (s : State) : Host.Outcome State Fault Refusal :=
  match s.wires.find? fun w => w.tile == t && w.port == p && w.ch == c with
  | none => .next s
  | some w =>
    let x := tileAt s t
    let lid := x.tlease.toNat
    if tileBound x && w.stamp == some lid && wiresHalted (leaseAt s lid) && passesOn x p c then .next s
    else
    let s := { s with wires := s.wires.erase w }
    if !tileBound x || w.stamp != some lid then .next (rejectToken s t p c w)
    else
      let (s, tok) := cleanToken s t w.tok
      match x.ptab.find? fun e => e.ip == p && e.ic == c with
      | some e =>
        if e.op == 7 then
          -- the end of a portal path: the consumer's channel, or consumed for a cancelled consumer (R372, R402)
          if !regionOpen (leaseAt s lid) e.dst then .next (returnDemand (countEvent s lid 4 1) t x.planeB (chKey p e.oc))
          else
            let (s', ok) := arriveAt s t (chKey p e.oc) tok
            .next (if ok then s' else returnDemand (countEvent s lid 4 1) t x.planeB (chKey p e.oc))
        else .next (pushWire s t e.op e.oc tok)
      | none =>
        let (s', ok) := arriveAt s t (chKey p c) tok
        if ok then .next s'
        else match x.fwd.find? fun f => f.lease == lid with
          | some f =>
            let u : Int := (t : Int) + dispY f.disp * 256 + dispX f.disp
            .next (putWire s t { w with tile := u.toNat, tok := tok })
          | none => .next (rejectToken s t p c w)

/-! ### Arrival of a demand -/

/-- The input channel of a plane whose forwarding route leaves on an output channel. -/
def forwardFrom (p : Plane) (out : Nat) : Option Nat :=
  (p.route.find? fun (_, v) => routeValid v.toNat && !routeDelivers v.toNat && routeOutKey v.toNat == out).map (·.1)

/-- An element target of a plane names an output channel. -/
def targetsChannel (p : Plane) (out : Nat) : Bool :=
  (elemsOf p).any fun (_, _, el) => match instrAt el with
    | some i => (match WellFormed.instrFields i with
      | some f => (portsOf i f).any fun (_, q, c) => chKey q c == out
      | none => false)
    | none => false

/-- A demand reaches an output channel of the plane that its tag names: it passes on along a forwarding route, or counts for the element or
the join there; a plane of another tag drops it (R215). -/
def demandAt (s : State) (t out : Nat) (d : Demand) : State :=
  let x := tileAt s t
  let here (b : Bool) : Bool :=
    let p := planeOf x b
    p.pst != .empty && p.rid == d.rid && p.graph == d.graph && p.node == d.node && x.tlease.toNat == d.lease
  match [x.planeB, !x.planeB].find? here with
  | none => s
  | some b =>
    let p := planeOf x b
    let one (s : State) : State := modPlane s t b fun p => { p with dcnt := p.dcnt.put out (p.dcnt.get out 0 + 1) }
    if p.reduce.contains out then one s
    else match forwardFrom p out with
      | some i => demandBack s t i d.lease d.rid d.graph d.node
      | none => if targetsChannel p out then one s else s

/-- A demand at the switch of a tile: over a portal path on to its producer, or to the configuration's channel (R215, R372). -/
def demandIn (s : State) (d : Demand) : State :=
  let own (e : Ptab) : Bool := e.op == d.port && e.oc == d.ch && e.src == (d.rid, d.graph, d.node)
  match (tileAt s d.tile).ptab.find? own with
  | some e =>
    if e.ip == 7 then demandAt s d.tile (chKey d.port e.ic) d
    else demandOver s d.tile (chKey e.ip e.ic) d.lease d.rid d.graph d.node
  | none => demandAt s d.tile (chKey d.port d.ch) d

/-- DEMAND_ARRIVAL, R215, R372. At the edge of the grid a peer sends it over the reach port that leads there (R30): it stands for a slot of the
link of the active plane (log 43). -/
def execDemandArrival (t p c : Nat) (s : State) : Host.Outcome State Fault Refusal :=
  match s.demands.find? fun d => d.tile == t && d.port == p && d.ch == c with
  | none =>
    if p < 4 ∧ (neighbour t p).isNone ∧ (reachFor t p c).isSome then
      let x := tileAt s t
      let q := activePlane x
      .next (demandIn s ⟨t, p, c, x.tlease.toNat, q.rid, q.graph, q.node⟩)
    else .next s
  | some d => .next (demandIn { s with demands := s.demands.erase d } d)

/-! ### Reduction joins -/

/-- The sum of two reduction words lane by lane, and whether a lane pair leaves the signed range (R194). -/
def addWords (a b : Word) : Word × Nat :=
  let l := (List.range 8).map fun i => (lane 64 a i, lane 64 b i)
  (ofLanes 64 (l.map fun (x, y) => x + y),
   (l.filter fun (x, y) => decide (sx 64 x + sx 64 y < -(2 ^ 63 : Int)) || decide (sx 64 x + sx 64 y ≥ (2 ^ 63 : Int))).length)

/-- What a join emits for the heads of its sources: the word, lanes that overflowed, whether POISON arises. Data beside a control token
waits. -/
def joinToken (ti : Nat) (hs : List Token) : Option (Token × Nat × Bool) :=
  match hs with
  | [] => none
  | h :: r =>
    if hs.all isCtl then
      if r.all fun t => codeOf t == codeOf h then some (h, 0, false) else some (poisonTok 7 ti, 0, true)
    else if hs.any isCtl then none
    else if r.any fun t => t.sb != h.sb then some (poisonTok 7 ti, 0, true)
    else
      let (w, n) := r.foldl (fun (a : Word × Nat) t => let (w, n) := addWords a.1 t.pay; (w, a.2 + n)) (h.pay, 0)
      some (⟨w, h.sb⟩, n, false)

/-- REDUCTION_JOIN, R194, R219, at an output channel: every source holds a head and the output a demand. Of a stopped lease every
token stays in place (R420). -/
def execReductionJoin (t p c : Nat) (s : State) : Host.Outcome State Fault Refusal :=
  let x := tileAt s t
  let out := chKey p c
  let ready (b : Bool) : Bool :=
    let q := planeOf x b
    q.reduce.contains out && !q.gated.contains out && decide (q.dcnt.get out 0 > 0) && (joinSources q out).all fun m => !(q.lbuf.get m.1 []).isEmpty
  match (if tileRuns s t then [x.planeB, !x.planeB] else []).find? ready with
  | none => .next s
  | some b =>
    let q := planeOf x b
    let src := joinSources q out
    match joinToken (tiOf x) (src.filterMap fun m => (q.lbuf.get m.1 []).head?) with
    | none => .next s
    | some (tok, n, arise) =>
      let s := modPlane s t b fun p => { p with
        lbuf := src.foldl (fun l m => l.put m.1 ((l.get m.1 []).drop 1)) p.lbuf
        dcnt := p.dcnt.put out (p.dcnt.get out 0 - 1) }
      let lid := x.tlease.toNat
      let s := src.foldl (fun s m => match m.2 with | some i => demandBack s t i lid q.rid q.graph q.node | none => s) s
      let s := countEvent s lid 5 n
      let s := if arise then countPoison s t 1 else s
      .next (sendOut s t p c tok)

/-! ### Reach ports -/

/-- The channels of a reach port that lead to the place to which channel `c` leads: two or more are the inputs of a join of the port's unit
(R194) (log 43). -/
def reachMates (p c : Nat) : List Nat := (List.range Config.reachChans).filter fun d => Config.reachAt p d == Config.reachAt p c

/-- A word at the join of a reach-port unit: it waits until every input holds one, and they leave as one (R194, R219). -/
def reachJoin (s : State) (p c : Nat) (tok : Token) : State × Option Token :=
  let keys := (reachMates p c).map fun d => 8 * p + d
  let s := { s with reachq := s.reachq.put (8 * p + c) (s.reachq.get (8 * p + c) [] ++ [tok]) }
  let hs := keys.filterMap fun k => (s.reachq.get k []).head?
  let a := Config.reachAt p c
  if hs.length < keys.length then (s, none)
  else match joinToken (tiOf (tileAt s (a / 64))) hs with
    | none => (s, none)
    | some (out, n, arise) =>
      let s := { s with reachq := keys.foldl (fun q k => q.put k ((q.get k []).drop 1)) s.reachq }
      let s := countEvent s ((s.rpb.get (8 * p + c) 0).toNat % 128) 5 n
      (if arise then countPoison s (a / 64) 1 else s, some out)

/-- REACH_TOKEN_ENTRY, R9, R194, R377, R478: a token from a peer takes the stamp of its channel's RPB and goes to the tile that the channel leads
to. With no RPB it is rejected at the port and charged to no lease; under the RPB of a dead lease it is rejected as a token of that stamp
(R376). A join of the port's unit holds it first (log 43). -/
def execReachTokenEntry (p c : Nat) (pay : Word) (sb : BitVec 2) (s : State) : Host.Outcome State Fault Refusal :=
  let v := s.rpb.get (8 * p + c) 0
  let lid := v.toNat % 128
  let a := Config.reachAt p c
  let w (tok : Token) : Wire := ⟨a / 64, a / 8 % 4, a % 8, tok, some lid⟩
  if p ≥ Config.reachPorts ∨ c ≥ Config.reachChans then .next s
  else if !v.getLsbD 7 then .next { s with pf0log := s.pf0log + 1 }
  else if !(leaseAt s lid).v then .next (rejectToken s (a / 64) (a / 8 % 4) (a % 8) (w ⟨pay, sb⟩))
  else if (leaseAt s lid).lstate == .gating || (leaseAt s lid).lstate == .preempted || (leaseAt s lid).hline || (tileAt s (a / 64)).hold then .next s
  else if (reachMates p c).length ≤ 1 then .next { s with wires := s.wires ++ [w ⟨pay, sb⟩] }
  else match reachJoin s p c ⟨pay, sb⟩ with
    | (s, none) => .next s
    | (s, some tok) => .next { s with wires := s.wires ++ [w tok] }

/-! ### The unpack stage -/

/-- Appends a token's bits to the stage and notes where its sideband falls. -/
def pxFeed (u : Px8) (t : Token) : Px8 :=
  { u with bits := u.bits + t.pay.toNat * 2 ^ u.nbits, nbits := u.nbits + 512, sbs := u.sbs ++ [(u.nbits + 512, t.sb)] }

/-- Length in bits of the next block. -/
def pxNext (u : Px8) : Nat := 16 * pxLen (u.bits % 65536)

/-- Takes `n` bits off the front of the stage. -/
def pxDrop (u : Px8) (n : Nat) : Px8 :=
  { u with bits := u.bits / 2 ^ n, nbits := u.nbits - n, sbs := (u.sbs.map fun (k, b) => (k - n, b)).filter fun m => decide (m.1 > 0) }

/-- The stage expands the next block (R98, R99). The block that ends on a token with sideband 10 or 11 takes that sideband, and the zeros
beyond it go. Once a block was malformed every later word of the stream is POISON, framed by its LEN like the others (log 98). -/
def pxBlockOut (u : Px8) (ti : Nat) : Px8 :=
  let n := pxNext u
  let token := (u.sbs.find? fun m => decide (n ≤ m.1)).getD (n, 0)
  let rest := token.1 - n
  let tailZero := u.bits / 2 ^ n % 2 ^ rest = 0
  let ends := (token.2 == 0b10 || token.2 == 0b11) && decide (tailZero)
  let w := if u.bad then none else pxDecode u.e5m2 (u.bits % 2 ^ n)
  let spans := (u.sbs.filter fun m => decide (m.1 < n) && m.2 != 0).isEmpty
  match w, spans with
  | some b, true => { pxDrop u (if ends then n + rest else n) with out := u.out ++ [⟨ofLanes 8 b, if ends then token.2 else 0⟩] }
  | _, _ => { pxDrop u (if ends then n + rest else n) with bad := true, out := u.out ++ [poisonTok 2 ti] }

/-- PX8_UNPACK_BLOCK, R98, R99: the stage of an input channel takes the next token of its queue, or expands the next block. -/
def execPx8UnpackBlock (t p c : Nat) (s : State) : Host.Outcome State Fault Refusal :=
  let x := tileAt s t
  let key := chKey p c
  let b := x.planeB
  let pl := activePlane x
  let u := pl.px8.get key {}
  let q := seenTokens pl key
  let put (s : State) (v : Px8) : State := modPlane s t b fun p => { p with
    px8 := p.px8.put key v, late := p.late ++ List.replicate (v.out.length - u.out.length) (64 + key) }
  let poison (s : State) (b : Bool) : State := if b then countPoison s t 1 else s
  if !tileRuns s t || pl.pst != .active then .next s
  else if u.carrier && decide (u.nbits ≥ 16) && (decide (pxNext u = 0) || decide (u.nbits ≥ pxNext u)) then
    let v := if pxNext u = 0 then { pxDrop u u.nbits with bad := true, out := u.out ++ [poisonTok 2 (tiOf x)] } else pxBlockOut u (tiOf x)
    .next (poison (countEvent (put s v) x.tlease.toNat 26 (if v.bad then 0 else 1)) v.bad)
  else match q with
    | [] => .next s
    | h :: _ =>
      let pop (s : State) : State := returnDemand (modPlane s t b fun p => { p with lbuf := p.lbuf.put key ((p.lbuf.get key []).drop 1) }) t b key
      if isCtl h then
        let opens := opensCarrier key h
        if !u.carrier && !opens then .next s
        else
          -- a control token inside a block poisons the stream; SOT opens it afresh
          let broken := u.carrier && decide (u.nbits ≠ 0)
          let v : Px8 := if broken then { u with bits := 0, nbits := 0, sbs := [], bad := true, out := u.out ++ [poisonTok 2 (tiOf x)] } else u
          let w : Px8 := { v with out := v.out ++ [h] }
          let w : Px8 := if codeOf h == kSOT then { w with carrier := opens, e5m2 := h.pay.getLsbD 9, bad := false }
            else if codeOf h == kEOT then { w with carrier := false } else w
          .next (poison (pop (put s w)) broken)
      else if !u.carrier then .next s
      else .next (pop (put s (pxFeed u h)))

end Sys2Proof.Machine
end

