-- ==== Sys2Proof/Machine/Image.lean ====
section
/-! DEFINITION. Configuration images: their sections, blocks and links as read, the load checks of Table 2.14 in order, the load report, the
hash that each pattern retains (R32 to R44, R49, R50, R56 to R59, R204, R219 to R222, R300). -/

namespace Sys2Proof.Machine

open Sys2Proof

/-! ### The parts of an image -/

/-- `n` bytes of an image at an offset, as a number (R4). -/
def imgN (m : List Byte) (off n : Nat) : Nat := ofBytes ((m.drop off).take n)

/-- A signed 16-bit coordinate of a link entry. -/
def imgS (m : List Byte) (off : Nat) : Int := sx 16 (imgN m off 2)

def imgW (m : List Byte) : Nat := imgN m 12 2
def imgH (m : List Byte) : Nat := imgN m 14 2
def imgSize (m : List Byte) : Nat := imgN m 8 4
def imgFeatu (m : List Byte) : Nat := imgN m 80 4

/-- OFFSET and COUNT of a section, R33. -/
def secOff (m : List Byte) (i : Nat) : Nat := imgN m (16 + 8 * i) 4
def secCnt (m : List Byte) (i : Nat) : Nat := imgN m (20 + 8 * i) 4
/-- Entry size of a section, Table 2.2. -/
def secEntry (i : Nat) : Nat := match i with | 0 => 32 | 1 => 8 | 2 => 16 | 3 => 8 | 4 => 32 | 5 => 8 | 6 => 2 | _ => 1
/-- Offset of an entry. -/
def entryAt (m : List Byte) (i k : Nat) : Nat := secOff m i + secEntry i * k

def absent : Nat := 0xFFFFFFFF

/-- A pattern: its index, the image offsets of its blocks and route table, and its rectangles (R34). -/
structure Pat where
  idx : Nat
  blks : List (Nat × Nat)
  route : Option Nat
  rects : List (Nat × Nat × Nat × Nat)
  deriving DecidableEq, Repr

def patAt (m : List Byte) (k : Nat) : Pat :=
  let o := entryAt m 0 k
  let blob := secOff m 7
  let b (e : Nat) : List (Nat × Nat) := let v := imgN m (o + 4 * e) 4; if v = absent then [] else [(e, blob + v)]
  let r := imgN m (o + 12) 4
  let rect (j : Nat) : Nat × Nat × Nat × Nat :=
    let q := entryAt m 1 (imgN m (o + 16) 4 + j)
    (imgN m q 2, imgN m (q + 2) 2, imgN m (q + 4) 2, imgN m (q + 6) 2)
  { idx := k, blks := b 0 ++ b 1 ++ b 2, route := if r = absent then none else some (blob + r), rects := (List.range (imgN m (o + 20) 2)).map rect }

def patsOf (m : List Byte) : List Pat := (List.range (secCnt m 0)).map (patAt m)

/-- The configuration-relative tiles of a pattern. -/
def patTiles (p : Pat) : List (Nat × Nat) :=
  (p.rects.map fun (x, y, w, h) => ((List.range h).map fun j => (List.range w).map fun i => (x + i, y + j)).flatten).flatten

def inRect (x y : Nat) (r : Nat × Nat × Nat × Nat) : Bool := decide (r.1 ≤ x) && decide (x < r.1 + r.2.2.1) && decide (r.2.1 ≤ y) && decide (y < r.2.1 + r.2.2.2)

/-- The pattern that covers a tile; none stands for the empty pattern (R35). -/
def patFor (ps : List Pat) (x y : Nat) : Option Pat := ps.find? fun p => p.rects.any (inRect x y)

/-- A block as the image holds it, R43, R44. -/
structure ImgBlock where
  off : Nat
  eng : Nat
  nins : Nat
  ents : List Nat
  ctoff : Nat
  ctpres : Nat
  feat : Nat
  words : List (BitVec 64)
  deriving DecidableEq, Repr

def blockAt (m : List Byte) (off : Nat) : ImgBlock :=
  let h := imgN m off 16
  let nins := fld h 98 8
  { off := off, eng := fld h 106 2, nins := nins, ents := ([fld h 89 7, fld h 82 7, fld h 75 7]).take (fld h 96 2), ctoff := fld h 67 8,
    ctpres := fld h 64 3, feat := fld h 32 32, words := (List.range nins).map fun j => BitVec.ofNat 64 (imgN m (off + 16 + 8 * j) 8) }

/-- Bytes of a block with its constant table. -/
def blockLen (b : ImgBlock) : Nat :=
  if b.ctpres = 0 then 16 + 8 * b.nins
  else 8 * b.ctoff + b.nins * (8 * (b.ctpres % 2 + b.ctpres / 2 % 2) + 64 * (b.ctpres / 4))

/-- Entry `j` of a column of the constant table: 0 K0, 1 K1, 2 S; zeros for an absent column. -/
def constAt (m : List Byte) (b : ImgBlock) (col j : Nat) : Nat :=
  if b.ctpres.testBit col then
    let base := b.off + 8 * b.ctoff
    let k0 := if b.ctpres.testBit 0 then 8 * b.nins else 0
    let k1 := if b.ctpres.testBit 1 then 8 * b.nins else 0
    match col with
    | 0 => imgN m (base + 8 * j) 8
    | 1 => imgN m (base + k0 + 8 * j) 8
    | _ => imgN m (base + k0 + k1 + 64 * j) 64
  else 0

/-- The route entry of a channel in a pattern, R36. -/
def patRoute (m : List Byte) (p : Pat) (key : Nat) : Nat := match p.route with | some o => imgN m (o + 2 * key) 2 | none => 0

/-- A link entry, R37. -/
structure ImgLink where
  idx : Nat
  px : Int
  py : Int
  cx : Int
  cy : Int
  pch : Nat
  cch : Nat
  slots : Nat
  flags : Nat
  rate : Nat
  deriving DecidableEq, Repr

def linkAt (m : List Byte) (k : Nat) : ImgLink :=
  let o := entryAt m 2 k
  { idx := k, px := imgS m o, py := imgS m (o + 2), cx := imgS m (o + 4), cy := imgS m (o + 6), pch := imgN m (o + 8) 1, cch := imgN m (o + 9) 1,
    slots := imgN m (o + 10) 1, flags := imgN m (o + 11) 1, rate := imgN m (o + 12) 2 }

def linksOf (m : List Byte) : List ImgLink := (List.range (secCnt m 2)).map (linkAt m)
def ImgLink.reply (l : ImgLink) : Bool := l.flags.testBit 0
def ImgLink.reduce (l : ImgLink) : Bool := l.flags.testBit 1
def ImgLink.bound (l : ImgLink) : Bool := l.flags.testBit 2
/-- Hops of the X-then-Y path. -/
def ImgLink.hops (l : ImgLink) : Nat := (l.cx - l.px).natAbs + (l.cy - l.py).natAbs

/-- A coordinate lies in the configuration rectangle. -/
def insideCfg (m : List Byte) (x y : Int) : Bool := decide (0 ≤ x) && decide (x < imgW m) && decide (0 ≤ y) && decide (y < imgH m)

/-- The steps of an X-then-Y path: the tile left, the port taken and the tile entered (R72). -/
def pathSteps : Nat → Int → Int → Int → Int → List ((Int × Int) × Nat × (Int × Int))
  | 0, _, _, _, _ => []
  | n + 1, x, y, cx, cy =>
    if x < cx then ((x, y), 1, (x + 1, y)) :: pathSteps n (x + 1) y cx cy
    else if x > cx then ((x, y), 3, (x - 1, y)) :: pathSteps n (x - 1) y cx cy
    else if y < cy then ((x, y), 2, (x, y + 1)) :: pathSteps n x (y + 1) cx cy
    else if y > cy then ((x, y), 0, (x, y - 1)) :: pathSteps n x (y - 1) cx cy
    else []

def ImgLink.steps (l : ImgLink) : List ((Int × Int) × Nat × (Int × Int)) := pathSteps l.hops l.px l.py l.cx l.cy
/-- Every tile of a link's path with its ends. -/
def ImgLink.tiles (l : ImgLink) : List (Int × Int) := (l.px, l.py) :: l.steps.map fun s => s.2.2

/-- The route through a tile that a link's path makes: input and output channel keys. The last forwarding tile changes to the consumer's
channel (R72). -/
def linkForward (l : ImgLink) (x y : Int) : Option (Nat × Nat) :=
  let ss := l.steps
  match ss.find? (fun s => s.2.2 == (x, y)), ss.find? (fun s => s.1 == (x, y)) with
  | some i, some o =>
    let pc := l.pch % 8
    let last := o.2.2 == (l.cx, l.cy)
    some (chKey (facing i.2.1) pc, chKey o.2.1 (if last then l.cch % 8 else pc))
  | _, _ => none

/-! ### Elements of an image -/

/-- The instruction of a word with its fields. -/
def wordIns (w : BitVec 64) : Option (Instr × Fields) :=
  match decode w with
  | .ok i => (WellFormed.instrFields i).map fun f => (i, f)
  | .error _ => none

/-- A word takes operand `op` from a token. -/
def takesOp (w : BitVec 64) (op : Opnd) : Bool := match wordIns w with | some (i, _) => (WellFormed.tokenOperands i).contains op | none => false

/-- Element targets and port channels that a word emits to. -/
def wordTargets (w : BitVec 64) : List (Nat × Opnd) :=
  match wordIns w with
  | some (i, f) => (targetsOf i f).filterMap fun (_, t) => match t with | .elem s o => some (s.toNat, o) | .port _ _ _ => none
  | none => []
def wordPorts (w : BitVec 64) : List Nat := match wordIns w with | some (i, f) => (portsOf i f).map fun (_, p, c) => chKey p c | none => []

/-- LDT, STT, COPY and GATH hold a descriptor in K0 (R50). -/
def holdsDesc (w : BitVec 64) : Bool := match wordIns w with | some (.ldt _, _) | some (.stt _, _) | some (.copy _, _) | some (.gath _, _) => true | _ => false

def opndNo (o : Opnd) : Nat := match o with | .a => 0 | .b => 1 | .c => 2 | .p => 3
def opndAt (n : Nat) : Opnd := match n with | 0 => .a | 1 => .b | 2 => .c | _ => .p

/-- Blocks of a pattern. -/
def patBlocks (m : List Byte) (p : Pat) : List ImgBlock := p.blks.map fun b => blockAt m b.2
def patBlock (m : List Byte) (p : Pat) (e : Nat) : Option ImgBlock := (p.blks.find? fun b => b.1 == e).map fun b => blockAt m b.2

/-- An element of an image: pattern, block, slot and word. -/
structure ImgElem where
  pat : Pat
  eng : Nat
  blk : ImgBlock
  slot : Nat
  word : BitVec 64
  deriving DecidableEq, Repr

def elemsAll (m : List Byte) (ps : List Pat) : List ImgElem :=
  (ps.map fun p => (p.blks.map fun (e, o) => let b := blockAt m o; b.words.zipIdx.map fun (w, j) => (⟨p, e, b, j, w⟩ : ImgElem)).flatten).flatten

/-- One copy of an element: tile, engine and slot. -/
abbrev Spot := Nat × Nat × Nat × Nat

/-- The word at a spot. -/
def wordAt (m : List Byte) (ps : List Pat) (s : Spot) : Option (ImgBlock × BitVec 64) :=
  match patFor ps s.1 s.2.1 with
  | some p => (patBlock m p s.2.2.1).bind fun b => (b.words[s.2.2.2]?).map fun w => (b, w)
  | none => none

/-- The element and operand to which a route entry delivers. -/
def routeSpot (v x y : Nat) : Option (Spot × Opnd) :=
  if v / 16384 = 3 then some ((x, y, v / 4096 % 4, v / 4 % 128), opndAt (v % 4)) else none

/-- Where a link delivers at its consumer tile. -/
def linkSpot (m : List Byte) (ps : List Pat) (l : ImgLink) : Option (Spot × Opnd) :=
  if !insideCfg m l.cx l.cy then none
  else match patFor ps l.cx.toNat l.cy.toNat with
    | some p => routeSpot (patRoute m p (l.cch % 64)) l.cx.toNat l.cy.toNat
    | none => none

/-- The spot and operand that a descriptor names. -/
def descSpot (m : List Byte) (k0 : Nat) : Spot × Opnd := ((fld k0 11 14 % imgW m, fld k0 11 14 / imgW m, fld k0 9 2, fld k0 2 7), opndAt (k0 % 4))

/-- Edges of the graph of R221 from an element: next element, operand and slots. -/
def imgEdges (m : List Byte) (ps : List Pat) (ls : List ImgLink) (s : Spot) : List (Spot × Opnd × Nat) :=
  match wordAt m ps s with
  | none => []
  | some (b, w) =>
    ((wordTargets w).map fun (j, o) => ((s.1, s.2.1, s.2.2.1, j), o, 2)) ++
    ((ls.filter fun l => !l.reply && decide (l.px = (s.1 : Int)) && decide (l.py = (s.2.1 : Int)) && (wordPorts w).contains (l.pch % 64)).filterMap fun l =>
      (linkSpot m ps l).map fun (t, o) => (t, o, l.slots)) ++
    (if holdsDesc w then
      let d := descSpot m (constAt m b 0 s.2.2.2)
      (ls.filter fun l => l.reply && linkSpot m ps l == some d).map fun l => (d.1, d.2, l.slots)
    else [])

/-- Every spot of an image. -/
def allSpots (m : List Byte) (ps : List Pat) : List Spot :=
  (ps.map fun p => ((patTiles p).map fun (x, y) => (p.blks.map fun (e, o) => (List.range (blockAt m o).nins).map fun j => (x, y, e, j)).flatten).flatten).flatten

/-- Spots reached from a list along edges. -/
def reachSpots (next : Spot → List Spot) : Nat → List Spot → List Spot → List Spot
  | 0, _, seen => seen
  | n + 1, todo, seen =>
    match todo with
    | [] => seen
    | s :: r =>
      let new := (next s).filter fun t => !seen.contains t
      reachSpots next n (r ++ new.eraseDups) (seen ++ new.eraseDups)

/-- A spot that lies on a directed cycle. -/
def onCycle (n : Nat) (next : Spot → List Spot) (s : Spot) : Bool := (reachSpots next (n + 1) [s] []).contains s

/-! ### The load report -/

/-- A failure of a load check: what Table 2.15 reports. -/
structure LoadFlaw where
  reason : Nat
  pattern : Nat := 0xFFFF
  eng : Nat := 0xFF
  slot : Nat := 0xFF
  section_ : Nat := 0xFFFF
  entry : Nat := 0xFFFFFFFF
  value : Nat := 0
  offset : Nat := 0
  origin : Nat := 0
  deriving DecidableEq, Repr

/-- The 32 bytes of the report, Table 2.15. -/
def reportBits (status : Nat) (f : LoadFlaw) : BitVec 256 :=
  BitVec.ofNat 256 (status + f.reason * 2 ^ 8 + f.pattern * 2 ^ 16 + f.eng * 2 ^ 32 + f.slot * 2 ^ 40 + f.section_ * 2 ^ 48 +
    f.entry * 2 ^ 64 + f.origin * 2 ^ 96 + f.value % 2 ^ 64 * 2 ^ 128 + f.offset % 2 ^ 64 * 2 ^ 192)

/-- A flaw of an entry of a section. -/
def entryFlaw (m : List Byte) (reason sec k : Nat) : LoadFlaw :=
  { reason := reason, section_ := sec, entry := k, value := imgN m (entryAt m sec k) (min 8 (secEntry sec)), offset := entryAt m sec k }

/-- The same with the offending one of its doublewords, `d` saying which are, in order (R58); the item is still the entry (log 105). -/
def entryFlawIn (m : List Byte) (reason sec k : Nat) (d : List Bool) : LoadFlaw :=
  { entryFlaw m reason sec k with value := imgN m (entryAt m sec k + 8 * d.findIdx id) 8 }

/-- A flaw of a word. -/
def wordReport (reason : Nat) (e : ImgElem) : LoadFlaw :=
  { reason := reason, pattern := e.pat.idx, eng := e.eng, slot := e.slot, section_ := 7, value := e.word.toNat, offset := e.blk.off + 16 + 8 * e.slot }

/-- The flaw when a condition holds. -/
def flawIf (c : Bool) (f : LoadFlaw) : Option LoadFlaw := if c then some f else none

/-! ### Steps of Table 2.14 -/

/-- Step 1. -/
def checkHeader (m : List Byte) : Option LoadFlaw :=
  let f (v o : Nat) : LoadFlaw := { reason := 1, value := v, offset := o }
  let at_ (o n : Nat) : Nat := imgN m o n
  [flawIf (at_ 0 4 != 0x31494D4E) (f (at_ 0 4) 0), flawIf (at_ 4 2 != 1) (f (at_ 4 2) 4), flawIf (at_ 6 2 != 0) (f (at_ 6 2) 6),
   flawIf (decide (imgSize m % 16 ≠ 0) || decide (imgSize m < 128) || decide (imgSize m > 2 ^ 26)) (f (imgSize m) 8),
   flawIf (decide (imgW m = 0) || decide (imgW m > 256)) (f (imgW m) 12), flawIf (decide (imgH m = 0) || decide (imgH m > 64)) (f (imgH m) 14),
   flawIf (at_ 84 12 != 0) (f (at_ 84 8) 84)].findSome? id

/-- Least and greatest COUNT of a section, Table 2.2; the count of BANK is step 13's. -/
def secLimits (m : List Byte) (i : Nat) : Nat × Nat :=
  match i with
  | 0 => (1, imgW m * imgH m) | 1 => (1, 65535) | 2 => (0, 65535) | 3 => (0, 4096) | 4 => (0, 65535) | 5 => (0, 65535)
  | _ => (0, 2 ^ 32)

def secEnd (m : List Byte) (i : Nat) : Nat := secOff m i + secEntry i * secCnt m i

/-- Step 2. -/
def checkSections (m : List Byte) : Option LoadFlaw :=
  (List.range 8).findSome? fun i =>
    let o := secOff m i
    let c := secCnt m i
    let (lo, hi) := secLimits m i
    let bad :=
      if c = 0 then decide (o ≠ 0) || decide (lo > 0)
      else decide (c < lo) || decide (c > hi) || decide (o % 16 ≠ 0) || decide (o < 128) || decide (secEnd m i > imgSize m) ||
        (List.range i).any fun j => decide (secCnt m j ≠ 0) && decide (o < secEnd m j) && decide (secOff m j < secEnd m i)
    flawIf bad { reason := 2, section_ := i, value := o + c * 2 ^ 32, offset := 16 + 8 * i }

/-- Step 3. -/
def checkDigest (m : List Byte) : Option LoadFlaw :=
  let z := m.take 96 ++ List.replicate 32 0 ++ m.drop 128
  flawIf (shaBytes (sha256 z) != (m.drop 96).take 32) { reason := 3, value := imgN m 96 8, offset := 96 }

/-- Two rectangles share a tile. -/
def rectsMeet (a b : Nat × Nat × Nat × Nat) : Bool :=
  decide (a.1 < b.1 + b.2.2.1) && decide (b.1 < a.1 + a.2.2.1) && decide (a.2.1 < b.2.1 + b.2.2.2) && decide (b.2.1 < a.2.1 + a.2.2.2)

/-- Step 4. -/
def checkPatterns (m : List Byte) (ps : List Pat) : Option LoadFlaw :=
  let blob := secCnt m 7
  ps.findSome? fun p =>
    let o := entryAt m 0 p.idx
    let off (k n : Nat) : Bool := let v := imgN m (o + 4 * k) 4; v != absent && (decide (v % 16 ≠ 0) || decide (v + n > blob))
    let first := imgN m (o + 16) 4
    let eng (k : Nat) : Bool := p.blks.any fun (e, b) => e == k && decide ((blockAt m b).eng ≠ e)
    let d := [off 0 16 || off 1 16 || eng 0 || eng 1, off 2 16 || off 3 128 || eng 2,
      imgN m (o + 22) 2 != 0 || p.rects.isEmpty || decide (first + p.rects.length > secCnt m 1), imgN m (o + 24) 8 != 0]
    if d.any id then some { entryFlawIn m 4 0 p.idx d with pattern := p.idx }
    else p.rects.zipIdx.findSome? fun (r, j) =>
      let earlier := (((ps.take p.idx).map fun q => q.rects).flatten) ++ p.rects.take j
      flawIf (decide (r.2.2.1 = 0) || decide (r.2.2.2 = 0) || decide (r.1 + r.2.2.1 > imgW m) || decide (r.2.1 + r.2.2.2 > imgH m) || earlier.any (rectsMeet r))
        { entryFlaw m 4 1 (first + j) with pattern := p.idx }

/-- A kind-0 target into a block of a pattern names a slot that takes the operand from a token (R48). -/
def targetFits (m : List Byte) (p : Pat) (e slot : Nat) (op : Opnd) : Bool :=
  match patBlock m p e with
  | some b => (match b.words[slot]? with | some w => takesOp w op | none => false)
  | none => false

/-- The elements of a pattern whose targets name an output channel, in block and slot order. -/
def outElems (m : List Byte) (p : Pat) (out : Nat) : List ImgElem :=
  (elemsAll m [p]).filter fun e => (wordPorts e.word).contains out

/-- The sources of an output channel in a pattern: input channels that forward to it, and elements that name it, each once (R36). -/
def outSources (m : List Byte) (p : Pat) (out : Nat) : List (Option Nat) :=
  ((List.range 56).filter fun i => let v := patRoute m p i; decide (v / 16384 = 2) && decide (v % 64 = out)).map some ++
  (outElems m p out).map fun _ => (none : Option Nat)

/-- Every source of an output channel with several is tied to a REDUCE link, on every tile of the pattern, and to no other (R219). -/
def joinTied (p : Pat) (ls : List ImgLink) (out : Nat) (src : List (Option Nat)) : Bool :=
  (patTiles p).all fun (x, y) => src.all fun s =>
    let tied := ls.filter fun l => match s with
      | some i => linkForward l x y == some (i, out)
      | none => !l.reply && decide (l.px = x) && decide (l.py = y) && decide (l.pch % 64 = out)
    !tied.isEmpty && tied.all ImgLink.reduce

/-- Step 5. An entry of an absent table is reported at twice its number (log 105). -/
def checkRoutes (m : List Byte) (ps : List Pat) (ls : List ImgLink) : Option LoadFlaw :=
  ps.findSome? fun p =>
    let off := match p.route with | some o => o | none => 0
    let f (i : Nat) : LoadFlaw := { reason := 5, pattern := p.idx, section_ := 7, value := patRoute m p i, offset := off + 2 * i }
    let reply (i : Nat) (all : Bool) : Bool :=
      let ends (t : Nat × Nat) : Bool := ls.any fun l => l.reply && decide (l.cx = t.1) && decide (l.cy = t.2) && decide (l.cch % 64 = i)
      if all then (patTiles p).all ends else (patTiles p).any ends
    let bad (i : Nat) : Bool :=
      let v := patRoute m p i
      if v / 32768 = 0 then decide (v ≠ 0) || (decide (i ≥ 56) && reply i false)
      else if v / 1024 % 4 ≠ 0 then true
      else if v / 16384 % 2 = 0 then
        let out := v / 8 % 8
        decide (i ≥ 56) || decide (v / 4096 % 4 ≠ 0) || decide (v % 1024 / 64 ≠ 0) || decide (out > 3) || decide (out = i / 8) ||
          (let src := outSources m p (v % 64); decide (src.length > 1) && !joinTied p ls (v % 64) src)
      else
        decide (v / 4096 % 4 = 3) || decide (v / 512 % 2 = 1) || !targetFits m p (v / 4096 % 4) (v / 4 % 128) (opndAt (v % 4)) ||
          (decide (i ≥ 56) && !reply i true)
    match (List.range 64).find? bad with
    | some i => some (f i)
    | none =>
      -- output channels named by several elements: the item is the first element that is not the channel's first source (log 97)
      let second (e : ImgElem) : Bool := (wordPorts e.word).any fun o =>
        (match outElems m p o with | g :: _ => g != e | [] => false) && !joinTied p ls o (outSources m p o)
      ((elemsAll m [p]).find? second).map (wordReport 5)

/-- Step 6. Only a stream block holds a FORK; one elsewhere is step 7's (R405). The offending doubleword is the header's low one for its reserved bits,
else the high one; the item is the block (log 105). -/
def checkBlocks (m : List Byte) (ps : List Pat) : Option LoadFlaw :=
  ps.findSome? fun p => p.blks.findSome? fun (e, o) =>
    let h := imgN m o 16
    let b := blockAt m o
    let nent := fld h 96 2
    let ents := [fld h 89 7, fld h 82 7, fld h 75 7]
    let blobEnd := secEnd m 7
    let forks := (b.words.filter fun w => match wordIns w with | some (.fork _, _) => true | _ => false).length
    let rdvs := (b.words.filter fun w => match wordIns w with | some (.rdv _, _) => true | _ => false).length
    let bad := decide (fld h 112 16 ≠ 0xB10C) || decide (fld h 108 4 ≠ 1) || decide (fld h 106 2 = 3) || decide (b.nins = 0) || decide (b.nins > 128) ||
      (ents.take nent).any (fun k => decide (k ≥ b.nins)) || (ents.drop nent).any (· != 0) ||
      (if b.ctpres = 0 then decide (b.ctoff ≠ 0) else decide (b.ctoff < 2 + b.nins)) || decide (o + blockLen b > blobEnd) ||
      decide (o + 16 + 8 * b.nins > blobEnd) || (decide (e = 0) && decide (forks > 1)) || decide (rdvs > 1)
    let low := decide (fld h 0 32 ≠ 0)
    flawIf (bad || low) { reason := 6, pattern := p.idx, eng := e, section_ := 7, value := if low then h % 2 ^ 64 else h / 2 ^ 64, offset := o }

/-- Reason of a flaw of a word. -/
def flawReason (f : Flaw) : Nat :=
  match f with
  | .opcEngine => 8 | .typ => 9 | .mod => 10 | .src => 11 | .prdOut => 12 | .reservedBits => 13 | .target => 14 | .ctrlConst => 15

/-- The descriptor of an element is one that R49 and R50 allow. -/
def descOk (m : List Byte) (ps : List Pat) (k0 : Nat) : Bool :=
  let ((x, y, e, s), o) := descSpot m k0
  decide (fld k0 11 14 < imgW m * imgH m) && match patFor ps x y with
    | some p => targetFits m p e s o && (List.range 8).any fun c => decide (patRoute m p (56 + c) = 0xC000 + e * 4096 + s * 4 + opndNo o)
    | none => false

/-- Flaws of one word in its block, R56 step 7. -/
def checkWord (m : List Byte) (ps : List Pat) (ls : List ImgLink) (e : ImgElem) : Option LoadFlaw :=
  match decode e.word with
  | .error _ => some (wordReport 7 e)
  | .ok i =>
    let reordFed := match i with
      | .reord _ => e.blk.words.any fun w => (wordTargets w).contains (e.slot, .a)
      | _ => false
    let flaw := WellFormed.wordFlaw e.eng i
    -- SRC comes after OPC, TYP and MOD and before the rest (R56); that is where an element-fed A of REORD is refused
    if reordFed && (match flaw with | some f => decide (flawReason f > 11) | none => true) then some (wordReport 11 e)
    else match flaw with
    | some f => some (wordReport (flawReason f) e)
    | none =>
      let outside := (wordTargets e.word).any fun (s, o) => !targetFits m e.pat e.eng s o
      let unreduced := match i with
        | .aredl f => (match f.t0 with
          | .port p c _ => !(patTiles e.pat).all fun (x, y) => ls.any fun l =>
              l.reduce && decide (l.px = x) && decide (l.py = y) && decide (l.pch % 64 = chKey p.toNat c.toNat)
          | .elem _ _ => true)
        | _ => false
      let k0 := constAt m e.blk 0 e.slot
      let k0off := if e.blk.ctpres.testBit 0 then e.blk.off + 8 * e.blk.ctoff + 8 * e.slot else e.blk.off + 16 + 8 * e.slot
      if outside || unreduced then some (wordReport 14 e)
      else if holdsDesc e.word && decide (k0 / 2 ^ 25 ≠ 0) then some { wordReport 13 e with value := k0, offset := k0off }
      else if holdsDesc e.word && !descOk m ps k0 then some { wordReport 14 e with value := k0, offset := k0off }
      else none

/-- Step 7. -/
def checkWords (m : List Byte) (ps : List Pat) (ls : List ImgLink) : Option LoadFlaw := (elemsAll m ps).findSome? (checkWord m ps ls)

/-- Producers of an operand of an element on a tile (R49). -/
def producers (m : List Byte) (els : List ImgElem) (e : ImgElem) (op : Opnd) (x y : Nat) : Nat :=
  ((e.blk.words.map fun w => (wordTargets w).filter (· == (e.slot, op))).flatten).length +
  ((List.range 56).filter fun i => decide (patRoute m e.pat i = 0xC000 + e.eng * 4096 + e.slot * 4 + opndNo op)).length +
  ((els.map fun d => if holdsDesc d.word && descSpot m (constAt m d.blk 0 d.slot) == ((x, y, e.eng, e.slot), op) then (patTiles d.pat).length else 0).foldl (· + ·) 0)

/-- Step 8. -/
def checkProducers (m : List Byte) (ps : List Pat) : Option LoadFlaw :=
  let els := elemsAll m ps
  els.findSome? fun e =>
    let ops := match wordIns e.word with | some (i, _) => WellFormed.tokenOperands i | none => []
    flawIf (ops.any fun o => (patTiles e.pat).any fun (x, y) => producers m els e o x y != 1) (wordReport 16 e)

/-- Slots that a link needs for a round trip over `h` hops and `c` seams (R220). -/
def slotsNeeded (rate h c : Nat) : Nat := (rate * (2 + 2 * h + 28 * c) + 255) / 256

/-- Where a link's coordinates break R37 or R35. -/
def linkOff (m : List Byte) (ps : List Pat) (l : ImgLink) : Bool :=
  let pin := insideCfg m l.px l.py
  let cin := insideCfg m l.cx l.cy
  (if l.bound then pin == cin else !(pin && cin)) || l.tiles.any fun (x, y) => insideCfg m x y && (patFor ps x.toNat y.toNat).isNone

/-- A link entry breaks R37, R204, R35 or R72. A REPLY link is free of the agreement of ports and channels (log 105). -/
def linkBad (m : List Byte) (ps : List Pat) (ls : List ImgLink) (l : ImgLink) : Bool :=
  let o := entryAt m 2 l.idx
  let pin := insideCfg m l.px l.py
  let cin := insideCfg m l.cx l.cy
  let here (q : ImgLink) : Bool := q.cx == l.cx && q.cy == l.cy && q.cch / 8 == l.cch / 8
  let prior := (ls.take l.idx).filter here
  let ends := match l.steps.head?, l.steps.getLast? with
    -- of a boundary link only the end in the rectangle is this image's
    | some a, some b => if l.reply then false else (pin && l.pch / 8 != a.2.1) || (cin && l.cch / 8 != facing b.2.1)
    | _, _ => !l.reply && (l.pch / 8 != l.cch / 8 || decide (l.pch / 8 < 4))
  decide (l.pch > 63) || decide (l.cch > 63) || decide (l.pch / 8 = 7) || (decide (l.cch / 8 = 7) != l.reply) || decide (l.slots = 0) || decide (l.slots > 32) ||
    decide (l.flags > 7) || decide (l.rate = 0) || decide (l.rate > 256) || imgN m (o + 14) 2 != 0 ||
    linkOff m ps l || ends ||
    (!l.bound && !l.reply && decide (l.hops ≤ 1) && l.pch % 8 != l.cch % 8) ||
    (cin && (decide ((prior.map ImgLink.slots).foldl (· + ·) l.slots > 64) || prior.any fun q => q.cch == l.cch))

/-- A cycle that R221 refuses starts at a spot. -/
def badCycle (m : List Byte) (ps : List Pat) (ls : List ImgLink) (n : Nat) (s : Spot) : Bool :=
  let isCarry (s : Spot) : Bool := match wordAt m ps s with | some (_, w) => (match wordIns w with | some (.carry _, _) => true | _ => false) | none => false
  let free (s : Spot) : List Spot := ((imgEdges m ps ls s).filter fun e => !(isCarry e.1 && e.2.1 == .b)).map (·.1)
  let tight (s : Spot) : List Spot := if isCarry s then ((imgEdges m ps ls s).filter fun e => isCarry e.1 && decide (e.2.2 ≤ 1)).map (·.1) else []
  onCycle n free s || onCycle n tight s

/-- Elements of its block that an element feeds, itself among them, directly or through others (log 105). -/
def fedBy (m : List Byte) (ps : List Pat) (s : Spot) : List Spot :=
  let next (s : Spot) : List Spot := match wordAt m ps s with
    | some (_, w) => (wordTargets w).map fun (j, _) => (s.1, s.2.1, s.2.2.1, j)
    | none => []
  s :: reachSpots next 256 [s] []

/-- The element at a spot. -/
def spotElem (m : List Byte) (ps : List Pat) (s : Spot) : Option ImgElem :=
  (patFor ps s.1 s.2.1).bind fun p => (wordAt m ps s).map fun (b, w) => ⟨p, s.2.2.1, b, s.2.2.2, w⟩

/-- A reply link whose consumer may be outpaced (R222). -/
def rateBad (m : List Byte) (ps : List Pat) (ls : List ImgLink) (l : ImgLink) : Bool :=
  l.reply && match linkSpot m ps l with
  | none => false
  | some (s, _) =>
    let down := fedBy m ps s
    ls.any fun q => q.idx != l.idx && decide (q.rate < l.rate) &&
      ((match linkSpot m ps q with | some (t, _) => t == s | none => false) ||
       (!q.reply && decide (q.px = s.1) && decide (q.py = s.2.1) && down.any fun t => match wordAt m ps t with
          | some (_, w) => (wordPorts w).contains (q.pch % 64)
          | none => false))

/-- Step 9: entries, cycles, round trips, rates. -/
def checkLinks (m : List Byte) (ps : List Pat) (ls : List ImgLink) : Option LoadFlaw :=
  let spots := allSpots m ps
  -- the item that the report names is the first element that lies on such a cycle (log 97)
  let cyc := ((spots.find? (badCycle m ps ls (spots.length * (spots.length + 1)))).bind (spotElem m ps)).map (wordReport 18)
  let each (r : Nat) (bad : ImgLink → Bool) : Option LoadFlaw := (ls.find? bad).map fun l => entryFlawIn m r 2 l.idx [decide (r = 17) && linkOff m ps l, true]
  match each 17 (linkBad m ps ls) with
  | some f => some f
  | none => match cyc with
    | some f => some f
    | none => match each 19 fun l => decide (slotsNeeded l.rate (if l.bound then 1 else l.hops) 0 > l.slots) with
      | some f => some f
      | none => each 20 (rateBad m ps ls)

/-- Bindings: TID, ACC, FMT and RANK (R38). -/
def bindingsOf (m : List Byte) : List (Nat × Nat × Nat × Nat) :=
  (List.range (secCnt m 3)).map fun k => let v := imgN m (entryAt m 3 k) 8; (fld v 52 12, fld v 50 2, fld v 46 4, fld v 43 3)

/-- How an element names a TID: the TID and the access that its binding must allow. -/
def tidUse (w : BitVec 64) : Option (Nat × Nat) :=
  match wordIns w with
  | some (i, f) =>
    let t := f.imm.toNat / 16
    let atom : Option (Nat × Nat) := if f.md.getLsbD 5 then some (t, 3) else none
    match i with
    | .ldt _ => some (t, 1)
    | .win _ => some (t, 1)
    | .stt _ => some (t, 2)
    | .aadd _ | .afadd _ | .amin _ | .amax _ | .aand _ | .aor _ | .axor _ | .axch _ | .acas _ | .aincb _ => atom
    | _ => none
  | none => none

/-- Step 10. -/
def checkBindings (m : List Byte) (ps : List Pat) : Option LoadFlaw :=
  let bs := bindingsOf m
  match (List.range (secCnt m 3)).find? fun k =>
      let v := imgN m (entryAt m 3 k) 8
      decide (fld v 50 2 = 0) || decide (fld v 43 3 = 7) || decide (v % 2 ^ 43 ≠ 0) || (bs.take k).any fun b => b.1 == fld v 52 12 with
  | some k => some (entryFlaw m 21 3 k)
  | none => (elemsAll m ps).findSome? fun e => match tidUse e.word with
    | some (t, acc) => flawIf (!bs.any fun b => b.1 == t && decide (b.2.1 &&& acc = acc)) (wordReport 21 e)
    | none => none

/-- A footprint entry, R39. -/
structure Foot where
  idx : Nat
  spot : Spot
  flags : Nat
  tid : Nat
  lo : Nat
  hi : Nat
  deriving DecidableEq, Repr

def footAt (m : List Byte) (k : Nat) : Foot :=
  let o := entryAt m 4 k
  ⟨k, (imgN m o 2, imgN m (o + 2) 2, imgN m (o + 4) 1, imgN m (o + 5) 1), imgN m (o + 6) 2, imgN m (o + 8) 2, imgN m (o + 16) 8, imgN m (o + 24) 8⟩

/-- What kind of memory element a word is: none, access or atomic, and whether it is a load under F. -/
def memKind (w : BitVec 64) : Nat × Bool :=
  match wordIns w with
  | some (i, f) => (match i with
    | .ldt _ | .stt _ | .win _ | .sts _ | .stsi _ => (1, false)
    | .lds _ | .ldsi _ => (1, f.md.getLsbD 5)
    | .aadd _ | .afadd _ | .amin _ | .amax _ | .aand _ | .aor _ | .axor _ | .axch _ | .acas _ | .aincb _ => (2, false)
    | _ => (0, false))
  | none => (0, false)

/-- The word is one of the memory instructions of Table 11.3: opcodes 0xA0 to 0xBA, 0xC0 to 0xC8, 0xE9 and 0xEA. -/
def isMemory (w : BitVec 64) : Bool :=
  let o := (w >>> 56).toNat
  decide (0xA0 ≤ o) && decide (o ≤ 0xBA) || decide (0xC0 ≤ o) && decide (o ≤ 0xC8) || o == 0xE9 || o == 0xEA

/-- Two entries race, R300. -/
def races (m : List Byte) (ps : List Pat) (ls : List ImgLink) (n : Nat) (a b : Foot) : Bool :=
  let kind (f : Foot) : Nat × Bool := match wordAt m ps f.spot with | some (_, w) => memKind w | none => (0, false)
  let same := (a.flags.testBit 2 && b.flags.testBit 2) || (!a.flags.testBit 2 && !b.flags.testBit 2 && a.tid == b.tid)
  let reads (x y : Foot) : Bool := x.flags.testBit 0 && y.flags.testBit 1 && (kind x).2
  let next (s : Spot) : List Spot := (imgEdges m ps ls s).map (·.1)
  let path (x y : Foot) : Bool := (reachSpots next n [x.spot] []).contains y.spot
  a.spot != b.spot && same && decide (a.lo ≤ b.hi) && decide (b.lo ≤ a.hi) && (a.flags.testBit 1 || b.flags.testBit 1) &&
    !((kind a).1 == 2 && (kind b).1 == 2) && !reads a b && !reads b a && !path a b && !path b a

/-- Entries of step 11 without the race check. R39 names no refusal for a scratch range beyond 34 bits or an FTID above 4095 (log 105). -/
def checkFootprints (m : List Byte) (ps : List Pat) : Option LoadFlaw :=
  let fs := (List.range (secCnt m 4)).map (footAt m)
  let bad (f : Foot) : List Bool :=
    [(match wordAt m ps f.spot with | some (_, w) => !isMemory w | none => true) || decide (f.flags > 7) || decide (f.flags % 4 = 0),
     (f.flags.testBit 2 && decide (f.tid ≠ 0)) || imgN m (entryAt m 4 f.idx + 10) 6 != 0, false, decide (f.hi < f.lo)]
  match fs.find? fun f => (bad f).any id with
  | some f => some (entryFlawIn m 22 4 f.idx (bad f))
  | none => (elemsAll m ps).findSome? fun e =>
    flawIf ((memKind e.word).1 != 0 && (patTiles e.pat).any fun (x, y) => !fs.any fun f => f.spot == (x, y, e.eng, e.slot)) (wordReport 22 e)

/-- The first racing pair, named by its second entry (R301). -/
def checkRace (m : List Byte) (ps : List Pat) (ls : List ImgLink) : Option LoadFlaw :=
  let fs := (List.range (secCnt m 4)).map (footAt m)
  let n := (allSpots m ps).length * ((allSpots m ps).length + 1)
  (fs.find? fun b => (fs.take b.idx).any fun a => races m ps ls n a b).map fun b => entryFlaw m 23 4 b.idx

/-- Cut entries: CUTID and link (R40). -/
def cutsOf (m : List Byte) : List (Nat × Nat) := (List.range (secCnt m 5)).map fun k => (imgN m (entryAt m 5 k) 2, imgN m (entryAt m 5 k + 4) 4)

/-- Tiles of a link's path inside the rectangle. -/
def touched (m : List Byte) (l : ImgLink) : List (Nat × Nat) := (l.tiles.filter fun (x, y) => insideCfg m x y).map fun (x, y) => (x.toNat, y.toNat)

/-- Joins the groups that a set of tiles meets. -/
def joinGroups (gs : List (List (Nat × Nat))) (t : List (Nat × Nat)) : List (List (Nat × Nat)) :=
  let (hit, rest) := gs.partition fun g => g.any fun x => t.contains x
  (hit.flatten ++ t.filter (fun x => !hit.flatten.contains x)) :: rest

/-- The groups into which a cut set divides the linked tiles, R40. -/
def cutGroups (m : List Byte) (ls : List ImgLink) (cut : List Nat) : List (List (Nat × Nat)) :=
  let outside := (ls.filter fun l => !cut.contains l.idx).map (touched m)
  let gs := outside.foldl joinGroups []
  let only := ((ls.filter fun l => cut.contains l.idx).map (touched m)).flatten.eraseDups
  only.foldl (fun gs t => if gs.any fun g => g.contains t then gs else gs ++ [[t]]) gs

/-- Step 12. -/
def checkCuts (m : List Byte) (ls : List ImgLink) : Option LoadFlaw :=
  let cs := cutsOf m
  match (List.range (secCnt m 5)).find? fun k =>
      let o := entryAt m 5 k
      imgN m o 2 == 0 || imgN m (o + 2) 2 != 0 || decide (imgN m (o + 4) 4 ≥ ls.length) with
  | some k => some (entryFlaw m 24 5 k)
  | none => ((cs.zipIdx.find? fun (c, _) =>
      let cut := (cs.filter fun d => d.1 == c.1).map (·.2)
      ls.any (fun l => cut.contains l.idx && l.bound) || decide ((cutGroups m ls cut).length ≠ 2)).map fun (_, k) => entryFlaw m 24 5 k)

/-- Steps 13 and 14. The item of a block's FEAT is the block (log 105). -/
def checkFeatures (m : List Byte) (ps : List Pat) : Option LoadFlaw :=
  if secCnt m 6 ≠ secCnt m 0 then some { reason := 25, section_ := 6, value := secOff m 6 + secCnt m 6 * 2 ^ 32, offset := 64 }
  else
    let blks := (ps.map fun p => p.blks.map fun (e, o) => (p, e, blockAt m o)).flatten
    let union := blks.foldl (fun a b => a ||| b.2.2.feat) 0
    let lacks (w : BitVec 64) (feat : Nat) : Bool := match wordIns w with
      | some (i, _) => decide (WellFormed.featureOf i &&& feat ≠ WellFormed.featureOf i)
      | none => false
    -- each block's header, then its words (R56)
    let one (x : Pat × Nat × ImgBlock) : Option LoadFlaw :=
      let (p, e, b) := x
      if b.feat / 4096 ≠ 0 then some { reason := 26, pattern := p.idx, eng := e, section_ := 7, value := b.feat, offset := b.off }
      else b.words.zipIdx.findSome? fun (w, j) => flawIf (lacks w b.feat) (wordReport 26 ⟨p, e, b, j, w⟩)
    match blks.findSome? one with
    | some f => some f
    | none => flawIf (decide (union ≠ imgFeatu m)) { reason := 26, value := imgFeatu m, offset := 80 }

/-- The check pass over an image already past step 1 (R56): the refusal, or none with the flag of a race under FLAG (R57) (log 93). -/
def checkImage (m : List Byte) (racem : Bool) : Option LoadFlaw × Option LoadFlaw :=
  match checkSections m with
  | some f => (some f, none)
  | none =>
    let ps := patsOf m
    let ls := linksOf m
    let race (_ : Unit) : Option LoadFlaw := checkRace m ps ls
    let first (l : List (Unit → Option LoadFlaw)) : Option LoadFlaw := l.findSome? fun g => g ()
    match first [fun _ => checkDigest m, fun _ => checkPatterns m ps, fun _ => checkRoutes m ps ls, fun _ => checkBlocks m ps,
        fun _ => checkWords m ps ls, fun _ => checkProducers m ps, fun _ => checkLinks m ps ls, fun _ => checkBindings m ps,
        fun _ => checkFootprints m ps, fun _ => if racem then none else race (), fun _ => checkCuts m ls, fun _ => checkFeatures m ps] with
    | some f => (some f, none)
    | none => (none, race ())

/-- The parts of an image whose hash a pattern retains, as offset and length: entry, route table, blocks and bank mask (R59). -/
def patParts (m : List Byte) (p : Pat) : List (Nat × Nat) :=
  [(entryAt m 0 p.idx, 32)] ++ (match p.route with | some o => [(o, 128)] | none => []) ++
    (p.blks.map fun (_, o) => (o, blockLen (blockAt m o))) ++ [(entryAt m 6 p.idx, 2)]

def patBytes (m : List Byte) (p : Pat) : List Byte := ((patParts m p).map fun (o, n) => (m.drop o).take n).flatten

def patHashes (m : List Byte) : List (BitVec 256) := (patsOf m).map fun p => sha256 (patBytes m p)

/-- Bank demand of a pattern, R41. -/
def patBank (m : List Byte) (p : Pat) : BitVec 16 := BitVec.ofNat 16 (imgN m (entryAt m 6 p.idx) 2)

end Sys2Proof.Machine
end

