-- ==== Sys2Proof/Machine/Loader.lean ====
section
/-! DEFINITION. The loader: arming checks (R390), the check pass and the copy pass (R50, R58 to R62), and a pattern's arrival at a tile (R215,
R503). -/

namespace Sys2Proof.Machine

open Sys2Proof

/-! ### Reading an image -/

/-- What a read of the loader meets (R61). -/
inductive LoadRead where
  | ok (b : List Byte)
  | wait
  | fail (cause : Nat)

/-- The first address of a list of runs whose page is absent. -/
def absentPage (s : State) (lid : Nat) : List (Nat × Nat) → Option Nat
  | [] => none
  | (va, _) :: r => match (walkLease s lid va false).2 with | .absent => some va | _ => absentPage s lid r

/-- A page fault of the loader: a PFREC is open for the page, or one is posted; a declined one fails the read (R61, R358). -/
def loaderFault (s : State) (lid va : Nat) : State × LoadRead :=
  let l := leaseAt s lid
  match l.pfrecs.find? fun f => f.loader && f.va.toNat / 65536 == va / 65536 with
  | some f =>
    if f.declined then (modLease s lid fun l => { l with pfrecs := l.pfrecs.filter fun g => g.tag != f.tag }, .fail cTranslation)
    else (s, .wait)
  | none =>
    let f : Pfrec := { tag := l.ftag, va := BitVec.ofNat 64 va, tid := 0, write := false, element := 0, rid := 0, loader := true }
    let s := modLease s lid fun l => { l with pfrecs := l.pfrecs ++ [f], ftag := l.ftag + 1 }
    (postPfrec s lid f, .wait)

/-- Reads bytes of an image. -/
def loaderRead (s : State) (lid va n : Nat) : State × LoadRead :=
  match vaRead s lid va n with
  | (s, .ok b) => (s, .ok b)
  | (s, .error c) => match absentPage s lid (pageRuns (n / 65536 + 2) va n) with
    | some a => if c = cTranslation then loaderFault s lid a else (s, .fail c)
    | none => (s, .fail c)

/-- Reads parts of an image, one behind the other. -/
def loaderParts (s : State) (lid va : Nat) : List (Nat × Nat) → State × LoadRead
  | [] => (s, .ok [])
  | (o, n) :: r => match loaderRead s lid (va + o) n with
    | (s, .ok b) => (match loaderParts s lid va r with
      | (s, .ok c) => (s, .ok (b ++ c))
      | x => x)
    | x => x

/-! ### Arming checks -/

/-- A launch header breaks R23. -/
def launchBad (h : BitVec 128) : Bool :=
  let n := launchNlev h
  let k := launchSched h
  let w (j : Nat) : Nat := launchW h j
  let p := ((List.range 7).filter fun j => decide (1 ≤ j ∧ j ≤ k)).foldl (fun a j => a + w j) 0
  let all := (List.range 7).foldl (fun a j => if 1 ≤ j ∧ j ≤ n then a + w j else a) 0
  let g := fld h.toNat 48 32
  let i := fld h.toNat 16 32
  decide (n = 0 ∨ n > 6 ∨ k = 0 ∨ k > n) || ((List.range 7).any fun j => decide (1 ≤ j ∧ j ≤ n) && decide (w j = 0)) || decide (all > 64) ||
    ((List.range 7).any fun j => decide (j > n) && decide (w j ≠ 0)) || decide (g = 0) || decide (g > 2 ^ p) || decide (i = 0) ||
    decide (i > 2 ^ (all - p)) || decide (h.toNat % 65536 ≠ 0)

/-- Raw FMT and RANK of a TID table entry against a binding (R38). -/
def bindingMiss (e : Nat) (b : Nat × Nat × Nat × Nat) : Bool :=
  (decide (b.2.2.1 ≠ 0) && decide (fld e 250 4 ≠ b.2.2.1)) || (decide (b.2.2.2 ≠ 0) && decide (fld e 247 3 ≠ b.2.2.2))

/-- Checks 3 and 4 of R390 over a node's bindings: none, or the cause with its detail. A passing check stores the entries as read. -/
def checkTids (s : State) (lid g n : Nat) (bs : List (Nat × Nat × Nat × Nat)) : State × Option (Nat × Option Nat) :=
  let raw (s : State) (b : Nat × Nat × Nat × Nat) : State × Except Nat Nat := vaReadN s lid ((leaseAt s lid).rcd.tidb.toNat + 32 * b.1) 32
  let (s, miss) := bs.foldl (fun (a : State × Option (Nat × Option Nat)) b => match a.2 with
    | some _ => a
    | none => match raw a.1 b with
      | (s, .error c) => (s, some (cConfigFetch, some c))
      | (s, .ok e) => (s, if bindingMiss e b then some (cTidBinding, none) else none)) (s, none)
  match miss with
  | some m => (s, some m)
  | none => bs.foldl (fun (a : State × Option (Nat × Option Nat)) b => match a.2 with
      | some _ => a
      | none => match readTid a.1 lid b.1 with
        | (s, .error c) => (s, some (cConfigFetch, some c))
        | (s, .ok none) => (s, some (cTidFormat, none))
        | (s, .ok (some t)) =>
          (modLease s lid fun l => { l with tids := l.tids.put (tidKey g n b.1) { t with acc := BitVec.ofNat 2 b.2.1 } }, none)) (s, none)

/-- A region on which a node could follow on a track (R395): its source has issued all its segments, which nothing but a GROW could add to, and
nothing is armed behind it yet (R18). -/
def trackRegion (l : Lease) (g n : Nat) : Option Region :=
  match l.graphs.find g, nodeAt l g n with
  | some x, some m =>
    if m.state != .waiting || m.pend != 1 || !isConfig m then none
    else l.regions.find? fun r =>
      r.graph == g && r.next.isNone && r.pred.isNone && !r.turnOver && !r.stopped && !r.held && (match x.nodes[r.node]? with
        | some nd => nd.state == .running && nd.giss == nd.gcur && decide (heldBy l g r.node = 1) &&
            (outEdges x nd).any fun e => edgeTrack e && edgeDst e == n
        | none => false)
  | _, _ => none

/-- The entry of RDYQ that the dispatcher is held up at: the first without a checked image, under the age rule (R392). -/
def dispatchWants (l : Lease) : Option (Nat × Nat) :=
  let q := match l.rdyq with
    | h :: r => (match nodeAt l h.1 h.2 with
      | some nd => if decide (nd.skip.toNat ≥ l.rcd.agel.toNat) && decide (heldBy l h.1 h.2 = 0) then [h] else h :: r
      | none => h :: r)
    | [] => []
  -- a node whose own region's turn has just ended may go on with no load
  q.find? fun e => !l.checked.any (fun c => c.graph == e.1 && c.node == e.2) &&
    !l.regions.any fun r => r.graph == e.1 && r.node == e.2 && r.turnOver && r.next.isNone && !r.stopped

/-- A flag of the check pass: a LOAD record with status 2; the load goes on (R57). Its cause is free (log 8). -/
def flagLoad (s : State) (lid g n : Nat) (f : LoadFlaw) : State :=
  let (d, s) := free s
  let r : StopRec := { kind := 3, cause := BitVec.ofNat 32 d, graph := g, node := n, tile := 0xFFFF, eng := 5, slot := 0xFF, payload := reportBits 2 f }
  modLease s lid fun l => { l with recs := l.recs ++ [r] }

/-- The node's checks are over: with a failure it faults, unless it still waits on a track (R387) (log 59). -/
def checkFails (s : State) (lid g n kind cause : Nat) (detail : Option Nat) (payload : BitVec 256) : State :=
  match nodeAt (leaseAt s lid) g n with
  | some nd =>
    if nd.state == .waiting then s
    else match detail with
      | some d => graphFault s lid kind g n cause d payload
      | none =>
        let (d, s) := free s
        graphFault s lid kind g n cause d payload
  | none => s

/-- A node becomes READY, and its launch header is checked (R23, R390). -/
def readyNode (s : State) (lid g n : Nat) : State :=
  let s := moveNode s lid g n .ready
  match nodeAt (leaseAt s lid) g n with
  | some nd => if nd.state == .ready && isConfig nd && launchBad nd.launch then checkFails s lid g n 4 cLaunchInvalid none 0 else s
  | none => s

/-- Reads an image whole: the header first, and no byte beyond a header that fails (R59). -/
def readImage (s : State) (lid va : Nat) : State × Except (Option LoadFlaw) LoadRead :=
  match loaderRead s lid va 128 with
  | (s, .ok h) => (match checkHeader h with
    | some f => (s, .error (some f))
    | none => match loaderRead s lid va (imgSize h) with
      | (s, r) => (s, .ok r))
  | (s, r) => (s, .ok r)

/-- CHECK_PASS, R59, R390: the arming checks of a node that the dispatcher or a track is to arm. -/
def execCheckPass (lid g n : Nat) (s : State) : Host.Outcome State Fault Refusal :=
  let l := leaseAt s lid
  match nodeAt l g n with
  | none => .next s
  | some nd =>
    let track := (trackRegion l g n).isSome && !l.checked.any fun c => c.graph == g && c.node == n
    if !mayIssue l || !(dispatchWants l == some (g, n) || track) then .next s
    else
      let first := nd.state == .ready || nd.state == .waiting
      if first && launchBad nd.launch then .next (checkFails s lid g n 4 cLaunchInvalid none 0)
      else match readImage s lid nd.cfgp.toNat with
        | (s, .error (some f)) => .next (checkFails s lid g n 3 cLoadRefused none (reportBits 1 f))
        | (s, .error none) => .next s
        | (s, .ok .wait) => .next s
        | (s, .ok (.fail c)) => .next (checkFails s lid g n 4 cConfigFetch (some c) 0)
        | (s, .ok (.ok m)) => match checkImage m (leaseAt s lid).rcd.racem with
          | (some f, _) => .next (checkFails s lid g n 3 cLoadRefused none (reportBits 1 f))
          | (none, flag) =>
            let s := match flag with | some f => flagLoad s lid g n f | none => s
            match (if first then checkTids s lid g n (bindingsOf m) else (s, none)) with
            | (s, some (c, d)) => .next (checkFails s lid g n 4 c d 0)
            | (s, none) => .next (modLease s lid fun l =>
                { l with checked := (l.checked.filter fun c => !(c.graph == g && c.node == n)) ++ [⟨g, n, m, patHashes m⟩], woken := true })

/-! ### Planes -/

/-- A block as the loader writes it into a tile's plane, with descriptors rewritten (R50) and the reply link's figures at its requester (R223). -/
def loadBlock (m : List Byte) (ps : List Pat) (ls : List ImgLink) (lw ox oy : Nat) (b : ImgBlock) : Block :=
  { feat := BitVec.ofNat 32 b.feat, ents := b.ents
    elems := b.words.zipIdx.map fun (w, j) =>
      let k0 := constAt m b 0 j
      let d := holdsDesc w
      let t := fld k0 11 14
      let k := if d then setFld k0 11 14 ((oy + t / imgW m) * lw + (ox + t % imgW m)) else k0
      let link := if d then ls.find? fun l => l.reply && linkSpot m ps l == some (descSpot m k0) else none
      let (slots, rate) := match link with | some l => (l.slots, l.rate) | none => (0, 0)
      let sv : Word := low (constAt m b 2 j)
      { word := w, k0 := BitVec.ofNat 64 k, k1 := BitVec.ofNat 64 (constAt m b 1 j), s := sv, sInit := sv, rbkt := BitVec.ofNat 16 (slots * 1024),
        rslots := slots, rrate := rate } }

/-- The links that take slots at a tile, the lowest-indexed of each channel. -/
def slotLinks (ls : List ImgLink) (x y : Nat) : List ImgLink :=
  ls.filter fun l => decide (l.cx = (x : Int)) && decide (l.cy = (y : Int)) && !(ls.take l.idx).any fun q => q.cx == l.cx && q.cy == l.cy && q.cch == l.cch

/-- A plane of the empty pattern (R35), of a region. -/
def blankPlane (r : Region) : Plane :=
  { pst := .loading, whole := true, cext := mkReg (imgW r.img - 1) (imgH r.img - 1), rorg := mkReg r.ox r.oy, graph := r.graph, node := r.node, rid := r.rid }

/-- What a pattern writes into the plane of a configuration-relative tile (R15, R43, R59, R103, R203, R219). -/
def loadPlane (rc : BindRec) (r : Region) (p : Pat) (x y : Nat) : Plane :=
  let m := r.img
  let ps := patsOf m
  let ls := linksOf m
  let blk (e : Nat) : Option Block := (patBlock m p e).map (loadBlock m ps ls (leaseW rc) r.ox r.oy)
  let route : Tab (BitVec 16) := (List.range 64).filterMap fun i => let v := patRoute m p i; if v = 0 then none else some (i, BitVec.ofNat 16 v)
  { blankPlane r with
    route := route
    salloc := (slotLinks ls x y).foldl (fun t l => Tab.put t (l.cch % 64) (BitVec.ofNat 6 l.slots)) []
    reduce := (List.range 56).filter fun o => decide ((outSources m p o).length > 1)
    blk0 := blk 0
    blk1 := blk 1
    blk2 := blk 2
    banks := patBank m p }

/-- The plane of a tile that a load for a region goes to (R503): the active plane when it is EMPTY, else the shadow. -/
def loadTarget (x : Tile) : Bool := if (activePlane x).pst == .empty then x.planeB else !x.planeB

/-- The plane of a tile that was loaded for a region. -/
def planeFor (x : Tile) (rid : Nat) : Option Bool :=
  [x.planeB, !x.planeB].find? fun b => (planeOf x b).pst != .empty && (planeOf x b).rid == rid

/-- The module tiles of a pattern in a region with their configuration-relative coordinates. -/
def patPlaces (rc : BindRec) (r : Region) (p : Pat) : List (Nat × Nat × Nat) := (patTiles p).map fun (x, y) => (tileOfXy rc (r.ox + x) (r.oy + y), x, y)

/-- Output and input keys that a pattern uses: forwarding routes, deliveries and element targets. -/
def patKeys (m : List Byte) (p : Pat) : List Nat × List Nat :=
  ((List.range 56).filter fun o => !(outSources m p o).isEmpty, (List.range 56).filter fun i => patRoute m p i / 32768 = 1)

/-- A portal holds a channel that a pattern of region `rid` would use on a tile (R372). The ends of the region's own portals are its channels (log 44). -/
def portalHolds (m : List Byte) (p : Pat) (rid : Nat) (x : Tile) : Bool :=
  let (outs, ins) := patKeys m p
  x.ptab.any fun e => (e.op != 7 && !(e.ip == 7 && e.src.1 == rid) && outs.contains (chKey e.op e.oc)) ||
    (e.ip != 7 && !(e.op == 7 && e.dst == rid) && ins.contains (chKey e.ip e.ic))

/-- The tiles of a pattern begin to load: PST becomes LOADING (R59). -/
def beginPattern (r : Region) (s : State) (ts : List Nat) : State :=
  ts.foldl (fun s t => modTile s t fun x => withPlane x (loadTarget x) { blankPlane r with whole := false }) s

/-- The tiles of a pattern have planes free to load into (R18). -/
def patternFree (s : State) (ts : List Nat) : Bool := ts.all fun t => let x := tileAt s t; (planeOf x (loadTarget x)).pst == .empty

/-- Starts the load of a region just allotted: its empty tiles are sent whole and pattern 0 begins (R35, R59). -/
def startLoad (s : State) (lid rid : Nat) : State :=
  let l := leaseAt s lid
  match regionAt l rid with
  | none => s
  | some r =>
    let ps := patsOf r.img
    let blank := ((List.range r.h).map fun y => ((List.range r.w).filter fun x => (patFor ps x y).isNone).map fun x => tileOfXy l.rcd (r.ox + x) (r.oy + y)).flatten
    let s := blank.foldl (fun s t => modTile s t fun x => withPlane x (loadTarget x) (blankPlane r)) s
    match ps with
    | p :: _ => beginPattern r s ((patPlaces l.rcd r p).map (·.1))
    | [] => s

/-- A trap of the loader in the copy pass (R61, R417). -/
def loaderTrap (s : State) (lid : Nat) (r : Region) (cause detail : Nat) : State := trap s lid cause detail ⟨0xFFFF, 5, 0xFF, r.graph, r.node⟩ 0 0

/-- COPY_PASS_PATTERN, R59 to R61, R372: the next pattern of a region's load is read again, compared and sent. -/
def execCopyPassPattern (lid rid : Nat) (s : State) : Host.Outcome State Fault Refusal :=
  let l := leaseAt s lid
  match regionAt l rid with
  | none => .next s
  | some r => match r.nextPat with
    | none => .next s
    | some k => match (patsOf r.img)[k]? with
      | none => .next (modLease s lid fun l => modRegion l rid fun r => { r with nextPat := none })
      | some p =>
        let places := patPlaces l.rcd r p
        let live := match nodeAt l r.graph r.node with | some nd => nd.state == .armed || nd.state == .running | none => false
        let held := places.any fun (t, _, _) => let x := tileAt s t; x.moving || portalHolds r.img p rid x
        if !mayIssue l || !live || r.stopped || held || !r.behind.isEmpty then .next s
        else if !places.all fun (t, _, _) => (planeFor (tileAt s t) rid).isSome then
          -- an earlier castling has freed the planes by now, or has not
          .next (if patternFree s (places.map (·.1)) then beginPattern r s (places.map (·.1)) else s)
        else match loaderParts s lid r.va (patParts r.img p) with
          | (s, .wait) => .next s
          | (s, .fail c) => .next (loaderTrap s lid r cConfigFetch c)
          | (s, .ok b) =>
            if r.hashes[k]? ≠ some (sha256 b) then (let (d, s) := free s; .next (loaderTrap s lid r cImageChanged d))
            else
              let s := places.foldl (fun s (t, x, y) => match planeFor (tileAt s t) rid with
                | some pb => modPlane s t pb fun _ => loadPlane l.rcd r p x y
                | none => s) s
              let more := (patsOf r.img)[k + 1]?
              let s := modLease s lid fun l => modRegion l rid fun r => { r with nextPat := if more.isSome then some (k + 1) else none }
              .next (match more with
                | some q => let ts := (patPlaces l.rcd r q).map (·.1); if patternFree s ts then beginPattern r s ts else s
                | none => s)

/-! ### Arrival of a pattern -/

/-- A tile of a region holds its part of the region's configuration. -/
def tileHolds (s : State) (rid t : Nat) : Bool :=
  let x := tileAt s t
  match planeFor x rid with
  | some b => (planeOf x b).pst == .complete || (planeOf x b).pst == .active
  | none => false

/-- Module tile of a configuration-relative place of a region. -/
def placeTile (rc : BindRec) (r : Region) (c : Int × Int) : Nat :=
  tileOfXy rc (cfgPlace r c.1.toNat c.2.toNat).1 (cfgPlace r c.1.toNat c.2.toNat).2

/-- Every tile of a link's path inside its region holds its routes (R215). -/
def linkStands (s : State) (rc : BindRec) (r : Region) (l : ImgLink) : Bool :=
  (l.tiles.filter fun c => insideCfg r.img c.1 c.2).all fun c => tileHolds s r.rid (placeTile rc r c)

/-- Sends a demand `n` times. -/
def repeatDemand (f : State → State) : Nat → State → State
  | 0, s => s
  | n + 1, s => repeatDemand f n (f s)

/-- A link of a region that has come to stand: its consumer sends SALLOC demands, and each join on its path one for the link's place (R215,
R219). -/
def openLink (s : State) (lid : Nat) (r : Region) (ls : List ImgLink) (l : ImgLink) : State :=
  let rc := (leaseAt s lid).rcd
  let back (t key : Nat) (s : State) : State := demandBack s t key lid r.rid r.graph r.node
  let ends := if l.bound then s
    else if (ls.take l.idx).any fun q => q.cx == l.cx && q.cy == l.cy && q.cch == l.cch then s
    else repeatDemand (back (placeTile rc r (l.cx, l.cy)) (l.cch % 64)) l.slots s
  if !l.reduce then ends
  else l.tiles.foldl (fun s c => match linkForward l c.1 c.2 with
    | none => s
    | some (i, o) =>
      let t := placeTile rc r c
      let joins := match planeFor (tileAt s t) r.rid with | some b => (planeOf (tileAt s t) b).reduce.contains o | none => false
      let prior := (ls.take l.idx).any fun q => match linkForward q c.1 c.2 with | some (j, _) => j == i | none => false
      if insideCfg r.img c.1 c.2 && joins && !prior then back t i s else s) ends

/-- Where a link enters the configuration: its first tile inside, with the input channel there. -/
def linkEntry (m : List Byte) (l : ImgLink) : Option ((Int × Int) × Nat) :=
  (l.tiles.find? fun c => insideCfg m c.1 c.2).map fun c => (c, match linkForward l c.1 c.2 with | some (i, _) => i | none => l.cch % 64)

/-- A boundary link whose consumer's end is the region's enters over a reach port (R30, R36). -/
def reachFed (rc : BindRec) (r : Region) (l : ImgLink) : Bool :=
  l.bound && !l.reply && insideCfg r.img l.cx l.cy && !(r.binds.any fun e => e.1 == l.idx) && match linkEntry r.img l with
    | some (c, k) => decide (k / 8 < 4) && (neighbour (placeTile rc r c) (k / 8)).isNone && (reachFor (placeTile rc r c) (k / 8) (k % 8)).isSome
    | none => false

/-- Its consumer sends SALLOC demands to the peer (R215). -/
def openReach (s : State) (lid : Nat) (r : Region) (ls : List ImgLink) (l : ImgLink) : State :=
  let rc := (leaseAt s lid).rcd
  if !(reachFed rc r l && linkStands s rc r l) || (ls.take l.idx).any (fun q => q.cx == l.cx && q.cy == l.cy && q.cch == l.cch) then s
  else repeatDemand (fun s => demandBack s (placeTile rc r (l.cx, l.cy)) (l.cch % 64) lid r.rid r.graph r.node) l.slots s

/-- The consumer of a bound stream sends its demands once both ends stand (R215, R372). -/
def openStream (s : State) (lid : Nat) (r : Region) (bind : Nat × Nat × Nat) : State :=
  let l := leaseAt s lid
  match regionAt l bind.2.2 with
  | none => s
  | some q =>
    let cl := linkAt r.img bind.1
    let pl := linkAt q.img bind.2.1
    if !(linkStands s l.rcd r cl && linkStands s l.rcd q pl) then s
    else
      let t := placeTile l.rcd r (cl.cx, cl.cy)
      repeatDemand (fun s => demandBack s t (cl.cch % 64) lid r.rid r.graph r.node) cl.slots s

/-- PATTERN_ARRIVED, R59, R215, R503: a tile's pattern has arrived whole. The plane is COMPLETE, or ACTIVE at once where it loads into the active
plane; links that now stand on every tile of their paths get their demands. -/
def execPatternArrived (t : Nat) (s : State) : Host.Outcome State Fault Refusal :=
  let x := tileAt s t
  match [x.planeB, !x.planeB].find? fun b => (planeOf x b).pst == .loading && (planeOf x b).whole with
  | none => .next s
  | some b =>
    let p := planeOf x b
    let lid := x.tlease.toNat
    if x.moving || !leaseRuns (leaseAt s lid) || (match regionAt (leaseAt s lid) p.rid with | some r => !r.behind.isEmpty | none => false) then .next s
    else
      let act := b == x.planeB
      let s := modPlane s t b fun p => { p with pst := if act then .active else .complete }
      let l := leaseAt s lid
      match regionAt l p.rid with
      | none => .next s
      | some r =>
        let at_ : Int × Int := ((regX x.tlxy : Int) - r.ox, (regY x.tlxy : Int) - r.oy)
        let ls := linksOf r.img
        let mine := ls.filter fun k => !k.reply && !k.bound && k.tiles.contains at_
        let s := mine.foldl (fun s k => if linkStands s l.rcd r k then openLink s lid r ls k else s) s
        let s := (ls.filter fun k => k.bound && k.tiles.contains at_).foldl (fun s k => openReach s lid r ls k) s
        let s := r.binds.foldl (fun s e => if (linkAt r.img e.1).tiles.contains at_ then openStream s lid r e else s) s
        let s := l.regions.foldl (fun s q => q.binds.foldl (fun s e =>
          if e.2.2 = r.rid ∧ (linkAt r.img e.2.1).tiles.contains at_ then openStream s lid q e else s) s) s
        .next (if act then startTile s t else s)

end Sys2Proof.Machine
end

