-- ==== Sys2Proof/Machine/Commands.lean ====
section
/-! DEFINITION. Command entries (R271, Table 22.3), completion entries (R485), journal states (R273, R274), and the end of a command. -/

namespace Sys2Proof.Machine

open Sys2Proof

/-! ### Fields of a command entry -/

def cmdKind (c : Cmd) : Nat := fld c.e.toNat 0 8
def cmdTag (c : Cmd) : Nat := fld c.e.toNat 64 64
/-- `n` bytes of a command entry. -/
def cmdField (c : Cmd) (off n : Nat) : Nat := fld c.e.toNat (8 * off) (8 * n)
def cmdLease (c : Cmd) : Nat := cmdField c 16 1
def cmdGraph (c : Cmd) : Nat := cmdField c 18 2

/-- Statuses of Table 22.2. -/
def stAccepted : Nat := 0x00
def stRejKind : Nat := 0x01
def stRejField : Nat := 0x02
def stRejLease : Nat := 0x03
def stRejBound : Nat := 0x04
def stAborted : Nat := 0x05
def stKeyBusy : Nat := 0x06
def stDone : Nat := 0x07
def stGbusy : Nat := 0x08
def stGraphInvalid : Nat := 0x09
def stNotPart : Nat := 0x0A
def stConeStream : Nat := 0x0B
def stSlotBusy : Nat := 0x0C
def stBadField : Nat := 0x0D
def stOverlap : Nat := 0x0E
def stShare : Nat := 0x0F
def stFeatureAbsent : Nat := 0x10
def stBankBusy : Nat := 0x11
def stNotActive : Nat := 0x12
def stSaveFull : Nat := 0x13
def stRemoved : Nat := 0x14
def stSeamSlots : Nat := 0x15
def stBankGrant : Nat := 0x16
def stDrainTimeout : Nat := 0x17
def stQueueState : Nat := 0x18
def stFaultTag : Nat := 0x19
def stGraphFetch : Nat := 0x1A

/-! ### Entries and the journal -/

/-- Puts a completion entry into the line of a PF's queue (R485) (log 86). -/
def postEntry (s : State) (pf : Nat) (e : CEntry) : State :=
  let p := s.pfs.get pf {}
  { s with pfs := s.pfs.put pf { p with cwait := p.cwait ++ [{ e with after := p.nbuf.length + p.nmerged.length }] } }

/-- Moves a journal entry forward to a state (R274). -/
def journalTo (s : State) (seq st : Nat) : State :=
  let go (e : JEntry) : JEntry :=
    if e.seq = seq ∧ (e.state = 1 ∨ e.state = 2) ∧ st > e.state then { e with state := st, tfin := if st ≥ 3 then s.tick else e.tfin } else e
  journalDrain s.jpend.length { s with journal := s.journal.map go, jdirty := if s.jdirty.contains seq then s.jdirty else s.jdirty ++ [seq] }

/-- Ends a command: its outcome entry, and the final state in the journal: 3 for DONE and REMOVED, 4 for ABORTED, 5 otherwise (R274, log 23). A
command that an FLR has cancelled meanwhile ends without one. -/
def finishCmd (s : State) (c : Cmd) (status res : Nat) : State :=
  let s := { s with cmdWait := s.cmdWait.filter (· != c) }
  if s.journal.any fun e => e.seq == c.seq && e.state == 4 then s
  else
    let s := journalTo s c.seq (if status = stDone ∨ status = stRemoved then 3 else if status = stAborted then 4 else 5)
    postEntry s c.pf { tag := BitVec.ofNat 64 (cmdTag c), res := BitVec.ofNat 48 res, status := status, outc := true, ring := c.ring }

/-- A command that cannot take effect yet stays in line. -/
def waitCmd (s : State) (c : Cmd) : State := if s.cmdWait.contains c then s else { s with cmdWait := s.cmdWait ++ [c] }

/-- The lease that a command names, while it lives. -/
def cmdLive (s : State) (c : Cmd) : Bool := (leaseAt s (cmdLease c)).v || cmdLease c == mgmtKey

end Sys2Proof.Machine
end

