-- ==== Sys2Proof/Machine/Placer.lean ====
section
/-! DEFINITION. The placer: origins and their checks (R220, R366, R367), STREAM bindings and portal paths (R372, R385), and the allotment of a
region. -/

namespace Sys2Proof.Machine

open Sys2Proof

/-! ### Checks at an origin -/

/-- Tiles of a rectangle of a lease. -/
def rectTiles (rc : BindRec) (ox oy w h : Nat) : List Nat :=
  ((List.range h).map fun y => (List.range w).map fun x => tileOfXy rc (ox + x) (oy + y)).flatten

/-- Seams that an X-then-Y path between two tiles crosses (R10). -/
def seamsBetween (a b : Nat) : Nat :=
  let d (m n : Nat) : Nat := if m ≤ n then n - m else m - n
  d (a % 256 / 64) (b % 256 / 64) + d (a / 256 / 32) (b / 256 / 32)

/-- A link fails R220 at an origin. Of a boundary link only the part inside the configuration is known before it is bound: it counts the seams
there, with one hop as the loader does (log 101). -/
def linkSeamBad (rc : BindRec) (m : List Byte) (ox oy : Nat) (l : ImgLink) : Bool :=
  let t (c : Int × Int) : Nat := tileOfXy rc (ox + c.1.toNat) (oy + c.2.toNat)
  if l.bound then
    match l.tiles.filter fun c => insideCfg m c.1 c.2 with
    | a :: r => decide (slotsNeeded l.rate 1 (seamsBetween (t a) (t (r.getLastD a))) > l.slots)
    | [] => false
  else decide (slotsNeeded l.rate l.hops (seamsBetween (t (l.px, l.py)) (t (l.cx, l.cy))) > l.slots)

/-- The first check of R367 that an origin fails with occupancy ignored: 1 BANK_GRANT, 2 FEATURE_ABSENT, 3 SEAM_SLOTS, 0 none. `bank` gives the
grant of a tile. -/
def originFlaw (s : State) (rc : BindRec) (bank : Nat → BitVec 16) (m : List Byte) (ox oy : Nat) : Nat :=
  let bankBad := (patsOf m).any fun p => (patTiles p).any fun (x, y) => patBank m p &&& ~~~(bank (tileOfXy rc (ox + x) (oy + y))) != 0
  let dies := ((rectTiles rc ox oy (imgW m) (imgH m)).map Config.dieOf).eraseDups
  if bankBad then 1
  else if dies.any fun d => decide (imgFeatu m &&& (fmaskOf s d).toNat ≠ imgFeatu m) then 2
  else if (linksOf m).any (linkSeamBad rc m ox oy) then 3
  else 0

/-- BANKG of a tile. -/
def bankgOf (s : State) (t : Nat) : BitVec 16 := (tileAt s t).bankg

/-- A region covers a tile of a rectangle. -/
def rectsOverlap (r : Region) (ox oy w h : Nat) : Bool :=
  (decide (r.ox < ox + w) && decide (ox < r.ox + r.w) && decide (r.oy < oy + h) && decide (oy < r.oy + r.h)) ||
    r.behind.any fun m => decide (ox ≤ m.2.1 ∧ m.2.1 < ox + w ∧ oy ≤ m.2.2 ∧ m.2.2 < oy + h)

/-- Tiles of a rectangle are free of other regions (R366). A region that is to be followed counts as free. -/
def rectFree (l : Lease) (own : Option Nat) (ox oy w h : Nat) : Bool :=
  l.regions.all fun r => own == some r.rid || (own.isSome && r.next.isSome && r.next == own) || !rectsOverlap r ox oy w h

/-- Origins in the order of R366. -/
def originsOf (rc : BindRec) (w h : Nat) : List (Nat × Nat) :=
  ((List.range (leaseW rc + 1 - w)).map fun x => (List.range (leaseH rc + 1 - h)).map fun y => (x, y)).flatten

/-! ### STREAM bindings -/

/-- In-edges of a node of kind STREAM: the producer, its link and the consumer's (R385). -/
def streamIns (x : Graph) (n : Nat) : List (Nat × Nat × Nat) :=
  (x.nodes.zipIdx.map fun (nd, p) => ((outEdges x nd).filter fun e => edgeKind e == 1 && edgeDst e == n).map fun e =>
    (p, fld e.toNat 48 16, fld e.toNat 32 16)).flatten

/-- The k-th region allotted to a node, while it holds it. -/
def kthRegion (l : Lease) (g n k : Nat) : Option Region := l.regions.find? fun r => r.graph == g && r.node == n && r.kth == k && !r.stopped

/-- A binding that cannot be: its producer's region is gone, or a link index names no boundary link of its side (R385) (log 45). -/
def streamBad (l : Lease) (g k : Nat) (m : List Byte) (e : Nat × Nat × Nat) : Bool :=
  let cl := linkAt m e.2.2
  let clBad := decide (e.2.2 ≥ secCnt m 2) || !cl.bound || !insideCfg m cl.cx cl.cy || cl.reply
  match kthRegion l g e.1 k with
  | some r =>
    let pl := linkAt r.img e.2.1
    clBad || decide (e.2.1 ≥ secCnt r.img 2) || !pl.bound || !insideCfg r.img pl.px pl.py || pl.reply
  | none => clBad || (match nodeAt l g e.1 with | some nd => decide (nd.nalloc > k) | none => true)

/-- The channels, as output and input keys, that the configurations of a list of regions use on a module tile: they are what its planes use or
are to use. -/
def usedKeys (rc : BindRec) (rs : List Region) (t : Nat) : List Nat × List Nat :=
  rs.foldl (fun a r =>
    let x := t % 256 - regX rc.lorg
    let y := t / 256 - regY rc.lorg
    match (cfgAt r x y).bind fun c => patFor (patsOf r.img) c.1 c.2 with
    | some p => let k := patKeys r.img p; (a.1 ++ k.1, a.2 ++ k.2)
    | none => a) ([], [])

/-- PTAB entries of a tile with those that a plan adds. -/
def ptabWith (s : State) (adds : List (Nat × Ptab)) (t : Nat) : List Ptab := (tileAt s t).ptab ++ (adds.filter fun a => a.1 == t).map (·.2)

/-- An output, or input, channel of a tile that configurations and portals leave unused (R372). -/
def outFree (s : State) (rc : BindRec) (rs : List Region) (adds : List (Nat × Ptab)) (t key : Nat) : Bool :=
  !(usedKeys rc rs t).1.contains key && !(ptabWith s adds t).any fun e => e.op != 7 && chKey e.op e.oc == key
def inFree (s : State) (rc : BindRec) (rs : List Region) (adds : List (Nat × Ptab)) (t key : Nat) : Bool :=
  !(usedKeys rc rs t).2.contains key && !(ptabWith s adds t).any fun e => e.ip != 7 && chKey e.ip e.ic == key

/-- A step of a path: the tile left, the port taken and the tile entered, as module tiles. -/
abbrev Hop := Nat × Nat × Nat

/-- Steps of a link's own path, at a region's origin, that leave a tile of the configuration, or enter one. -/
def ownHops (rc : BindRec) (m : List Byte) (ox oy : Nat) (l : ImgLink) (leave : Bool) : List Hop :=
  (l.steps.filter fun st => let c := if leave then st.1 else st.2.2; insideCfg m c.1 c.2).map fun st =>
    (tileOfXy rc (ox + st.1.1.toNat) (oy + st.1.2.toNat), st.2.1, tileOfXy rc (ox + st.2.2.1.toNat) (oy + st.2.2.2.toNat))

/-- Same tile and port left. -/
def sameLeave (a b : Hop) : Bool := a.1 == b.1 && a.2.1 == b.2.1
/-- Same tile entered through the same port. -/
def sameEnter (a b : Hop) : Bool := a.2.2 == b.2.2 && a.2.1 == b.2.1

/-- Chooses the channel of each hop of a portal path and the entries that it takes: none when some tile has no free channel or entry (R372).
`inc` is the channel on which the path comes in at the tile left (the configuration's at the producer's end), `ip` its port there. -/
def portalEntries (s : State) (rc : BindRec) (rs : List Region) (src : Nat × Nat × Nat) (dst cch : Nat) (ip inc : Nat) (adds : List (Nat × Ptab)) : List Hop → Option (List (Nat × Ptab))
  | [] => none
  | (t, p, u) :: r =>
    let last := r.isEmpty
    let ok (c : Nat) : Bool :=
      (outFree s rc rs adds t (chKey p c) || (ip == 7 && c == inc && !(ptabWith s adds t).any fun e => e.op != 7 && chKey e.op e.oc == chKey p c)) &&
        (inFree s rc rs adds u (chKey (facing p) c) ||
          (last && c == cch % 8 && !(ptabWith s adds u).any fun e => e.ip != 7 && chKey e.ip e.ic == chKey (facing p) c))
    match (List.range 8).find? ok with
    | none => none
    | some c =>
      let adds := adds ++ [(t, ⟨ip, inc, p, c, src, dst⟩)]
      let adds := if last then adds ++ [(u, ⟨facing p, c, 7, cch % 8, src, dst⟩)] else adds
      if (ptabWith s adds t).length > 16 ∨ (ptabWith s adds u).length > 16 then none
      else if last then some adds
      else portalEntries s rc rs src dst cch (facing p) c adds r

/-- The channel on which a producer's boundary link leaves its configuration: its own, or what the last forwarding tile there gives (R72). -/
def leaveCh (m : List Byte) (l : ImgLink) : Nat :=
  match (l.steps.filter fun st => insideCfg m st.1.1 st.1.2).getLast? with
  | some st => (match linkForward l st.1.1 st.1.2 with | some k => k.2 % 8 | none => l.pch % 8)
  | none => l.pch % 8

/-- The channel on which a consumer's boundary link enters its configuration: the consumer's, or the producer's at a forwarding tile (R72). -/
def enterCh (m : List Byte) (l : ImgLink) : Nat :=
  match l.steps.find? fun st => insideCfg m st.2.2.1 st.2.2.2 with
  | some st => if st.2.2 == (l.cx, l.cy) then l.cch % 8 else l.pch % 8
  | none => l.cch % 8

/-- Binds the streams of region `rid` of a configuration at an origin: the bindings with the PTAB entries they add, `none` when one does not fit,
and whether one fails R220 with its actual path (R220, R372, R385). `ends` gives each producer's region and the two links. -/
def bindStreams (s : State) (rc : BindRec) (rs : List Region) (rid : Nat) (m : List Byte) (ox oy : Nat) (ends : List (Region × Nat × Nat)) (adds : List (Nat × Ptab)) :
    Option (List (Nat × Nat × Nat) × List (Nat × Ptab) × Bool) :=
  match ends with
  | [] => some ([], adds, false)
  | (q, pi, ci) :: more =>
    let pl := linkAt q.img pi
    let cl := linkAt m ci
    let p := cfgPlace q pl.px.toNat pl.py.toNat
    let px : Int := p.1
    let py : Int := p.2
    let cx : Int := ox + cl.cx
    let cy : Int := oy + cl.cy
    let hops := (cx - px).natAbs + (cy - py).natAbs
    let path : List Hop := (pathSteps hops px py cx cy).map fun st =>
      (tileOfXy rc st.1.1.toNat st.1.2.toNat, st.2.1, tileOfXy rc st.2.2.1.toNat st.2.2.2.toNat)
    let lead := ownHops rc q.img (px - pl.px).toNat (py - pl.py).toNat pl true
    let tail := ownHops rc m ox oy cl false
    let head := path.take lead.length
    let foot := path.drop (path.length - tail.length)
    let fits := decide (lead.length + tail.length ≤ path.length + 1) && !lead.isEmpty && !tail.isEmpty && head.length == lead.length &&
      (head.zip lead).all (fun (a, b) => sameLeave a b) && (foot.zip tail).all (fun (a, b) => sameEnter a b)
    -- the hops between the last tile of the producer's configuration and the first of the consumer's
    let mid := (path.drop (lead.length - 1)).take (path.length + 2 - lead.length - tail.length)
    if !fits then none
    else match portalEntries s rc rs (q.rid, q.graph, q.node) rid (enterCh m cl) 7 (leaveCh q.img pl) adds mid with
      | none => none
      | some adds =>
        let c := seamsBetween (tileOfXy rc px.toNat py.toNat) (tileOfXy rc cx.toNat cy.toNat)
        let short := decide (slotsNeeded pl.rate hops c > pl.slots) || decide (slotsNeeded cl.rate hops c > cl.slots)
        match bindStreams s rc rs rid m ox oy more adds with
        | none => none
        | some (bs, a, sh) => some ((ci, pi, q.rid) :: bs, a, short || sh)

/-! ### Placement -/

/-- What the placer finds for a node: a place with its bindings, no place for now, no place ever with its reason of R367 and origin, or a
binding that fails with a cause. -/
inductive Placement where
  | at_ (ox oy : Nat) (binds : List (Nat × Nat × Nat)) (adds : List (Nat × Ptab))
  | waits
  | never (reason : Nat) (origin : Nat)
  | fails (cause : Nat)

/-- The stream ends of a node's k-th region: none while a producer holds no k-th region. -/
def streamEnds (l : Lease) (g n k : Nat) : Option (List (Region × Nat × Nat)) :=
  match l.graphs.find g with
  | some x => (streamIns x n).mapM fun e => (kthRegion l g e.1 k).map fun r => (r, e.2.1, e.2.2)
  | none => some []

/-- Judges one origin whose tiles are free: whether every check holds, with the bindings. -/
def tryOrigin (s : State) (l : Lease) (rid : Nat) (m : List Byte) (ends : List (Region × Nat × Nat)) (o : Nat × Nat) :
    Option (List (Nat × Nat × Nat) × List (Nat × Ptab) × Bool) :=
  if originFlaw s l.rcd (bankgOf s) m o.1 o.2 ≠ 0 then none
  else
    let r : Region := { rid := rid, graph := 0, node := 0, ox := o.1, oy := o.2, w := imgW m, h := imgH m, img := m }
    bindStreams s l.rcd (l.regions ++ [r]) rid m o.1 o.2 ends []

/-- A placement at the first origin of a list that passes, `none` if there is none. A stream that fails R220 is a link that does (R366). -/
def firstPlace (s : State) (l : Lease) (rid : Nat) (m : List Byte) (ends : List (Region × Nat × Nat)) : List (Nat × Nat) → Option Placement
  | [] => none
  | o :: r => match tryOrigin s l rid m ends o with
    | some (b, a, false) => some (.at_ o.1 o.2 b a)
    | _ => firstPlace s l rid m ends r

/-- A stream of a configuration at an origin fails R220 over its path, with portals and channels left out of account (R367). -/
def streamsShort (rc : BindRec) (m : List Byte) (ends : List (Region × Nat × Nat)) (o : Nat × Nat) : Bool :=
  ends.any fun (q, pi, ci) =>
    let pl := linkAt q.img pi
    let cl := linkAt m ci
    let p := cfgPlace q pl.px.toNat pl.py.toNat
    let c : Nat × Nat := (((o.1 : Int) + cl.cx).toNat, ((o.2 : Int) + cl.cy).toNat)
    let hops := ((c.1 : Int) - p.1).natAbs + ((c.2 : Int) - p.2).natAbs
    let seams := seamsBetween (tileOfXy rc p.1 p.2) (tileOfXy rc c.1 c.2)
    decide (slotsNeeded pl.rate hops seams > pl.slots) || decide (slotsNeeded cl.rate hops seams > cl.slots)

/-- R367: why no origin could ever pass. -/
def neverReason (s : State) (l : Lease) (m : List Byte) (ends : List (Region × Nat × Nat)) : Option (Nat × Nat) :=
  if imgW m > leaseW l.rcd ∨ imgH m > leaseH l.rcd then some (0x1B, 0)
  else
    let flaw (o : Nat × Nat) : Nat :=
      let k := originFlaw s l.rcd (bankgOf s) m o.1 o.2
      if k = 0 ∧ streamsShort l.rcd m ends o = true then 3 else k
    let fl := (originsOf l.rcd (imgW m) (imgH m)).map fun o => (flaw o, (mkReg o.1 o.2).toNat)
    if fl.any fun f => f.1 == 0 then none
    else
      let top := fl.foldl (fun a f => max a f.1) 0
      match fl.find? fun f => f.1 == top with
      | some f => some (match top with | 1 => 0x1C | 2 => 0x1E | _ => 0x1D, f.2)
      | none => none

/-- The move in progress is to take tiles of a rectangle, or moves the whole lease: nothing is placed there meanwhile. -/
def moveHolds (s : State) (l : Lease) (lid ox oy w h : Nat) : Bool :=
  match s.move with
  | none => false
  | some m => match m.cur with
    | none => false
    | some e => e.lease == lid && (e.whole || match l.regions.find? fun r => r.rid == m.rid with
      | some r => rectsOverlap r ox oy w h || rectsOverlap { r with ox := e.norg / 64, oy := e.norg % 64 } ox oy w h
      | none => false)

/-- The placer's answer for a node's next region (R366, R367, R385). `own`: the region that the node is to follow on its tiles, one of its own size
(log 59). -/
def placeNode (s : State) (lid g n : Nat) (m : List Byte) (own : Option Nat) : Placement :=
  let l := leaseAt s lid
  match nodeAt l g n, l.graphs.find g with
  | some nd, some x =>
    if (streamIns x n).any (streamBad l g nd.nalloc m) then .fails cStreamBind
    else
      let origins := match own.bind (regionAt l) with
        | some r => if r.w = imgW m ∧ r.h = imgH m then [(r.ox, r.oy)] else []
        | none => originsOf l.rcd (imgW m) (imgH m)
      let free := origins.filter fun o => rectFree l own o.1 o.2 (imgW m) (imgH m) && !moveHolds s l lid o.1 o.2 (imgW m) (imgH m)
      match streamEnds l g n nd.nalloc with
      | none => (match neverReason s l m [] with | some (r, o) => if own.isNone then .never r o else .waits | none => .waits)
      | some ends => match firstPlace s l l.nextRid m ends free with
        | some p => p
        | none =>
          -- the one origin of a region that is to be followed fails the slot check of its streams (R385)
          if own.isSome && free.any fun o => originFlaw s l.rcd (bankgOf s) m o.1 o.2 == 0 && streamsShort l.rcd m ends o then .fails cSeamSlots
          else match neverReason s l m ends with
            | some (r, o) => if own.isNone then .never r o else .waits
            | none => .waits
  | _, _ => .waits

/-- The cause of a placement reason (Tables 2.14 and 15.2). -/
def placeCause (reason : Nat) : Nat := match reason with | 0x1B => cExtent | 0x1C => cBankGrant | 0x1D => cSeamSlots | _ => cFeatureAbsent

/-- Writes PTAB entries into their tiles. -/
def addPortals (s : State) (adds : List (Nat × Ptab)) : State := adds.foldl (fun s a => modTile s a.1 fun x => { x with ptab := x.ptab ++ [a.2] }) s

/-- Allots a region to a node: its checked image is used up, its load starts, and the node is armed when it was not (R59, R390, R392). -/
def allot (s : State) (lid g n ox oy : Nat) (c : Checked) (binds : List (Nat × Nat × Nat)) (adds : List (Nat × Ptab)) (own : Option Nat) (track : Bool) : State :=
  let l := leaseAt s lid
  match nodeAt l g n with
  | none => s
  | some nd =>
    let rid := l.nextRid
    let r : Region := { rid := rid, graph := g, node := n, pred := own, ox := ox, oy := oy, w := imgW c.img, h := imgH c.img, kth := nd.nalloc,
                        va := nd.cfgp.toNat, img := c.img, hashes := c.hashes, nextPat := some 0, binds := binds }
    let regions := match own with | some o => l.regions.map fun q => if q.rid = o then { q with next := some rid } else q | none => l.regions
    let l := { l with regions := regions ++ [r], nextRid := rid + 1, woken := true, checked := l.checked.filter fun k => !(k.graph == g && k.node == n) }
    let l := modNode l g n fun nd => { nd with nalloc := nd.nalloc + 1, viaTrack := nd.viaTrack || track }
    let s := startLoad (addPortals (setLease s lid l) adds) lid rid
    let s := if nd.state == .ready || nd.state == .waiting then moveNode s lid g n .armed else s
    let s := requeue s lid g n
    -- a region takes its first segment at once; a continuation node's waits for a record
    match nodeAt (leaseAt s lid) g n with
    | some nd => if isCont nd || decide (nd.giss.toNat ≥ nd.gcur.toNat) then s else issueSeg s lid rid nd.giss.toNat none
    | none => s

/-- A node that no origin can ever take, or whose binding fails, faults (R367, R385). -/
def placeFails (s : State) (lid g n : Nat) (p : Placement) : State :=
  match p with
  | .never r o =>
    let (d, s) := free s
    graphFault s lid 3 g n (placeCause r) d (reportBits 1 { reason := r, origin := o })
  | .fails c =>
    -- a binding is made as the node is armed, and fails it from there (Table 14.4)
    let ready : Bool := match nodeAt (leaseAt s lid) g n with | some nd => nd.state == .ready | none => false
    let (d, s) := free (if ready then stepNode s lid g n .armed else s)
    graphFault s lid 4 g n c d 0
  | _ => s

end Sys2Proof.Machine
end

