-- ==== Sys2Proof/Machine/Graph.lean ====
section
/-! DEFINITION. The graph sequencer and the dispatcher: tokens (R389), dispatch (R392 to R395), nodes of other kinds (R396, R397), retries,
cones and the commands on graphs (R386, R401 to R404, R413). -/

namespace Sys2Proof.Machine

open Sys2Proof

/-! ### Tokens -/

/-- The sequencer of a lease may arm and issue; the management context always does (R393, R398). -/
def mayArm (s : State) (lid : Nat) : Bool := lid == mgmtKey || ((leaseAt s lid).v && mayIssue (leaseAt s lid))

/-- A node that keeps a pending count after it has left WAITING: one armed on a track, whatever its state (R389), or a continuation node that has not
ended (R399) (log 60). -/
def countsOn (nd : Node) : Bool :=
  nd.pend != 0 && (nd.viaTrack || (isCont nd && (nd.state == .ready || nd.state == .armed || nd.state == .running || nd.state == .retry)))

/-- EDGE_TOKEN, R389: the first token in flight reaches its node. -/
def execEdgeToken (lid : Nat) (s : State) : Host.Outcome State Fault Refusal :=
  let l := leaseAt s lid
  match l.etoks with
  | [] => .next s
  | (g, n, track) :: rest =>
    let s := setLease s lid { l with etoks := rest }
    let less (s : State) : State := modLease s lid fun l => modNode l g n fun nd => { nd with pend := nd.pend - 1 }
    match nodeAt l g n with
    | none => .next s
    | some nd =>
      if nd.state == .waiting && nd.pend != 0 then .next (if nd.pend = 1 then readyNode (less s) lid g n else less s)
      else if countsOn nd && (if nd.viaTrack then track else true) then
        let s := modLease (less s) lid fun l => { l with rseq := l.rseq + 1 }
        -- armed on a track, it takes its place in RDYQ from now on
        let s := if nd.viaTrack then modLease s lid fun l => modNode l g n fun nd => { nd with rorder := l.rseq } else s
        .next (checkDone (requeue s lid g n) lid g n)
      else .next (checkGraph (modLease s lid fun l => modNode l g n fun nd => { nd with ctok := nd.ctok + 1 }) lid g)

/-! ### Nodes that run no configuration -/

/-- Arms a READY node that is no CONFIG node (R390, R396, R397). A COPY node's card goes to the footprint checker (log 65). -/
def armOther (s : State) (lid g n : Nat) (nd : Node) : State :=
  let l := leaseAt s lid
  match nodeKind nd with
  | 1 =>
    if l.cards.any fun c => c.who.isNone && c.graph == g && c.node == n then s
    else match vaReadN s lid nd.cfgp.toNat 64 with
      | (s, .ok w) => modLease s lid fun l => { l with cards := l.cards ++ [⟨.copy, low w, none, false, g, n⟩] }
      | (s, .error c) => let (d, s) := free s; graphFault s lid 4 g n c d 0
  | 2 =>
    let va := match l.graphs.find g with | some x => x.nodesVa + BitVec.ofNat 64 (128 * n) | none => 0
    moveNode (notifyLease s lid 0x84 va 0) lid g n .armed
  | 3 => moveNode (setLease s lid { l with mgmtReqs := l.mgmtReqs ++ [(g, n)] }) lid g n .armed
  | 4 =>
    if !trigOk s lid nd then (let (d, s) := free s; graphFault s lid 4 g n cTrigCounter d 0)
    else testTrigger (moveNode s lid g n .armed) lid g n
  | _ => s

/-- The tenant's allow-list has the management kind of an MGMT node (R396, R488), a kind of command (log 8). The management context may all. -/
def mgmtAllowed (s : State) (lid : Nat) (nd : Node) : Bool :=
  let k := nd.kparam.toNat % 256
  lid == mgmtKey || (decide (1 ≤ k) && decide (k ≤ 0x0F) && (s.pfs.get (leaseAt s lid).rcd.tenid.toNat {}).mask.getLsbD k)

/-- MGMT_ANSWER, R396: the Arbiter's answer decides an armed MGMT node; what the allow-list lacks is refused. The cause of a refusal is not given
(log 8). -/
def execMgmtAnswer (lid g n : Nat) (ok : Bool) (s : State) : Host.Outcome State Fault Refusal :=
  let l := leaseAt s lid
  if !l.mgmtReqs.contains (g, n) then .next s
  else
    let s := setLease s lid { l with mgmtReqs := l.mgmtReqs.filter (· != (g, n)) }
    match nodeAt l g n with
    | some nd =>
      if nd.state != .armed || nodeKind nd != 3 then .next s
      else if ok && mgmtAllowed s lid nd then .next (moveNode s lid g n .done)
      else let (d, s) := free s; .next (graphFault s lid 4 g n cNodeFail d 0)
    | none => .next s

/-! ### Dispatch -/

/-- A region at the end of its turn that nothing holds back (R394). -/
def turnPasses (r : Region) : Bool :=
  r.turnOver && r.seg.isNone && r.next.isNone && r.pred.isNone && !r.stopped && !r.frozen && !r.held

/-- Readouts and sort chunks of a region's planes go on after its last segment (R175), and the release waits for them: the run of R474 ends COMPLETE
only so (log 48). -/
def regionReading (s : State) (l : Lease) (r : Region) : Bool :=
  (regionTiles l.rcd r).any fun t =>
    let x := tileAt s t
    let one (p : Plane) : Bool := p.pst != .empty && p.rid == r.rid && (p.acc0.rdo.kind != 0 || p.acc1.rdo.kind != 0)
    one x.pa || one x.pb

/-- The head of RDYQ has waited to the age limit and holds no region (R392). -/
def aged (l : Lease) (e : Nat × Nat) : Bool :=
  match nodeAt l e.1 e.2 with
  | some nd => decide (nd.skip.toNat ≥ l.rcd.agel.toNat) && decide (heldBy l e.1 e.2 = 0)
  | none => false

/-- What RDYQ has for a region at the end of its turn. -/
inductive Choice where
  | goOn
  | follow (g n : Nat) (c : Checked) (ox oy : Nat) (binds : List (Nat × Nat × Nat)) (adds : List (Nat × Ptab))
  | unchecked
  | nothing

/-- The first entry of RDYQ that the region can go to (R394). -/
def chooseFor (s : State) (lid : Nat) (r : Region) : List (Nat × Nat) → Choice
  | [] => .nothing
  | (g, n) :: q =>
    let l := leaseAt s lid
    match nodeAt l g n with
    | none => chooseFor s lid r q
    | some nd =>
      if g = r.graph ∧ n = r.node then (if unissued s lid g n nd > 0 then .goOn else chooseFor s lid r q)
      else match l.checked.find? fun c => c.graph == g && c.node == n with
        | none => .unchecked
        | some c =>
          if imgW c.img = r.w ∧ imgH c.img = r.h then
            match placeNode s lid g n c.img (some r.rid) with
            | .at_ ox oy b a => .follow g n c ox oy b a
            | _ => chooseFor s lid r q
          else chooseFor s lid r q

/-- RDYQ as far as the age rule lets the dispatcher see it. -/
def rdyqSeen (l : Lease) : List (Nat × Nat) := match l.rdyq with | h :: r => if aged l h then [h] else h :: r | [] => []

/-- Passes a region on at the end of its turn (R394). -/
def passTurn (lid : Nat) (s : State) (rid : Nat) : State :=
  let l := leaseAt s lid
  match regionAt l rid with
  | none => s
  | some r =>
    if !turnPasses r then s
    else match chooseFor s lid r (rdyqSeen l) with
      | .goOn =>
        let s := modLease s lid fun l => modRegion l rid fun r => { r with turnOver := false, turn := 0 }
        let s := requeue s lid r.graph r.node
        (match nodeAt (leaseAt s lid) r.graph r.node with
         | some nd => if isCont nd then s else issueSeg s lid rid nd.giss.toNat none
         | none => s)
      | .follow g n c ox oy b a => allot s lid g n ox oy c b a (some rid) false
      | .unchecked => s
      | .nothing => if regionReading s l r then s else releaseRegion s lid rid

/-- Counts a skip of a node that holds no region (R392). -/
def skipNode (s : State) (lid g n : Nat) : State :=
  modLease s lid fun l =>
    if heldBy l g n = 0 then modNode l g n fun nd => { nd with skip := if nd.skip.toNat = 65535 then nd.skip else nd.skip + 1 } else l

/-- A failed placement is an event for the node in its state (Table 14.4): no origin for a READY one, a binding for one that is armed with it. -/
def failsNow (l : Lease) (g n : Nat) (p : Placement) : Bool :=
  match nodeAt l g n, p with
  | some nd, .never _ _ => nd.state == .ready
  | some nd, .fails _ => nd.state == .ready || nd.state == .armed
  | _, _ => false

/-- Asks the placer for each entry of a list in order (R392). It stops at an entry whose image is still to be checked. -/
def dispatchFrom (lid : Nat) : List (Nat × Nat) → State → State
  | [], s => s
  | (g, n) :: q, s =>
    let l := leaseAt s lid
    if !l.rdyq.contains (g, n) then dispatchFrom lid q s
    else match l.checked.find? fun c => c.graph == g && c.node == n with
      | none => s
      | some c =>
        -- the head that reaches the age limit stops the pass
        let skipped (s : State) : State :=
          let s := skipNode s lid g n
          if l.rdyq.head? == some (g, n) && aged (leaseAt s lid) (g, n) then s else dispatchFrom lid q s
        match placeNode s lid g n c.img none with
        | .at_ ox oy b a => dispatchFrom lid q (allot s lid g n ox oy c b a none false)
        | .waits => skipped s
        | p => if failsNow l g n p then dispatchFrom lid q (placeFails s lid g n p) else skipped s

/-- Regions whose last segment completed in an earlier cycle go on (R394, R473). -/
def goOn (s : State) (lid : Nat) : State :=
  ((leaseAt s lid).regions.filter fun r => match r.ended with | some c => c != s.cycle | none => false).foldl (fun s r => boundary s lid r.rid) s

/-- DISPATCH, R392, R394, R396: regions go on with their next segments, READY nodes of the other kinds are armed, regions at the end of their turns
pass on, and RDYQ is worked from its head. -/
def execDispatch (lid : Nat) (s : State) : Host.Outcome State Fault Refusal :=
  if !mayArm s lid then .next s
  else
    let s := goOn (modLease s lid fun l => { l with woken := l.regions.any fun r => r.ended == some s.cycle }) lid
    let s := (activeNodes (leaseAt s lid)).foldl (fun s m =>
      if m.2.2.state == .ready && nodeKind m.2.2 != 0 then armOther s lid m.1 m.2.1 m.2.2 else s) s
    let s := ((leaseAt s lid).regions.map (·.rid)).foldl (passTurn lid) s
    .next (dispatchFrom lid (rdyqSeen (leaseAt s lid)) s)

/-- TRACK_ARM, R395: a node follows another on its region. -/
def execTrackArm (lid g n : Nat) (s : State) : Host.Outcome State Fault Refusal :=
  let l := leaseAt s lid
  match trackRegion l g n, l.checked.find? fun c => c.graph == g && c.node == n with
  | some r, some c =>
    if !mayArm s lid then .next s
    else match placeNode s lid g n c.img (some r.rid) with
      | .at_ ox oy b a => .next (allot s lid g n ox oy c b a (some r.rid) true)
      | _ => .next s
  | _, _ => .next s

/-! ### Stopped regions, retries and cones -/

/-- Stops a region (R402, R422): nothing more issues on the tiles whose active planes are its own, and they send their increments (R442). A region
that has run its last segment and passes to another node's runs on, so that the other can castle. -/
def stopRegion (lid : Nat) (s : State) (rid : Nat) : State :=
  let l := leaseAt s lid
  match regionAt l rid with
  | none => s
  | some r =>
    let nextLive := match r.next.bind (regionAt l) with | some q => !q.stopped | none => false
    if nextLive && r.seg.isNone then s
    else
      let s := modLease s lid fun l => modRegion l rid fun r => { r with stopped := true }
      (regionTiles l.rcd r).foldl (fun s t =>
        let x := tileAt s t
        if (activePlane x).pst != .empty && (activePlane x).rid == rid then sendDeltas (modTile s t fun x => { x with halted := true }) t else s) s

/-- Stops every region of a node, the one armed last first. -/
def stopNode (s : State) (lid g n : Nat) : State :=
  (((leaseAt s lid).regions.filter fun r => r.graph == g && r.node == n && !r.stopped).map (·.rid)).reverse.foldl (stopRegion lid) s

/-- A stopped region may be released: it is quiet, and a live node that it shares its tiles with on a track has run its last segment there
(R422) (logs 66 and 72). -/
def releasable (s : State) (lid : Nat) (r : Region) : Bool :=
  let l := leaseAt s lid
  let rid (k : Option Nat) (own : Bool) : Bool := match k.bind (regionAt l) with
    | some q => q.stopped || (own && q.seg.isNone)
    | none => true
  r.stopped && !r.frozen && rid r.pred true && rid r.next false && regionQuiet s lid r

/-- Releases the stopped regions that may be, with a live region beneath one that has run its last segment (R422). -/
def releaseStopped (s : State) (lid : Nat) : State :=
  ((leaseAt s lid).regions.map (·.rid)).foldl (fun s rid => match regionAt (leaseAt s lid) rid with
    | some r =>
      if releasable s lid r then
        let s := releaseRegion s lid rid
        (match r.pred with | some p => releaseRegion s lid p | none => s)
      else s
    | none => s) s

/-- NODE_RETRY, R387: a faulted node whose policy is RETRY goes to RETRY once its regions are quiet, and from there, with its regions
released, to READY. -/
def execNodeRetry (lid g n : Nat) (s : State) : Host.Outcome State Fault Refusal :=
  let l := leaseAt s lid
  match nodeAt l g n, l.graphs.find g with
  | some nd, some x =>
    let rs := l.regions.filter fun r => r.graph == g && r.node == n
    if l.lstate == .removing || x.gstate != 1 then .next s
    else if nd.state == .faulted && nd.polDone && willRetry nd && rs.all (fun r => releasable s lid r) then
      let s := modLease s lid fun l => modNode l g n fun nd => { nd with rtry := nd.rtry + 1 }
      .next (releaseStopped (stepNode s lid g n .retry) lid)
    else if nd.state == .retry && rs.isEmpty then
      let again (nd : Node) : Node := { nd with
        gcur := BitVec.ofNat 32 (fld nd.launch.toNat 48 32), giss := 0, gset := [], gcomp := 0, skip := 0, closed := false, nfail := none, nalloc := 0 }
      .next (readyNode (modLease s lid fun l => modNode l g n again) lid g n)
    else .next s
  | _, _ => .next s

/-- Destinations of a node's out-edges. -/
def succNodes (x : Graph) (n : Nat) : List Nat := match x.nodes[n]? with | some nd => (outEdges x nd).map edgeDst | none => []

/-- What can be reached from a list of nodes, with the nodes themselves, in so many rounds. -/
def reachNodes (x : Graph) : Nat → List Nat → List Nat → List Nat
  | 0, _, seen => seen
  | k + 1, front, seen =>
    let new := ((front.map (succNodes x)).flatten.eraseDups).filter fun n => !seen.contains n
    if new.isEmpty then seen else reachNodes x k new (seen ++ new)

/-- The cone of a node, its root included (R401). -/
def coneOf (x : Graph) (n : Nat) : List Nat := reachNodes x (x.nodes.length + 1) [n] [n]

/-- The nodes of a set in topological order, ties to the lower index. -/
def topoOrder (x : Graph) : Nat → List Nat → List Nat
  | 0, l => l
  | k + 1, l =>
    match ((List.range x.nodes.length).filter l.contains).find? fun n => l.all fun m => !(succNodes x m).contains n with
    | some n => n :: topoOrder x k (l.filter (· != n))
    | none => l

/-- Cancels a node (R401, R403): a node that has ended stays as it is. -/
def cancelNode (lid g : Nat) (s : State) (n : Nat) : State :=
  match nodeAt (leaseAt s lid) g n with
  | none => s
  | some nd =>
    if nodeEnded nd.state then s
    else
      let s := stepNode s lid g n .cancelled
      let s := modLease s lid fun l => { l with checked := l.checked.filter fun c => !(c.graph == g && c.node == n) }
      if nd.state == .armed || nd.state == .running then stopNode s lid g n else s

/-- Cancels the cone of a faulted node (R401). -/
def cancelCone (s : State) (lid g n : Nat) : State :=
  match (leaseAt s lid).graphs.find g with
  | some x => ((topoOrder x x.nodes.length (coneOf x n)).filter (· != n)).foldl (cancelNode lid g) s
  | none => s

/-! ### Commands -/

/-- A command whose lease is gone ends as REMOVED (log 61). -/
def endIfGone (s : State) (c : Cmd) (go : State → State) : State :=
  if cmdLive s c && (leaseAt s (cmdLease c)).lstate != .removing then go s else finishCmd s c stRemoved 0

/-- A read of graph memory for a command. -/
def fetchGraph (s : State) (lid va n : Nat) : State × Except Nat Nat :=
  match gRead s lid va n with
  | (s, .ok b) => (s, .ok (ofBytes b))
  | (s, .error c) => (s, .error c)

/-- Reads records of a size in order: the failing one's cause and index. -/
def fetchAll (lid base size : Nat) : List Nat → State → State × Except (Nat × Nat) (List Nat)
  | [], s => (s, .ok [])
  | i :: r, s => match fetchGraph s lid (base + size * i) size with
    | (s, .error c) => (s, .error (c, i))
    | (s, .ok v) => match fetchAll lid base size r s with
      | (s, .ok l) => (s, .ok (v :: l))
      | e => e

/-- RESULT of GRAPH_FETCH (Table 22.3). -/
def fetchResult (cause index kind : Nat) : Nat := cause % 65536 + index % 2 ^ 24 * 2 ^ 16 + kind * 2 ^ 40

/-- The S fields of a node record (Table 14.3). -/
def nodeOfRecord (v : Nat) : Node where
  kind := BitVec.ofNat 8 (fld v 0 8)
  policy := BitVec.ofNat 8 (fld v 16 8)
  rbudg := fld v 24 8
  nreg := fld v 32 16
  squant := fld v 48 16
  cfgp := BitVec.ofNat 64 (fld v 64 64)
  launch := BitVec.ofNat 128 (fld v 128 128)
  efirst := fld v 256 32
  nout := fld v 288 16
  pend0 := fld v 320 32
  kparam := BitVec.ofNat 192 (fld v 576 192)

/-- A reserved field or code of a node record, or a field that its kind does not allow (R383, R384, R398). -/
def recordBad (mgmt : Bool) (v : Nat) : Bool :=
  let nd := nodeOfRecord v
  let k := nodeKind nd
  let kp := nd.kparam.toNat
  decide (k > 4) || decide (fld v 4 4 ≠ 0) || (v.testBit 3 && k != 0) || decide (fld v 16 2 = 3) || decide (fld v 18 6 ≠ 0) ||
    decide (fld v 304 16 ≠ 0) || decide (fld v 440 8 ≠ 0) || decide (fld v 768 256 ≠ 0) ||
    (if k = 0 then decide (nd.nreg = 0 ∨ nd.nreg > 128) else decide (nd.nreg ≠ 0) || nd.launch != 0) ||
    (decide (k > 1) && nd.cfgp != 0) || (decide (k < 2) && kp != 0) ||
    (k == 4 && (decide (fld kp 16 8 > 1) || (!mgmt && decide (fld kp 24 8 ≠ 0)) || decide (fld kp 32 32 ≠ 0) || decide (fld kp 128 64 ≠ 0))) ||
    (mgmt && decide (k < 2))

/-- An edge of source node `u` breaks R385 or R386. -/
def edgeBad (x : Graph) (u : Node) (e : BitVec 64) : Bool :=
  let dst := x.nodes[edgeDst e]?
  let cfg (n : Option Node) : Bool := match n with | some n => isConfig n | none => false
  decide (fld e.toNat 19 13 ≠ 0) || decide (edgeKind e > 1) || dst.isNone || (edgeKind e == 0 && decide (e.toNat / 2 ^ 32 ≠ 0)) ||
    (edgeKind e == 1 && (edgeTrack e || !cfg (some u) || !cfg dst))

/-- An entry of the edge array breaks R385 by itself, whichever node it belongs to. -/
def entryBad (x : Graph) (e : BitVec 64) : Bool :=
  decide (fld e.toNat 19 13 ≠ 0) || decide (edgeKind e > 1) || decide (edgeDst e ≥ x.nodes.length) ||
    (edgeKind e == 0 && decide (e.toNat / 2 ^ 32 ≠ 0)) || (edgeKind e == 1 && edgeTrack e)

/-- Edges of a graph with source and index, node by node. -/
def edgeList (x : Graph) : List (Nat × Nat × BitVec 64) :=
  (x.nodes.zipIdx.map fun (nd, u) => (outEdges x nd).zipIdx.map fun (e, j) => (u, nd.efirst + j, e)).flatten

/-- The lowest-indexed edge on a directed cycle. -/
def cycleEdge (x : Graph) : Option Nat :=
  let on := (edgeList x).filter fun e => (reachNodes x (x.nodes.length + 1) [edgeDst e.2.2] [edgeDst e.2.2]).contains e.1
  on.foldl (fun a e => match a with | some k => some (min k e.2.1) | none => some e.2.1) none

/-- What GLAUNCH refuses a graph for: the index, and whether it is an edge's (R386). -/
def graphFlaw (mgmt : Bool) (recs : List Nat) (x : Graph) : Option (Nat × Bool) :=
  match recs.zipIdx.find? fun (v, _) => recordBad mgmt v with
  | some (_, i) => some (i, false)
  | none => match x.nodes.zipIdx.find? fun (nd, _) => decide (nd.nout ≠ 0 ∧ nd.efirst + nd.nout > x.nedge) with
    | some (_, i) => some (i, false)
    | none => match x.edges.zipIdx.find? fun (e, i) => entryBad x e || (edgeList x).any fun m => m.2.1 == i && match x.nodes[m.1]? with
        | some u => edgeBad x u e
        | none => true with
      | some (_, i) => some (i, true)
      | none => match x.nodes.zipIdx.find? fun (nd, i) => decide (nd.pend0 > ((edgeList x).filter fun e => edgeDst e.2.2 == i).length) with
        | some (_, i) => some (i, false)
        | none => (cycleEdge x).map fun e => (e, true)

/-- Starts an accepted graph (R386). -/
def launchGraph (s : State) (lid g : Nat) (x : Graph) : State :=
  let l := leaseAt s lid
  let set (nd : Node) : Node := { nd with state := .waiting, pend := nd.pend0, gcur := BitVec.ofNat 32 (fld nd.launch.toNat 48 32) }
  let x := { x with gstate := 1, nodes := x.nodes.map set }
  let l := { l with graphs := l.graphs.put g x, actg := l.actg ++ [g], etoks := l.etoks.filter fun t => t.1 != g,
                    checked := l.checked.filter fun c => c.graph != g }
  let s := gWrite (setLease s lid l) lid (l.rcd.grtab.toNat + 32 * g + 24) [1]
  let all := List.range x.nodes.length
  let s := all.foldl (fun s i => writeNode s lid g i) s
  all.foldl (fun s i => match x.nodes[i]? with
    | some nd => if nd.pend0 = 0 ∨ isCont nd then readyNode s lid g i else s
    | none => s) s

/-- GLAUNCH, R386 (log 64). -/
def execGlaunch (c : Cmd) (s : State) : Host.Outcome State Fault Refusal :=
  .next (endIfGone s c fun s =>
    let lid := cmdLease c
    let g := cmdGraph c
    let l := leaseAt s lid
    let fail (s : State) (cause i k : Nat) : State := finishCmd s c stGraphFetch (fetchResult cause i k)
    if l.actg.length ≥ 16 ∨ l.actg.contains g then finishCmd s c stGbusy 0
    else match fetchGraph s lid (l.rcd.grtab.toNat + 32 * g) 32 with
      | (s, .error e) => fail s e 0 0
      | (s, .ok v) =>
        let nn := fld v 64 32
        let ne := fld v 96 32
        if fld v 192 8 ≠ 0 then finishCmd s c stGbusy 0
        else if fld v 200 8 ≠ 0 ∨ nn = 0 ∨ nn > 65535 ∨ ne > 2 ^ 24 ∨ fld v 0 64 % 128 ≠ 0 ∨ fld v 128 64 % 8 ≠ 0 then
          -- the entry itself: no node or edge to name
          let (d, s) := free s
          finishCmd s c stGraphInvalid d
        else match fetchAll lid (fld v 0 64) 128 (List.range nn) s with
          | (s, .error (e, i)) => fail s e i 1
          | (s, .ok recs) => match fetchAll lid (fld v 128 64) 8 (List.range ne) s with
            | (s, .error (e, i)) => fail s e i 2
            | (s, .ok es) =>
              let x : Graph := { nodesVa := BitVec.ofNat 64 (fld v 0 64), nnode := nn, nedge := ne, edgesVa := BitVec.ofNat 64 (fld v 128 64),
                                 nodes := recs.map nodeOfRecord, edges := es.map (BitVec.ofNat 64) }
              match graphFlaw (lid == mgmtKey) recs x with
              | some (i, e) => finishCmd s c stGraphInvalid (i + if e then 2 ^ 32 else 0)
              | none => finishCmd (launchGraph s lid g x) c stDone 0)

/-- GCANCEL, R403. One of a graph that does not run has nothing to cancel. -/
def execGcancel (c : Cmd) (s : State) : Host.Outcome State Fault Refusal :=
  .next (endIfGone s c fun s =>
    let lid := cmdLease c
    let g := cmdGraph c
    match (leaseAt s lid).graphs.find g with
    | some x =>
      if x.gstate ≠ 1 then finishCmd s c stDone 0
      else finishCmd (endGraph ((List.range x.nodes.length).foldl (cancelNode lid g) s) lid g 4) c stDone 0
    | none => finishCmd s c stDone 0)

/-- A node of the cone as RESUME_CONE leaves it (R404), with its S fields read again. GCUR, GISS and GCOMP, which the rule does not name, start again
as for a retry (log 63). -/
def resumeNode (x : Graph) (root : Bool) (n : Nat) (v : Nat) (nd : Node) : Node :=
  let f := nodeOfRecord v
  let doneIn := ((edgeList x).filter fun e => edgeDst e.2.2 == n && (match x.nodes[e.1]? with | some u => u.state == .done | none => false)).length
  { f with state := .waiting, pend := f.pend0 - doneIn, rtry := if root then 0 else nd.rtry, gcur := BitVec.ofNat 32 (fld f.launch.toNat 48 32) }

/-- RESUME_CONE, R404 (logs 62 and 63). -/
def execResumeCone (c : Cmd) (s : State) : Host.Outcome State Fault Refusal :=
  .next (endIfGone s c fun s =>
    let lid := cmdLease c
    let g := cmdGraph c
    let n := cmdField c 20 2
    let l := leaseAt s lid
    match l.graphs.find g, nodeAt l g n with
    | some x, some nd =>
      let cone := coneOf x n
      let streamIn := (edgeList x).any fun e => edgeKind e.2.2 == 1 && cone.contains (edgeDst e.2.2) && !cone.contains e.1
      if !(x.gstate == 3 || x.gstate == 1) || nd.state != .faulted || !nodeOver nd then finishCmd s c stNotPart 0
      else if streamIn then finishCmd s c stConeStream 0
      else if x.gstate ≠ 1 ∧ l.actg.length ≥ 16 then finishCmd s c stGbusy 0
      else
        let hit := (List.range x.nodes.length).filter fun i => cone.contains i && (match x.nodes[i]? with
          | some u => u.state == .faulted || u.state == .cancelled
          | none => false)
        let ids := (List.range x.nodes.length).filter cone.contains
        match fetchAll lid x.nodesVa.toNat 128 ids s with
        | (s, .error (e, i)) => finishCmd s c stGraphFetch (fetchResult e i 1)
        | (s, .ok recs) =>
          let l := leaseAt s lid
          let l := ((ids.zip recs).filter fun m => hit.contains m.1).foldl (fun l m => modNode l g m.1 (resumeNode x (m.1 == n) m.1 m.2)) l
          let l := match l.graphs.find g with | some y => { l with graphs := l.graphs.put g { y with gstate := 1 } } | none => l
          let l := { l with actg := if l.actg.contains g then l.actg else l.actg ++ [g],
                            etoks := l.etoks.filter fun t => !(t.1 == g && hit.contains t.2.1) }
          let s := gWrite (setLease s lid l) lid (l.rcd.grtab.toNat + 32 * g + 24) [1]
          let s := hit.foldl (fun s i => match nodeAt (leaseAt s lid) g i with
            | some u => if u.pend = 0 then readyNode s lid g i else writeNode s lid g i
            | none => s) s
          finishCmd s c stDone 0
    | _, _ => finishCmd s c stNotPart 0)

/-- NODEDONE, R396: the tenant's answer decides an armed HOST node, also of a lease that is being removed (R393); to any other node it is no event
(R387). -/
def execNodedone (c : Cmd) (s : State) : Host.Outcome State Fault Refusal :=
  let live (go : State → State) : State := if cmdLive s c then go s else finishCmd s c stRemoved 0
  .next (live fun s =>
    let lid := cmdLease c
    let g := cmdGraph c
    let n := cmdField c 20 2
    match nodeAt (leaseAt s lid) g n with
    | some nd =>
      if nd.state != .armed || nodeKind nd != 2 then finishCmd s c stDone 0
      else if cmdField c 22 1 = 0 then finishCmd (moveNode s lid g n .done) c stDone 0
      else
        let (d, s) := free s
        finishCmd (graphFault s lid 4 g n cNodeFail d 0) c stDone 0
    | none => finishCmd s c stDone 0)

end Sys2Proof.Machine
end

