-- ==== Sys2Proof/Machine/Stop.lean ====
section
/-! DEFINITION. Stop records and the summary (R419, R423 to R425), policies and the fall of HLINE (R400, R421, R422), pre-emption, freeze-scan
and resumption (R63, R426 to R431), and page-fault answers (R357, R358). -/

namespace Sys2Proof.Machine

open Sys2Proof

/-! ### Stop records -/

/-- PLST of a tile (Table 15.4). -/
def plstOf (x : Tile) : BitVec 8 :=
  let swh := x.swf != 0 || (queued (activePlane x)).any isSwitch
  BitVec.ofNat 8 ((if x.planeB then 1 else 0) + 2 * pstCode x.pa.pst + 8 * pstCode x.pb.pst + if swh then 32 else 0)

/-- The stall cause in progress of an engine of a tile. -/
def engineStall (s : State) (t e : Nat) : Nat :=
  match blockOf (activePlane (tileAt s t)) e with
  | some b => stallCode (engineCause s t (tileAt s t) e b)
  | none => 0

/-- OUTS of an engine: of all its elements, as far as five bits hold it. -/
def engineOuts (p : Plane) (e : Nat) : Nat :=
  match blockOf p e with
  | some b => min 31 ((b.elems.map fun el => el.outs.toNat).foldl (· + ·) 0)
  | none => 0

/-- A record with PLST and STALL as its tile stands (Table 15.4). -/
def fillRec (s : State) (l : Lease) (r : StopRec) : StopRec :=
  if r.kind = 1 ∧ r.tile ≠ 0xFFFF then
    let t := tileOfTi l.rcd.lorg l.rcd.lext r.tile
    { r with plst := plstOf (tileAt s t), stall := BitVec.ofNat 4 (engineStall s t r.eng) }
  else r

/-- The 64 bytes of a stop record (Table 15.4). -/
def recordBytes (lid : Nat) (l : Lease) (seq : BitVec 32) (tick : BitVec 64) (r : StopRec) : List Byte :=
  toBytes 4 seq.toNat ++ toBytes 1 r.kind ++ toBytes 1 (lid % 128) ++ toBytes 1 l.rcd.tenid.toNat ++ toBytes 1 l.stopid.toNat ++
    toBytes 4 r.cause.toNat ++ toBytes 2 r.graph ++ toBytes 2 r.node ++ toBytes 2 r.tile ++ toBytes 1 r.eng ++ toBytes 1 r.slot ++
    toBytes 1 r.plst.toNat ++ toBytes 1 r.fflg.toNat ++ toBytes 2 r.stall.toNat ++ toBytes 8 tick.toNat ++ toBytes 32 r.payload.toNat

/-- Writes a record at its place and advances SSEQ (R423). -/
def writeRec (lid : Nat) (s : State) (r : StopRec) : State :=
  let l := leaseAt s lid
  if l.lstate == .removing then s
  else
    let seq := l.sseq + 1
    let s := setLease s lid { l with sseq := seq }
    gWrite s lid (l.rcd.stbase.toNat + 64 + 64 * (seq.toNat % 4096)) (recordBytes lid l seq s.tick r)

/-- LSTATE codes, Table 13.3. -/
def lstateCode (x : Lstate) : Nat :=
  match x with
  | .free => 0 | .active => 1 | .moving => 2 | .gating => 3 | .preempted => 4 | .removing => 5

/-- Writes the stop summary (R425). -/
def writeSummary (s : State) (lid : Nat) : State :=
  let l := leaseAt s lid
  gWrite s lid l.rcd.stbase.toNat (toBytes 4 (l.sseq + 1).toNat ++ toBytes 4 l.stopFirst.toNat ++ toBytes 4 l.stopCause.toNat ++
    toBytes 1 l.stopid.toNat ++ toBytes 1 (lstateCode l.lstate) ++ [0, 0] ++ toBytes 8 l.lost ++ List.replicate 40 0)

/-- The STOPPED records of a stop: one for each engine of each tile whose active plane is not EMPTY and that has written no ORIGIN record
(R419). The model stops an engine at once, so that no firing completes in the skid (log 6) (log 67). -/
def stoppedRecs (s : State) (lid : Nat) (cause : BitVec 32) : List StopRec :=
  let l := leaseAt s lid
  ((boundTiles s lid).map fun t =>
    let x := tileAt s t
    let p := activePlane x
    if p.pst == .empty then []
    else ([0, 1, 2].filter fun e => !l.recs.any fun r => r.kind == 1 && r.tile == tiOf x && r.eng == e).map fun e =>
      { kind := 2, cause := cause, graph := p.graph, node := p.node, tile := tiOf x, eng := e, slot := 0xFF, plst := plstOf x,
        stall := BitVec.ofNat 4 (engineStall s t e), payload := payload3 (engineOuts p e) 0 x.swf.toNat : StopRec }).flatten

/-- Records are due: faults wait for theirs, or a stop has begun. -/
def recordsDue (l : Lease) : Bool := l.lstate != .removing && (!l.recs.isEmpty || l.stopOpen)

/-- The copy of a move of the lease is under way: a stop applies at the new position (R438). -/
def copyingNow (s : State) (lid : Nat) : Bool :=
  match s.move with
  | some m => m.copying && (match m.cur with | some e => e.lease == lid | none => false)
  | none => false

/-- Requests of a lease's elements are still on their way to be performed or answered; those of jobs run on (Table 15.3). -/
def reqsInFlight (s : State) (lid : Nat) : Bool :=
  s.reqs.any fun (_, r) => r.lease == lid && r.job.isNone && !r.waitFe && r.phase != .faulted

/-- The bounds of Table 15.3 have passed: every request in flight is performed or answered, or 64 + 3,200 cycles are over (R419). -/
def skidOver (s : State) (lid : Nat) : Bool := !reqsInFlight s lid || decide ((leaseAt s lid).stopCycles ≥ 64 + 3200)

/-- STOP_RECORDS_WRITE, R419, R423 to R425: after the skid bounds the records of a stop, or of class G faults, are written and then the summary; of a
stop the tenant and the Second are told. -/
def execStopRecordsWrite (lid : Nat) (s : State) : Host.Outcome State Fault Refusal :=
  let l := leaseAt s lid
  if !recordsDue l || copyingNow s lid || (l.stopOpen && !skidOver s lid) then .next s
  else
    let first := l.stopOpen && !l.stopWritten
    let cause : BitVec 32 := match l.recs.find? fun r => r.kind == 1 with | some r => r.cause | none => 0
    let before := (l.recs.takeWhile fun r => r.kind != 1).length
    let recs := l.recs.map (fillRec s l) ++ if first then stoppedRecs s lid cause else []
    let s := recs.foldl (writeRec lid) (modLease s lid fun l => { l with recs := [] })
    if (leaseAt s lid).lstate == .removing then .next s
    else
      let s := modLease s lid fun l => { l with
        stopOpen := false, stopWritten := l.hline, lost := l.lost + (recs.length - 4096) }
      let s := if first then modLease s lid fun m => { m with stopFirst := l.sseq + 1 + BitVec.ofNat 32 before, stopCause := cause } else s
      let s := writeSummary s lid
      if !first then .next s
      else
        let m := leaseAt s lid
        let e : BitVec 64 × BitVec 64 := (BitVec.ofNat 64 (lid + m.stopid.toNat * 2 ^ 8 + cause.toNat * 2 ^ 32), s.tick)
        let all := s.mirror ++ [e]
        .next (notifyLease { s with mirror := all.drop (all.length - 64) } lid 0x81 m.rcd.stbase 0)

/-! ### Policies -/

/-- Regions at a boundary go on, and segments that are issued start on tiles that have yet to start them. -/
def rouse (s : State) (lid : Nat) : State :=
  let s := modLease s lid fun l => { l with woken := true }
  let s := ((leaseAt s lid).regions.filter fun r => r.seg.isNone && !r.turnOver && !r.stopped && !r.held && r.next.isNone).foldl (fun s r => boundary s lid r.rid) s
  (boundTiles s lid).foldl startTile s

/-- HLINE falls when every record is written, every policy applied and no BREAK waits for CONTINUE (R422). -/
def dropHalt (s : State) (lid : Nat) : State :=
  let l := leaseAt s lid
  if l.hline && (l.lstate == .active || l.lstate == .moving || l.lstate == .gating) && !l.scan && l.recs.isEmpty && !l.stopOpen && l.faults.isEmpty &&
      !l.broken then
    rouse (setLease s lid { l with hline := false, stopWritten := false }) lid
  else s

/-- Applies a faulted node's policy (R400, R422) (log 89). -/
def applyPolicy (lid : Nat) (s : State) (e : Nat × Nat) : State :=
  let l := leaseAt s lid
  let s := setLease s lid { l with faults := l.faults.filter (· != e) }
  match nodeAt l e.1 e.2, l.graphs.find e.1 with
  | some nd, some x =>
    if l.lstate == .removing then s
    else
      let s := stopNode s lid e.1 e.2
      let s := modLease s lid fun l => modNode l e.1 e.2 fun nd => { nd with polDone := true }
      if x.gstate != 1 then s
      else if nd.policy.toNat % 4 = 2 then startRemoval s lid (nd.fcause.toNat / 65536)
      else if willRetry nd then s
      else cancelCone s lid e.1 e.2
  | _, _ => s

/-- Drops what a pre-emption saved of a region, its tokens counted, held SWITCH tokens apart (R63, R232, R422). -/
def dropSaved (s : State) (lid rid : Nat) : State :=
  let l := leaseAt s lid
  match l.saved with
  | none => s
  | some v =>
    let mine (p : Plane) : Bool := p.pst != .empty && p.rid == rid
    let n (x : Tile) (b : Bool) : Nat :=
      let p := planeOf x b
      if mine p then (planeTokens p).2 + (x.lands.filter fun e => e.plane == b).length else 0
    let sw (x : Tile) (b : Bool) : Nat := if mine (planeOf x b) then (planeTokens (planeOf x b)).1 else 0
    let held (m : Site × Bool × Token) : Bool := match Tab.find v.tiles m.1.tile with | some x => mine (planeOf x m.2.1) | none => false
    let clean (x : Tile) : Tile :=
      let one (x : Tile) (b : Bool) : Tile :=
        if mine (planeOf x b) then withPlane (x.keepLands fun e => e.plane != b) b emptyPlane else x
      one (one x false) true
    let sum (g : Tile → Nat) : Nat := (v.tiles.map fun m => g m.2).foldl (· + ·) 0
    let s := setLease s lid { l with
      saved := some { v with tiles := v.tiles.map fun (t, x) => (t, clean x) }, brk := l.brk.filter fun m => !held m }
    countEvent (countEvent s lid 3 (sum fun x => sw x false + sw x true)) lid 2 ((sum fun x => n x false + n x true) + (l.brk.filter held).length)

/-- POLICY_APPLY, R421, R422: the policies of the faulted nodes in order, the releases that may be made, and the fall of HLINE. -/
def execPolicyApply (lid : Nat) (s : State) : Host.Outcome State Fault Refusal :=
  let l := leaseAt s lid
  if l.lstate == .removing || recordsDue l then .next s
  else if l.haltReq then .next (startRemoval s lid cHalt)
  else
    let s := l.faults.foldl (applyPolicy lid) s
    let s := ((leaseAt s lid).regions.filter fun r => releasable s lid r).foldl (fun s r => dropSaved s lid r.rid) s
    let s := dropHalt (releaseStopped s lid) lid
    .next ((leaseAt s lid).actg.foldl (fun s g => checkGraph s lid g) s)

/-- CONTINUE, R414: a BREAK is over; its A tokens go on, and HLINE falls. Of a lease that no BREAK has stopped it changes nothing. -/
def execContinueNode (c : Cmd) (s : State) : Host.Outcome State Fault Refusal :=
  .next (endIfGone s c fun s =>
    let lid := cmdLease c
    let l := leaseAt s lid
    if l.lstate == .preempted || l.lstate == .gating then waitCmd s c
    else
      let go (s : State) (m : Site × Bool × Token) : State :=
        match fieldsAt (planeOf (tileAt s m.1.tile) m.2.1) m.1.eng m.1.slot with
        | some (i, f) => (targetsOf i f).foldl (fun s g => putTo s m.1 m.2.1 g.1 g.2 m.2.2) s
        | none => s
      let s := l.brk.foldl go s
      finishCmd (dropHalt (modLease s lid fun l => { l with brk := [], broken := false }) lid) c stDone 0)

/-! ### Quiescence -/

/-- A leaf of the quiescence tree: the tile is busy (R426). A .F load that waits on an empty granule is at rest. -/
def tileBusy (s : State) (lid t : Nat) : Bool :=
  let x := tileAt s t
  let held := x.pa.pst != .empty || x.pb.pst != .empty
  let reading (p : Plane) : Bool := p.acc0.rdo.kind != 0 || p.acc1.rdo.kind != 0
  let issued (p : Plane) : Bool := [0, 1, 2].any fun e => match blockOf p e with | some b => b.issued | none => false
  let l := leaseAt s lid
  let ranging (p : Plane) : Bool := (elemsOf p).any fun m => m.2.2.rqp.act
  -- a token that came in this cycle was on a hop; an element readied after its turn, or one behind an anchor raise, can fire
  let ready (p : Plane) : Bool := !p.late.isEmpty || ((elemsOf p).any fun m => !m.2.2.late.isEmpty) || [0, 1, 2].any fun e => match blockOf p e with
    | some b => decide (b.raise > 0) || blockReady p t e b
    | none => false
  (held && (ready (activePlane x) || !x.idle || issued (activePlane x) || reading x.pa || reading x.pb || ranging x.pa || ranging x.pb)) || s.wires.any (fun w => w.tile == t) ||
    s.demands.any (fun d => d.tile == t) || s.reqs.any (fun (_, r) => r.lease == lid && r.who.tile == t && !r.waitFe) ||
    l.barMsgs.any (fun m => m.who.tile == t) || l.enqs.any (fun m => m.who.tile == t) || l.cards.any (fun c => match c.who with | some w => w.tile == t | none => false) ||
    [0, 1, 2].any (fun e => landbReady x x.planeB e) || x.drain.isSome || x.capture.isSome

/-- Home base dies that hold a request or a job of the lease, or a write for it that waits for a link (R426, R490). -/
def busyDies (s : State) (lid : Nat) : BitVec 16 :=
  let l := leaseAt s lid
  let rq := s.reqs.filterMap fun (_, r) => if r.lease == lid && !r.waitFe then some (dieOfReq s r) else none
  let jb := (l.jobt.filter fun (_, j) => j.running).map fun (_, j) => match j.who with | some x => homeDie s lid (tiOf (tileAt s x.tile)) | none => homeDie s lid 0
  let cd := l.cards.map fun c => match c.who with | some x => homeDie s lid (tiOf (tileAt s x.tile)) | none => homeDie s lid 0
  let wr := (s.heldWrites.filter fun w => w.1 == lid).map fun _ => homeDie s lid 0
  BitVec.ofNat 16 (((rq ++ jb ++ cd ++ wr).eraseDups).foldl (fun a d => a + 2 ^ d) 0)

/-- Reach-port channels that hold a token of the lease in flight (R426). -/
def busyPorts (s : State) (lid : Nat) : List Nat :=
  (((s.peerOut.filter fun w => w.stamp == some lid).filterMap fun w => reachFor w.tile w.port w.ch) ++ (reachHeld s lid).map (·.1)).eraseDups

/-! ### Saving -/

/-- A pre-emption ends: LSTATE and the summary change, and PREEMPT completes (R427, R430). -/
def preempted (s : State) (lid : Nat) (v : Saved) (st : Nat) : State :=
  let l := leaseAt s lid
  let s := setLease s lid { l with lstate := .preempted, saved := some v, scan := false, hline := l.broken, pending := [], quiet := 0 }
  l.pending.foldl (fun s c => finishCmd s c st 0) (writeSummary s lid)

/-- Saves a lease at its pre-emption, source-gated or by freeze-scan (R427 to R431). -/
def savePreempt (s : State) (lid : Nat) (scan : Bool) : State :=
  let l := leaseAt s lid
  let s := (boundTiles s lid).foldl sendDeltas s
  let held := (boundTiles s lid).filter fun t => let x := tileAt s t; x.pa.pst != .empty || x.pb.pst != .empty
  let hashes := (l.regions.filter fun r => !scan || r.nextPat.isSome).flatMap (·.hashes)
  -- of a frozen region nothing more is saved than its own freeze-scan did (R358); what that could not save stays on its tiles (R430)
  let frozen (p : Plane) : Bool := l.regions.any fun r => r.rid == p.rid && r.frozen
  let stays (p : Plane) : Bool := p.pst != .empty && l.regions.any fun r => r.rid == p.rid && r.frozen && r.entry.isNone
  let mask (p : Plane) : Plane := if frozen p then emptyPlane else p
  let xs := ((held.map (tileAt s)).map fun x => { x with pa := mask x.pa, pb := mask x.pb }).filter fun x => x.pa.pst != .empty || x.pb.pst != .empty
  let (s, ok) := writeImage s lid 0 { leaseHead l with hashes := hashes } (imageBody xs scan)
  if (leaseAt s lid).lstate == .removing then s
  else if !ok then preempted s lid { inPlace := true, frozen := scan } stSaveFull
  else
    let v : Saved := { tiles := held.map fun t => (t, tileAt s t), frozen := scan }
    let left (x : Tile) : Bool := stays x.pa || stays x.pb
    let s := held.foldl (fun s t => modTile s t fun x => { x.keepLands (fun e => stays (planeOf x e.plane)) with
      pa := if stays x.pa then x.pa else emptyPlane, pb := if stays x.pb then x.pb else emptyPlane
      swf := if left x then x.swf else 0, capture := none, halted := left x && x.halted }) s
    preempted s lid v stDone

/-- QUIESCENCE_SAMPLE, R426, R427: QROOT counts the busy leaves; at the second quiet sample a gating lease is saved (log 68). -/
def execQuiescenceSample (lid : Nat) (s : State) : Host.Outcome State Fault Refusal :=
  let l := leaseAt s lid
  if !l.v || l.lstate == .removing || l.lstate == .free then .next s
  else
    let ts := boundTiles s lid
    let s := ts.foldl (fun s t => let b := tileBusy s lid t; modTile s t fun x => { x with qbusy := b }) s
    let d := busyDies s lid
    let p := busyPorts s lid
    let n := (ts.filter fun t => (tileAt s t).qbusy).length + popCount 16 d.toNat + p.length
    let q := if n = 0 then l.quiet + 1 else 0
    let s := modLease s lid fun l => { l with qroot := BitVec.ofNat 16 (min n 65535), qdie := d, qport := p, quiet := q }
    .next (if l.lstate == .gating && !l.hline && !l.scan && decide (q ≥ 2) then savePreempt s lid false else s)

/-- Starts the gate of a pre-emption (R427); open snapshots are abandoned. -/
def startGate (s : State) (c : Cmd) (scan : Bool) : State :=
  let lid := cmdLease c
  let s := ((leaseAt s lid).snps.map (·.1)).foldl (fun s i => abandonSnap lid i s) { s with cmdWait := s.cmdWait.filter (· != c) }
  modLease s lid fun l => { l with lstate := .gating, quiet := 0, gateCycles := 0, pending := l.pending ++ [c], scan := scan, stopCycles := 0 }

/-- PREEMPT, R365, R427, R428. One that found the lease stopped by a trap waits until the release of R422 has finished. -/
def execPreempt (c : Cmd) (s : State) : Host.Outcome State Fault Refusal :=
  let l := leaseAt s (cmdLease c)
  match l.lstate with
  | .active =>
    if !l.hline then .next (if s.cmdWait.contains c && l.regions.any (·.stopped) then s else startGate s c false)
    else if l.broken && !recordsDue l && l.faults.isEmpty then .next (startGate s c true)
    else .next (waitCmd s c)
  | .moving => .next (waitCmd s c)
  | _ => .next (finishCmd s c stNotActive 0)

/-- QBND_EXPIRY, R428: HLINE rises, and the whole lease is freeze-scanned (log 69). -/
def execQbndExpiry (lid : Nat) (s : State) : Host.Outcome State Fault Refusal :=
  let l := leaseAt s lid
  if l.lstate == .gating && !l.scan && decide (l.gateCycles ≥ 1024 * l.rcd.qbnd.toNat) && !recordsDue l && l.faults.isEmpty then
    .next (setLease s lid { l with hline := true, scan := true, stopCycles := 0 })
  else .next s

/-- Requests, tokens or demands of a lease are still on their way (Table 15.3). -/
def inFlight (s : State) (lid : Nat) : Bool :=
  reqsInFlight s lid || s.wires.any (fun w => w.stamp == some lid) ||
    s.demands.any fun d => d.lease == lid

/-- The first of some directory entries that is free and large enough (R430). -/
def freeEntry (lid n : Nat) : List Nat → State → State × Option Nat
  | [], s => (s, none)
  | i :: r, s => match vaReadN s lid ((leaseAt s lid).rcd.saveb.toNat + 16 * i) 16 with
    | (s, .ok v) => if !v.testBit 127 && decide (n ≤ fld v 64 32) then (s, some i) else freeEntry lid n r s
    | (s, .error _) => freeEntry lid n r s

/-- FREEZE_SCAN_DONE, R357, R428 to R430: of the whole lease (region 0), or of a region that a page fault has frozen. -/
def execFreezeScanDone (lid rid : Nat) (s : State) : Host.Outcome State Fault Refusal :=
  let l := leaseAt s lid
  if l.lstate == .removing then .next s
  else if rid = 0 then
    if !l.scan || l.lstate != .gating || recordsDue l || !l.faults.isEmpty ||
        (inFlight s lid && decide (l.stopCycles < 64 + 3200)) then .next s
    else .next (savePreempt s lid true)
  else match regionAt l rid with
    | none => .next s
    | some r =>
      if !r.frozen || r.scanned then .next s
      else
        let s := (regionTiles l.rcd r).foldl sendDeltas s
        let xs := (regionTiles l.rcd r).map (tileAt s)
        let hashes := if r.nextPat.isSome then r.hashes else []
        let h : ImgHead := { regionHead (leaseAt s lid) rid with kind := 3, hashes := hashes }
        let n := imageBytes h (imageBody xs true)
        match freeEntry lid n ((List.range 251).map (· + 5)) s with
        | (s, some i) =>
          let (s, ok) := writeImage s lid i h (imageBody xs true)
          .next (modLease s lid fun l => modRegion l rid fun r => { r with scanned := true, entry := if ok then some i else none })
        | (s, none) =>
          -- no entry to name: its index in the record is free
          let (i, s) := free s
          .next (modLease (saveRecord s lid cSaveFull i n) lid fun l => modRegion l rid fun r => { r with scanned := true })

/-- HALT_TIMEOUT, R434: a stop or freeze-scan has not finished its records in time. -/
def execHaltTimeout (lid : Nat) (s : State) : Host.Outcome State Fault Refusal :=
  let l := leaseAt s lid
  if (recordsDue l || l.scan) && l.hline && decide (l.stopCycles ≥ 64 + 3200 + 65536) then .next (startRemoval s lid cHalted) else .next s

/-! ### Resumption -/

/-- What reading a region's patterns again finds (R63). -/
inductive Reload where
  | same
  | wait
  | bad (cause : Nat) (detail : Option Nat)

/-- Reads patterns of a region again and compares them with the retained hashes. -/
def reloadPats (lid : Nat) (r : Region) : List Pat → State → State × Reload
  | [], s => (s, .same)
  | p :: q, s => match loaderParts s lid r.va (patParts r.img p) with
    | (s, .wait) => (s, .wait)
    | (s, .fail c) => (s, .bad cConfigFetch (some c))
    | (s, .ok b) => if r.hashes[p.idx]? ≠ some (sha256 b) then (s, .bad cImageChanged none) else reloadPats lid r q s

/-- Reads again the patterns of every saved plane of a list of regions: none when a page fault delays it, else the regions that fail. -/
def reloadAll (lid : Nat) (v : Saved) : List Region → State → State × Option (List (Region × Nat × Option Nat))
  | [], s => (s, some [])
  | r :: q, s =>
    let rc := (leaseAt s lid).rcd
    let has (p : Pat) : Bool := v.tiles.any fun (t, x) =>
      (patTiles p).any (fun (cx, cy) => tileOfXy rc (r.ox + cx) (r.oy + cy) == t) && [x.pa, x.pb].any fun y => y.pst != .empty && y.rid == r.rid
    match reloadPats lid r ((patsOf r.img).filter has) s with
    | (s, .wait) => (s, none)
    | (s, .same) => reloadAll lid v q s
    | (s, .bad c d) => match reloadAll lid v q s with
      | (s, some l) => (s, some ((r, c, d) :: l))
      | (s, none) => (s, none)

/-- A block with its constants read again. -/
def reloadBlock (b q : Option Block) : Option Block :=
  match b, q with
  | some b, some q => some { b with elems := b.elems.zipWith (fun e d => { e with k0 := d.k0, k1 := d.k1 }) q.elems }
  | b, _ => b

/-- A saved plane with its constants and routes read from the image again, the descriptors rewritten as at the original load with the lease's
width of now (R50, R131). A displacement that moves have left stays in RDSP. Where the region was frozen before, they are values (R358). -/
def reloadPlane (l : Lease) (t : Nat) (y : Plane) : Plane :=
  match (if y.pst == .empty then none else regionAt l y.rid) with
  | none => y
  | some r =>
    if r.frozen then y
    else
      let at0 : Region := { r with ox := ((r.ox : Int) - dispX y.rdsp).toNat, oy := ((r.oy : Int) - dispY y.rdsp).toNat }
      match (patsOf r.img).findSome? fun p => ((patPlaces l.rcd r p).find? fun q => q.1 == t).map fun q => loadPlane l.rcd at0 p q.2.1 q.2.2 with
      | none => y
      | some q => { y with route := q.route, blk0 := reloadBlock y.blk0 q.blk0, blk1 := reloadBlock y.blk1 q.blk1, blk2 := reloadBlock y.blk2 q.blk2 }

/-- What a resumption puts back at a tile: what the lease's image holds of it (R191), after a freeze-scan with constants and routes as saved, else with
those of the configuration's image (R131). -/
def savedTile (l : Lease) (secs : List (Nat × Nat × List Byte)) (v : Saved) (e : Nat × Tile) : Nat × Tile :=
  let x := tileOfImage secs v.frozen e.2
  if v.frozen then (e.1, x) else (e.1, { x with pa := reloadPlane l e.1 x.pa, pb := reloadPlane l e.1 x.pb })

/-- Restores a tile from what was saved of it, ACTC and STC included (R131, R428, R447). -/
def restoreTile (s : State) (e : Nat × Tile) : State :=
  modTile s e.1 fun x => { x with
    planeB := e.2.planeB, pa := e.2.pa, pb := e.2.pb, landb := e.2.landb, spill := e.2.spill, swf := e.2.swf, capture := e.2.capture, halted := e.2.halted,
    actc := e.2.actc, stc := e.2.stc }

/-- The state after a resumption (R428): a lease that BREAK had stopped stays stopped. -/
def resumed (s : State) (c : Cmd) : State :=
  let lid := cmdLease c
  let s := clearV s lid 0
  let s := modLease s lid fun l =>
    if l.lstate == .removing then l else { l with lstate := .active, saved := none, hline := l.broken, stopWritten := l.broken }
  finishCmd (writeSummary (rouse s lid) lid) c stDone 0

/-- RESUME, R63, R365, R428. -/
def execResume (c : Cmd) (s : State) : Host.Outcome State Fault Refusal :=
  let lid := cmdLease c
  let l := leaseAt s lid
  if l.lstate != .preempted then .next (finishCmd s c stNotActive 0)
  else match l.saved with
    | none => .next (resumed s c)
    | some v =>
      if v.inPlace then .next (resumed s c)
      else match reloadAll lid v (if v.frozen then [] else l.regions.filter fun r => !r.frozen) s with
        | (s, none) => .next (waitCmd s c)
        | (s, some bads) =>
          let fault (s : State) (b : Region × Nat × Option Nat) : State :=
            let s := modLease (dropSaved s lid b.1.rid) lid fun l => modRegion l b.1.rid fun r => { r with stopped := true }
            match b.2.2 with
            | some d => graphFault s lid 4 b.1.graph b.1.node b.2.1 d 0
            | none => let (d, s) := free s; graphFault s lid 4 b.1.graph b.1.node b.2.1 d 0
          let s := bads.foldl fault s
          let (s, secs) := imageSections s lid 0
          let tiles := match (leaseAt s lid).saved with | some v => v.tiles.map (savedTile (leaseAt s lid) secs v) | none => []
          .next (resumed (tiles.foldl restoreTile s) c)

/-! ### Answers to page faults -/

/-- Held requests of a lease go on (R358). -/
def reissue (s : State) (lid : Nat) (which : Req → Bool) : State :=
  let go (q : Req) : Req := if q.lease == lid && q.phase == .faulted && which q then { q with phase := .issued } else q
  { s with reqs := s.reqs.map fun m => (m.1, go m.2) }

/-- A held request waits on the page of a PFREC. -/
def onPage (s : State) (f : Pfrec) (q : Req) : Bool :=
  reqRegion s q == f.rid && match untranslated q with | some p => p.addr / 65536 == f.va.toNat / 65536 | none => false

/-- Held requests of no region go on when no open PFREC stands for their page, those too that were held beyond the 16th record (R345, R358). -/
def reissueFree (s : State) (lid : Nat) : State :=
  let fs := (leaseAt s lid).pfrecs.filter fun f => f.rid == 0 && !f.loader && !f.resolved
  reissue s lid fun q => reqRegion s q == 0 && !fs.any fun f => onPage s f q

/-- Once no PFREC of a region is open it is restored: its tiles run again, and its held requests go on (R358). -/
def thaw (s : State) (lid rid : Nat) : State :=
  let l := leaseAt s lid
  match regionAt l rid with
  | none => s
  | some r =>
    if !r.frozen || l.pfrecs.any (fun f => f.rid == rid && !f.loader && !f.resolved) then s
    else
      let ts := regionTiles l.rcd r
      let s := match r.entry with | some i => clearV s lid i | none => s
      let s := ts.foldl (fun s t => modTile s t fun x => { x with frozen := false }) s
      let s := modLease s lid fun l =>
        modRegion { l with pfrecs := l.pfrecs.filter fun f => f.rid != rid || f.loader } rid fun r => { r with frozen := false, scanned := false, entry := none }
      rouse (reissue s lid fun q => reqRegion s q == rid) lid

/-- The open PFREC that a command names. -/
def openPfrec (l : Lease) (c : Cmd) : Option Pfrec := l.pfrecs.find? fun f => f.tag.toNat == cmdField c 24 8 && !f.resolved && !f.declined

/-- PFRESOLVE, R358. -/
def execPfresolve (c : Cmd) (s : State) : Host.Outcome State Fault Refusal :=
  .next (endIfGone s c fun s =>
    let lid := cmdLease c
    let l := leaseAt s lid
    match openPfrec l c with
    | none => finishCmd s c stFaultTag 0
    | some f =>
      if f.loader then finishCmd (setLease s lid { l with pfrecs := l.pfrecs.filter fun g => g.tag != f.tag }) c stDone 0
      else
        let l := { l with pfrecs := l.pfrecs.map fun g => if g.tag = f.tag then { g with resolved := true } else g }
        let s := setLease s lid l
        -- a COPY node's request has no region to restore
        if f.rid = 0 then finishCmd (reissueFree (modLease s lid fun l => { l with pfrecs := l.pfrecs.filter fun g => g.tag != f.tag }) lid) c stDone 0
        else finishCmd (thaw s lid f.rid) c stDone 0)

/-- PFDECLINE, R358: the held requests of the page return error completions with TRANSLATION. -/
def execPfdecline (c : Cmd) (s : State) : Host.Outcome State Fault Refusal :=
  .next (endIfGone s c fun s =>
    let lid := cmdLease c
    let l := leaseAt s lid
    match openPfrec l c with
    | none => finishCmd s c stFaultTag 0
    | some f =>
      if f.loader then
        let l := { l with pfrecs := l.pfrecs.map fun g => if g.tag = f.tag then { g with declined := true } else g }
        finishCmd (setLease s lid l) c stDone 0
      else
        let hit (q : Req) : Bool := q.lease == lid && q.phase == .faulted && onPage s f q
        let s := { s with reqs := s.reqs.map fun m => (m.1, if hit m.2 then failPage m.2 (f.va.toNat / 65536) cTranslation else m.2) }
        let s := modLease s lid fun l => { l with pfrecs := l.pfrecs.filter fun g => g.tag != f.tag }
        finishCmd (thaw (if f.rid = 0 then reissueFree s lid else s) lid f.rid) c stDone 0)

end Sys2Proof.Machine
end

