-- ==== Sys2Proof/Machine/Slots.lean ====
section
/-! DEFINITION. The bind record, BIND and REBIND (R362 to R364), and the tiles' lease registers. -/

namespace Sys2Proof.Machine

open Sys2Proof

/-! ### The bind record, Table 13.2 -/

/-- `n` bytes of a 128-byte record. -/
def recField (v off n : Nat) : Nat := fld v (8 * off) (8 * n)

/-- The fields of a bind record. -/
def bindRecOf (v : Nat) : BindRec where
  tenid := BitVec.ofNat 6 (recField v 1 1)
  lorg := BitVec.ofNat 14 (recField v 2 2)
  lext := BitVec.ofNat 14 (recField v 4 2)
  prio := BitVec.ofNat 4 (recField v 6 1)
  racem := v.testBit 52
  fpen := BitVec.ofNat 5 (recField v 7 1)
  agel := BitVec.ofNat 16 (recField v 8 2)
  homeb := BitVec.ofNat 16 (recField v 10 2)
  hbmsh := BitVec.ofNat 8 (recField v 12 1)
  meshsh := BitVec.ofNat 8 (recField v 13 1)
  snpto := BitVec.ofNat 32 (recField v 16 4)
  bwph := BitVec.ofNat 32 (recField v 20 4)
  bgdef := BitVec.ofNat 16 (recField v 24 2)
  bgtab := BitVec.ofNat 64 (recField v 32 8)
  ptbr := BitVec.ofNat 64 (recField v 40 8)
  stbase := BitVec.ofNat 64 (recField v 48 8)
  saveb := BitVec.ofNat 64 (recField v 56 8)
  grtab := BitVec.ofNat 64 (recField v 64 8)
  tidb := BitVec.ofNat 64 (recField v 72 8)
  qbnd := BitVec.ofNat 32 (recField v 80 4)
  fneed := BitVec.ofNat 32 (recField v 84 4)

/-- A BWPH value that Table 11.2 does not allow (R338). -/
def bwphBad (w : Nat) : Bool := decide (w % 1024 ≠ 0) || decide (fld w 10 2 = 3) || decide (fld w 28 2 = 3)

/-- A record breaks Table 13.2, or its rectangle leaves the grid. -/
def bindBad (lid v : Nat) : Bool :=
  let r := bindRecOf v
  decide (recField v 0 1 ≠ 128 + lid) || decide (recField v 1 1 = 0) || decide (recField v 1 1 > 32) || decide (fld v 30 2 ≠ 0) || decide (fld v 46 2 ≠ 0) ||
    decide (fld v 53 3 ≠ 0) || decide (fld v 61 3 ≠ 0) || r.agel == 0 || r.homeb == 0 || decide (recField v 14 2 ≠ 0) || decide (recField v 26 6 ≠ 0) ||
    decide (recField v 88 40 ≠ 0) || r.qbnd == 0 || bwphBad r.bwph.toNat || decide (r.fneed.toNat ≥ 4096) ||
    decide (r.ptbr.toNat % 4096 ≠ 0) || decide (r.ptbr.toNat ≥ 2 ^ 52) ||
    decide (regX r.lorg + leaseW r > Config.gridW) || decide (regY r.lorg + leaseH r > Config.gridH)

/-- The grant that a record gives a lease-relative tile: BGDEF, or its entry of BGTAB, which lies in memory of the device (R362). -/
def grantRead (s : State) (r : BindRec) (ti : Nat) : Option (BitVec 16) :=
  if r.bgtab = 0 then some r.bgdef
  else match devRead s (r.bgtab.toNat + 2 * ti) 2 with
    | .ok b => some (BitVec.ofNat 16 (ofBytes b))
    | .error _ => none

/-- The same as a grant, once the record has passed its checks. -/
def grantOf (s : State) (r : BindRec) (ti : Nat) : BitVec 16 := (grantRead s r ti).getD 0

/-- Some tile's grant in BGTAB lacks a bank of BGDEF (R364), or cannot be read by the device (R31) (log 98). -/
def grantBad (s : State) (r : BindRec) : Bool :=
  r.bgtab != 0 && (List.range (leaseW r * leaseH r)).any fun ti => match grantRead s r ti with
    | some g => r.bgdef &&& ~~~g != 0
    | none => true

/-! ### Checks -/

/-- The die of a tile has joined (R498). -/
def joined (s : State) (t : Nat) : Bool := s.stage.getLsbD (4 + Config.dieOf t)

/-- A tile that a lease may not take: of another lease, forwarding for another, or of a die that has not joined (R364, R498). -/
def tileTaken (s : State) (lid t : Nat) : Bool :=
  let x := tileAt s t
  !joined s t || (tileBound x && x.tlease.toNat != lid) || x.fwd.any fun f => f.lease != lid

/-- The shares of all live leases with this record in place sum to more than 256 (R364). -/
def shareBad (s : State) (lid : Nat) (r : BindRec) : Bool :=
  let live := s.leases.filter fun (k, l) => k != lid && l.v
  let sum (f : BindRec → Nat) : Nat := (live.map fun (_, l) => f l.rcd).foldl (· + ·) (f r)
  decide (sum (fun r => r.hbmsh.toNat) > 256) || decide (sum (fun r => r.meshsh.toNat) > 256)

/-- A die of some tiles lacks a feature of FNEED (R364). -/
def needBad (s : State) (r : BindRec) (ts : List Nat) : Bool := ts.any fun t => r.fneed &&& ~~~(fmaskOf s (Config.dieOf t)) != 0

/-- The checks 3 to 5 of R364 over the tiles that a record adds. -/
def slotFlaw (s : State) (lid : Nat) (r : BindRec) (ts : List Nat) : Option Nat :=
  if ts.any (tileTaken s lid) then some stOverlap
  else if shareBad s lid r then some stShare
  else if needBad s r ts then some stFeatureAbsent
  else none

/-! ### Binding -/

/-- Writes the lease registers of a tile (Table 5.3). -/
def bindTile (lid : Nat) (r : BindRec) (s : State) (t : Nat) : State :=
  modTile s t fun x => { x with
    tlease := BitVec.ofNat 7 lid, tten := r.tenid, lorg := r.lorg, lext := r.lext, tlxy := mkReg (t % 256 - regX r.lorg) (t / 256 - regY r.lorg) }

/-- Gives a tile a new grant: banks that leave it are scrubbed and OFF, banks that enter it start their scrub (R334, R341). -/
def regrant (s : State) (t : Nat) (g : BitVec 16) : State :=
  let old := (tileAt s t).bankg
  modTile (ungrantBanks s t (old &&& ~~~g).toNat) t fun x => grantBanks x (g &&& ~~~old).toNat

/-- Sets the current grants of a lease as its record gives them (R339). -/
def grantAll (s : State) (lid : Nat) (r : BindRec) : State :=
  let ts := leaseTiles r
  let s := ts.foldl (fun s t => let x := tileAt s t; regrant s t (grantOf s r (tiOf x))) s
  modLease s lid fun l => { l with grants := ts.foldl (fun g t => let x := tileAt s t; Tab.put g (tiOf x) x.bankg) [] }

/-- A scrub of some tile of a lease goes on. -/
def scrubGoes (s : State) (lid : Nat) : Bool := (boundTiles s lid).any fun t => (tileAt s t).scrub != 0

/-- The bind record that a command names (log 95). -/
def recordAt (s : State) (c : Cmd) : Nat := Memory.readN s.mem 128 (hostPa (cmdField c 24 8))

/-- A new lease's stop summary holds zeros (R2, R416), if STBASE can be written yet (log 67). -/
def zeroSummary (s : State) (lid : Nat) : State := (postWrite s lid (leaseAt s lid).rcd.stbase.toNat (List.replicate 64 0)).1

/-- BIND, R364, R365: its checks in order; the lease is ACTIVE once its grant scrub has ended, and the command completes with that (log 85). -/
def execBind (c : Cmd) (s : State) : Host.Outcome State Fault Refusal :=
  let lid := cmdLease c
  let l := leaseAt s lid
  if l.scrubbing && l.pending.contains c then
    if scrubGoes s lid then .next s
    else .next (finishCmd (zeroSummary (setLease s lid { l with scrubbing := false, lstate := .active, pending := [] }) lid) c stDone 0)
  else if l.v || l.lstate != .free then .next (finishCmd s c stSlotBusy 0)
  else if !s.linkUp0 then .next { s with linkHeld := true }
  else
    let v := recordAt s c
    let r := bindRecOf v
    if bindBad lid v || grantBad s r then .next (finishCmd s c stBadField 0)
    else match slotFlaw s lid r (leaseTiles r) with
      | some st => .next (finishCmd s c st 0)
      | none =>
        let s := setLease s lid { v := true, rcd := r, scrubbing := true, pending := [c] }
        .next (waitCmd (grantAll ((leaseTiles r).foldl (bindTile lid r) s) lid r) c)

/-- A REBIND record changes a field that Table 13.4 does not list (R364). -/
def rebindBad (a b : BindRec) (pre : Bool) : Bool :=
  a.tenid != b.tenid || a.lorg != b.lorg || a.homeb != b.homeb || a.bwph != b.bwph || a.ptbr != b.ptbr || a.stbase != b.stbase ||
    a.saveb != b.saveb || a.grtab != b.grtab || a.tidb != b.tidb || a.fneed != b.fneed ||
    (!pre && (a.lext != b.lext || a.bgdef != b.bgdef || a.bgtab != b.bgtab))

/-- Gives back a tile that a smaller LEXT leaves out: its banks are OFF and its registers at their reset values (R133, R341). -/
def unbindTile (s : State) (t : Nat) : State := setTile (ungrantBanks (sendDeltas s t) t (tileAt s t).bankg.toNat) t {}

/-- Banks of a lease's tiles that a new record takes out of their grants and that have not drained. -/
def rebindBusy (s : State) (lid : Nat) (r : BindRec) : Bool :=
  (boundTiles s lid).any fun t =>
    let x := tileAt s t
    let kept := (leaseTiles r).contains t
    let ti := (t / 256 - regY r.lorg) * leaseW r + (t % 256 - regX r.lorg)
    let new := if kept then grantOf s r ti else 0
    (bitsOf 16 (x.bankg &&& ~~~new).toNat).any (bankBusy s t s.nextReq)

/-- REBIND, R364, R365. In a pre-empted lease it rewrites LEXT and every tile's grant (log 70). -/
def execRebind (c : Cmd) (s : State) : Host.Outcome State Fault Refusal :=
  let lid := cmdLease c
  let l := leaseAt s lid
  let pre := l.lstate == .preempted
  if !l.v || l.lstate == .removing then .next (finishCmd s c stNotActive 0)
  else if !(l.lstate == .active || pre) then .next (waitCmd s c)
  else if !s.linkUp0 then .next { s with linkHeld := true }
  else
    let v := recordAt s c
    let r := bindRecOf v
    let added := (leaseTiles r).filter fun t => !(leaseTiles l.rcd).contains t
    if bindBad lid v || grantBad s r || rebindBad l.rcd r pre then .next (finishCmd s c stBadField 0)
    else match slotFlaw s lid r added with
      | some st => .next (finishCmd s c st 0)
      | none =>
        if pre && rebindBusy s lid r then
          if l.bankWait ≥ 512 then .next (finishCmd (setLease s lid { l with bankWait := 0 }) c stBankBusy 0)
          else .next (waitCmd (setLease s lid { l with bankWait := max 1 l.bankWait }) c)
        else
          let gone := (leaseTiles l.rcd).filter fun t => !(leaseTiles r).contains t
          let s := setLease s lid { l with rcd := r, bankWait := 0 }
          let s := if pre then grantAll ((leaseTiles r).foldl (bindTile lid r) (gone.foldl unbindTile s)) lid r else s
          .next (finishCmd (modLease s lid fun l => { l with woken := true }) c stDone 0)

end Sys2Proof.Machine
end

