-- ==== Sys2Proof/Machine/Moves.lean ====
section
/-! DEFINITION. Compaction plans and moves (R40, R132, R344, R368 to R372, R477, R506). -/

namespace Sys2Proof.Machine

open Sys2Proof

/-! ### The plan -/

/-- A plan entry, Table 13.8. `bad`: a reserved bit is set, or a field that WHOLE leaves zero. -/
def planEntry (s : State) (plan k : Nat) : PlanE :=
  let v := Memory.readN s.mem 16 (plan + 16 * k)
  let whole := v.testBit 8
  { idx := k, lease := fld v 0 7, whole := whole, rorg := fld v 16 16, cut := fld v 32 16, norg := fld v 48 16
    bad := v.testBit 7 || decide (fld v 9 7 ≠ 0) || decide (fld v 72 56 ≠ 0) || decide (fld v 30 2 ≠ 0) || decide (fld v 62 2 ≠ 0) ||
      (whole && decide (fld v 16 32 ≠ 0)) }

/-- The slab's current position: lowest x first, then lowest y (R369) (log 54). -/
def planPos (s : State) (e : PlanE) : Nat :=
  let o := (leaseAt s e.lease).rcd.lorg
  if e.whole then regX o * 64 + regY o else (regX o + e.rorg / 64) * 64 + regY o + e.rorg % 64

/-- Puts an entry into a list in order of position, behind its equals. -/
def planInsert (s : State) (l : List PlanE) (e : PlanE) : List PlanE :=
  l.takeWhile (fun q => Nat.ble (planPos s q) (planPos s e)) ++ [e] ++ l.dropWhile (fun q => Nat.ble (planPos s q) (planPos s e))

/-- The entries of a plan in the order in which they run. -/
def readPlan (s : State) (plan n : Nat) : List PlanE := ((List.range n).map (planEntry s plan)).foldl (planInsert s) []

/-- Writes ESTAT of an entry (R370). -/
def writeEstat (s : State) (plan idx st : Nat) : State := gWrite s mgmtKey (plan + 16 * idx + 8) (toBytes 1 st)

/-! ### Slabs -/

/-- The region that an entry names: the older one where a second is armed on its shadow planes. -/
def slabRegion (l : Lease) (e : PlanE) : Option Region := l.regions.find? fun r => r.pred.isNone && r.ox == e.rorg / 64 && r.oy == e.rorg % 64

/-- The regions that move as one slab: a region with the one armed behind it, or all of the lease. -/
def slabRids (l : Lease) (e : PlanE) (rid : Nat) : List Nat :=
  if e.whole then l.regions.map (·.rid)
  else rid :: (match (regionAt l rid).bind (·.next) with | some k => [k] | none => [])

/-- The module tiles of a slab. -/
def slabTiles (l : Lease) (e : PlanE) (rid : Nat) : List Nat :=
  if e.whole then leaseTiles l.rcd else match regionAt l rid with | some r => regionTiles l.rcd r | none => []

/-- Links of a cut set. -/
def cutLinks (m : List Byte) (cut : Nat) : List Nat := ((cutsOf m).filter fun c => c.1 == cut).map (·.2)

/-- The second part of a region under a cut set, as configuration-relative tiles (R40). -/
def secondPart (m : List Byte) (cut : Nat) : List (Nat × Nat) :=
  let gs := cutGroups m (linksOf m) (cutLinks m cut)
  let linked := gs.flatten
  let least := ((List.range (imgH m)).map fun y => (List.range (imgW m)).map fun x => (x, y)).flatten.find? fun t => linked.contains t
  match least with
  | some t => (gs.filter fun g => !g.contains t).flatten
  | none => []

/-- The module tiles of the part of a slab that is moved: all of it, or one part of a divided region. -/
def partTiles (l : Lease) (e : PlanE) (rid : Nat) (second : Bool) : List Nat :=
  if e.whole || e.cut == 0 then slabTiles l e rid
  else match regionAt l rid with
    | some r =>
      let other := (secondPart r.img e.cut).map fun (x, y) => tileOfXy l.rcd (cfgPlace r x y).1 (cfgPlace r x y).2
      if second then other else (regionTiles l.rcd r).filter fun t => !other.contains t
    | none => []

/-! ### Where a slab would stand -/

/-- The bind record and regions as a move leaves them. -/
def movedRecord (l : Lease) (e : PlanE) : BindRec := if e.whole then { l.rcd with lorg := BitVec.ofNat 14 e.norg } else l.rcd

def movedRegion (e : PlanE) (rids : List Nat) (r : Region) : Region :=
  if !e.whole && rids.contains r.rid then { r with ox := e.norg / 64, oy := e.norg % 64, behind := [] } else r

/-- The displacement of a move in tiles. -/
def moveBy (l : Lease) (e : PlanE) : Int × Int :=
  if e.whole then ((e.norg / 64 : Nat) - (regX l.rcd.lorg : Int), (e.norg % 64 : Nat) - (regY l.rcd.lorg : Int))
  else ((e.norg / 64 : Nat) - (e.rorg / 64 : Nat), (e.norg % 64 : Nat) - (e.rorg % 64 : Nat))

/-- A module tile after the move. -/
def movedTile (ts : List Nat) (dx dy : Int) (t : Nat) : Nat := if ts.contains t then ((t : Int) + dy * 256 + dx).toNat else t

/-- A tile that a slab or a lease is to stand on is taken (R371): beyond its lease or the grid, of another lease or region, on a die that has not
joined, or forwarding for another lease. The slab's own tiles count as free, but for those on which the second part of a divided region still stands when
the first moves (logs 50 and 51). -/
def moveTaken (s : State) (l : Lease) (e : PlanE) (rid : Nat) : Bool :=
  if e.whole then
    let rc := movedRecord l e
    decide (regX rc.lorg + leaseW rc > Config.gridW) || decide (regY rc.lorg + leaseH rc > Config.gridH) || (leaseTiles rc).any (tileTaken s e.lease)
  else match regionAt l rid with
    | none => true
    | some r =>
      let x := e.norg / 64
      let y := e.norg % 64
      let mine := slabRids l e rid
      decide (x + r.w > leaseW l.rcd) || decide (y + r.h > leaseH l.rcd) ||
        l.regions.any (fun q => !mine.contains q.rid && rectsOverlap q x y r.w r.h) ||
        ((rectTiles l.rcd x y r.w r.h).any fun t => (tileAt s t).fwd.any fun f => f.lease != e.lease) ||
        (e.cut != 0 && r.behind.isEmpty && (partTiles l e rid false).any fun t =>
          (partTiles l e rid true).contains (movedTile (partTiles l e rid false) (moveBy l e).1 (moveBy l e).2 t))

/-- The grant that a tile has after a move: a whole lease takes its grants with it (R506). -/
def movedGrant (s : State) (l : Lease) (e : PlanE) (t : Nat) : BitVec 16 :=
  if e.whole then
    let rc := movedRecord l e
    bankgOf s (tileOfXy l.rcd (t % 256 - regX rc.lorg) (t / 256 - regY rc.lorg))
  else bankgOf s t

/-- The streams that join the slab to other regions, or, of a whole lease, every stream: the consumer and its bindings. -/
def slabStreams (l : Lease) (e : PlanE) (rids : List Nat) : List (Region × List (Nat × Nat × Nat)) :=
  l.regions.map fun r => (r, r.binds.filter fun b => e.whole || rids.contains r.rid || rids.contains b.2.2)

/-- A stream of a whole lease fails R220 over its path at the new position. -/
def streamShort (rc : BindRec) (l : Lease) (r : Region) (b : Nat × Nat × Nat) : Bool :=
  match regionAt l b.2.2 with
  | none => false
  | some q =>
    let pl := linkAt q.img b.2.1
    let cl := linkAt r.img b.1
    let p : Nat × Nat := (((q.ox : Int) + pl.px).toNat, ((q.oy : Int) + pl.py).toNat)
    let c : Nat × Nat := (((r.ox : Int) + cl.cx).toNat, ((r.oy : Int) + cl.cy).toNat)
    let hops := ((c.1 : Int) - p.1).natAbs + ((c.2 : Int) - p.2).natAbs
    let seams := seamsBetween (tileOfXy rc p.1 p.2) (tileOfXy rc c.1 c.2)
    decide (slotsNeeded pl.rate hops seams > pl.slots) || decide (slotsNeeded cl.rate hops seams > cl.slots)

/-- Takes the portal entries of the slab's streams out of the lease's tiles (R372). -/
def dropPortals (s : State) (l : Lease) (rids : List Nat) : State :=
  (leaseTiles l.rcd).foldl (fun s t =>
    if (tileAt s t).ptab.isEmpty then s
    else modTile s t fun x => { x with ptab := x.ptab.filter fun p => !rids.contains p.src.1 && !rids.contains p.dst }) s

/-- Derives the portal entries of the slab's streams again: none when a path does not fit, with whether one fails R220. -/
def derivePortals (s : State) (rc : BindRec) (rs : List Region) : List (Region × List (Nat × Nat × Nat)) → List (Nat × Ptab) → Option (List (Nat × Ptab) × Bool)
  | [], adds => some (adds, false)
  | (r, bs) :: more, adds =>
    let r' := (rs.find? fun q => q.rid == r.rid).getD r
    let ends := bs.filterMap fun b => (rs.find? fun q => q.rid == b.2.2).map fun q => (q, b.2.1, b.1)
    match bindStreams s rc rs r.rid r'.img r'.ox r'.oy ends adds with
    | none => none
    | some (_, a, short) => (derivePortals s rc rs more a).map fun (a, sh) => (a, short || sh)

/-- The checks of R366 at the destination, and R220 of the streams: a status of Table 22.2, or the portal entries to write (R371). A stream that
finds no path does not fit, as taken tiles do not. -/
def moveFlaw (s : State) (e : PlanE) (rid : Nat) : Except Nat (List (Nat × Ptab)) :=
  let l := leaseAt s e.lease
  let rids := slabRids l e rid
  let rc := movedRecord l e
  let rs := l.regions.map (movedRegion e rids)
  if moveTaken s l e rid then .error stOverlap
  else
    let fl := (rs.filter fun r => rids.contains r.rid).map fun r => originFlaw s rc (movedGrant s l e) r.img r.ox r.oy
    if fl.contains 1 then .error stBankGrant
    else if fl.contains 2 then .error stFeatureAbsent
    else if fl.contains 3 then .error stSeamSlots
    else if e.whole then
      (if (slabStreams l e rids).any fun m => m.2.any (streamShort rc l m.1) then .error stSeamSlots else .ok [])
    else match derivePortals (dropPortals s l rids) rc rs (slabStreams l e rids) [] with
      | none => .error stOverlap
      | some (_, true) => .error stSeamSlots
      | some (a, false) => .ok a

/-- Why an entry cannot begin, R370, R371. -/
def entryFails (s : State) (e : PlanE) : Except Nat Nat :=
  let l := leaseAt s e.lease
  if e.bad then .error stBadField
  else if !l.v || !(l.lstate == .active || l.lstate == .moving) then .error stNotActive
  else if e.whole then (match moveFlaw s e 0 with | .error st => .error st | .ok _ => .ok 0)
  else match slabRegion l e with
    | none => .error stBadField
    | some r =>
      if e.cut ≠ 0 ∧ (cutLinks r.img e.cut).isEmpty then .error stBadField
      else match moveFlaw s e r.rid with
        | .error st => .error st
        | .ok _ => .ok r.rid

/-! ### Step 1: gates -/

/-- Stops emission on an output channel of a region's plane at a tile. -/
def gateAt (s : State) (t rid key : Nat) : State :=
  match planeFor (tileAt s t) rid with
  | some b => modPlane s t b fun p => { p with gated := p.gated ++ [key] }
  | none => s

/-- Gates the producers of the cut-set links, and of the streams that enter the slab (R368). -/
def gateLinks (s : State) (e : PlanE) (rids : List Nat) : State :=
  let l := leaseAt s e.lease
  let s := (l.regions.filter fun r => rids.contains r.rid).foldl (fun s r => (cutLinks r.img e.cut).foldl (fun s k =>
    let pl := linkAt r.img k
    gateAt s (placeTile l.rcd r (pl.px, pl.py)) r.rid (pl.pch % 64)) s) s
  (l.regions.filter fun r => rids.contains r.rid).foldl (fun s r => r.binds.foldl (fun s b =>
    if rids.contains b.2.2 then s
    else match regionAt l b.2.2 with
      | some q => let pl := linkAt q.img b.2.1; gateAt s (placeTile l.rcd q (pl.px, pl.py)) q.rid (pl.pch % 64)
      | none => s) s) s

/-- Begins an entry (steps 1 and 2 of Table 13.5). -/
def beginEntry (s : State) (m : MoveRun) (e : PlanE) (rid : Nat) : State :=
  let l := leaseAt s e.lease
  let rids := slabRids l e rid
  let s := setLease s e.lease { l with lstate := .moving, regions := l.regions.map fun r => if rids.contains r.rid then { r with held := true } else r }
  let s := (slabTiles l e rid).foldl (fun s t => modTile s t fun x => { x with hold := true }) (gateLinks s e rids)
  { s with move := some { m with cur := some e, rid := rid, second := false, copying := false, cycles := 0 } }

/-- The lease of an entry that has ended is ACTIVE again when no entry to come is of it (Table 13.3). -/
def leaveMoving (s : State) (lid : Nat) (rest : List PlanE) : State :=
  let l := leaseAt s lid
  if l.lstate == .moving && !rest.any (fun e => e.lease == lid) then setLease s lid { l with lstate := .active } else s

/-- Goes on with the entries that are left: those that cannot begin get their reasons (R371). At the end the MOVE completes with the entries
DONE. -/
def nextEntry (m : MoveRun) : List PlanE → State → State
  | [], s => finishCmd { s with move := none } m.cmd stDone m.done
  | e :: r, s => match entryFails s e with
    | .ok rid => beginEntry s { m with rest := r } e rid
    | .error st => nextEntry m r (leaveMoving (writeEstat s m.plan e.idx st) e.lease r)

/-- MOVE, R369, R370: one plan at a time. Its plan is in host memory, behind PF0's port (R490). -/
def execMove (c : Cmd) (s : State) : Host.Outcome State Fault Refusal :=
  if s.move.isSome then .next (waitCmd s c)
  else if !s.linkUp0 then .next { s with linkHeld := true }
  else
    let plan := hostPa (cmdField c 24 8)
    let es := readPlan s plan (cmdField c 32 4)
    .next (nextEntry { cmd := c, plan := plan, rest := es } es { s with cmdWait := s.cmdWait.filter (· != c) })

/-! ### Step 2: drain -/

/-- A portal carries a stream that leaves or enters one of the tiles. -/
def portalOf (l : Lease) (ts : List Nat) (e : Ptab) : Bool :=
  (match regionAt l e.src.1 with
   | some q => let k := linkAt q.img e.src.2.1; ts.contains (placeTile l.rcd q (k.px, k.py))
   | none => false) ||
  (match regionAt l e.dst with
   | some r => r.binds.any fun b => b.2.2 == e.src.1 && b.2.1 == e.src.2.1 && (let k := linkAt r.img b.1; ts.contains (placeTile l.rcd r (k.cx, k.cy)))
   | none => false)

/-- A link of some tiles has a token or a demand in flight: at one of them, on the path of a stream, or at the producer of another region. -/
def slabWires (s : State) (l : Lease) (ts rids : List Nat) : Bool :=
  let home := (l.regions.filter fun r => rids.contains r.rid).flatMap (regionTiles l.rcd)
  s.wires.any (fun w => ts.contains w.tile || (tileAt s w.tile).ptab.any fun e => e.ip == w.port && e.ic == w.ch && portalOf l ts e) ||
    s.demands.any fun d => ts.contains d.tile || (rids.contains d.rid && !home.contains d.tile) ||
      (tileAt s d.tile).ptab.any fun e => e.op == d.port && e.oc == d.ch && portalOf l ts e

/-- A castling wavefront is on its way over a tile: one plane has changed places, or SWITCH has been taken. -/
def castlingOn (l : Lease) (x : Tile) : Bool :=
  let late := match regionAt l (activePlane x).rid with | some r => r.pred.isSome | none => false
  x.swf != 0 || (elemsOf (activePlane x)).any (fun (_, _, el) => el.sw) || ((activePlane x).pst == .active && late)

/-- A tile of a slab has come to rest, and no job of the lease in progress accesses its slice (R201, R344). A .F load that waits on an empty granule
is at rest (R282, R426), an access that has been performed has landed, its reply being forwarded (R374), and a card that is held at issue goes with
its tile (log 53). -/
def tileDrained (s : State) (lid t : Nat) : Bool :=
  let l := leaseAt s lid
  let x := tileAt s t
  let read (p : Plane) : Bool := p.acc0.rdo.kind != 0 || p.acc1.rdo.kind != 0 || !p.acc0.sort.words.isEmpty || !p.acc1.sort.words.isEmpty
  let mine (w : Option Site) : Bool := match w with | some w => w.tile == t | none => false
  let here (r : Req) : Bool := (r.who.tile == t && r.lease == lid && r.phase != .done) ||
    r.rest.any fun p => p.sp == .scr && (scrPlace s r.lease p.addr).1 == t
  (queued x.pa).isEmpty && (queued x.pb).isEmpty && x.lands.isEmpty && !read x.pa && !read x.pb && x.drain.isNone && x.capture.isNone && x.scrub == 0 &&
    !castlingOn l x && !s.reqs.any (fun (_, r) => !r.waitFe && here r) && !l.cards.any (fun c => mine c.who && !cardHeld s c) &&
    !l.jobt.any (fun (_, j) => mine j.who || (j.running && (footNow s lid j.who j.plane (j.rfoot ++ j.wfoot)).any fun f => f.1 == t)) &&
    !l.barMsgs.any (fun m => m.who.tile == t) && !l.enqs.any (fun m => m.who.tile == t)

/-- The part of the slab that drains has drained. -/
def slabDrained (s : State) (m : MoveRun) (e : PlanE) : Bool :=
  let l := leaseAt s e.lease
  let ts := partTiles l e m.rid m.second
  ts.all (fun t => tileDrained s e.lease t) && !slabWires s l ts (slabRids l e m.rid)

/-- MOVE_DRAINED, R368: the copy of the slab's part starts, and its tiles stop. -/
def execMoveDrained (s : State) : Host.Outcome State Fault Refusal :=
  match s.move with
  | none => .next s
  | some m => match m.cur with
    | none => .next s
    | some e =>
      if m.copying || (leaseAt s e.lease).lstate != .moving || !slabDrained s m e then .next s
      else
        let ts := partTiles (leaseAt s e.lease) e m.rid m.second
        .next { ts.foldl (fun s t => modTile s t fun x => { x with moving := true }) s with
          move := some { m with copying := true, since := s.nextReq, cycles := 0 } }

/-! ### The end of an entry -/

/-- Step 5: gates and held requests are released, and ESTAT is written. The plan goes on. -/
def endEntry (s : State) (m : MoveRun) (e : PlanE) (st : Nat) : State :=
  let lid := e.lease
  let open_ (x : Tile) : Tile := { x with hold := false, moving := false, rebound := false, pa := { x.pa with gated := [] }, pb := { x.pb with gated := [] } }
  let s := (boundTiles s lid).foldl (fun s t => modTile s t open_) s
  let s := modLease s lid fun l => { l with regions := l.regions.map fun r => { r with held := false } }
  let s := leaveMoving (writeEstat s m.plan e.idx st) lid m.rest
  let s := if leaseRuns (leaseAt s lid) then rouse s lid else s
  nextEntry { m with cur := none, done := m.done + if st = stDone then 1 else 0 } m.rest s

/-! ### Steps 3 and 4: copy and rebind -/

/-- RDSP and the displacement of a FWD entry (Table 13.1). -/
def mkDisp (dx dy : Int) : BitVec 16 := BitVec.ofNat 16 (wrap 9 dx * 128 + wrap 7 dy)

/-- A plane as a move leaves it (R132, R477): MEPOCH advances, and a slab's displacement adds to RDSP and RORG. -/
def movedPlane (whole : Bool) (rids : List Nat) (dx dy : Int) (p : Plane) : Plane :=
  if p.pst == .empty || !rids.contains p.rid then p
  else
    let p := { p with mepoch := p.mepoch + 1, gated := [] }
    if whole then p
    else { p with rdsp := mkDisp (dispX p.rdsp + dx) (dispY p.rdsp + dy), rorg := mkReg ((regX p.rorg : Int) + dx).toNat ((regY p.rorg : Int) + dy).toNat }

/-- The state of a bank after a move (R344). -/
def movedBank (m : Bpm) : Bpm := match m with | .active | .retain => .active | .discard => .discard | .off => .off

/-- A tile of a whole lease at its new place (R132, R506). -/
def movedWhole (lorg : BitVec 14) (rids : List Nat) (dx dy : Int) (fwd : List Fwd) (x : Tile) : Tile :=
  { x with
    lorg := lorg, fwd := fwd, wakes := [], bidle := []
    bpm := x.bpm.map fun (b, v) => (b, movedBank v)
    pa := movedPlane true rids dx dy x.pa, pb := movedPlane true rids dx dy x.pb }

/-- What a tile of a slab takes to its destination `y` (R132, R344). A bank that the destination is granted and the source is not stays as it
is there (log 56). -/
def movedSlab (rids : List Nat) (dx dy : Int) (x y : Tile) : Tile :=
  { y with
    planeB := x.planeB, pa := movedPlane false rids dx dy x.pa, pb := movedPlane false rids dx dy x.pb, landb := x.landb, spill := x.spill, swf := x.swf
    actc := x.actc, stc := x.stc, halted := x.halted, idle := x.idle, qbusy := x.qbusy, moving := true, rebound := true, hold := true
    bpm := (bitsOf 16 (x.bankg &&& y.bankg).toNat).foldl (fun t b => Tab.put t b (movedBank (bankMode x b))) y.bpm
    wakes := (bitsOf 16 (x.bankg &&& y.bankg).toNat).foldl Tab.del y.wakes
    bidle := (bitsOf 16 (x.bankg &&& y.bankg).toNat).foldl Tab.del y.bidle }

/-- A vacated tile of a slab: its planes are EMPTY, its granted banks zeros and ACTIVE (R506). -/
def vacated (x : Tile) : Tile :=
  { x with
    pa := emptyPlane, pb := emptyPlane, landb := [], spill := [], swf := 0, actc := [], stc := [], halted := false, moving := false, rebound := false, hold := false, wakes := [], bidle := []
    bpm := (bitsOf 16 x.bankg.toNat).foldl (fun t b => Tab.put t b .active) x.bpm }

/-- The FWD entry that a move leaves at a vacated tile (R374), one of four. -/
def leaveFwd (x : Tile) (lid : Nat) (dx dy : Int) (old : List Fwd) : List Fwd :=
  if (activePlane x).pst == .empty then old
  else (⟨lid, (activePlane x).mepoch, mkDisp dx dy, true, (activePlane x).rid⟩ :: old).take 4

/-- Bytes and full-empty bits of the banks of `mask` of a tile, as cells and granules of another tile's slice. -/
def bankCells (s : State) (t u mask : Nat) : List Host.Cell × List Nat :=
  let lo := scrKey t 0
  let at2 := scrKey u 0
  ((s.scratch.filter fun c => decide (lo ≤ c.1) && decide (c.1 < lo + sliceBytes) && mask.testBit (bankOf (c.1 - lo))).map fun c => (c.1 - lo + at2, c.2),
   (s.feb.filter fun g => decide (lo ≤ 16 * g) && decide (16 * g < lo + sliceBytes) && mask.testBit (bankOf (16 * g - lo))).map fun g => (16 * g - lo + at2) / 16)

/-- The banks of a tile that hold data. -/
def dataBanks (x : Tile) : Nat := ((List.range 16).filter fun b => granted x b && (bankMode x b == .active || bankMode x b == .retain)).foldl (fun a b => a + 2 ^ b) 0

/-- Clears the banks of a mask. -/
def clearBanks (s : State) (t mask : Nat) : State := (bitsOf 16 mask).foldl (fun s b => clearBank s t b) s

/-- Writes cells and granules. -/
def putCells (s : State) (m : List Host.Cell × List Nat) : State :=
  { s with scratch := m.1.foldl (fun a c => Memory.write a c.1 c.2) s.scratch, feb := m.2.foldl (fun a g => febSet a g true) s.feb }

/-- A lease-relative tile index after the move of a slab. -/
def movedTi (rc : BindRec) (ts : List Nat) (dx dy : Int) (ti : Nat) : Nat :=
  if ts.contains (tileOfTi rc.lorg rc.lext ti) then ((ti : Int) + dy * (leaseW rc : Int) + dx).toNat else ti

/-- A request that waits across the move: its element goes with the slab, and so do the tiles of the scratch accesses of a request of the regions
that move (`own`). Another region's access names the tile that stands at its index when it is performed (R276). -/
def movedReq (rc : BindRec) (lid : Nat) (own : Bool) (ts : List Nat) (dx dy : Int) (r : Req) : Req :=
  if r.lease != lid then r
  else
    let go (p : Piece) : Piece := if p.sp == .scr && own then { p with addr := movedTi rc ts dx dy (p.addr / sliceBytes) * sliceBytes + p.addr % sliceBytes } else p
    { r with who := { r.who with tile := movedTile ts dx dy r.who.tile }, rest := r.rest.map go, all := r.all.map go }

/-- What the lease notes by module tile, after the move. -/
def movedNotes (ts : List Nat) (dx dy : Int) (l : Lease) : Lease :=
  let at_ := movedTile ts dx dy
  { l with
    regions := l.regions.map fun r => { r with left := r.left.map at_ }
    queues := l.queues.map fun (k, q) => (k, { q with home := movedTi l.rcd ts dx dy q.home })
    snps := l.snps.map fun (k, v) => (k, { v with left := v.left.map at_, got := v.got.map fun m => (at_ m.1, m.2) })
    jobt := l.jobt.map fun (k, j) => (k, { j with mates := j.mates.map fun m => { m with who := m.who.map fun x => { x with tile := at_ x.tile } } })
    cards := l.cards.map fun c => { c with who := c.who.map fun x => { x with tile := at_ x.tile } }
    brk := l.brk.map fun (x, b, t) => ({ x with tile := at_ x.tile }, b, t) }

/-- Steps 3 and 4 of a slab's move for its tiles: state, slices and requests go to their new places (R132, R344, R368, R506). -/
def shiftTiles (s : State) (lid : Nat) (rids ts : List Nat) (dx dy : Int) : State :=
  let l := leaseAt s lid
  let dst := movedTile ts dx dy
  let own (r : Req) : Bool := rids.contains (reqRegion s r)
  let s := (ts ++ ts.map dst).foldl sendDeltas s
  let old := ts.map fun t => (t, tileAt s t, bankCells s t (dst t) (dataBanks (tileAt s t) &&& (bankgOf s (dst t)).toNat))
  -- vacated tiles are scrubbed, and then the copies land
  let s := old.foldl (fun s (t, x, _) =>
    let away := !ts.any fun u => dst u == t
    modTile (clearBanks s t x.bankg.toNat) t fun x => { vacated x with fwd := if away then leaveFwd x lid dx dy x.fwd else x.fwd }) s
  let s := old.foldl (fun s (t, x, m) =>
    let both := (x.bankg &&& bankgOf s (dst t)).toNat
    putCells (modTile (clearBanks s (dst t) both) (dst t) (movedSlab rids dx dy x)) m) s
  let s := { s with reqs := s.reqs.map fun (k, r) => (k, movedReq l.rcd lid (own r) ts dx dy r) }
  modLease s lid (movedNotes ts dx dy)

/-- The regions of a lease after a change to those of a slab. -/
def modRegions (s : State) (lid : Nat) (rids : List Nat) (g : Region → Region) : State :=
  modLease s lid fun l => { l with regions := l.regions.map fun r => if rids.contains r.rid then g r else r }

/-- The move of a slab's part, the last or only one: the regions stand at the new origin, and the portals of their streams are derived again. -/
def moveSlab (s : State) (e : PlanE) (rid : Nat) (second : Bool) (adds : List (Nat × Ptab)) : State :=
  let l := leaseAt s e.lease
  let rids := slabRids l e rid
  let s := shiftTiles s e.lease rids (partTiles l e rid second) (moveBy l e).1 (moveBy l e).2
  addPortals (modRegions (dropPortals s l rids) e.lease rids (movedRegion e rids)) adds

/-- The move of the first part of a divided region (R368): the other part stays where it is. -/
def moveFirst (s : State) (e : PlanE) (rid : Nat) : State :=
  let l := leaseAt s e.lease
  let rids := slabRids l e rid
  let rest (r : Region) : List ((Nat × Nat) × Nat × Nat) := (secondPart r.img e.cut).map fun c => (c, cfgPlace r c.1 c.2)
  let left := match regionAt l rid with | some r => rest r | none => []
  let s := shiftTiles s e.lease rids (partTiles l e rid false) (moveBy l e).1 (moveBy l e).2
  modRegions s e.lease rids fun r => { movedRegion e rids r with behind := left }

/-- The first part goes back when the second cannot follow: nothing has moved (R368) (log 50). -/
def undoFirst (s : State) (e : PlanE) (rid : Nat) : State :=
  let l := leaseAt s e.lease
  let rids := slabRids l e rid
  let s := shiftTiles s e.lease rids (partTiles l e rid false) (-(moveBy l e).1) (-(moveBy l e).2)
  modRegions s e.lease rids fun r => { r with ox := e.rorg / 64, oy := e.rorg % 64, behind := [] }

/-- An entry fails: what has moved of its slab goes back, and the slab reopens where it stood. -/
def failEntry (s : State) (m : MoveRun) (e : PlanE) (st : Nat) : State := endEntry (if m.second then undoFirst s e m.rid else s) m e st

/-- MOVE_DRAIN_TIMEOUT, R368, R438: the drain has passed QBND, the lease has been halted, or the region is gone; the slab reopens where it stands. A
move whose lease is being removed ends at once (log 55). -/
def execMoveDrainTimeout (s : State) : Host.Outcome State Fault Refusal :=
  match s.move with
  | none => .next s
  | some m => match m.cur with
    | none => .next s
    | some e =>
      let l := leaseAt s e.lease
      let gone := !e.whole && (match regionAt l m.rid with | some r => r.stopped | none => true)
      if l.lstate != .moving then .next (endEntry s m e stNotActive)
      else if !m.copying && (gone || l.hline || decide (m.cycles ≥ 1024 * l.rcd.qbnd.toNat)) then .next (failEntry s m e stDrainTimeout) else .next s

/-- Steps 3 and 4 of the move of a whole lease (R369, R477, R506). -/
def moveLease (s : State) (e : PlanE) : State :=
  let lid := e.lease
  let l := leaseAt s lid
  let rids := slabRids l e 0
  let ts := leaseTiles l.rcd
  let (dx, dy) := moveBy l e
  let dst := movedTile ts dx dy
  let lorg : BitVec 14 := BitVec.ofNat 14 e.norg
  let s := ts.foldl sendDeltas s
  let old := ts.map fun t => (t, tileAt s t, bankCells s t (dst t) (dataBanks (tileAt s t)))
  let s := old.foldl (fun s (t, x, _) => setTile (clearBanks s t 65535) t { fwd := leaveFwd x lid dx dy x.fwd }) s
  let s := old.foldl (fun s (t, x, m) =>
    let keep := match old.find? fun o => o.1 == dst t with | some (_, y, _) => y.fwd | none => (tileAt s (dst t)).fwd
    putCells (setTile s (dst t) (movedWhole lorg rids dx dy keep x)) m) s
  let s := { s with reqs := s.reqs.map fun (k, r) => (k, movedReq l.rcd lid false ts dx dy r) }
  modLease s lid fun l => { movedNotes ts dx dy l with rcd := movedRecord l e }

/-- A bank of the slab's tiles has an access or a reservation outstanding from before the copy (R341). Later accesses are held (R295). -/
def slabBanksBusy (s : State) (ts : List Nat) (since : Nat) : Bool :=
  let ring (p : Plane) : Bool := p.rings.any fun (_, r) => r.v && !r.resv.isEmpty
  ts.any fun t => ring (tileAt s t).pa || ring (tileAt s t).pb ||
    s.reqs.any fun (k, r) => decide (k < since) && !r.waitFe && r.rest.any fun p => p.sp == .scr && (scrPlace s r.lease p.addr).1 == t

/-- The move of a whole lease grants banks at its destination, whose scrub takes 1,024 cycles (R334, R506). -/
def scrubbedByMove (s : State) (e : PlanE) : Bool := (leaseTiles (leaseAt s e.lease).rcd).any fun t => (tileAt s t).bankg != 0

/-- MOVE_COPY_DONE, R368, R371, R506: the copy ends, and the placer rebinds and reopens the slab; EVC[12] counts it. Banks that do not drain
fail the move with BANK_BUSY. A failed check leaves everything in its place. The first part of a divided region moves alone, and the other
then drains and follows. -/
def execMoveCopyDone (s : State) : Host.Outcome State Fault Refusal :=
  match s.move with
  | none => .next s
  | some m => match m.cur with
    | none => .next s
    | some e =>
      if !m.copying || (leaseAt s e.lease).lstate != .moving then .next s
      else if slabBanksBusy s (partTiles (leaseAt s e.lease) e m.rid m.second) m.since then
        if m.cycles ≥ 512 then .next (failEntry s m e stBankBusy) else .next s
      else if e.whole && scrubbedByMove s e && decide (m.cycles < 1024) then .next s
      else match moveFlaw s e m.rid with
        | .error st => .next (failEntry s m e st)
        | .ok adds =>
          if !e.whole ∧ e.cut ≠ 0 ∧ !m.second then
            .next { moveFirst s e m.rid with move := some { m with second := true, copying := false, cycles := 0 } }
          else
            let s := if e.whole then moveLease s e else moveSlab s e m.rid m.second adds
            .next (endEntry (countEvent s e.lease 12 1) m e stDone)

end Sys2Proof.Machine
end

