-- ==== Sys2Proof/Machine/Remove.lean ====
section
/-! DEFINITION. Removal of a lease (R133, R433) and errors in memory, tiles and shared structures (R379, R435 to R437). -/

namespace Sys2Proof.Machine

open Sys2Proof

/-! ### Removal -/

/-- REMOVE, R365, R433. -/
def execRemove (c : Cmd) (s : State) : Host.Outcome State Fault Refusal :=
  let lid := cmdLease c
  let l := leaseAt s lid
  if l.lstate == .free then .next (finishCmd s c stNotActive 0)
  else .next (modLease (startRemoval s lid cRemoved) lid fun l => { l with rmCmds := l.rmCmds ++ [c] })

/-- Tokens of a lease at rest in a tile's planes and landing buffer. -/
def restTokens (x : Tile) : Nat :=
  let n (p : Plane) : Nat := (planeTokens p).1 + (planeTokens p).2
  n x.pa + n x.pb + x.lands.length

/-- Every token of a lease: on links, in switches and planes, and in what a pre-emption has saved (R433). -/
def leaseTokens (s : State) (lid : Nat) : Nat :=
  let l := leaseAt s lid
  let mine (w : Wire) : Bool := w.stamp == some lid
  let tiles := ((boundTiles s lid).map fun t => restTokens (tileAt s t)).foldl (· + ·) 0
  let saved := match l.saved with | some v => if v.inPlace then 0 else (v.tiles.map fun (_, x) => restTokens x).foldl (· + ·) 0 | none => 0
  (s.wires.filter mine).length + (s.peerOut.filter mine).length + ((reachHeld s lid).map fun m => m.2.length).foldl (· + ·) 0 + tiles + saved + l.brk.length

/-- RPB names a lease. -/
def rpbOf (lid : Nat) (v : BitVec 8) : Bool := v.getLsbD 7 && decide (v.toNat % 128 = lid)

/-- Empties everything outside the lease's tiles that holds something of it: links, TLBs, FWD and RPB entries (R433). -/
def dropTraces (s : State) (lid : Nat) : State :=
  let tlb (t : Tab (List TlbE)) : Tab (List TlbE) := t.map fun (k, l) => (k, l.filter fun e => e.lease != lid)
  { s with
    wires := s.wires.filter fun w => w.stamp != some lid
    peerOut := s.peerOut.filter fun w => w.stamp != some lid
    peerDemands := s.peerDemands.filter fun d => d.lease != lid
    reachq := s.reachq.filter fun m => !(reachHeld s lid).any fun h => h.1 == m.1
    demands := s.demands.filter fun d => d.lease != lid
    heldWrites := s.heldWrites.filter fun w => w.1 != lid
    mtlb := tlb s.mtlb
    lltlb := tlb s.lltlb
    rpb := s.rpb.filter fun (_, v) => !rpbOf lid v
    tiles := s.tiles.map fun (k, x) => (k, { x with fwd := x.fwd.filter fun f => f.lease != lid }) }

/-- Scrubs every bank of a tile and puts its registers at their reset values (R133, R341). -/
def clearTile (s : State) (t : Nat) : State :=
  let s := clearBanks s t 65535
  { s with tiles := s.tiles.del t }

/-- The entry that a removed lease has in the move in progress is dropped; the plan goes on (Table 13.3). -/
def dropMove (s : State) (lid : Nat) : State :=
  match s.move with
  | none => s
  | some m => match m.cur with
    | some e => if e.lease = lid then endEntry s m e stNotActive else s
    | none => s

/-- A reset of a PF under way ends once its leases are removed (R491, R492): the registers of Table 22.1 reset if it is a function-level reset, the TDI is
unlocked, and its PFRESETs are DONE. -/
def endFlr (s : State) (pf : Nat) : State :=
  let p := pfAt s pf
  match p.flr with
  | some (full, []) =>
    let p := if full then { p with rbase := [], rctl := [], rtail := [], rhead := [], qbase := 0, qctl := 0, qhead := 0, qtail := 0 } else p
    p.flrCmds.foldl (fun s c => finishCmd s c stDone 0) (modPf s pf fun _ => { p with tdi := .unlocked, flr := none, flrCmds := [] })
  | _ => s

/-- A lease is gone: the resets that waited for it go on. -/
def flrGone (s : State) (lid : Nat) : State :=
  (s.pfs.map (·.1)).foldl (fun s pf => endFlr (modPf s pf fun p => { p with flr := p.flr.map fun f => (f.1, f.2.filter (· != lid)) }) pf) s

/-- REMOVAL_COMPLETE, R433: the rest of the removal, with its tokens counted in EVC[2] (Table 16.3), the slot is free, and REMOVED and LEASE_REMOVED
are sent. -/
def execRemovalComplete (lid : Nat) (s : State) : Host.Outcome State Fault Refusal :=
  let l := leaseAt s lid
  if l.lstate != .removing then .next s
  else
    let s := dropMove s lid
    let s := (leaseAt s lid).actg.foldl (fun s g => endGraph s lid g 4) s
    let s := dropWork s lid
    let n := leaseTokens s lid
    let s := countEvent s lid 2 n
    let s := (boundTiles s lid).foldl clearTile (dropTraces s lid)
    let l := leaseAt s lid
    let cmds := l.rmCmds ++ l.pending
    let res := n % 2 ^ 32 + min l.rmReqs 65535 * 2 ^ 32
    let s := notifyLease s lid 0x86 0 0
    let s := { s with leases := s.leases.del lid }
    .next (flrGone (cmds.foldl (fun s c => finishCmd s c stRemoved res) s) lid)

/-! ### Errors -/

/-- PATROL_SCRUB, R437: the granules of an ACTIVE or RETAIN bank are read. How many needed a correction is free, and so is whether one cannot be
corrected, and which (log 71). Corrections count under the lease and under the die; what cannot be corrected is logged in PF0 (R489). -/
def execPatrolScrub (t b : Nat) (s : State) : Host.Outcome State Fault Refusal :=
  let x := tileAt s t
  if !tileBound x || !(bankMode x b == .active || bankMode x b == .retain) then .next s
  else
    let (n, s) := free s
    let (bad, s) := free s
    let (g, s) := free s
    let key := scrKey t (b * bankBytes) + g % 4096 * 16
    let s := if bad % 2 = 1 then { s with badMem := if s.badMem.contains (scrBad key) then s.badMem else s.badMem ++ [scrBad key] } else s
    let d := Config.dieOf t
    let s := { s with dieErrs := s.dieErrs.put d (s.dieErrs.get d 0 + BitVec.ofNat 64 (n % 4097)), pf0log := s.pf0log + bad % 2 }
    .next (countEvent s x.tlease.toNat 8 (n % 4097))

/-- TILE_UNCORRECTABLE, R437, R489: the tile traps with UNCORRECTABLE; the detail names the structure. An EMPTY plane has no node (Table 15.4). -/
def execTileUncorrectable (t d : Nat) (s : State) : Host.Outcome State Fault Refusal :=
  let x := tileAt s t
  if !tileBound x then .next s
  else
    let p := activePlane x
    let (g, n) := if p.pst == .empty then (0xFFFF, 0xFFFF) else (p.graph, p.node)
    .next (trap (countEvent { s with pf0log := s.pf0log + 1 } x.tlease.toNat 9 1) x.tlease.toNat cUncorrectable d ⟨tiOf x, 3, 0xFF, g, n⟩ 0 0)

/-- Type and instance of a shared structure (R436). -/
def structType (i : Nat) : Nat := i / 4096 % 16
def structNo (i : Nat) : Nat := i % 4096

/-- The tenants of a list as an ownership bitmap. -/
def tenantBits (l : List Nat) : BitVec 33 := BitVec.ofNat 33 (l.eraseDups.foldl (fun a n => a + 2 ^ (n % 33)) 0)

/-- A request is held by a shared structure (Table 13.7), with the structures of a type numbered by the model (log 79): a mesh router for the
packets at each compute die, a UCIe link for those between two dies, the TLBs of a base die, the queue of each channel, a reach
port. -/
def heldAt (s : State) (i : Nat) (r : Req) : Bool :=
  let n := structNo i
  match structType i with
  | 1 => onMesh s r && (Config.dieOf r.who.tile == n || Config.dieOf (meshGoal s r) == n)
  | 2 => onMesh s r && seamOf r.who.tile (meshGoal s r) == some n
  | 3 => r.phase == .issued && (untranslated r).isSome && decide (dieOfReq s r = n)
  | 4 => r.phase == .issued && r.rest.any fun p => p.sp == .pa && decide (paClass p.addr = 0) && decide (32 * paStack p.addr + p.addr / 512 % 32 = n)
  | 5 => r.phase == .issued && r.rest.any fun p => p.sp == .pa && decide (paClass p.addr = 2) && decide (p.addr / 2 ^ 44 % 64 = n)
  | _ => false

/-- A token is on its way over a seam link. -/
def wireAt (i : Nat) (w : Wire) : Bool :=
  structType i == 2 && match neighbour w.tile w.port with | some u => seamOf u w.tile == some (structNo i) | none => false

/-- The tenant whose stamp a token carries (R376). -/
def wireTenant (s : State) (w : Wire) : List Nat := match w.stamp with | some lid => [(leaseAt s lid).rcd.tenid.toNat] | none => []

/-- The ownership bitmap that a structure holds for what is in it (R379, Table 13.7). -/
def ownersOf (s : State) (i : Nat) : BitVec 33 :=
  let reqs := (s.reqs.filter fun m => heldAt s i m.2).map fun m => m.2.ten
  let toks := (s.wires.filter (wireAt i)).flatMap (wireTenant s)
  match structType i with
  | 3 =>
    let e := ((s.mtlb.filter fun m => m.1 % 16 == structNo i).flatMap (·.2) ++ s.lltlb.get (structNo i) []).map (·.ten)
    tenantBits (e ++ reqs)
  | 5 =>
    let named := (s.rpb.filter fun (k, v) => k / 8 == structNo i && v.getLsbD 7).map fun (_, v) => (leaseAt s (v.toNat % 128)).rcd.tenid.toNat
    let out := (s.peerOut.filter fun w => (match reachFor w.tile w.port w.ch with | some k => k / 8 == structNo i | none => false)).flatMap (wireTenant s)
    tenantBits (named ++ out ++ reqs)
  | _ => tenantBits (reqs ++ toks)

/-- A structure resets: a TLB is empty, and the RPB entries of a reach port are invalid (log 79). -/
def resetStructure (s : State) (i : Nat) : State :=
  match structType i with
  | 3 => { s with mtlb := s.mtlb.filter fun m => m.1 % 16 != structNo i, lltlb := s.lltlb.del (structNo i) }
  | 5 => { s with rpb := s.rpb.filter fun (k, _) => k / 8 != structNo i }
  | _ => s

/-- A BLAST record for a lease, with its notice and its interference count (R435). -/
def blastLease (i kind : Nat) (s : State) (lid : Nat) : State :=
  let l := leaseAt s lid
  if l.lstate == .removing then s
  else
    let (d, s) := free s
    let r : StopRec := { kind := 5, cause := causeWord cBlast d, graph := 0xFFFF, node := 0xFFFF, tile := 0xFFFF, eng := 4, slot := 0xFF, payload := payload3 i kind 0 }
    let seq := l.sseq.toNat + l.recs.length + 1
    let va := l.rcd.stbase.toNat + 64 + 64 * (seq % 4096)
    let s := setLease s lid { l with recs := l.recs ++ [r] }
    notifyLease (countIn s lid 0x3003 1) lid 0x82 (BitVec.ofNat 64 va) 0

/-- SHARED_UNCORRECTABLE, R435: structure `i`, error kind `k`. The bitmap is latched as the blast set, or every tenant where
BMPAR shows it corrupt; what the structure holds fails with UNCORRECTABLE, a token on its link or in its reach port as POISON (log 79); every live
lease of the set is told. -/
def execSharedUncorrectable (i k : Nat) (s : State) : Host.Outcome State Fault Refusal :=
  let now := s.ownbm.get i 0
  let corrupt := decide (k = 3) || (s.bmpar.get i false != parityOf now)
  let k := if corrupt then 3 else k
  let set : BitVec 33 := if corrupt then BitVec.ofNat 33 (2 ^ 33 - 2) else now ||| ownersOf s i
  let bad (w : Wire) : Wire := if wireAt i w then { w with tok := poisonTok 0x0A (tiOf (tileAt s w.tile)) } else w
  let out (w : Wire) : Bool := structType i == 5 && match reachFor w.tile w.port w.ch with | some c => c / 8 == structNo i | none => false
  let s := { s with
    reqs := s.reqs.map fun m => (m.1, if heldAt s i m.2 then failReq m.2 cUncorrectable else m.2), wires := s.wires.map bad
    peerOut := s.peerOut.map fun w => if out w then { w with tok := poisonTok 0x0A (tiOf (tileAt s w.tile)) } else w
    reachq := s.reachq.map fun (c, q) =>
      (c, if structType i == 5 && c / 8 == structNo i then q.map fun _ => poisonTok 0x0A (tiOf (tileAt s (Config.reachAt (c / 8) (c % 8) / 64))) else q) }
  let s := setOwners (resetStructure s i) i 0
  let hit := (s.leases.filter fun (_, l) => l.v && set.getLsbD l.rcd.tenid.toNat).map (·.1)
  let s := hit.foldl (blastLease i k) s
  .next { s with pf0log := s.pf0log + 1 }

end Sys2Proof.Machine
end

