-- ==== Sys2Proof/Machine/Windows.lean ====
section
/-! DEFINITION. Stream windows (R303, R332, R333): opening, advancing and feeding. -/

namespace Sys2Proof.Machine

open Sys2Proof

/-- Window of a plane. -/
def winAt (p : Plane) (k : Nat) : Win := p.wins.get k {}

def modWin (s : State) (t : Nat) (b : Bool) (k : Nat) (g : Win → Win) : State :=
  modPlane s t b fun p => { p with wins := p.wins.put k (g (winAt p k)) }

/-- The tensor of a TID as a plane's node read it. -/
def planeTid (l : Lease) (p : Plane) (t : Nat) : Tid := l.tids.get (tidKey p.graph p.node t) {}

/-- WIN, R332. -/
def execWin (f : Fields) (s : State) : Host.Outcome State Fault Refusal :=
  fire (.win f) f (std fun _ c =>
    let k := f.imm.toNat % 8
    let nofeed := f.imm.getLsbD 3
    let t := tidFor c (immTid c)
    let w := c.va 512
    let st := lane 64 w 0
    let n := lane 64 w 1
    let r := ringAt c.p k
    let bytes := n * fmtBits t.fmt / 8
    ringTurn c (if nofeed then [] else [k]) <| if w.toNat / 2 ^ 128 ≠ 0 ∨ st + n ≥ 2 ^ 40 then memTrap cSpbInvalid st (immTid c) 0
    else if n = 0 then
      .done { emits := zeroAll c c.sb, take := c.ops, post := fun s => modWin s c.x.tile c.b k fun _ => {} }
    else if isMx t || isPx t then .trap cTidFormat none (payload3 st 0 0)
    else if !nofeed && (!r.v || decide (bytes % (ringWords r * 64) ≠ 0)) then .trap cRingMisuse none (payload3 st 0 0)
    else .done { emits := zeroAll c c.sb, take := c.ops, post := fun s => modWin s c.x.tile c.b k fun _ =>
      { v := true, nofeed := nofeed, tid := BitVec.ofNat 12 (immTid c), low := BitVec.ofNat 40 st, feed := BitVec.ofNat 40 st,
        stop := BitVec.ofNat 40 (st + n) } }) s

/-- LOW := min(max(LOW, x), END), and V falls when LOW reaches END (R333). -/
def winAdvance (w : Win) (x : Nat) : Win :=
  let l := min (max w.low.toNat x) w.stop.toNat
  { w with low := BitVec.ofNat 40 l, v := w.v && decide (l < w.stop.toNat) }

/-- WINADV, R333. -/
def execWinadv (f : Fields) (s : State) : Host.Outcome State Fault Refusal :=
  fire (.winadv f) f (std fun _ c =>
    .done { emits := zeroAll c c.sb, take := c.ops, post := fun s => modWin s c.x.tile c.b (f.imm.toNat % 8) fun w => winAdvance w (lane 64 (c.va 512) 0) }) s

/-- A request of a window: the base die's place stands for its requester. -/
def winReq (s : State) (t : Nat) (b : Bool) (w : Nat) (op : ReqOp) (ps : List Piece) (d : Dest) : Req :=
  let x := tileAt s t
  let l := leaseAt s x.tlease.toNat
  { lease := x.tlease.toNat, ten := l.rcd.tenid.toNat, who := ⟨t, 4, w⟩, plane := b, epoch := (planeOf x b).mepoch, op := op, rest := ps,
    all := ps, dest := d, phase := .issued, counted := false, tid := (winAt (planeOf x b) w).tid.toNat }

/-- WINDOW_FEED, R332, R258: while the ring has room, the next entry is reserved and read, word by word. Under PWH 2 its banks wake (R337). -/
def execWindowFeed (t w : Nat) (s : State) : Host.Outcome State Fault Refusal :=
  let x := tileAt s t
  let b := x.planeB
  let p := activePlane x
  let v := winAt p w
  let r := ringAt p w
  if x.hold || !v.v || v.nofeed || decide (v.feed.toNat ≥ v.stop.toNat) || !r.v || ringFull r || decide (r.wpos ≠ 0) || entriesHeld x r 1 || ringSetDue p w || p.pst != .active || !tileRuns s t then .next s
  else
    let tid := planeTid (leaseAt s x.tlease.toNat) p v.tid.toNat
    let per := 512 / fmtBits tid.fmt
    let (e, r') := ringReserve r
    let s := wakeEntry (modRing s t b w fun _ => r') t r e
    let s := (List.range (ringWords r)).foldl (fun s i =>
      issueReq s (winReq s t b w (.read false false 0) (elemPieces tid (v.feed.toNat + i * per) per) (.ring w e i))) s
    .next (modWin s t b w fun v => { v with feed := v.feed + BitVec.ofNat 40 (per * ringWords r) })

/-- What the valid windows of a plane publish as still needed: tensor, LOW and END (R333). -/
def planeNeeds (l : Lease) (p : Plane) : List (Tid × Nat × Nat) :=
  p.wins.filterMap fun (_, w) => if w.v then some (planeTid l p w.tid.toNat, w.low.toNat, w.stop.toNat) else none

/-- What a lease publishes as still needed; a pre-empted lease keeps publishing (R343) (log 20). -/
def leaseNeeds (s : State) (lid : Nat) : List (Tid × Nat × Nat) :=
  let l := leaseAt s lid
  let live := (s.tiles.filter fun (_, x) => tileBound x && x.tlease.toNat == lid).map fun (_, x) => planeNeeds l x.pa ++ planeNeeds l x.pb
  let held := match l.saved with
    | some v => v.tiles.map fun (_, x) => planeNeeds l x.pa ++ planeNeeds l x.pb
    | none => []
  (live ++ held).flatten

end Sys2Proof.Machine
end

