-- ==== Sys2Proof/Machine/Host.lean ====
section
/-! DEFINITION. Command rings, the journal and PSUB (R271 to R274, R485 to R488), and the tenants' commands on memory and queues (R265, R354, R359,
R360, R505). -/

namespace Sys2Proof.Machine

open Sys2Proof

/-! ### Physical functions -/

/-- The stage of STAGE (R498). -/
def stageNo (s : State) : Nat := s.stage.toNat % 16

/-- A PF answers: PF0 from stage 1, a tenant's from stage 3 (R498). -/
def pfLive (s : State) (pf : Nat) : Bool := if pf = 0 then decide (stageNo s ≥ 1) else isTenant pf && decide (stageNo s ≥ 3)

/-- A value that RCTL and QCTL take (log 75). -/
def ctlOk (v : Nat) : Bool := decide (v < 2 ^ 32) && decide (fld v 5 26 = 0) && decide (4 ≤ v % 32) && decide (v % 32 ≤ 16)

/-! ### Checks of a command entry -/

/-- The bytes of an entry that its kind names: offset and length (Table 22.3). -/
def kindBytes (k : Nat) : List (Nat × Nat) :=
  match k with
  | 0x01 | 0x02 => [(16, 1), (18, 2)]
  | 0x03 => [(16, 1), (18, 4)]
  | 0x04 => [(16, 1), (18, 5)]
  | 0x05 => [(16, 1)]
  | 0x06 | 0x07 => [(16, 1), (24, 8)]
  | 0x08 => [(16, 1), (24, 16)]
  | 0x09 | 0x0A => [(16, 1), (24, 24)]
  | 0x0B => [(16, 1), (20, 8)]
  | 0x0C | 0x0E => [(16, 1), (20, 2)]
  | 0x0D => [(16, 1), (20, 2), (24, 8)]
  | 0x0F => [(16, 1), (24, 8)]
  | 0x40 | 0x41 => [(16, 1), (24, 8)]
  | 0x42 => [(24, 12)]
  | 0x43 | 0x44 | 0x45 => [(16, 1)]
  | 0x46 => [(20, 1), (24, 19), (44, 4)]
  | 0x47 => [(20, 4)]
  | 0x48 => [(20, 1)]
  | _ => []

/-- A byte that the kind does not name is not zero, or a code is reserved (R271, R487). -/
def fieldBad (c : Cmd) : Bool :=
  let named := (0, 1) :: (8, 8) :: kindBytes (cmdKind c)
  (List.range 64).any (fun i => !named.any (fun m => decide (m.1 ≤ i) && decide (i < m.1 + m.2)) && decide (cmdField c i 1 ≠ 0)) ||
    (cmdKind c == 0x04 && decide (cmdField c 22 1 > 1)) || (cmdKind c == 0x46 && decide (cmdField c 42 1 > 1)) ||
    (cmdKind c == 0x47 && decide (cmdField c 21 1 > 32) && decide (cmdField c 21 1 ≠ 63))

/-- The kind is accepted from the PF (R487, R488). -/
def kindOk (s : State) (c : Cmd) : Bool :=
  let k := cmdKind c
  if c.pf = 0 then (decide (0x40 ≤ k) && decide (k ≤ 0x48)) || k == 0x01 || k == 0x02 || k == 0x0F
  else decide (1 ≤ k) && decide (k ≤ 0x0F) && (pfAt s c.pf).mask.getLsbD k

/-- LEASEID is held by the PF's TENID; PF0 names the management context where a tenant's kind is meant (R487) (log 73). -/
def leaseOk (s : State) (c : Cmd) : Bool :=
  if c.pf = 0 then decide (cmdKind c ≥ 0x40) || cmdLease c == mgmtKey
  else decide (cmdLease c < 128) && (leaseAt s (cmdLease c)).v && decide ((leaseAt s (cmdLease c)).rcd.tenid.toNat = c.pf)

/-- Queues that a tenant's leases hold. -/
def queueCount (s : State) (ten : Nat) : Nat :=
  ((s.leases.filter fun (_, l) => l.v && decide (l.rcd.tenid.toNat = ten)).map fun (_, l) => (l.queues.filter fun (_, q) => q.v).length).foldl (· + ·) 0

/-- A parameter lies outside its bounds (R488, R498) (log 74). -/
def boundBad (s : State) (c : Cmd) : Bool :=
  let p := pfAt s c.pf
  let r := (leaseAt s (cmdLease c)).rcd
  let qid := cmdField c 20 2
  match cmdKind c with
  | 0x08 | 0x09 | 0x0A => decide (cmdField c 32 8 > p.maxLen.toNat)
  | 0x0B => decide (qid ≥ 1024) || decide (cmdField c 22 2 ≥ leaseW r * leaseH r) || decide (cmdField c 24 4 = 0) || decide (cmdField c 24 4 > p.maxCap.toNat) ||
      decide (queueCount s c.pf ≥ p.maxQueues.toNat)
  | 0x0C | 0x0E => decide (qid ≥ 1024)
  | 0x0D => decide (qid ≥ 1024) || decide (cmdField c 24 8 % 64 ≠ 0)
  | 0x40 | 0x41 | 0x43 | 0x44 | 0x45 => decide (cmdLease c ≥ 128) || decide (stageNo s < 2)
  | 0x01 | 0x02 | 0x42 => decide (stageNo s < 2)
  | 0x46 | 0x48 => !isTenant (cmdField c 20 1)
  | 0x47 => decide (stageNo s < 2) || decide (cmdField c 20 1 ≥ 16) || decide (cmdField c 22 2 ≥ 32768)
  | _ => false

/-- What the Arbiter refuses an entry with, in the order of R488. -/
def refusal (s : State) (c : Cmd) : Option Nat :=
  let p := pfAt s c.pf
  if !kindOk s c then some stRejKind
  else if fieldBad c then some stRejField
  else if !leaseOk s c then some stRejLease
  else if boundBad s c then some stRejBound
  else if c.pf ≠ 0 ∧ p.tdreq ∧ p.tdi ≠ .run then some stAborted
  else none

/-! ### Reading a ring -/

/-- The lease that a journal entry names: 0xFF for a kind that names none (Table 9.7). -/
def journalLease (c : Cmd) : Nat := if (kindBytes (cmdKind c)).contains (16, 1) then cmdLease c else 0xFF

/-- DIGEST of a command entry (Table 9.7). -/
def digestOf (e : BitVec 512) : BitVec 128 := BitVec.ofNat 128 (ofBytes ((shaBytes (sha256 (toBytes 64 e.toNat))).take 16))

/-- The Arbiter may read a ring of a PF: its port's link is up (R490), its completion queue has room (R485), no reset of it is under way and its TDI not in
ERROR (R491, R492), and the ring holds an entry. -/
def ringReady (s : State) (pf r : Nat) : Bool :=
  let p := pfAt s pf
  pfLive s pf && portUp s pf && p.flr.isNone && p.tdi != .error && p.cwait.isEmpty && queueRoom p && ctlOn (p.rctl.get r 0) && decide (r < 8) &&
    p.rtail.get r 0 != p.rhead.get r 0

/-- The ring of a PF whose turn it is, round-robin (R488). -/
def ringTurnOf (s : State) (pf : Nat) : Option Nat := ((List.range 8).map fun i => ((pfAt s pf).lastRing + 1 + i) % 8).find? (ringReady s pf)

/-- The PF whose turn it is, round-robin as well (R488). -/
def pfTurn (s : State) : Option Nat := ((List.range 33).map fun i => (s.lastPf + 1 + i) % 33).find? fun pf => (ringTurnOf s pf).isSome

/-- ARBITER_COMMAND_READ, R271 to R274, R485, R488, R490: the Arbiter reads the next entry of the ring whose turn it is, refuses it or accepts it:
journal, JHEAD, then PSUB. -/
def execArbiterCommandRead (pf r : Nat) (s : State) : Host.Outcome State Fault Refusal :=
  let p := pfAt s pf
  let rc := p.rctl.get r 0
  let head := (p.rhead.get r 0).toNat
  if s.psubCmd.isSome || !journalRoom s || pfTurn s != some pf || ringTurnOf s pf != some r then .next s
  else
    let s := { s with lastPf := pf }
    let v := Memory.readN s.mem 64 (hostPa ((p.rbase.get r 0).toNat + 64 * (head % 2 ^ ctlLog rc)))
    let c : Cmd := { pf := pf, ring := r, seq := s.jhead.toNat + 1, e := BitVec.ofNat 512 v }
    let s := modPf s pf fun p => { p with rhead := p.rhead.put r (BitVec.ofNat 32 (head + 1)), lastRing := r }
    let reply (s : State) (st res : Nat) : State :=
      postEntry s pf { tag := BitVec.ofNat 64 (cmdTag c), res := BitVec.ofNat 48 res, status := st, outc := false, ring := r }
    match refusal s c with
    | some st => .next (reply s st 0)
    | none =>
      let s := journalAdd s pf (cmdKind c) 1 (journalLease c) (digestOf c.e)
      .next { reply s stAccepted c.seq with psub := c.e, psubCmd := some c }

/-- The instruction of a command's kind (Table 22.3). -/
def cmdInstr (c : Cmd) : Option Instr :=
  match cmdKind c with
  | 0x01 => some (.glaunch c) | 0x02 => some (.gcancel c) | 0x03 => some (.resumeCone c) | 0x04 => some (.nodedone c) | 0x05 => some (.continueNode c)
  | 0x06 => some (.pfresolve c) | 0x07 => some (.pfdecline c) | 0x08 => some (.tlbinv c) | 0x09 => some (.harvest c) | 0x0A => some (.evictq c)
  | 0x0B => some (.qcreate c) | 0x0C => some (.qdestroy c) | 0x0D => some (.qswap c) | 0x0E => some (.qload c) | 0x0F => some (.jstatus c)
  | 0x40 => some (.bind c) | 0x41 => some (.rebind c) | 0x42 => some (.move c) | 0x43 => some (.preempt c) | 0x44 => some (.resume c)
  | 0x45 => some (.remove c) | 0x46 => some (.allow c) | 0x47 => some (.fotset c) | 0x48 => some (.pfreset c)
  | _ => none

/-- A command has had its effect on the state and waits only for requests to be performed (R354, R360). -/
def hasMark (s : State) (c : Cmd) : Bool := ((leaseAt s (cmdLease c)).marks.find c.seq).isSome

/-- An earlier command of the same tenant has yet to take effect (R488) (log 76). -/
def heldBehind (s : State) (before : List Cmd) (c : Cmd) : Bool := isTenant c.pf && before.any fun d => d.pf == c.pf && !hasMark s d

/-- PSUB_TAKE, R272: dispatch hardware takes the command, and PSUB keeps its bits until the Arbiter's next write; it takes effect at the next step, or
after the earlier ones of its tenant. -/
def execPsubTake (s : State) : Host.Outcome State Fault Refusal :=
  match s.psubCmd with
  | none => .next s
  | some c =>
    let s := journalTo { s with psubCmd := none } c.seq 2
    match cmdInstr c with
    | some i => if heldBehind s s.cmdWait c then .next (waitCmd s c) else .next { s with agenda := .event i :: s.agenda }
    | none => .next s

/-- PSUB_FOREIGN_WRITE, R272: ignored and counted in PF0's error log. -/
def execPsubForeignWrite (_ : Word) (s : State) : Host.Outcome State Fault Refusal := .next { s with pf0log := s.pf0log + 1 }

/-! ### Completion queues -/

/-- COMPLETION_WRITE, R485, R486: with a free slot in the queue, the entry that has waited longest. Merged notices come behind those from before
the merge, one NOTICE_LOST for each code. -/
def execCompletionWrite (pf : Nat) (s : State) : Host.Outcome State Fault Refusal := .next (writeOldest s pf)

/-- NOTICE_MERGE, R486. -/
def execNoticeMerge (pf : Nat) (n : Notice) (s : State) : Host.Outcome State Fault Refusal :=
  if (pfAt s pf).nbuf.length ≥ 64 then .next (mergeNotice s pf n) else .next s

/-! ### TLBINV, HARVEST and EVICTQ -/

/-- An entry of a lease maps an address of a range. -/
def tlbIn (lid va n : Nat) (e : TlbE) : Bool :=
  let size := 2 ^ lvlShift e.level
  e.lease == lid && decide (e.vpn * size < va + n) && decide (va < (e.vpn + 1) * size)

/-- Empties the entries of a range of a lease at every base die. -/
def tlbDrop (s : State) (lid va n : Nat) : State :=
  let drop (t : Tab (List TlbE)) : Tab (List TlbE) := t.map fun (k, l) => (k, l.filter fun e => !tlbIn lid va n e)
  { s with mtlb := drop s.mtlb, lltlb := drop s.lltlb }

/-- The range of a command with the larger pages that TLB entries of the lease map over its ends (R354). -/
def pageRange (s : State) (lid lo hi : Nat) : Nat × Nat :=
  let es := ((s.mtlb.map (·.2)).flatten ++ (s.lltlb.map (·.2)).flatten).filter (tlbIn lid lo (hi - lo))
  es.foldl (fun a e => (min a.1 (e.vpn * 2 ^ lvlShift e.level), max a.2 ((e.vpn + 1) * 2 ^ lvlShift e.level))) (lo, hi)

/-- A request of the lease from before a mark has a piece in its range translated and not performed. -/
def rangeBusy (s : State) (lid : Nat) (m : Mark) (writes : Bool) : Bool :=
  s.reqs.any fun (k, r) => decide (k < m.key) && r.lease == lid && (!writes || reqWrites r) &&
    r.rest.any fun p => p.sp == .pa && decide (p.va < m.hi) && decide (m.lo < p.va + p.len)

/-- Completes a command whose effect has come about once the requests that it waits for are performed. -/
def afterRequests (s : State) (c : Cmd) (writes : Bool) : State :=
  let lid := cmdLease c
  match (leaseAt s lid).marks.find c.seq with
  | none => s
  | some m =>
    if rangeBusy s lid m writes then waitCmd s c
    else finishCmd (modLease s lid fun l => { l with marks := l.marks.del c.seq }) c stDone m.res

/-- TLBINV, R354. -/
def execTlbinv (c : Cmd) (s : State) : Host.Outcome State Fault Refusal :=
  .next (endIfGone s c fun s =>
    if hasMark s c then afterRequests s c false
    else
      let lid := cmdLease c
      let (lo, hi) := pageRange s lid (cmdField c 24 8) (cmdField c 24 8 + cmdField c 32 8)
      let s := tlbDrop s lid (cmdField c 24 8) (cmdField c 32 8)
      afterRequests (modLease s lid fun l => { l with marks := l.marks.put c.seq ⟨s.nextReq, 0, lo, hi⟩ }) c false)

/-- The leaf that maps an address: its level, and the place and value of its PTE, or the cause of a read that the channel refuses. Nothing is set
in the PTEs. -/
def leafFrom (s : State) (ten va : Nat) : Nat → Nat → Except Nat (Option (Nat × Nat × Nat))
  | 0, _ => .ok none
  | n + 1, table =>
    let pa := table + va / 2 ^ lvlShift n % lvlEntries n * 8
    let pte := Memory.readN s.mem 8 pa
    match channelCause s ten pa with
    | some c => .error c
    | none =>
      if !pte.testBit 63 || pteBad n pte then .ok none
      else if pte.testBit 57 then .ok (some (n, pa, pte))
      else leafFrom s ten va n (fld pte 8 44 * 256)

/-- The leaf of an address of a lease. A refused read of a PTE is counted (R355) and finds no leaf. -/
def leafOf (s : State) (lid va : Nat) : State × Option (Nat × Nat × Nat) :=
  let l := leaseAt s lid
  if va ≥ 2 ^ 48 then (s, none)
  else match leafFrom s l.rcd.tenid.toNat va 4 (fld l.rcd.ptbr.toNat 12 40 * 4096) with
    | .ok m => (s, m)
    | .error c => (refused s lid c, none)

/-- The indivisible step of HARVEST on the page of an address: its size, and whether its D was set (R360). An absent page counts as one of 64
KiB with D clear (log 77). -/
def harvestPage (s : State) (lid va : Nat) : State × Nat × Bool :=
  match leafOf s lid va with
  | (s, none) => (tlbDrop s lid (va / 65536 * 65536) 65536, 65536, false)
  | (s, some (lvl, pa, pte)) =>
    let size := 2 ^ lvlShift lvl
    let s := tlbDrop s lid (va / size * size) size
    if pte.testBit 58 then ({ s with mem := Memory.writeN s.mem 8 pa (pte - 2 ^ 58) }, size, true) else (s, size, false)

/-- The pages of a range in ascending order, at most so many: one bit each. -/
def harvestPages (lid stop : Nat) : Nat → Nat → State → State × List Bool
  | 0, _, s => (s, [])
  | f + 1, va, s =>
    if va ≥ stop then (s, [])
    else
      let (s, size, d) := harvestPage s lid va
      let (s, r) := harvestPages lid stop f (va / size * size + size) s
      (s, d :: r)

/-- Bits packed into bytes, the first in the lowest place. -/
def bitBytes (l : List Bool) : List Byte :=
  let v := l.zipIdx.foldl (fun a (b, i) => if b then a + 2 ^ i else a) 0
  toBytes ((l.length + 7) / 8) v

/-- HARVEST, R360. A result area that cannot be written ends the command with a status that is free (log 8). -/
def execHarvest (c : Cmd) (s : State) : Host.Outcome State Fault Refusal :=
  .next (endIfGone s c fun s =>
    if hasMark s c then afterRequests s c true
    else
      let lid := cmdLease c
      let va := cmdField c 24 8
      let n := cmdField c 32 8
      let (lo, hi) := pageRange s lid va (va + n)
      let size (a : Nat) : Nat := match (leafOf s lid a).2 with | some (lvl, _, _) => 2 ^ lvlShift lvl | none => 65536
      let lo := min lo (va / size va * size va)
      let hi := max hi ((va + n - 1) / size (va + n - 1) * size (va + n - 1) + size (va + n - 1))
      let (s, bits) := harvestPages lid (va + n) (n / 65536 + 2) va s
      match vaWrite s lid (cmdField c 40 8) (bitBytes bits) with
      | (s, .error _) => let (st, s) := free s; finishCmd s c (st % 256) 0
      | (s, .ok _) => afterRequests (modLease s lid fun l => { l with marks := l.marks.put c.seq ⟨s.nextReq, (bits.filter id).length, lo, hi⟩ }) c true)

/-- The dimensions of a tensor, outermost first: elements along it, stride, and elements of one step. -/
def dimsOf (es ss : List Nat) (n : Nat) : List (Nat × Nat × Nat) :=
  match es, ss with
  | e :: es, st :: ss => dimsOf es ss (n * e) ++ [(e, st, n)]
  | _, _ => []

/-- One of the elements `a` to `b - 1` of some dimensions at an address, each of `w` bytes, has a byte in `[lo, hi)` (R353). -/
def holdsElem (w lo hi : Nat) : List (Nat × Nat × Nat) → Nat → Nat → Nat → Bool
  | [], at_, a, b => decide (a < b) && decide (at_ < hi) && decide (lo < at_ + w)
  | (_, st, n) :: r, at_, a, b =>
    let far := (r.map fun d => (d.1 - 1) * d.2.1).foldl (· + ·) w
    -- the first and the last step that can reach the range
    let i0 := max (a / n) (if st = 0 then 0 else (lo - at_ - far) / st)
    let i1 := min ((b - 1) / n) (if st = 0 then b else (hi - at_) / st)
    decide (a < b) && (List.range (i1 + 1 - i0)).any fun k =>
      let i := i0 + k
      decide (at_ + i * st < hi) && decide (lo < at_ + i * st + far) && holdsElem w lo hi r (at_ + i * st) (a - i * n) (min (b - i * n) n)

/-- A page holds an element that a window publishes as needed (R359). A window's tensor is plain (R332). -/
def pageNeeded (needs : List (Tid × Nat × Nat)) (lo size : Nat) : Bool :=
  needs.any fun (t, a, b) => holdsElem (fmtBits t.fmt / 8) lo (lo + size) (dimsOf t.exts t.strs 1) t.base a b

/-- The pages of a range that EVICTQ returns, at most `n` of them. -/
def evictPages (lid stop : Nat) (needs : List (Tid × Nat × Nat)) : Nat → Nat → Nat → State → State × List Nat
  | 0, _, _, s => (s, [])
  | f + 1, n, va, s =>
    if va ≥ stop ∨ n = 0 then (s, [])
    else match leafOf s lid va with
      | (s, none) => evictPages lid stop needs f n (va / 65536 * 65536 + 65536) s
      | (s, some (lvl, _, _)) =>
        let size := 2 ^ lvlShift lvl
        let lo := va / size * size
        if pageNeeded needs lo size then evictPages lid stop needs f n (lo + size) s
        else (let (s, r) := evictPages lid stop needs f (n - 1) (lo + size) s; (s, lo :: r))

/-- EVICTQ, R359: the addresses of the pages, eight bytes each (log 7). -/
def execEvictq (c : Cmd) (s : State) : Host.Outcome State Fault Refusal :=
  .next (endIfGone s c fun s =>
    let lid := cmdLease c
    let va := cmdField c 24 8
    let n := cmdField c 32 8
    let (s, pages) := evictPages lid (va + n) (leaseNeeds s lid) (n / 65536 + 2) 64 va s
    match vaWrite s lid (cmdField c 40 8) ((pages.map fun p => toBytes 8 p).flatten) with
    | (s, .error _) => let (st, s) := free s; finishCmd s c (st % 256) 0
    | (s, .ok _) => finishCmd s c stDone pages.length)

/-! ### Queues -/

def cmdQid (c : Cmd) : Nat := cmdField c 20 2

/-- The queue that a command names. -/
def cmdQueue (s : State) (c : Cmd) : MsgQueue := (leaseAt s (cmdLease c)).queues.get (cmdQid c) {}

/-- Words of the home tile's slice that the rings of its other queues take. -/
def queueTaken (l : Lease) (home : Nat) : List (Nat × Nat) :=
  (l.queues.filter fun (_, q) => q.v && q.home == home).map fun (_, q) => (q.base.toNat / 64, q.base.toNat / 64 + q.cap)

/-- Where QCREATE puts the ring of a queue in the home tile's slice: the device's choice among the 64-byte aligned places in granted banks that no other
queue takes, from 0x2_0000 on if one is there (Table 19.1); none when it fits nowhere (log 36). -/
def queueBase (x : Tile) (taken : List (Nat × Nat)) (cap v : Nat) : Option Nat :=
  let fits (k : Nat) : Bool := decide (64 * (k + cap) ≤ sliceBytes) &&
    ((List.range 16).all fun b => granted x b || decide (64 * (k + cap) ≤ b * bankBytes) || decide ((b + 1) * bankBytes ≤ 64 * k)) &&
    taken.all fun u => decide (k + cap ≤ u.1) || decide (u.2 ≤ k)
  let l := (List.range (sliceBytes / 64)).filter fits
  let high := l.filter fun k => decide (64 * k ≥ 0x20000)
  let l := if high.isEmpty then l else high
  (l[v % max 1 l.length]?).map (64 * ·)

/-- QCREATE, R265. The spec gives no status for a queue that fits nowhere: it is free, and no queue is created (log 36). -/
def execQcreate (c : Cmd) (s : State) : Host.Outcome State Fault Refusal :=
  .next (endIfGone s c fun s =>
    let q := cmdQueue s c
    if q.v then finishCmd s c stQueueState 0
    else
      let (v, s) := free s
      let cap := cmdField c 24 4
      let q : MsgQueue := { v := true, gen := q.gen, home := cmdField c 22 2, cap := cap }
      match queueBase (tileAt s (queueTile s (cmdLease c) q)) (queueTaken (leaseAt s (cmdLease c)) q.home) cap v with
      | some base => finishCmd (setQueue (cmdLease c) (cmdQid c) { q with base := BitVec.ofNat 20 base } s) c stDone 0
      | none => finishCmd s c (v % 256) 0)

/-- QDESTROY, R265: what a swapped queue holds counts as its area says; a count that cannot be read is free (log 22). -/
def execQdestroy (c : Cmd) (s : State) : Host.Outcome State Fault Refusal :=
  .next (endIfGone s c fun s =>
    let lid := cmdLease c
    let q := cmdQueue s c
    if !q.v then finishCmd s c stQueueState 0
    else
      let (s, n) : State × Nat := match q.ring with
        | none => (s, q.count)
        | some va => (match ringHeadTail s lid va.toNat with
          | (s, .ok (h, t)) => (s, t - h)
          | (s, .error _) => let (n, s) := free s; (s, n))
      let gen : BitVec 16 := if q.gen.toNat = 65535 then 1 else q.gen + 1
      finishCmd (setQueue lid (cmdQid c) { gen := gen } s) c stDone (n % 2 ^ 32 + gen.toNat * 2 ^ 32))

/-- The header of a memory-backed ring (R505). -/
def ringHeader (q : MsgQueue) (qid : Nat) : List Byte :=
  toBytes 8 0 ++ toBytes 8 q.count ++ toBytes 4 q.cap ++ toBytes 2 q.gen.toNat ++ toBytes 2 qid ++ toBytes 40 0

/-- QSWAP, R505. -/
def execQswap (c : Cmd) (s : State) : Host.Outcome State Fault Refusal :=
  .next (endIfGone s c fun s =>
    let lid := cmdLease c
    let q := cmdQueue s c
    let va := cmdField c 24 8
    if !q.v || q.ring.isSome then finishCmd s c stQueueState 0
    else match vaWrite s lid (va + 64) (((queueMsgs s lid q).map fun m => toBytes 64 m.toNat).flatten) with
      | (s, .error _) => finishCmd s c stQueueState 0
      | (s, .ok _) => match vaWrite s lid va (ringHeader q (cmdQid c)) with
        | (s, .error _) => finishCmd s c stQueueState 0
        | (s, .ok _) => finishCmd (setQueue lid (cmdQid c) { q with head := 0, count := 0, ring := some (BitVec.ofNat 64 va) } s) c stDone 0)

/-- Messages of a memory-backed ring from number `m` on. -/
def ringMessages (lid va cap : Nat) : Nat → Nat → State → State × Except Nat (List Word)
  | 0, _, s => (s, .ok [])
  | n + 1, m, s => match vaReadN s lid (ringSlotVa va cap m) 64 with
    | (s, .error e) => (s, .error e)
    | (s, .ok v) => match ringMessages lid va cap n (m + 1) s with
      | (s, .error e) => (s, .error e)
      | (s, .ok l) => (s, .ok (low v :: l))

/-- Puts messages into a queue's resident ring, the oldest first. -/
def queueFill (lid : Nat) (q : MsgQueue) (s : State) (l : List Word) : State :=
  l.zipIdx.foldl (fun s (m, k) => putScrWord s (queueTile s lid q) (queueOff { q with head := 0 } k) m) s

/-- QLOAD, R265, R505. -/
def execQload (c : Cmd) (s : State) : Host.Outcome State Fault Refusal :=
  .next (endIfGone s c fun s =>
    let lid := cmdLease c
    let q := cmdQueue s c
    match q.ring with
    | none => finishCmd s c stQueueState 0
    | some va =>
      if !q.v then finishCmd s c stQueueState 0
      else match ringHeadTail s lid va.toNat with
        | (s, .error _) => finishCmd s c stQueueState 0
        | (s, .ok (h, t)) => match ringMessages lid va.toNat q.cap (min (t - h) q.cap) h s with
          | (s, .error _) => finishCmd s c stQueueState 0
          | (s, .ok l) => finishCmd (queueFill lid q (setQueue lid (cmdQid c) { q with head := 0, count := l.length, ring := none } s) l) c stDone 0)

/-- JSTATUS, R497. -/
def execJstatus (c : Cmd) (s : State) : Host.Outcome State Fault Refusal :=
  let st := match s.journal.find? fun e => e.seq == cmdField c 24 8 && e.ten == c.pf with | some e => e.state | none => 0
  .next (finishCmd s c stDone st)

end Sys2Proof.Machine
end

