-- ==== Sys2Proof/Machine/Platform.lean ====
section
/-! DEFINITION. Registers of the physical functions, resets and link states (R484, R489 to R492), the operator's commands (R356, R365, R487), keys and
attestation (R493 to R496), bring-up, throttling and telemetry (R446, R498, R499). -/

namespace Sys2Proof.Machine

open Sys2Proof

/-! ### Function-level reset -/

/-- Steps 1 and 2 of R491: the PF's commands that are under way are given up, its leases removed, its live journal entries cancelled. -/
def resetLeases (s : State) (pf : Nat) : State :=
  let mine := (s.leases.filter fun (_, l) => l.v && decide (l.rcd.tenid.toNat = pf)).map (·.1)
  let live (e : JEntry) : Bool := decide (e.ten = pf ∧ (e.state = 1 ∨ e.state = 2))
  let s := { s with
    cmdWait := s.cmdWait.filter fun c => c.pf != pf
    psubCmd := match s.psubCmd with | some c => if c.pf = pf then none else some c | none => none
    journal := s.journal.map fun e => if live e then { e with state := 4, tfin := s.tick } else e
    jdirty := s.jdirty ++ (s.journal.filter live).map (·.seq) }
  mine.foldl (fun s l => startRemoval s l cRemoved) (journalDrain s.jpend.length s)

/-- An FLR of a tenant PF (R491), or the unlocking of its TDI (R492), in order: steps 1 and 2, and step 3 once every lease of the tenant is removed. -/
def startFlr (s : State) (pf : Nat) (full : Bool) (cmds : List Cmd) : State :=
  let left := (s.leases.filter fun (_, l) => l.v && decide (l.rcd.tenid.toNat = pf)).map (·.1)
  endFlr (modPf (resetLeases s pf) pf fun p => { p with
    flr := some (match p.flr with | some f => (f.1 || full, left) | none => (full, left)), flrCmds := p.flrCmds ++ cmds }) pf

/-- PF_FLR, R491. -/
def execPfFlr (pf : Nat) (s : State) : Host.Outcome State Fault Refusal := if isTenant pf then .next (startFlr s pf true []) else .next s

/-- PFRESET, R487: DONE once the FLR's steps have ended. -/
def execPfreset (c : Cmd) (s : State) : Host.Outcome State Fault Refusal :=
  .next (startFlr { s with cmdWait := s.cmdWait.filter (· != c) } (cmdField c 20 1) true [c])

/-! ### Registers -/

/-- A write that is ignored and counted (R484). -/
def countBadWrite (s : State) : State := { s with pf0log := s.pf0log + 1 }

/-- A ring whose RTAIL lies more than its entries ahead of RHEAD is disabled (R484). -/
def checkRing (p : Pf) (r : Nat) : Pf :=
  let c := p.rctl.get r 0
  if ctlOn c && decide (indexDist (p.rtail.get r 0).toNat (p.rhead.get r 0).toNat > 2 ^ ctlLog c) then { p with rctl := p.rctl.put r (c &&& 0x7FFFFFFF) } else p

/-- RTAIL_DOORBELL, R484. -/
def execRtailDoorbell (pf r v : Nat) (s : State) : Host.Outcome State Fault Refusal :=
  if !pfLive s pf then .next s
  else if r ≥ 8 ∨ v ≥ 2 ^ 32 then .next (countBadWrite s)
  else .next (modPf s pf fun p => checkRing { p with rtail := p.rtail.put r (BitVec.ofNat 32 v) } r)

/-- A register whose write moves a locked TDI to ERROR (R492). -/
def tdiGuards (r : HostReg) : Bool := match r with | .rbase _ | .qbase | .msix _ | .cfg _ | .aerUn | .aerCor => true | _ => false

/-- A register that only PF0 has, or the Arbiter writes through it. -/
def pf0Only (r : HostReg) : Bool :=
  match r with
  | .powerLimit | .tempLimit _ | .mgmtGrtab | .mgmtStbase | .mgmtSaveb | .rpb _ _ => true
  | _ => false

/-- The write itself, with the limits of each register (Table 22.1, R398, R499). -/
def writeReg (s : State) (pf : Nat) (r : HostReg) (v : Nat) : State :=
  let p := pfAt s pf
  let set (ok : Bool) (g : Pf → Pf) : State := if ok then modPf s pf g else countBadWrite s
  let base (g : BindRec → BindRec) : State :=
    if v < 2 ^ 64 then modLease s mgmtKey fun l => { l with rcd := g l.rcd } else countBadWrite s
  match r with
  | .rbase r => set (decide (r < 8) && decide (v < 2 ^ 64) && !ctlOn (p.rctl.get r 0)) fun p => { p with rbase := p.rbase.put r (BitVec.ofNat 64 v) }
  | .rctl r => set (decide (r < 8) && ctlOk v) fun p => checkRing { p with rctl := p.rctl.put r (BitVec.ofNat 32 v) } r
  | .rhead _ => s
  | .qbase => set (decide (v < 2 ^ 64) && !ctlOn p.qctl) fun p => { p with qbase := BitVec.ofNat 64 v }
  | .qctl => set (ctlOk v) fun p => { p with qctl := BitVec.ofNat 32 v }
  | .qhead => set (decide (v < 2 ^ 32) && decide (indexDist v p.qhead.toNat ≤ indexDist p.qtail.toNat p.qhead.toNat)) fun p => { p with qhead := BitVec.ofNat 32 v }
  | .qtail => s
  | .msix i => set (decide (i < 6) && decide (v < 2 ^ 64)) fun p => writeMsix p i (BitVec.ofNat 64 v)
  | .cfg i => set (decide (v < 2 ^ 32)) fun p => { p with cfg := p.cfg.put i (BitVec.ofNat 32 v) }
  | .aerUn => set (decide (v < 2 ^ 32)) fun p => { p with aerUn := p.aerUn &&& ~~~(BitVec.ofNat 32 v) }
  | .aerCor => set (decide (v < 2 ^ 32)) fun p => { p with aerCor := p.aerCor &&& ~~~(BitVec.ofNat 32 v) }
  | .powerLimit => if v ≤ 15000 then { s with powerLimit := v } else countBadWrite s
  | .tempLimit d => if d < 8 then { s with tempLimit := s.tempLimit.put d v } else countBadWrite s
  | .mgmtGrtab => base fun b => { b with grtab := BitVec.ofNat 64 v }
  | .mgmtStbase => base fun b => { b with stbase := BitVec.ofNat 64 v }
  | .mgmtSaveb => base fun b => { b with saveb := BitVec.ofNat 64 v }
  | .rpb port ch => if port < Config.reachPorts ∧ ch < Config.reachChans ∧ v < 256 then
      (let s := { s with rpb := s.rpb.put (8 * port + ch) (BitVec.ofNat 8 v) }
       if v ≥ 128 then claim s (leaseAt s (v % 128)).rcd.tenid.toNat [5 * 4096 + port] else s)
      else countBadWrite s

/-- REGISTER_WRITE, R484, R492: a locked or running TDI goes to ERROR instead, with the effects of R491, steps 1 and 2 (log 94). -/
def execRegisterWrite (pf : Nat) (r : HostReg) (v : Nat) (s : State) : Host.Outcome State Fault Refusal :=
  if !pfLive s pf then .next s
  else if pf ≠ 0 ∧ pf0Only r then .next (countBadWrite s)
  else if pf ≠ 0 ∧ tdiGuards r ∧ ((pfAt s pf).tdi = .locked ∨ (pfAt s pf).tdi = .run) then
    .next (modPf (resetLeases s pf) pf fun p => { p with tdi := .error })
  else .next (writeReg s pf r v)

/-! ### Links -/

/-- PORT_LINK_DOWN, R490. -/
def execPortLinkDown (p : Nat) (s : State) : Host.Outcome State Fault Refusal :=
  .next (if p = 0 then { s with linkUp0 := false } else { s with linkUp1 := false })

/-- PORT_LINK_UP, R490: writes of the device that waited for the link go on in order. -/
def execPortLinkUp (p : Nat) (s : State) : Host.Outcome State Fault Refusal :=
  let s := if p = 0 then { s with linkUp0 := true } else { s with linkUp1 := true }
  .next (s.heldWrites.foldl (fun s w => gWrite s w.1 w.2.1 w.2.2) { s with heldWrites := [] })

/-! ### TDISP, IDE, attestation and keys -/

/-- LOCK_INTERFACE, R492: refused until the PF's IDE stream is keyed. -/
def execLockInterface (pf : Nat) (s : State) : Host.Outcome State Fault Refusal :=
  if isTenant pf && (pfAt s pf).keyed && (pfAt s pf).tdi == .unlocked then .next (modPf s pf fun p => { p with tdi := .locked }) else .next s

/-- START_INTERFACE, R492. -/
def execStartInterface (pf : Nat) (s : State) : Host.Outcome State Fault Refusal :=
  if isTenant pf && (pfAt s pf).tdi == .locked then .next (modPf s pf fun p => { p with tdi := .run }) else .next s

/-- STOP_INTERFACE, R492: the effects of R491, steps 1 and 2, then CONFIG_UNLOCKED. -/
def execStopInterface (pf : Nat) (s : State) : Host.Outcome State Fault Refusal :=
  if isTenant pf then .next (startFlr s pf false []) else .next s

/-- Measurement indices, Table 22.4. -/
def measured : List Nat := [1, 2, 3] ++ (List.range 8).map (· + 16) ++ (List.range 16).map (· + 32)

/-- What the interface report lists (R492): BAR0, by its two registers of the configuration space and its 64 KiB (R484), the MSI-X table, and the
measurement indices, in a layout of the model's (log 9). -/
def reportBytes (p : Pf) : List Byte :=
  toBytes 4 (p.cfg.get 4 0).toNat ++ toBytes 4 (p.cfg.get 5 0).toNat ++ toBytes 4 65536 ++
    (List.range 6).flatMap (fun i => toBytes 8 (msixHalf p i).toNat) ++ measured.map (BitVec.ofNat 8)

/-- GET_DEVICE_INTERFACE_REPORT, R492: the report is in the PF's DOE mailbox (log 9). -/
def execGetDeviceInterfaceReport (pf : Nat) (s : State) : Host.Outcome State Fault Refusal :=
  if isTenant pf then .next (modPf s pf fun p => { p with doe := reportBytes p }) else .next s

/-- A frame is owned by a tenant (R378). -/
def ownsFrame (s : State) (ten : Nat) : Bool := s.fot.any fun (_, v) => decide (v.toNat = ten)

/-- Journals a key message with a digest of its header; the spec gives it no KIND and the header no layout, so both are free (R495) (log 80). -/
def journalKey (s : State) (pf state : Nat) : State :=
  let (k, s) := free s
  let (d, s) := free s
  journalAdd s pf (k % 256) state 0xFF (BitVec.ofNat 128 d)

/-- The Arbiter's answer to a key message in the PF's DOE mailbox: a status of Table 22.2 (log 7). -/
def keyAnswer (s : State) (pf st : Nat) : State := modPf s pf fun p => { p with doe := toBytes 1 st }

/-- KEY_SET, R378, R495: the key goes into the tenant's slot of all 16 base dies, or none. -/
def execKeySet (pf : Nat) (key : Word) (s : State) : Host.Outcome State Fault Refusal :=
  if !(isTenant pf || pf == 0) || !pfLive s pf || !journalRoom s then .next s
  else if ownsFrame s pf then .next (keyAnswer (journalKey s pf 5) pf stKeyBusy)
  else
    let s := keyAnswer (journalKey s pf 3) pf stDone
    .next { s with kslot := (List.range 16).foldl (fun t d => Tab.put t (d * 64 + pf) key) s.kslot }

/-- KEY_CLEAR, R378, R495. -/
def execKeyClear (pf : Nat) (s : State) : Host.Outcome State Fault Refusal :=
  if !(isTenant pf || pf == 0) || !pfLive s pf || !journalRoom s then .next s
  else if ownsFrame s pf then .next (keyAnswer (journalKey s pf 5) pf stKeyBusy)
  else
    let s := keyAnswer (journalKey s pf 3) pf stDone
    .next { s with kslot := (List.range 16).foldl (fun t d => Tab.del t (d * 64 + pf)) s.kslot }

/-- SPDM_MESSAGE, R494: the Arbiter relays the measurement block of an index (log 9). -/
def execSpdmMessage (pf i : Nat) (s : State) : Host.Outcome State Fault Refusal :=
  .next (modPf s pf fun p => { p with doe := Config.measurement i (s.firmware.get i []) })

/-- IDE_KM, R493: keys stream `i` of port `p`: stream i of port 0 is of PFi, of port 1 of PF(17 + i). -/
def execIdeKm (p i : Nat) (s : State) : Host.Outcome State Fault Refusal :=
  let pf := if p = 0 then i else 17 + i
  let s := { s with ide := if s.ide.contains (p * 32 + i) then s.ide else s.ide ++ [p * 32 + i] }
  .next (if p ≤ 1 ∧ i ≤ 16 then modPf s pf fun p => { p with keyed := true } else s)

/-- PLDM_FIRMWARE_UPDATE, R496: an image is staged for the next module reset. -/
def execPldmFirmwareUpdate (i : Nat) (img : List Byte) (s : State) : Host.Outcome State Fault Refusal :=
  .next { s with staged := (s.staged.filter fun m => m.1 != i) ++ [(i, img)] }

/-! ### The operator's commands -/

/-- ALLOW, R488. -/
def execAllow (c : Cmd) (s : State) : Host.Outcome State Fault Refusal :=
  .next (finishCmd (modPf s (cmdField c 20 1) fun p => { p with
    mask := BitVec.ofNat 64 (cmdField c 24 8), maxLen := BitVec.ofNat 64 (cmdField c 32 8), maxQueues := BitVec.ofNat 16 (cmdField c 40 2)
    tdreq := decide (cmdField c 42 1 = 1), maxCap := BitVec.ofNat 32 (cmdField c 44 4) }) c stDone 0)

/-- The key of a frame in FOT. -/
def fotKey (stack frame : Nat) : Nat := stack * 32768 + frame

/-- FOTSET, R356: the frame is FREE at every channel of its stack. A second change of a frame waits for the first (log 81). -/
def execFotset (c : Cmd) (s : State) : Host.Outcome State Fault Refusal :=
  let st := cmdField c 20 1
  let fr := cmdField c 22 2
  if s.fotChanges.any fun f => f.stack == st && f.frame == fr then .next (waitCmd s c)
  else
    let f : FotChange := { stack := st, frame := fr, owner := BitVec.ofNat 6 (cmdField c 21 1), cmd := c }
    .next { s with fot := s.fot.del (fotKey st fr), fotChanges := s.fotChanges ++ [f], cmdWait := s.cmdWait.filter (· != c) }

/-- FRAME_DRAINED_SCRUB, R356: the frame is scrubbed and its new owner written; the FOTSET completes. A channel performs what it accepts at once,
so that nothing accepted is left to wait for. -/
def execFrameDrainedScrub (sk fr : Nat) (s : State) : Host.Outcome State Fault Refusal :=
  match s.fotChanges.find? fun f => f.stack == sk && f.frame == fr with
  | none => .next s
  | some f =>
    let pa := sk * 2 ^ 36 + fr * 2 ^ 21
    let s := { s with
      mem := Memory.clear s.mem pa (2 ^ 21)
      badMem := s.badMem.filter fun g => decide (g < pa / 16 ∨ pa / 16 + 2 ^ 17 ≤ g)
      fot := if f.owner = 63 then s.fot else s.fot.put (fotKey sk fr) f.owner
      fotChanges := s.fotChanges.filter fun g => !(g.stack == sk && g.frame == fr) }
    .next (finishCmd s f.cmd stDone 0)

/-! ### What a link that is down holds -/

/-- The command that an instruction stands for. -/
def cmdOf (i : Instr) : Option Cmd :=
  match i with
  | .glaunch c | .gcancel c | .resumeCone c | .nodedone c | .continueNode c | .pfresolve c | .pfdecline c | .tlbinv c | .harvest c | .evictq c
  | .qcreate c | .qdestroy c | .qswap c | .qload c | .jstatus c | .bind c | .rebind c | .move c | .preempt c | .resume c | .remove c | .allow c
  | .fotset c | .pfreset c => some c
  | _ => none

/-- What becomes of a turn taken in state `s`: one that met host memory behind a link that is down is taken back and comes again, a command in its
line (R490). -/
def taken (s : State) (c : Option Cmd) (o : Host.Outcome State Fault Refusal) : Host.Outcome State Fault Refusal :=
  match o with
  | .next t => if t.linkHeld then .next (match c with | some c => waitCmd s c | none => s) else o
  | _ => o

/-! ### Bring-up -/

/-- MODULE_RESET, R496, R498: bring-up starts again. Staged images take effect; memory, the Second's mirror and what stands for the surroundings
are kept, and FMASK is fused (R1) (log 4). -/
def execModuleReset (s : State) : Host.Outcome State Fault Refusal :=
  .next { State.reset with
    mem := s.mem, fresh := s.fresh, mirror := s.mirror, firmware := s.staged.foldl (fun t m => Tab.put t m.1 m.2) s.firmware
    linkUp0 := s.linkUp0, linkUp1 := s.linkUp1, fmask := s.fmask }

/-- Every die has joined or failed (Table 22.5). -/
def allDiesIn (s : State) : Bool := (List.range 8).all fun d => s.stage.getLsbD (4 + d) || s.failed.getLsbD d

/-- STAGE with another stage number. -/
def withStage (v : BitVec 32) (n : Nat) : BitVec 32 := BitVec.ofNat 32 (setFld v.toNat 0 4 n)

/-- DIE_JOIN, R498: a die joins with its two stacks, or stays out. Its FMASK is what it was made with (log 5). Tenant PFs are enabled once every
die has joined or failed. -/
def execDieJoin (d : Nat) (ok : Bool) (s : State) : Host.Outcome State Fault Refusal :=
  if stageNo s ≠ 2 ∨ d ≥ 8 ∨ s.stage.getLsbD (4 + d) ∨ s.failed.getLsbD d then .next s
  else
    let s :=
      if ok then { s with stage := s.stage ||| BitVec.ofNat 32 (2 ^ (4 + d) + 2 ^ (12 + 2 * d) + 2 ^ (13 + 2 * d)), fmask := s.fmask.put d (Config.fusedMask d) }
      else { s with stage := s.stage ||| 0x80000000, failed := s.failed ||| BitVec.ofNat 8 (2 ^ d) }
    .next (if allDiesIn s then { s with stage := withStage s.stage 3 } else s)

/-! ### Throttling and telemetry -/

/-- The thresholds and TRIGGER nodes of every lease see a telemetry counter that has changed (R397, R449). -/
def telemetryChanged (s : State) (ctr : Nat) : State :=
  (s.leases.map (·.1)).foldl (fun s l => testTriggers (modLease s l fun x => evalThrs s x ctr) l) s

/-- THROTTLE_ENTER, R499: issue on the die is gated from now on; MCTR lane 2 counts it. -/
def execThrottleEnter (d : Nat) (s : State) : Host.Outcome State Fault Refusal :=
  if s.throttled.contains d then .next s
  else .next (telemetryChanged { s with throttled := s.throttled ++ [d], mctr := s.mctr.put 2 (s.mctr.get 2 0 + 1) } 0x8002)

/-- THROTTLE_EXIT, R499. -/
def execThrottleExit (d : Nat) (s : State) : Host.Outcome State Fault Refusal := .next { s with throttled := s.throttled.filter (· != d) }

/-- MCTR_REFRESH, R446, R499: the hottest die, the power and the core-rail current. -/
def execMctrRefresh (temps : List Nat) (power amps : Nat) (s : State) : Host.Outcome State Fault Refusal :=
  let hot := temps.foldl max 0
  let s := { s with mctr := ((s.mctr.put 0 (BitVec.ofNat 64 hot)).put 1 (BitVec.ofNat 64 power)).put 3 (BitVec.ofNat 64 amps) }
  .next (telemetryChanged (telemetryChanged (telemetryChanged s 0x8000) 0x8001) 0x8003)

end Sys2Proof.Machine
end

