-- ==== Sys2Proof/Machine/Clock.lean ====
section
/-! DEFINITION. A clock cycle: counters advance (R223, R282, R335, R439 to R443), and the steps that are due make the new agenda (log 1). -/

namespace Sys2Proof.Machine

open Sys2Proof

/-! ### What a cycle counts -/

/-- What an engine of a tile that runs counts in the cycle that ends (R441). The increment of STC is still to be sent to LSTL (R442). -/
def countBlock (s : State) (t : Nat) (x : Tile) (e : Nat) : Tile :=
  match blockOf (activePlane x) e with
  | none => x
  | some b => match engineCount s t x e b with
    | none => { x with actc := x.actc.put e (x.actc.get e 0 + 1) }
    | some c =>
      let k := stallCode c
      { x with stc := x.stc.put (stcKey e k) (x.stc.get (stcKey e k) 0 + 1), delta := x.delta.put k (x.delta.get k 0 + 1) }

/-- RBKT gains RATE/256 and never exceeds SLOTS (R223); an AWAIT of kind 1 counts down (R412). -/
def ageElem (el : Elem) : Elem :=
  let r := min (el.rbkt.toNat + 4 * el.rrate) (1024 * el.rslots)
  { el with
    rbkt := if el.rslots = 0 then el.rbkt else BitVec.ofNat 16 r
    awst := if el.awst.v && el.awst.kind && el.awst.val != 0 then { el.awst with val := el.awst.val - 1 } else el.awst }

/-- Changes every block of a plane. -/
def mapBlocks (p : Plane) (g : Block → Block) : Plane := { p with blk0 := p.blk0.map g, blk1 := p.blk1.map g, blk2 := p.blk2.map g }

/-- A block begins a new cycle; an anchor raise has cost one more (R166). -/
def freshBlock (b : Block) : Block := { b with issued := false, raise := if b.issued then b.raise else b.raise - 1 }

/-- An engine of the plane has issued in the cycle. -/
def anyIssued (p : Plane) : Bool := [0, 1, 2].any fun e => match blockOf p e with | some b => b.issued | none => false

/-- What a cycle does on a tile that runs (R440) (log 84). -/
def ageRunning (s : State) (t : Nat) (x : Tile) : Tile :=
  let idle := if throttledAt s t then x.idle else !anyIssued (activePlane x)
  let x := [0, 1, 2].foldl (countBlock s t) x
  let one (p : Plane) : Plane := mapBlocks (mapElems p ageElem) freshBlock
  { x with idle := idle, pa := one x.pa, pb := one x.pb }

/-- BIDLE of each bank counts the cycles without an access, saturating; an access in the cycle leaves it at 0 (R336, Table 11.1). -/
def ageBanks (x : Tile) : Tile :=
  let go (t : Tab (BitVec 20)) (b : Nat) : Tab (BitVec 20) :=
    let v : BitVec 20 := t.get b 0
    if x.touched.getLsbD b || v == 0xFFFFF then t else t.put b (v + 1)
  { x with bidle := (List.range 16).foldl go x.bidle, touched := 0 }

/-- The tokens of a plane have all been there for a cycle (R8). -/
def settled (p : Plane) : Plane := { mapElems p (fun e => { e with late := [] }) with late := [] }

/-- What every cycle does on a tile, running or not: banks age, wakes and scrubs go on, a drain and a capture take their time. -/
def ageTile (s : State) (t : Nat) (x : Tile) : Tile :=
  let x := ageBanks (if tileCounts s t then ageRunning s t x else x)
  { x with
    pa := settled x.pa
    pb := settled x.pb
    wakes := x.wakes.map fun (b, n) => (b, n - 1)
    drain := x.drain.map fun d => { d with cycles := d.cycles + 1 }
    capture := if tileCounts s t then x.capture.map (· - 1) else x.capture }

/-- FEWAIT of a waiting .F load, while its element's tile runs (R282). An access to host memory that finds its port's link down is held (R490). -/
def ageReq (s : State) (r : Req) : Req :=
  let r := if hostNext r && !portUp s r.ten then { r with held := true } else r
  if r.waitFe && tileCounts s r.who.tile && r.fewait != 0xFFFFFF then { r with fewait := r.fewait + 1 } else r

/-- The move in progress moves tiles of a lease. -/
def leaseMoves (s : State) (lid : Nat) : Bool := match s.move with | some m => (match m.cur with | some e => e.lease == lid | none => false) | none => false

/-- The hops of a mesh packet from a tile to another, X first, then Y (R9). -/
def meshHops (a b : Nat) : List (Nat × Nat) :=
  let at_ (u v i : Nat) : Nat := if u ≤ v then u + i else u - i
  let x (i : Nat) : Nat := a / 256 * 256 + at_ (a % 256) (b % 256) i
  let y (i : Nat) : Nat := at_ (a / 256) (b / 256) i * 256 + b % 256
  let far (u v : Nat) : Nat := max u v - min u v
  (List.range (far (a % 256) (b % 256))).map (fun i => (x i, x (i + 1))) ++ (List.range (far (a / 256) (b / 256))).map fun i => (y i, y (i + 1))

/-- Router outputs that a request on the mesh may wait at. -/
def reqHops (s : State) (r : Req) : List (Nat × Nat) := if r.phase == .mesh then meshHops r.who.tile (meshGoal s r) else []

/-- Channels at which a request waits. -/
def reqChans (r : Req) : List Nat :=
  if r.phase != .issued then [] else r.rest.filterMap fun p => if p.sp == .pa && paClass p.addr = 0 then some (32 * paStack p.addr + p.addr / 512 % 32) else none

/-- What contention with other leases costs a running lease in a cycle, IFA lanes 0, 1 and 4 (R440, R445): the spec gives no figures of time, so how
many of its requests at a channel or router output that another lease's request uses waited for it is free, as is whether a token at a UCIe link that
another tenant uses did (log 6); where nothing of another lease is, none did. -/
def contend (s : State) (lid : Nat) : State :=
  let ten (k : Nat) : BitVec 6 := (leaseAt s k).rcd.tenid
  let count (at_ : Req → List (Nat × Nat)) : Nat :=
    let theirs := (s.reqs.filter fun (_, r) => r.lease != lid).flatMap fun (_, r) => at_ r
    if theirs.isEmpty then 0 else (s.reqs.filter fun (_, r) => r.lease == lid && (at_ r).any theirs.contains).length
  let seams (h : List (Nat × Nat)) : List Nat := h.filterMap fun m => seamOf m.1 m.2
  let ofWire (w : Wire) : List (Nat × Nat) := match neighbour w.tile w.port with | some u => [(u, w.tile)] | none => []
  let theirSeams := seams (((s.wires.filter fun w => match w.stamp with | some k => ten k != ten lid | none => false).flatMap ofWire) ++
    (s.reqs.filter fun (_, r) => ten r.lease != ten lid).flatMap fun (_, r) => reqHops s r)
  let mine := !theirSeams.isEmpty && (seams ((s.wires.filter fun w => w.stamp == some lid).flatMap ofWire)).any theirSeams.contains
  let add (k n : Nat) (s : State) : State := if n = 0 then s else (let (v, s) := free s; countIn s lid (0x3000 + k) (v % (n + 1)))
  add 4 (if mine then 1 else 0) (add 1 (count (reqHops s)) (add 0 (count fun r => (reqChans r).map fun c => (c, c)) s))

/-- The cycle counts of a lease (R443) with what times its stops, gates and snapshots. -/
def ageLease (s : State) (lid : Nat) : State :=
  let l := leaseAt s lid
  if !l.v then s
  else
    let run := leaseRuns l
    let thr := (boundTiles s lid).any fun t => tileRuns s t && throttledAt s t
    let one (b : Bool) (k : Nat) (s : State) : State := if b then countIn s lid (0x2000 + k) 1 else s
    let s := if run then contend s lid else s
    let s := one thr 3 (one l.hline 2 (one (leaseMoves s lid || scrubGoes s lid) 1 (one run 0 s)))
    modLease s lid fun l => { l with
      gateCycles := if l.lstate == .gating then l.gateCycles + 1 else l.gateCycles
      stopCycles := if l.hline && (recordsDue l || l.scan) then l.stopCycles + 1 else l.stopCycles
      bankWait := if l.bankWait = 0 then 0 else l.bankWait + 1
      snps := if run then l.snps.map fun (k, v) => (k, { v with cycles := v.cycles + 1 }) else l.snps }

/-- A FWD entry goes once no request or job of its region under its epoch is left (R375) (log 83). -/
def clearFwd (s : State) (x : Tile) : Tile :=
  let mine (f : Fwd) (t : Nat) : Bool := match regionOf s f.lease t with | some r => r.rid == f.rid | none => false
  let open_ (f : Fwd) : Bool := s.reqs.any (fun (_, r) => r.lease == f.lease && r.epoch == f.epoch && mine f r.who.tile) ||
    (leaseAt s f.lease).jobt.any fun (_, j) => j.epoch == f.epoch && match j.who with | some w => mine f w.tile | none => false
  if x.fwd.isEmpty then x else { x with fwd := x.fwd.filter open_ }

/-- The shared structures that hold something now: the TLBs of every base die, reach ports that a lease names, and the mesh, seam links,
channels and reach ports that a request or token in flight is in. -/
def heldStructs (s : State) : List Nat :=
  let dies := (List.range 16).map (3 * 4096 + ·)
  let named := s.rpb.map fun m => 5 * 4096 + m.1 / 8
  let ofReq (r : Req) : List Nat :=
    (if onMesh s r then [4096 + Config.dieOf r.who.tile, 4096 + Config.dieOf (meshGoal s r)] ++ seamStruct r.who.tile (meshGoal s r) else []) ++
      r.rest.flatMap fun p => if p.sp != .pa then [] else match paClass p.addr with
        | 0 => [4 * 4096 + 32 * paStack p.addr + p.addr / 512 % 32]
        | 2 => [5 * 4096 + p.addr / 2 ^ 44 % 64]
        | _ => []
  let ofWire (w : Wire) : List Nat := match neighbour w.tile w.port with | some u => seamStruct u w.tile | none => []
  let ofOut (w : Wire) : List Nat := match reachFor w.tile w.port w.ch with | some k => [5 * 4096 + k / 8] | none => []
  (dies ++ named ++ s.reqs.flatMap (fun m => ofReq m.2) ++ s.wires.flatMap ofWire ++ s.peerOut.flatMap ofOut).eraseDups

/-- OWNBM and BMPAR follow what the shared structures hold (R379, Table 13.7). -/
def refreshOwners (s : State) : State :=
  ((heldStructs s ++ s.ownbm.map (·.1)).eraseDups).foldl (fun s i =>
    let v := ownersOf s i
    if v = 0 then { s with ownbm := s.ownbm.del i, bmpar := s.bmpar.del i } else setOwners s i v) s

/-- STAGE advances by itself to stage 2 (R498, Table 22.5) (log 25). -/
def stageUp (s : State) : State := if stageNo s < 2 then { s with stage := withStage s.stage (stageNo s + 1) } else s

/-- TICK counts every 16 cycles from stage 1 on (R439). -/
def tickUp (s : State) : State := if stageNo s ≥ 1 ∧ s.cycle % 16 = 0 then { s with tick := s.tick + 1 } else s

/-- SWITCH tokens that reached the heads of their channels pass them (R218, Table 8.6); on a stopped tile they stay (R420). -/
def passSwitches (s : State) : State :=
  s.tiles.foldl (fun s m => if tileRuns s m.1 then (switchHeads m.2).foldl (fun s k => passSwitch s m.1 1 k) s else s) s

/-- What the cycle that ends leaves in the counters. -/
def ageState (s : State) : State :=
  let s' := passSwitches ((s.leases.map (·.1)).foldl ageLease s)
  let aged (t : Nat) : Tile := ageTile s t (tileAt s' t)
  let s' := { s' with
    tiles := s'.tiles.map fun (t, x) => (t, clearFwd s (ageTile s t x))
    reqs := s'.reqs.map fun (k, r) => (k, answerCtr s aged (ageReq s r))
    move := s'.move.map fun m => { m with cycles := m.cycles + 1 }
    pfs := s'.pfs.map fun (k, p) => (k, if p.msgs.isEmpty then p else { p with msgs := [] })
    peerOut := [], peerDemands := [], linkHeld := false, cycle := s'.cycle + 1 }
  let s' := stageUp (tickUp (refreshOwners s'))
  (s'.leases.map (·.1)).foldl testTriggers s'

/-! ### What is due in a cycle: groups of steps, those of a group in order -/

/-- The steps of an element: its turn, the control steps at its heads, and what it has open. -/
def dueElem (t : Nat) (p : Plane) (m : Nat × Nat × Elem) : List Turn :=
  let x : Site := ⟨t, m.1, m.2.1⟩
  let el := m.2.2
  let heads := match instrAt el with
    | some i => (WellFormed.tokenOperands i).map (headOf p m.1 m.2.1 el)
    | none => []
  let ctl := heads.any fun h => match h with | some k => isCtl k | none => false
  [.elem x] ++
    (if ctl then [.event (.snapAlign x), .event (.alignedControlForward x), .event (.poisonPropagate x), .event (.switchConsume x)] else []) ++
    (if el.rqp.act then [.event (.rangeRequestIssue x)] else []) ++
    (if el.bar == .closed then [.event (.barRelease x)] else []) ++
    (if el.awst.v then [.event (.awaitResume x)] else [])

/-- The unpack stages of a plane with something to do. -/
def duePx (t : Nat) (p : Plane) : List Turn :=
  ((List.range 64).filter fun k => (p.px8.get k {}).carrier || match p.lbuf.get k [] with
    | h :: _ => opensCarrier k h
    | [] => false).map fun k => .event (.px8UnpackBlock t (k / 8) (k % 8))

/-- The steps of a tile's readouts. -/
def dueRead (t : Nat) (p : Plane) : List Turn :=
  ([false, true].map fun a => match (accOf p a).rdo.kind with
    | 0 => ([] : List Turn)
    | 4 => [.event (.sortChunkWord t a)]
    | _ => [.event (.readoutWord t a)]).flatten

/-- The steps of a tile's banks. -/
def dueBanks (t : Nat) (x : Tile) : List Turn :=
  (x.wakes.filter fun m => m.2 == 0).map (fun m => Turn.event (if x.scrub.getLsbD m.1 then .bankGrantScrubDone t m.1 else .bankWakeDone t m.1)) ++
    (activeBanks x).map (fun b => Turn.event (.bankDrowse t b)) ++ (if (activeBanks x).length > 4 then [Turn.event (.bankSbcLimit t)] else []) ++
    (if x.drain.isSome then [Turn.event (.bankDrained t), Turn.event (.bankDrainTimeout t)] else [])

/-- The steps of a tile's configuration: loading, segments, castling, snapshots. -/
def duePlane (s : State) (t : Nat) (x : Tile) : List Turn :=
  let l := leaseAt s x.tlease.toNat
  let loading (p : Plane) : Bool := p.pst == .loading && p.whole
  (if loading x.pa || loading x.pb then [Turn.event (.patternArrived t)] else []) ++
    (if (activePlane x).inSeg || !(activePlane x).eots.isEmpty then [Turn.event (.segmentComplete t)] else []) ++
    (if (shadowPlane x).pst == .empty then [] else [Turn.event (.switchDelivery t), Turn.event (.castling t)]) ++
    ((l.snps.filter fun m => m.2.left.contains t).map fun m => Turn.event (if x.capture.isSome then .snapCaptureWritten t m.1 else .snapCapture t m.1))

/-- Puts groups into an order that nothing in the spec fixes: each place takes the one that a free value names (log 1). -/
def shuffle {α : Type} : Nat → Nat → List α → List α
  | 0, _, l => l
  | n + 1, k, l =>
    let i := Config.pick (2 * k) % max 1 l.length
    (l.drop i).take 1 ++ shuffle n (k + 1) (l.take i ++ l.drop (i + 1))

/-- The turns of a plane's elements: engine 0 first, then 1, then 2 (R253), in an engine in an order that nothing fixes. -/
def orderElems (k t : Nat) (p : Plane) : List Turn :=
  let eng (e : Nat) : List (List Turn) := ((elemsOf p).filter fun m => m.1 == e).map (dueElem t p)
  let n (e : Nat) : Nat := (eng e).length
  (shuffle (n 0) k (eng 0) ++ shuffle (n 1) (k + n 0) (eng 1) ++ shuffle (n 2) (k + n 0 + n 1) (eng 2)).flatten

/-- What is due at a tile. Increments of STC leave at every stop, and every 1,024 cycles (R442). -/
def dueTile (s : State) (k : Nat) (m : Nat × Tile) : List (List Turn) :=
  let t := m.1
  let x := m.2
  let p := activePlane x
  let one (l : List Turn) : List (List Turn) := l.map ([·])
  let outs := (x.pa.reduce ++ x.pb.reduce).eraseDups
  if !tileBound x then []
  else
    orderElems k t p :: one (duePx t p) ++ one (outs.map fun o => .event (.reductionJoin t (o / 8) (o % 8))) ++
      one (dueRead t p) ++ one (if x.landb.isEmpty && x.spill.isEmpty then [] else [.event (.landbDeliver t)]) ++
      one ((p.wins.filter fun w => w.2.v).map fun w => .event (.windowFeed t w.1)) ++ one (duePlane s t x) ++ one (dueBanks t x) ++
      one (if !x.delta.isEmpty && (decide (s.cycle % 1024 = 0) || (leaseAt s x.tlease.toNat).hline) then [.event (.lstlDeltaSend t)] else [])

/-- Granules of a request that are still to be performed. -/
def granules (r : Req) : Nat := (r.rest.map fun p => (p.addr + p.len - 1) / 16 - p.addr / 16 + 1).foldl (· + ·) 0

/-- What is due for a request: the first of its granules, and some other. How long a request takes on its way is free (R279): a free value of
the cycle may leave it where it is. -/
def dueReq (s : State) (m : Nat × Req) : List Turn :=
  let k := m.1
  let r := m.2
  let v := Config.pick (2 * (s.cycle * 2 ^ 64 + k) + 1)
  let on (l : List Turn) : List Turn := if v % 2 = 1 then [] else l
  let is := [0, v / 2 % max 1 (granules r)].eraseDups
  match r.phase with
  | .mesh => on [.event (.meshPacketArrival k)]
  | .home =>
    if r.waitFe then [.event (.feLoadRelease k), .event (.feWatchdog k)] else on (is.map fun i => .event (.bankAccess k i))
  | .issued =>
    if (untranslated r).isSome then on [.event (.translate k), .event (.walk k)]
    else on (is.map fun i => [Turn.event (.hbmRequestServe k i), Turn.event (.hostMemoryRequest k (.piece i))]).flatten
  | .done => (match r.dest with | .ring _ _ _ => [.event (.ringDeliveryLand k)] | _ => [.event (.replyDelivery k)])
  | .faulted => []

/-- What is due for the graphs of a lease. -/
def dueGraphs (s : State) (lid : Nat) (l : Lease) : List Turn :=
  let nodes := activeNodes l
  let other := nodes.any fun m => m.2.2.state == .ready && nodeKind m.2.2 != 0 && !l.cards.any fun c => c.who.isNone && c.graph == m.1 && c.node == m.2.1
  let track := nodes.filter fun m => (trackRegion l m.1 m.2.1).isSome
  (if l.woken || l.regions.any turnPasses || other then [Turn.event (.dispatch lid)] else []) ++
    (match dispatchWants l with | some e => [Turn.event (.checkPass lid e.1 e.2)] | none => []) ++
    (track.map fun m => [Turn.event (.checkPass lid m.1 m.2.1), Turn.event (.trackArm lid m.1 m.2.1)]).flatten ++
    (if l.etoks.isEmpty then [] else [Turn.event (.edgeToken lid)]) ++
    ((nodes.filter fun m => m.2.2.state == .faulted || m.2.2.state == .retry).map fun m => Turn.event (.nodeRetry lid m.1 m.2.1)) ++
    ((l.regions.filter fun r => r.nextPat.isSome).map fun r => Turn.event (.copyPassPattern lid r.rid)) ++
    ((s.shards.filter fun m => m.1 / 64 == lid && !m.2.isEmpty).map fun m => Turn.event (.contDequeue lid (m.1 % 64)))

/-- What is due for the stops of a lease. -/
def dueStops (s : State) (lid : Nat) (l : Lease) : List Turn :=
  let free := l.regions.any fun r => releasable s lid r
  let drops := l.hline && l.recs.isEmpty && !l.stopOpen
  (if recordsDue l then [Turn.event (.stopRecordsWrite lid)] else []) ++
    (if !l.faults.isEmpty || l.haltReq || drops || free then [Turn.event (.policyApply lid)] else []) ++
    (if l.lstate == .gating then [Turn.event (.qbndExpiry lid)] else []) ++
    (if l.hline && (recordsDue l || l.scan) then [Turn.event (.haltTimeout lid)] else []) ++
    (if l.scan then [Turn.event (.freezeScanDone lid 0)] else []) ++
    ((l.regions.filter fun r => r.frozen && !r.scanned).map fun r => Turn.event (.freezeScanDone lid r.rid)) ++
    (if l.lstate == .removing then [Turn.event (.removalComplete lid)] else [])

/-- What is due for a lease. -/
def dueLease (s : State) (m : Nat × Lease) : List Turn :=
  let lid := m.1
  let l := m.2
  dueGraphs s lid l ++ dueStops s lid l ++
    (if l.cards.isEmpty then [] else [Turn.event (.jobAccept lid)]) ++
    (l.jobt.map fun j => [Turn.event (.jobStart lid j.1), Turn.event (.jobComplete lid j.1)]).flatten ++
    (l.colls.map fun g => Turn.event (.collStart lid g.1)) ++ (if l.enqs.isEmpty then [] else [Turn.event (.enqArrival lid)]) ++
    (if l.barMsgs.isEmpty then [] else [Turn.event (.barrierArrival lid)]) ++ (l.snps.map fun v => Turn.event (.snapTimeout lid v.1))

/-- The commands that wait and whose turn it is (R488). -/
def dueCmds (s : State) : List Cmd → List Cmd → List Turn
  | _, [] => []
  | before, c :: r =>
    (match cmdInstr c with
     | some i => if heldBehind s before c then [] else [Turn.event i]
     | none => []) ++ dueCmds s (before ++ [c]) r

/-- What is due at a physical function. -/
def duePf (s : State) (m : Nat × Pf) : List Turn :=
  let pf := m.1
  let p := m.2
  let ring (r : Nat) : Bool := ctlOn (p.rctl.get r 0) && p.rtail.get r 0 != p.rhead.get r 0
  (if pfLive s pf then ((List.range 8).filter ring).map fun r => Turn.event (.arbiterCommandRead pf r) else []) ++
    (if p.cwait.isEmpty && p.nbuf.isEmpty && p.nmerged.isEmpty then [] else [Turn.event (.completionWrite pf)])

/-- What is due at the Arbiter and in the module as a whole. -/
def dueModule (s : State) : List Turn :=
  (s.pfs.map (duePf s)).flatten ++ (if s.psubCmd.isSome then [Turn.event .psubTake] else []) ++ dueCmds s [] s.cmdWait ++
    (s.fotChanges.map fun f => Turn.event (.frameDrainedScrub f.stack f.frame)) ++
    (if s.move.isSome then [Turn.event .moveDrained, Turn.event .moveDrainTimeout, Turn.event .moveCopyDone] else [])

/-- What is due at some tiles, with the free values that order their elements taken from `k` on. -/
def dueTiles (s : State) (k : Nat) : List (Nat × Tile) → List (List Turn)
  | [] => []
  | m :: r => dueTile s k m ++ dueTiles s (k + (elemsOf (activePlane m.2)).length) r

/-- Free values that the order of elements takes. -/
def elemCount (s : State) : Nat := (s.tiles.map fun m => (elemsOf (activePlane m.2)).length).foldl (· + ·) 0

/-- Every group of steps that is due in a cycle but the samples of quiescence. -/
def dueGroups (s : State) : List (List Turn) :=
  let one (l : List Turn) : List (List Turn) := l.map ([·])
  (dueTiles s s.fresh s.tiles) ++ one (s.wires.map fun w => .event (.tokenArrival w.tile w.port w.ch)) ++
    one (s.demands.map fun d => .event (.demandArrival d.tile d.port d.ch)) ++ (s.reqs.map (dueReq s)).filter (fun g => !g.isEmpty) ++
    one ((s.leases.map (dueLease s)).flatten) ++ one (dueModule s)

/-- The samples of quiescence, every 64 cycles and last in the cycle (R426). -/
def dueSamples (s : State) : List Turn :=
  if s.cycle % 64 = 0 then (s.leases.filter fun m => m.2.v).map fun m => .event (.quiescenceSample m.1) else []

/-- The agenda of a new cycle (log 82). -/
def dueTurns (s : State) : List Turn := (shuffle (dueGroups s).length (s.fresh + elemCount s) (dueGroups s)).flatten ++ dueSamples s

/-- One FCLK cycle. -/
def clockCycle (s : State) : State :=
  let s := journalFlush (s.leases.foldl (fun s m => writeDue s m.1) (ageState s))
  { s with agenda := s.agenda ++ dueTurns s, fresh := s.fresh + elemCount s + (dueGroups s).length }

end Sys2Proof.Machine
end

