-- ==== Sys2Proof/Machine/Dispatch.lean ====
section
/-! DEFINITION. The meaning of every instruction and event, one arm each. -/

namespace Sys2Proof.Machine

open Sys2Proof

/-- What an instruction does to the state. -/
def exec (i : Instr) (s : State) : Host.Outcome State Fault Refusal :=
  match i with
  | .mov f => Sys2Proof.Machine.execMov f s
  | .fan f => Sys2Proof.Machine.execFan f s
  | .steer f => Sys2Proof.Machine.execSteer f s
  | .merge f => Sys2Proof.Machine.execMerge f s
  | .mergep f => Sys2Proof.Machine.execMergep f s
  | .gate f => Sys2Proof.Machine.execGate f s
  | .drop f => Sys2Proof.Machine.execDrop f s
  | .carry f => Sys2Proof.Machine.execCarry f s
  | .invar f => Sys2Proof.Machine.execInvar f s
  | .count f => Sys2Proof.Machine.execCount f s
  | .rpt f => Sys2Proof.Machine.execRpt f s
  | .emitc f => Sys2Proof.Machine.execEmitc f s
  | .testc f => Sys2Proof.Machine.execTestc f s
  | .mark f => Sys2Proof.Machine.execMark f s
  | .strip f => Sys2Proof.Machine.execStrip f s
  | .bub f => Sys2Proof.Machine.execBub f s
  | .seqt f => Sys2Proof.Machine.execSeqt f s
  | .reord f => Sys2Proof.Machine.execReord f s
  | .intx f => Sys2Proof.Machine.execIntx f s
  | .union f => Sys2Proof.Machine.execUnion f s
  | .route f => Sys2Proof.Machine.execRoute f s
  | .add f => Sys2Proof.Machine.execAdd f s
  | .sub f => Sys2Proof.Machine.execSub f s
  | .mul f => Sys2Proof.Machine.execMul f s
  | .mulh f => Sys2Proof.Machine.execMulh f s
  | .mad f => Sys2Proof.Machine.execMad f s
  | .min f => Sys2Proof.Machine.execMin f s
  | .max f => Sys2Proof.Machine.execMax f s
  | .abs f => Sys2Proof.Machine.execAbs f s
  | .neg f => Sys2Proof.Machine.execNeg f s
  | .clamp f => Sys2Proof.Machine.execClamp f s
  | .and f => Sys2Proof.Machine.execAnd f s
  | .or f => Sys2Proof.Machine.execOr f s
  | .xor f => Sys2Proof.Machine.execXor f s
  | .andn f => Sys2Proof.Machine.execAndn f s
  | .not f => Sys2Proof.Machine.execNot f s
  | .shl f => Sys2Proof.Machine.execShl f s
  | .shr f => Sys2Proof.Machine.execShr f s
  | .sar f => Sys2Proof.Machine.execSar f s
  | .rot f => Sys2Proof.Machine.execRot f s
  | .clz f => Sys2Proof.Machine.execClz f s
  | .popc f => Sys2Proof.Machine.execPopc f s
  | .brev f => Sys2Proof.Machine.execBrev f s
  | .ext f => Sys2Proof.Machine.execExt f s
  | .ins f => Sys2Proof.Machine.execIns f s
  | .cmp f => Sys2Proof.Machine.execCmp f s
  | .sel f => Sys2Proof.Machine.execSel f s
  | .addr f => Sys2Proof.Machine.execAddr f s
  | .wid f => Sys2Proof.Machine.execWid f s
  | .lxy f => Sys2Proof.Machine.execLxy f s
  | .hash f => Sys2Proof.Machine.execHash f s
  | .fadd f => Sys2Proof.Machine.execFadd f s
  | .fsub f => Sys2Proof.Machine.execFsub f s
  | .fmul f => Sys2Proof.Machine.execFmul f s
  | .ffma f => Sys2Proof.Machine.execFfma f s
  | .fmin f => Sys2Proof.Machine.execFmin f s
  | .fmax f => Sys2Proof.Machine.execFmax f s
  | .fabs f => Sys2Proof.Machine.execFabs f s
  | .fneg f => Sys2Proof.Machine.execFneg f s
  | .fcmp f => Sys2Proof.Machine.execFcmp f s
  | .fscale f => Sys2Proof.Machine.execFscale f s
  | .fclass f => Sys2Proof.Machine.execFclass f s
  | .fexp2 f => Sys2Proof.Machine.execFexp2 f s
  | .flog2 f => Sys2Proof.Machine.execFlog2 f s
  | .frcp f => Sys2Proof.Machine.execFrcp f s
  | .frsq f => Sys2Proof.Machine.execFrsq f s
  | .fsqrt f => Sys2Proof.Machine.execFsqrt f s
  | .cvt f => Sys2Proof.Machine.execCvt f s
  | .cvtsr f => Sys2Proof.Machine.execCvtsr f s
  | .pkpx f => Sys2Proof.Machine.execPkpx f s
  | .mxq f => Sys2Proof.Machine.execMxq f s
  | .mxdq f => Sys2Proof.Machine.execMxdq f s
  | .amaxv f => Sys2Proof.Machine.execAmaxv f s
  | .lred f => Sys2Proof.Machine.execLred f s
  | .lscan f => Sys2Proof.Machine.execLscan f s
  | .lshuf f => Sys2Proof.Machine.execLshuf f s
  | .lbcast f => Sys2Proof.Machine.execLbcast f s
  | .lrot f => Sys2Proof.Machine.execLrot f s
  | .dot f => Sys2Proof.Machine.execDot f s
  | .aclr f => Sys2Proof.Machine.execAclr f s
  | .mma f => Sys2Proof.Machine.execMma f s
  | .mmaRing f => Sys2Proof.Machine.execMmaRing f s
  | .aaddv f => Sys2Proof.Machine.execAaddv f s
  | .aresc f => Sys2Proof.Machine.execAresc f s
  | .resolve f => Sys2Proof.Machine.execResolve f s
  | .acmp f => Sys2Proof.Machine.execAcmp f s
  | .acmpq f => Sys2Proof.Machine.execAcmpq f s
  | .aimg f => Sys2Proof.Machine.execAimg f s
  | .aldi f => Sys2Proof.Machine.execAldi f s
  | .astat f => Sys2Proof.Machine.execAstat f s
  | .aredl f => Sys2Proof.Machine.execAredl f s
  | .rroot f => Sys2Proof.Machine.execRroot f s
  | .xsort f => Sys2Proof.Machine.execXsort f s
  | .xmerge f => Sys2Proof.Machine.execXmerge f s
  | .ldt f => Sys2Proof.Machine.execLdt f s
  | .stt f => Sys2Proof.Machine.execStt f s
  | .lds f => Sys2Proof.Machine.execLds f s
  | .sts f => Sys2Proof.Machine.execSts f s
  | .ldsi f => Sys2Proof.Machine.execLdsi f s
  | .stsi f => Sys2Proof.Machine.execStsi f s
  | .feset f => Sys2Proof.Machine.execFeset f s
  | .feclr f => Sys2Proof.Machine.execFeclr f s
  | .prefw f => Sys2Proof.Machine.execPrefw f s
  | .aadd f => Sys2Proof.Machine.execAadd f s
  | .afadd f => Sys2Proof.Machine.execAfadd f s
  | .amin f => Sys2Proof.Machine.execAmin f s
  | .amax f => Sys2Proof.Machine.execAmax f s
  | .aand f => Sys2Proof.Machine.execAand f s
  | .aor f => Sys2Proof.Machine.execAor f s
  | .axor f => Sys2Proof.Machine.execAxor f s
  | .axch f => Sys2Proof.Machine.execAxch f s
  | .acas f => Sys2Proof.Machine.execAcas f s
  | .aincb f => Sys2Proof.Machine.execAincb f s
  | .fence f => Sys2Proof.Machine.execFence f s
  | .copy f => Sys2Proof.Machine.execCopy f s
  | .gath f => Sys2Proof.Machine.execGath f s
  | .scat f => Sys2Proof.Machine.execScat f s
  | .scata f => Sys2Proof.Machine.execScata f s
  | .coll f => Sys2Proof.Machine.execColl f s
  | .waitj f => Sys2Proof.Machine.execWaitj f s
  | .jstat f => Sys2Proof.Machine.execJstat f s
  | .win f => Sys2Proof.Machine.execWin f s
  | .winadv f => Sys2Proof.Machine.execWinadv f s
  | .rpush f => Sys2Proof.Machine.execRpush f s
  | .rpop f => Sys2Proof.Machine.execRpop f s
  | .rpopDisc f => Sys2Proof.Machine.execRpopDisc f s
  | .rstat f => Sys2Proof.Machine.execRstat f s
  | .rstatSet f => Sys2Proof.Machine.execRstatSet f s
  | .postc f => Sys2Proof.Machine.execPostc f s
  | .grow f => Sys2Proof.Machine.execGrow f s
  | .enq f => Sys2Proof.Machine.execEnq f s
  | .deq f => Sys2Proof.Machine.execDeq f s
  | .qstat f => Sys2Proof.Machine.execQstat f s
  | .fork f => Sys2Proof.Machine.execFork f s
  | .rdv f => Sys2Proof.Machine.execRdv f s
  | .bar f => Sys2Proof.Machine.execBar f s
  | .sig f => Sys2Proof.Machine.execSig f s
  | .snap f => Sys2Proof.Machine.execSnap f s
  | .plane f => Sys2Proof.Machine.execPlane f s
  | .await f => Sys2Proof.Machine.execAwait f s
  | .ndone f => Sys2Proof.Machine.execNdone f s
  | .nfail f => Sys2Proof.Machine.execNfail f s
  | .bwph f => Sys2Proof.Machine.execBwph f s
  | .bankpWake f => Sys2Proof.Machine.execBankpWake f s
  | .bankpDiscard f => Sys2Proof.Machine.execBankpDiscard f s
  | .bankpRelease f => Sys2Proof.Machine.execBankpRelease f s
  | .bankpStatus f => Sys2Proof.Machine.execBankpStatus f s
  | .trap f => Sys2Proof.Machine.execTrap f s
  | .brk f => Sys2Proof.Machine.execBrk f s
  | .asrt f => Sys2Proof.Machine.execAsrt f s
  | .halt f => Sys2Proof.Machine.execHalt f s
  | .rdid f => Sys2Proof.Machine.execRdid f s
  | .rdctr f => Sys2Proof.Machine.execRdctr f s
  | .trigr f => Sys2Proof.Machine.execTrigr f s
  | .alignedControlForward x => Sys2Proof.Machine.execAlignedControlForward x s
  | .poisonPropagate x => Sys2Proof.Machine.execPoisonPropagate x s
  | .switchConsume x => Sys2Proof.Machine.execSwitchConsume x s
  | .snapAlign x => Sys2Proof.Machine.execSnapAlign x s
  | .tokenArrival t p c => Sys2Proof.Machine.execTokenArrival t p c s
  | .demandArrival t p c => Sys2Proof.Machine.execDemandArrival t p c s
  | .reductionJoin t p c => Sys2Proof.Machine.execReductionJoin t p c s
  | .reachTokenEntry p c pay sb => Sys2Proof.Machine.execReachTokenEntry p c pay sb s
  | .meshPacketArrival k => Sys2Proof.Machine.execMeshPacketArrival k s
  | .px8UnpackBlock t p c => Sys2Proof.Machine.execPx8UnpackBlock t p c s
  | .readoutWord t acc => Sys2Proof.Machine.execReadoutWord t acc s
  | .sortChunkWord t acc => Sys2Proof.Machine.execSortChunkWord t acc s
  | .bankAccess k ix => Sys2Proof.Machine.execBankAccess k ix s
  | .feLoadRelease k => Sys2Proof.Machine.execFeLoadRelease k s
  | .feWatchdog k => Sys2Proof.Machine.execFeWatchdog k s
  | .translate k => Sys2Proof.Machine.execTranslate k s
  | .walk k => Sys2Proof.Machine.execWalk k s
  | .hbmRequestServe k ix => Sys2Proof.Machine.execHbmRequestServe k ix s
  | .replyDelivery k => Sys2Proof.Machine.execReplyDelivery k s
  | .landbDeliver t => Sys2Proof.Machine.execLandbDeliver t s
  | .jobAccept l => Sys2Proof.Machine.execJobAccept l s
  | .jobStart l j => Sys2Proof.Machine.execJobStart l j s
  | .jobComplete l j => Sys2Proof.Machine.execJobComplete l j s
  | .collStart l g => Sys2Proof.Machine.execCollStart l g s
  | .ringDeliveryLand k => Sys2Proof.Machine.execRingDeliveryLand k s
  | .windowFeed t w => Sys2Proof.Machine.execWindowFeed t w s
  | .enqArrival l => Sys2Proof.Machine.execEnqArrival l s
  | .contDequeue l sh => Sys2Proof.Machine.execContDequeue l sh s
  | .barrierArrival l => Sys2Proof.Machine.execBarrierArrival l s
  | .barRelease x => Sys2Proof.Machine.execBarRelease x s
  | .awaitResume x => Sys2Proof.Machine.execAwaitResume x s
  | .snapCapture t ix => Sys2Proof.Machine.execSnapCapture t ix s
  | .snapCaptureWritten t ix => Sys2Proof.Machine.execSnapCaptureWritten t ix s
  | .snapTimeout l ix => Sys2Proof.Machine.execSnapTimeout l ix s
  | .segmentComplete t => Sys2Proof.Machine.execSegmentComplete t s
  | .switchDelivery t => Sys2Proof.Machine.execSwitchDelivery t s
  | .castling t => Sys2Proof.Machine.execCastling t s
  | .checkPass l g n => Sys2Proof.Machine.execCheckPass l g n s
  | .copyPassPattern l r => Sys2Proof.Machine.execCopyPassPattern l r s
  | .patternArrived t => Sys2Proof.Machine.execPatternArrived t s
  | .dispatch l => Sys2Proof.Machine.execDispatch l s
  | .trackArm l g n => Sys2Proof.Machine.execTrackArm l g n s
  | .edgeToken l => Sys2Proof.Machine.execEdgeToken l s
  | .nodeRetry l g n => Sys2Proof.Machine.execNodeRetry l g n s
  | .stopRecordsWrite l => Sys2Proof.Machine.execStopRecordsWrite l s
  | .policyApply l => Sys2Proof.Machine.execPolicyApply l s
  | .mgmtAnswer l g n ok => Sys2Proof.Machine.execMgmtAnswer l g n ok s
  | .quiescenceSample l => Sys2Proof.Machine.execQuiescenceSample l s
  | .qbndExpiry l => Sys2Proof.Machine.execQbndExpiry l s
  | .freezeScanDone l r => Sys2Proof.Machine.execFreezeScanDone l r s
  | .haltTimeout l => Sys2Proof.Machine.execHaltTimeout l s
  | .removalComplete l => Sys2Proof.Machine.execRemovalComplete l s
  | .moveDrained => Sys2Proof.Machine.execMoveDrained s
  | .moveDrainTimeout => Sys2Proof.Machine.execMoveDrainTimeout s
  | .moveCopyDone => Sys2Proof.Machine.execMoveCopyDone s
  | .bankDrowse t b => Sys2Proof.Machine.execBankDrowse t b s
  | .bankSbcLimit t => Sys2Proof.Machine.execBankSbcLimit t s
  | .bankWakeDone t b => Sys2Proof.Machine.execBankWakeDone t b s
  | .bankGrantScrubDone t b => Sys2Proof.Machine.execBankGrantScrubDone t b s
  | .bankDrained t => Sys2Proof.Machine.execBankDrained t s
  | .bankDrainTimeout t => Sys2Proof.Machine.execBankDrainTimeout t s
  | .patrolScrub t b => Sys2Proof.Machine.execPatrolScrub t b s
  | .tileUncorrectable t d => Sys2Proof.Machine.execTileUncorrectable t d s
  | .sharedUncorrectable ix k => Sys2Proof.Machine.execSharedUncorrectable ix k s
  | .lstlDeltaSend t => Sys2Proof.Machine.execLstlDeltaSend t s
  | .arbiterCommandRead pf r => Sys2Proof.Machine.execArbiterCommandRead pf r s
  | .psubTake => Sys2Proof.Machine.execPsubTake s
  | .psubForeignWrite v => Sys2Proof.Machine.execPsubForeignWrite v s
  | .completionWrite pf => Sys2Proof.Machine.execCompletionWrite pf s
  | .noticeMerge pf n => Sys2Proof.Machine.execNoticeMerge pf n s
  | .rtailDoorbell pf r v => Sys2Proof.Machine.execRtailDoorbell pf r v s
  | .registerWrite pf r v => Sys2Proof.Machine.execRegisterWrite pf r v s
  | .glaunch c => Sys2Proof.Machine.execGlaunch c s
  | .gcancel c => Sys2Proof.Machine.execGcancel c s
  | .resumeCone c => Sys2Proof.Machine.execResumeCone c s
  | .nodedone c => Sys2Proof.Machine.execNodedone c s
  | .continueNode c => Sys2Proof.Machine.execContinueNode c s
  | .pfresolve c => Sys2Proof.Machine.execPfresolve c s
  | .pfdecline c => Sys2Proof.Machine.execPfdecline c s
  | .tlbinv c => Sys2Proof.Machine.execTlbinv c s
  | .harvest c => Sys2Proof.Machine.execHarvest c s
  | .evictq c => Sys2Proof.Machine.execEvictq c s
  | .qcreate c => Sys2Proof.Machine.execQcreate c s
  | .qdestroy c => Sys2Proof.Machine.execQdestroy c s
  | .qswap c => Sys2Proof.Machine.execQswap c s
  | .qload c => Sys2Proof.Machine.execQload c s
  | .jstatus c => Sys2Proof.Machine.execJstatus c s
  | .bind c => Sys2Proof.Machine.execBind c s
  | .rebind c => Sys2Proof.Machine.execRebind c s
  | .move c => Sys2Proof.Machine.execMove c s
  | .preempt c => Sys2Proof.Machine.execPreempt c s
  | .resume c => Sys2Proof.Machine.execResume c s
  | .remove c => Sys2Proof.Machine.execRemove c s
  | .allow c => Sys2Proof.Machine.execAllow c s
  | .fotset c => Sys2Proof.Machine.execFotset c s
  | .frameDrainedScrub sk fr => Sys2Proof.Machine.execFrameDrainedScrub sk fr s
  | .pfreset c => Sys2Proof.Machine.execPfreset c s
  | .pfFlr pf => Sys2Proof.Machine.execPfFlr pf s
  | .portLinkDown p => Sys2Proof.Machine.execPortLinkDown p s
  | .portLinkUp p => Sys2Proof.Machine.execPortLinkUp p s
  | .lockInterface pf => Sys2Proof.Machine.execLockInterface pf s
  | .startInterface pf => Sys2Proof.Machine.execStartInterface pf s
  | .stopInterface pf => Sys2Proof.Machine.execStopInterface pf s
  | .getDeviceInterfaceReport pf => Sys2Proof.Machine.execGetDeviceInterfaceReport pf s
  | .keySet pf key => Sys2Proof.Machine.execKeySet pf key s
  | .keyClear pf => Sys2Proof.Machine.execKeyClear pf s
  | .spdmMessage pf ix => Sys2Proof.Machine.execSpdmMessage pf ix s
  | .ideKm p ix => Sys2Proof.Machine.execIdeKm p ix s
  | .pldmFirmwareUpdate ix img => Sys2Proof.Machine.execPldmFirmwareUpdate ix img s
  | .moduleReset => Sys2Proof.Machine.execModuleReset s
  | .dieJoin d ok => Sys2Proof.Machine.execDieJoin d ok s
  | .throttleEnter d => Sys2Proof.Machine.execThrottleEnter d s
  | .mctrRefresh temps power amps => Sys2Proof.Machine.execMctrRefresh temps power amps s
  | .rangeRequestIssue x => Sys2Proof.Machine.execRangeRequestIssue x s
  | .hostMemoryRequest k a => Sys2Proof.Machine.execHostMemoryRequest k a s
  | .throttleExit d => Sys2Proof.Machine.execThrottleExit d s

end Sys2Proof.Machine
end

