-- ==== Sys2Proof/Machine/Step.lean ====
section
/-! DEFINITION. One step of the module (log 1): the first turn of the agenda, or a clock cycle when the agenda is empty. -/

namespace Sys2Proof.Machine

open Sys2Proof

/-- The word in a slot of the active plane of a tile. -/
def fetchWord (s : State) (x : Site) : Option (BitVec 64) := (elemIn (activePlane (tileAt s x.tile)) x.eng x.slot).map (·.word)

/-- A turn of an element: its word is decoded and its instruction has its effect. A slot that holds no element has no turn to take. -/
def elemTurn (s : State) (x : Site) : Host.Outcome State Fault Refusal :=
  match fetchWord s x with
  | none => .next s
  | some w =>
    match decode w with
    | .ok i => if WellFormed.wellFormedOn x.eng i then exec i { s with cur := x } else .refused (.notAnInstruction w)
    | .error _ => .refused (.notAnInstruction w)

/-- One step. A turn that met host memory behind a link that is down is taken back (R490). -/
def step (s : State) : Host.Outcome State Fault Refusal :=
  match s.agenda with
  | [] => .next (clockCycle s)
  | .clock :: r => .next (clockCycle { s with agenda := r })
  | .elem x :: r => taken { s with agenda := r } none (elemTurn { s with agenda := r } x)
  | .event i :: r => taken { s with agenda := r } (cmdOf i) (exec i { s with agenda := r })

/-- The engine on which withFetchWord places a word: one of those that Table 2.13 gives its opcode. -/
def fetchEngine (w : BitVec 64) : Nat :=
  let o := w.toNat / 2 ^ 56
  if 0x80 ≤ o ∧ o ≤ 0x91 then 2
  else if (0xC0 ≤ o ∧ o ≤ 0xC8) ∨ o = 0xE0 ∨ o = 0xE5 ∨ o = 0xE9 ∨ o = 0xEA then 0
  else 1

/-- The state with a word in slot 0 of the active plane of tile 0 of a live lease 0, and its turn at the head of the agenda: what a load
leaves behind (log 17). -/
def State.withFetchWord (s : State) (nbits w : Nat) : State :=
  let word := BitVec.ofNat 64 (w % 2 ^ nbits)
  let e := fetchEngine word
  let t := tileAt s 0
  let p := withBlock { activePlane t with pst := .active, inSeg := true } e { elems := [{ word := word, due := true }] }
  let l := leaseAt s 0
  { s with
    tiles := s.tiles.put 0 (withPlane { t with tten := 1, tlease := 0 } t.planeB p)
    leases := s.leases.put 0 { l with v := true, lstate := .active, rcd := { l.rcd with tenid := 1 } }
    agenda := .elem ⟨0, e, 0⟩ :: s.agenda }

end Sys2Proof.Machine
end

