-- ==== Sys2Proof/Safety.lean ====
section
/-! DEFINITION. What a state of a safe run satisfies, in the terms that the statements use. -/

namespace Sys2Proof.Safety

open Sys2Proof Sys2Proof.Machine

/-! ### Memories -/

/-- A list of granules is in order, without repeats. -/
def Rising : Nat → List Nat → Bool
  | _, [] => true
  | lo, g :: r => decide (lo ≤ g) && Rising (g + 1) r

/-- The memories keep their canonical form (log 3): main memory and scratch, and the list of full granules. -/
def memoriesCanonical (s : State) : Bool := Memory.wf s.mem && Memory.wf s.scratch && Rising 0 s.feb

/-! ### An element that fires -/

/-- The element at `s.cur` has its turn, as `c` sees it (R212, R440, R469): its lease runs, its plane is active and in a segment, nothing suspends
its block, no SNAP of an abandoned snapshot stands at a head, and no move holds its requests. -/
def HasTurn (i : Instr) (f : Fields) (s : State) (c : Ctx) : Prop :=
  ctxAt s s.cur i f = some c ∧ mayFire s c = true ∧ deadSnaps c = [] ∧ (c.t.hold && asksReply i) = false

/-- The firing rules of R107 to R109 and R213 hold: a token operand has a data token at its head, an element without token operands fires as an
entry slot, the predicate lets it execute, and the sidebands agree (R108). -/
def MayExecute (c : Ctx) : Prop :=
  (∀ o ∈ c.ops, ∃ t, c.head o = some t ∧ isCtl t = false) ∧ (c.ops = [] → c.e.due = true) ∧ predOff c = false ∧ c.sbClash = false

/-- The element holds a demand for each emission of a list (R212). -/
def HoldsDemands (c : Ctx) (l : List (Nat × Target)) : Prop := hasDemands c.p c.x c.e l = true

/-- An element that takes its turn, may execute and holds the demands of its targets. -/
def Fires (i : Instr) (f : Fields) (s : State) (c : Ctx) : Prop := HasTurn i f s c ∧ MayExecute c ∧ HoldsDemands c c.outs

/-- The state after a firing that consumes its operands, puts `w` on every target of the firing with the sideband of R108, and writes S under
WS. What `commit` does is stated by the obligations about it. -/
def firedWord (s : State) (c : Ctx) (w : Word) (ws : Bool) : State :=
  commit s c { emits := emitAll c w, take := c.ops, s := if ws then some w else none }

/-- No lane raises a floating exception that the lease enables (R138). -/
def NoException (c : Ctx) (fls : List (Nat × BitVec 5)) : Prop := enabledLane c.l.rcd.fpen fls = none

/-- The instructions whose firing is decided by the common rules alone (R107 to R109, R212, R213) and that emit to each of their targets. -/
def plainInstrs : List (Fields → Instr) :=
  [.mov, .fan, .steer, .emitc, .mark, .bub, .seqt, .add, .sub, .mul, .mulh, .mad, .min, .max, .abs, .neg, .clamp, .and, .or, .xor, .andn, .not,
   .shl, .shr, .sar, .rot, .clz, .popc, .brev, .ext, .ins, .cmp, .sel, .addr, .wid, .lxy, .hash, .fadd, .fsub, .fmul, .ffma, .fmin, .fmax, .fabs,
   .fneg, .fcmp, .fscale, .fclass, .fexp2, .flog2, .frcp, .frsq, .fsqrt, .cvt, .cvtsr, .mxq, .mxdq, .amaxv, .lred, .lscan, .lshuf, .lbcast,
   .lrot, .dot]

/-- Every token operand holds a data token at its head. -/
def AllData (c : Ctx) : Prop := ∀ o ∈ c.ops, ∃ t, c.head o = some t ∧ isCtl t = false

/-- The registers of an element that a firing of another element, or a token for it, leaves alone (Tables 5.1, 11.1 and 14.1). -/
def sameRegs (a b : Elem) : Prop :=
  a.word = b.word ∧ a.k0 = b.k0 ∧ a.k1 = b.k1 ∧ a.s = b.s ∧ a.sInit = b.sInit ∧ a.nf = b.nf ∧ a.lfsr = b.lfsr ∧ a.fflg = b.fflg ∧ a.rbkt = b.rbkt ∧
  a.rqp = b.rqp ∧ a.outs = b.outs ∧ a.awst = b.awst ∧ a.bar = b.bar

/-- Two leases agree but for the event counters and what threshold registers make of them (R444, R449). -/
def sameButCounters (a b : Lease) : Prop := { a with evc := b.evc, txc := b.txc, thr := b.thr } = b

/-! ### Results -/

/-- Every firing of an instruction puts one word on each of its targets, and into S where `ws` says so; `P` tells of each lane of the word. -/
def LanesAre (mk : Fields → Instr) (ws : Fields → Bool) (P : Fields → Ctx → Nat → Nat → Prop) : Prop :=
  ∀ f s c, Fires (mk f) f s c → ∃ w, exec (mk f) s = .next (firedWord s c w (ws f)) ∧
    ∀ j, j < 512 / tyBits f.typ → P f c j (lane (tyBits f.typ) w j)

/-- Lane j of operands A, B (or the immediate under IMB in MOD[0]), B itself, and C, under the lanes of TYP (R106, R111). -/
def la (f : Fields) (c : Ctx) (j : Nat) : Nat := lane (tyBits f.typ) (c.va (tyBits f.typ)) j
def lbi (f : Fields) (c : Ctx) (j : Nat) : Nat := lane (tyBits f.typ) (c.vbi (tyBits f.typ) (f.md.getLsbD 0)) j
def lb (f : Fields) (c : Ctx) (j : Nat) : Nat := lane (tyBits f.typ) (c.vb (tyBits f.typ)) j
def lc (f : Fields) (c : Ctx) (j : Nat) : Nat := lane (tyBits f.typ) (c.vc (tyBits f.typ)) j

/-- A lane as a number, signed for an I type (R81). -/
def num (f : Fields) (v : Nat) : Int := rd (tySigned f.typ) (tyBits f.typ) v

/-- The lane `v` is the exact result `x` narrowed under R111: clamped to the range of the type under SAT, its low bits otherwise. -/
def Narrowed (f : Fields) (sat : Bool) (x : Int) (v : Nat) : Prop :=
  let n := tyBits f.typ
  let lo : Int := if tySigned f.typ then -2 ^ (n - 1) else 0
  let hi : Int := if tySigned f.typ then 2 ^ (n - 1) - 1 else 2 ^ n - 1
  v < 2 ^ n ∧ if sat then num f v = max lo (min hi x) else (v : Int) = x % 2 ^ n

/-- The turn fires with the effects `e` once every demand is held, and waits under no-demand until then (R212). -/
def Does (i : Instr) (s : State) (c : Ctx) (e : Eff) : Prop :=
  (HoldsDemands c e.needs → exec i s = .next (commit s c e)) ∧ (¬HoldsDemands c e.needs → exec i s = .next (setWait s c (some .noDemand)))

/-- The turn does nothing but note what the element waits on. -/
def Waits (i : Instr) (s : State) (c : Ctx) (w : Option Stall) : Prop := exec i s = .next (setWait s c w)

/-- POISON of a cause to every target of the element (R211). -/
def poisons (c : Ctx) (cause : Nat) : List (Nat × Target × Token) := toAll c (poisonTok cause c.ti)

/-- The flags that lanes raise, lane j being one of `k` and raising `raised j`; a lane that raises none is not listed. -/
def FlagsOf (fls : List (Nat × BitVec 5)) (k : Nat) (raised : Nat → BitVec 5) : Prop :=
  ∀ j fl, (j, fl) ∈ fls ↔ j < k ∧ fl = raised j ∧ fl ≠ 0

/-- Lane j of `k` raises a flag that the lease enables, and no lane below it does (R138). -/
def FirstException (c : Ctx) (k : Nat) (raised : Nat → BitVec 5) (j : Nat) : Prop :=
  j < k ∧ raised j &&& c.l.rcd.fpen ≠ 0 ∧ ∀ i, i < j → raised i &&& c.l.rcd.fpen = 0

/-- A firing whose `k` lanes raise `raised` completes where FPEN enables none of their flags: it has the effects that `P` tells of, with these
flags. Where a lane raises an enabled flag it traps instead, with the flags and the lowest such lane (R138). -/
def CompletesUnlessTrapped (i : Instr) (s : State) (c : Ctx) (k : Nat) (raised : Nat → BitVec 5) (P : List (Nat × BitVec 5) → Eff → Prop) : Prop :=
  ((∀ j, j < k → raised j &&& c.l.rcd.fpen = 0) → ∃ fls e, FlagsOf fls k raised ∧ P fls e ∧ exec i s = .next (commit s c e)) ∧
  ∀ j, FirstException c k raised j → ∃ fls, FlagsOf fls k raised ∧
    exec i s = .next (trapAt s c cFpException none (payload3 (allFlags fls).toNat j 0) c.e.fflg)

/-- A firing rounds `k` result lanes of `n` bits, lane j being `out j` (R137 to R139): it completes unless a lane raises an enabled flag; the lanes
leave on each target, and go into S under `ws`; their flags are OR-ed into FFLG; `lf` is the LFSR afterwards, if the firing draws. -/
def RoundsTo (i : Instr) (s : State) (c : Ctx) (n k : Nat) (lf : Option (BitVec 32)) (ws : Bool) (out : Nat → Fr) : Prop :=
  CompletesUnlessTrapped i s c k (fun j => (out j).fl) fun fls e => ∃ w, (∀ j, j < 512 / n → lane n w j = if j < k then (out j).bits % 2 ^ n else 0) ∧
    e = { emits := emitAll c w, take := c.ops, s := if ws then some w else none, fls := fls, lfsr := lf }

/-- The random number of lane j among `k` (R88). -/
def rk (c : Ctx) (k j : Nat) : Nat := ((drawn c (rndF c.f) k).1[j]?).getD 0

/-- The LFSR after a firing that rounds `k` lanes. -/
def lfAfter (c : Ctx) (k : Nat) : Option (BitVec 32) := (drawn c (rndF c.f) k).2

/-- Every firing of an instruction rounds the lanes of TYP, each the function `g` of the lanes of A, B and C under RND and SAT. -/
def FloatLanes (mk : Fields → Instr) (g : Fmt → Rnd → Bool → Nat → Nat → Nat → Nat → Fr) : Prop :=
  ∀ f s c, Fires (mk f) f s c →
    let n := tyBits f.typ
    RoundsTo (mk f) s c n (512 / n) (lfAfter c (512 / n)) (wsOf f) fun j =>
      g (fmtOf f.typ) (rndF f) (satF f) (rk c (512 / n) j) (la f c j) (lb f c j) (lc f c j)

/-- The LFSR after some steps (R87). -/
def lfsrAfter : Nat → BitVec 32 → BitVec 32
  | 0, v => v
  | n + 1, v => lfsrAfter n (lfsrStep v).2

/-- A finite number is a bit pattern of the format, the magnitude m * 2^e under its sign. -/
def Represents (m : Fmt) (v : Nat) (x : Dy) : Prop := ∃ n k e, unpack m v = .fin n k e ∧ toDy n k e = x

/-- `x` is at most `y`, exactly. -/
def dyLe (x y : Dy) : Prop := cmpDy x y ≠ .gt

/-! ### Accumulators -/

/-- The listed cells of a set are in order and within its 1,024 (Table 7.1). -/
def cellsOk (a : AccSet) : Prop := Rising 0 (a.cells.map (·.1)) = true ∧ ∀ m ∈ a.cells, m.1 < 1024

/-- A cell of a set; one that is not listed has its reset value. -/
def cellOf (a : AccSet) (k : Nat) : Cell := a.cells.get k {}

/-- The set that an instruction names by ASEL. -/
def setOf (c : Ctx) : AccSet := accOf c.p (asel c)

/-- The state with that set replaced. -/
def setAcc (c : Ctx) (a : AccSet) (u : State) : State := modPlane u c.x.tile c.b fun p => withAcc p (asel c) a

/-- One step of a set: every cell takes its contribution, and the 64th step since the last settle settles every cell (R166, R167). -/
def StepsTo (p : Nat → Contrib) (a a' : AccSet) : Prop :=
  cellsOk a' ∧ (∀ k, k < 1024 → cellOf a' k = if a.scnt = 63 then settleCell (stepCell (p k) (cellOf a k)) else stepCell (p k) (cellOf a k)) ∧
  a'.scnt = a.scnt + 1 ∧ a'.rdo = a.rdo ∧ a'.sort = a.sort

/-- The state after a step of a set: SCNT counts, the cycles of anchor raises hold the engine (R166, R167), and a raise is counted (Table 16.3). -/
def Stepped (c : Ctx) (p : Nat → Contrib) (a a' : AccSet) (u t : State) : Prop :=
  StepsTo p a a' ∧ ∃ n, ∃ ev : Bool, (n = 0 ∨ n = 3 ∨ n = 6) ∧
    t = if ev then countEvent (holdRaise c n (setAcc c a' u)) c.lid 10 1 else holdRaise c n (setAcc c a' u)

/-! ### Memory and requests -/

/-- The banks of some offsets of the element's own slice are granted, serve, and do not drain (R279). -/
def BanksServe (c : Ctx) (offs : List Nat) : Prop :=
  ∀ o ∈ offs, granted c.t (bankOf o) = true ∧ bankReady c.t (bankOf o) = true ∧ ∀ d, c.t.drain = some d → d.mask.getLsbD (bankOf o) = false

/-- Bytes outside a range of scratch, and all of main memory, are as before. -/
def scratchBut (s t : State) (lo n : Nat) : Prop :=
  t.mem = s.mem ∧ ∀ a, a < lo ∨ lo + n ≤ a → Memory.read t.scratch a = Memory.read s.scratch a

/-- The memories and full-empty bits of two states are the same. -/
def sameMemory (s t : State) : Prop := t.mem = s.mem ∧ t.scratch = s.scratch ∧ t.feb = s.feb

/-- The pieces of a request are the bytes 0 to n - 1 of its word, byte k at address `addr k`. -/
def Covers (ps : List Piece) (addr : Nat → Nat) (n : Nat) : Prop :=
  (∀ p ∈ ps, ∀ i, i < p.len → p.pos + i < n ∧ p.addr + i = addr (p.pos + i)) ∧ ∀ k, k < n → ∃ p ∈ ps, p.pos ≤ k ∧ k < p.pos + p.len

/-- A request of the element of a context, to be answered at the targets of its firing (R312). -/
def Asks (c : Ctx) (r : Req) (op : ReqOp) : Prop :=
  r.lease = c.lid ∧ r.ten = c.l.rcd.tenid.toNat ∧ r.who = c.x ∧ r.plane = c.b ∧ r.epoch = c.p.mepoch ∧ r.op = op ∧ r.all = r.rest ∧
  r.dest = .targets (c.outs.map (·.1)) c.sb ∧ r.err = none ∧ r.counted = true ∧ r.got = 0 ∧ r.waitFe = false

/-- The same over scratch: at home when every piece lies in the element's own slice, on the mesh otherwise (R276). -/
def AsksScratch (c : Ctx) (r : Req) (op : ReqOp) : Prop :=
  Asks c r op ∧ (∀ p ∈ r.rest, p.sp = .scr) ∧ ((∀ p ∈ r.rest, p.addr / 2 ^ 20 = c.ti) → r.phase = .home) ∧
  ((∃ p ∈ r.rest, p.addr / 2 ^ 20 ≠ c.ti) → r.phase = .mesh)

/-- A firing issues a request that `P` tells of: its heads are consumed, the demands of its targets are used, and OUTS counts it. With 16 requests in
flight it waits (R312). -/
def Issues (i : Instr) (s : State) (c : Ctx) (w : Stall) (P : Req → Prop) : Prop :=
  (16 ≤ c.e.outs.toNat → Waits i s c (some w)) ∧
  (c.e.outs.toNat < 16 → ∃ r, P r ∧ exec i s = .next (issueReq (commit s c { take := c.ops, reserve := c.outs }) r))

/-- A firing traps with a memory cause and the address that met it (Table 15.5). -/
def MemTraps (i : Instr) (s : State) (c : Ctx) (cause addr tid : Nat) : Prop :=
  exec i s = .next (trapAt s c cause none (payload3 addr tid 0) c.e.fflg)

/-- A scratch address names a byte of the lease (Table 11.4). -/
def InLease (c : Ctx) (a : Nat) : Prop := a < 2 ^ 34 ∧ a / 2 ^ 20 < leaseW c.l.rcd * leaseH c.l.rcd

/-- Byte k of a word. -/
def byteOf (w : Word) (k : Nat) : Nat := lane 8 w k

end Sys2Proof.Safety
end

