-- ==== Sys2Proof/Certificates/Slice0/Obligations.lean ====
section
/-! DEFINITION. The statements about the model, each a rule of the spec or resting on some. -/

open Sys2Proof Sys2Proof.Machine Sys2Proof.Safety

/-! ### Encoding -/

/-- Words that the spec works out by hand decode to the instructions they stand for (R45 to R48, R123, R141, R235, R316, R408, R452), and the
reserved opcode 0x1A is refused (R54). -/
def Obligations.DecodeWords : Prop :=
  let f (typ : Ty) (md : BitVec 6) (a b c : Src) (out : OutMode) (imm : BitVec 16) (t1 t0 : Target) : Fields :=
    { typ := typ, md := md, a := a, b := b, c := c, prd := .always, out := out, imm := imm, t1 := t1, t0 := t0 }
  let z : Target := .elem 0 .a
  decode 0x42A0041000000014 = .ok (.fmul (f .bf16 0 .tok .k0 .tok .one 0 z (.elem 5 .a))) ∧
  decode 0x3281041000400250 = .ok (.addr (f .n64 4 .tok .k0 .tok .one 4 z (.port 1 2 0))) ∧
  decode 0x439201100000001D = .ok (.ffma (f .fp32 8 .tok .tok .k0 .one 0 z (.elem 7 .b))) ∧
  decode 0x84A8001001F00240 = .ok (.resolve (f .bf16 32 .tok .tok .tok .one 0x1F z (.port 1 0 0))) ∧
  decode 0x0E70042000703240 = .ok (.route (f .n32 0 .tok .k0 .tok .two 7 (.elem 3 .a) (.port 1 0 0))) ∧
  decode 0xA000300009000000 = .ok (.ldt (f .x 0 .s .tok .tok .none 0x90 z z)) ∧
  decode 0xB771C41000000248 = .ok (.axch (f .n32 7 .tok .k0 .tok .one 0 z (.port 1 1 0))) ∧
  decode 0xE201041000500248 = .ok (.bar (f .x 4 .tok .k0 .tok .one 5 z (.port 1 1 0))) ∧
  decode 0xF600301000200240 = .ok (.trigr (f .x 0 .s .tok .tok .one 2 z (.port 1 0 0))) ∧
  decode 0xD000001000300380 = .ok (.rpush (f .x 0 .tok .tok .tok .one 3 z (.port 6 0 0))) ∧
  decode 0x1A30000000000000 = .error .opcReserved

/-- Decoding the word of any well-formed element instruction gives it back, with every operand and field. -/
def Obligations.DecodeEncode : Prop :=
  ∀ i, WellFormed.wellFormed i = true → ∃ w, encode i = some w ∧ decode w = .ok i

/-- A word has one meaning: what a word decodes to encodes to that word again, so no bit is ignored, and a word that decodes to nothing has an
opcode that Table 2.12 reserves. -/
def Obligations.WordsHaveOneMeaning : Prop :=
  (∀ w i, decode w = .ok i → encode i = some w) ∧
  ∀ w e, decode w = .error e → ∀ i, WellFormed.opcOf i ≠ some (w.toNat / 2 ^ 56)

/-! ### A step -/

/-- A step takes the first turn of the agenda: an element's turn runs the instruction that its word decodes to, at the element's site (R107,
R440); an event is carried out; and with the agenda empty the clock advances by one cycle (log 1). A turn that met host memory behind a link that
is down is taken back, a command into its line (R490, the model's reading, log 108). -/
def Obligations.StepRunsTheTurn : Prop :=
  (∀ s x r w i t, s.agenda = .elem x :: r → fetchWord s x = some w → decode w = .ok i → WellFormed.wellFormedOn x.eng i = true →
    exec i { s with agenda := r, cur := x } = .next t →
    (t.linkHeld = false → step s = .next t) ∧ (t.linkHeld = true → step s = .next { s with agenda := r })) ∧
  (∀ s i r t, s.agenda = .event i :: r → exec i { s with agenda := r } = .next t →
    (t.linkHeld = false → step s = .next t) ∧
    (t.linkHeld = true → (∀ c, cmdOf i = some c → step s = .next (waitCmd { s with agenda := r } c)) ∧
      (cmdOf i = none → step s = .next { s with agenda := r }))) ∧
  (∀ s r, s.agenda = .clock :: r → step s = .next (clockCycle { s with agenda := r })) ∧
  (∀ s, s.agenda = [] → step s = .next (clockCycle s) ∧ (clockCycle s).cycle = s.cycle + 1)

/-- No element's turn and no event stops the machine: wherever an element stands, its turn leads to a next state, and so does every event,
whatever the state holds. -/
def Obligations.NothingStops : Prop :=
  (∀ i f s, WellFormed.instrFields i = some f → (fetchWord s s.cur).isSome = true → ∃ t, exec i s = .next t) ∧
  ∀ i s, WellFormed.instrFields i = none → ∃ t, exec i s = .next t

/-! ### Reset -/

/-- The inventory tables of the spec: after reset every tile stands as Table 5.2 and Table 11.1 say (plane A active, both planes EMPTY, no
lease, no bank granted, every bank OFF with its full-empty bits 0), every element would begin with NF and FFLG 0, every lease slot has V = 0
and LSTATE FREE, no frame has an owner other than 63 FREE (R356), PSUB is 0, the journal is empty with JHEAD 0 (R251), every PF's ring
registers are 0 (Table 22.1), MCTR and TICK are 0 and the module stands in stage 0 (R439, R498). -/
def Obligations.ResetValues : Prop :=
  let s := State.reset
  (∀ t, (tileAt s t).planeB = false ∧ (tileAt s t).pa.pst = .empty ∧ (tileAt s t).pb.pst = .empty ∧ (tileAt s t).tlease = 0 ∧
    (tileAt s t).tten = 0 ∧ (tileAt s t).bankg = 0 ∧ (tileAt s t).landb = [] ∧ (tileAt s t).swf = 0 ∧
    ∀ b, (tileAt s t).bpm.get b .off = .off) ∧
  (∀ g, febAt s.feb g = false) ∧
  (∀ l, (leaseAt s l).v = false ∧ (leaseAt s l).lstate = .free ∧ (leaseAt s l).hline = false ∧ (leaseAt s l).sseq = 0 ∧
    (∀ k, (leaseAt s l).evc.get k 0 = 0 ∧ (leaseAt s l).lstl.get k 0 = 0 ∧ (leaseAt s l).lcyc.get k 0 = 0 ∧ (leaseAt s l).ifa.get k 0 = 0) ∧
    ∀ q, ((leaseAt s l).queues.get q {}).v = false ∧ ((leaseAt s l).queues.get q {}).gen = 1) ∧
  (∀ k fr, fotOf s k fr = 63) ∧ s.psub = 0 ∧ s.journal = [] ∧ s.jhead = 0 ∧
  (∀ p r, ((s.pfs.get p {}).rbase.get r 0 = 0) ∧ ((s.pfs.get p {}).rctl.get r 0 = 0) ∧ ((s.pfs.get p {}).rtail.get r 0 = 0) ∧
    ((s.pfs.get p {}).rhead.get r 0 = 0)) ∧
  (∀ k, s.mctr.get k 0 = 0) ∧ s.tick = 0 ∧ s.stage = 0

/-- After reset the memories have their canonical form (log 3), and no lease runs, so no element fires: a program runs once one is loaded from
outside (log 17). -/
def Obligations.ResetIsQuiet : Prop :=
  memoriesCanonical State.reset = true ∧ State.reset.agenda = [] ∧ ∀ t, tileRuns State.reset t = false

/-- The memories keep their canonical form at every step, whatever the step is: entries in order, none equal to what an unlisted byte reads
(log 3), full-empty bits in order without repeats. -/
def Obligations.StepKeepsMemoriesCanonical : Prop :=
  ∀ s s', memoriesCanonical s = true → step s = .next s' → memoriesCanonical s' = true

/-- A write to memory is read back, and no other byte changes (R4). -/
def Obligations.MemoryReadsWhatWasWritten : Prop :=
  ∀ m a n v, Memory.wf m = true →
    Memory.wf (Memory.writeN m n a v) = true ∧ Memory.readN (Memory.writeN m n a v) n a = v % 256 ^ n ∧
    ∀ x, x < a ∨ a + n ≤ x → Memory.read (Memory.writeN m n a v) x = Memory.read m x

/-! ### Firing -/

/-- R107 to R109, R212, R213, for each instruction without firing rules of its own. Predicated off, the firing consumes its heads and does
nothing else. Operands with different sidebands give POISON of cause 1 on each target. Without a demand on every target the element waits
under no-demand, with a head missing beside one that is held it waits under no-input; and with no head at all, or as an element without token
operands that has no entry firing to make, it is idle. A control token at a head is left to the steps for control tokens (R224). -/
def Obligations.FiringRules : Prop :=
  ∀ mk ∈ plainInstrs, ∀ f s c, HasTurn (mk f) f s c →
    (c.ops ≠ [] → AllData c → predOff c = true → exec (mk f) s = .next (commit s c { take := c.ops, nf := false })) ∧
    (c.ops ≠ [] → AllData c → predOff c = false → c.sbClash = true → HoldsDemands c c.outs →
      exec (mk f) s = .next (commit s c { emits := c.outs.map fun m => (m.1, m.2, poisonTok 1 c.ti), take := c.ops, nf := false, poison := 1 })) ∧
    (c.ops ≠ [] → AllData c → predOff c = false → ¬HoldsDemands c c.outs → exec (mk f) s = .next (setWait s c (some .noDemand))) ∧
    (c.ops = [] → c.e.due = true → ¬HoldsDemands c c.outs → exec (mk f) s = .next (setWait s c (some .noDemand))) ∧
    ((∀ o ∈ c.ops, ∀ t, c.head o = some t → isCtl t = false) → (∃ o ∈ c.ops, (c.head o).isSome) → (∃ o ∈ c.ops, c.head o = none) →
      exec (mk f) s = .next (setWait s c (some .noInput))) ∧
    (c.ops ≠ [] → (∀ o ∈ c.ops, c.head o = none) → exec (mk f) s = .next (setWait s c none)) ∧
    (c.ops = [] → c.e.due = false → exec (mk f) s = .next (setWait s c none)) ∧
    ((∃ o ∈ c.ops, ∃ t, c.head o = some t ∧ isCtl t = true) → exec (mk f) s = .next (setWait s c none))

/-- What a firing writes to its own element (R107, R111, R137): S where the instruction writes it, NF one more unless nothing was executed (R213,
R224), FFLG with the flags of the lanes, LFSR where random bits were drawn; its constants and its word stay. What it leaves alone: memory,
scratch and full-empty bits, requests, every other tile, the other plane and every other register of its own tile, the registers of every other
element, every other lease, and of its own lease all but event counters and thresholds. -/
def Obligations.FiringFrame : Prop :=
  (
    ∀ s x i f c e, ctxAt s x i f = some c → e.post = id → ∃ el,
      elemIn (planeOf (tileAt (commit s c e) x.tile) c.b) x.eng x.slot = some el ∧
      el.s = e.s.getD c.e.s ∧ el.nf = (if e.nf then c.e.nf + 1 else c.e.nf) ∧ el.fflg = c.e.fflg ||| allFlags e.fls ∧
      el.lfsr = e.lfsr.getD c.e.lfsr ∧ el.k0 = c.e.k0 ∧ el.k1 = c.e.k1 ∧ el.word = c.e.word ∧ el.sInit = c.e.sInit ∧ el.wait = none) ∧
  (
    ∀ s x i f c e, ctxAt s x i f = some c → e.post = id →
      let t := commit s c e
      t.mem = s.mem ∧ t.scratch = s.scratch ∧ t.feb = s.feb ∧ t.reqs = s.reqs ∧ t.pfs = s.pfs ∧ t.journal = s.journal ∧ t.tick = s.tick ∧
      t.shards = s.shards ∧ t.fot = s.fot ∧ t.mctr = s.mctr ∧
      (∀ u, u ≠ x.tile → tileAt t u = tileAt s u) ∧
      (∃ p, tileAt t x.tile = withPlane (tileAt s x.tile) c.b p ∧ p.pst = c.p.pst ∧ p.segg = c.p.segg ∧ p.rdva = c.p.rdva ∧ p.rings = c.p.rings ∧
        p.wins = c.p.wins ∧ p.acc0 = c.p.acc0 ∧ p.acc1 = c.p.acc1 ∧ p.route = c.p.route) ∧
      (∀ g k a, (g, k) ≠ (x.eng, x.slot) → elemIn c.p g k = some a →
        ∃ a', elemIn (planeOf (tileAt t x.tile) c.b) g k = some a' ∧ sameRegs a a') ∧
      (∀ l, l ≠ c.lid → leaseAt t l = leaseAt s l) ∧ sameButCounters (leaseAt t c.lid) c.l)


/-- Emission and consumption (R99, R205, R212, R214 to R216, R219, R372). Each emission uses one demand of its target. A token for an operand of the
same block goes behind that operand's queue. A token for a side goes onto the link to the neighbour there, at the port that faces it, or over the edge
where a channel of a reach port leads there (log 43); one for an L port or the MEM port comes back to the tile itself; at the end of a portal path it
takes the portal's channel; at a reduction join it takes its place among the join's heads. The head of an operand's own queue goes and its demand
returns to the producer's target at once; the head of a channel goes and one demand travels back to the neighbour that feeds it, tagged with the
consumer's plane, or over a portal path with the producer's tag. A word of the unpack stage goes without a demand: its slot was freed when the stage
took it. -/
def Obligations.Demands : Prop :=
  (
    (∀ s x b k slot op tok el q, elemIn (planeOf (tileAt s x.tile) b) x.eng x.slot = some el →
      elemIn (planeOf (tileAt s x.tile) b) x.eng (slot : BitVec 7).toNat = some q →
      let t := emitTo s x b k (.elem slot op) tok
      (∃ el', elemIn (planeOf (tileAt t x.tile) b) x.eng x.slot = some el' ∧ dkOf el' k = dkOf el k - 1 ∧ sameRegs el el') ∧
      ∃ q', elemIn (planeOf (tileAt t x.tile) b) x.eng slot.toNat = some q' ∧ opqOf q' op = opqOf q op ++ [tok] ∧ sameRegs q q') ∧
    (∀ s x b k p ch z tok,
      let X := tileAt s x.tile
      let P := planeOf X b
      let key := chKey (p : BitVec 3).toNat (ch : BitVec 3).toNat
      let t := emitTo s x b k (.port p ch z) tok
      let out := ((X.ptab.find? fun e => e.ip == 7 && e.op == p.toNat && e.ic == ch.toNat).map (·.oc)).getD ch.toNat
      let stamp := some X.tlease.toNat
      (P.reduce.contains key = false →
        (planeOf (tileAt t x.tile) b).dcnt.get key 0 = P.dcnt.get key 0 - 1 ∧
        (∀ u, p.toNat < 4 → neighbour x.tile p.toNat = some u → t.wires = s.wires ++ [⟨u, (p.toNat + 2) % 4, out, tok, stamp⟩] ∧ t.peerOut = s.peerOut) ∧
        (p.toNat < 4 → neighbour x.tile p.toNat = none → t.wires = s.wires ∧
          (reachFor x.tile p.toNat out ≠ none → t.peerOut = s.peerOut ++ [⟨x.tile, p.toNat, out, tok, stamp⟩]) ∧
          (reachFor x.tile p.toNat out = none → t.peerOut = s.peerOut)) ∧
        (4 ≤ p.toNat → t.wires = s.wires ++ [⟨x.tile, p.toNat, out, tok, stamp⟩] ∧ t.peerOut = s.peerOut)) ∧
      (P.reduce.contains key = true → t.wires = s.wires ∧ t.peerOut = s.peerOut ∧
        (planeOf (tileAt t x.tile) b).lbuf.get (joinKey key x.eng x.slot k) [] = P.lbuf.get (joinKey key x.eng x.slot k) [] ++ [tok]))) ∧
  (
    (∀ s x b op el blk j k q, feedOf (planeOf (tileAt s x.tile) b) x.eng x.slot op = none →
      elemIn (planeOf (tileAt s x.tile) b) x.eng x.slot = some el → blockOf (planeOf (tileAt s x.tile) b) x.eng = some blk →
      producerOf blk x.slot op = some (j, k) → elemIn (planeOf (tileAt s x.tile) b) x.eng j = some q →
      let t := takeOp s x b op
      (∃ el', elemIn (planeOf (tileAt t x.tile) b) x.eng x.slot = some el' ∧ opqOf el' op = (opqOf el op).drop 1 ∧ sameRegs el el') ∧
      ∃ q', elemIn (planeOf (tileAt t x.tile) b) x.eng j = some q' ∧ dkOf q' k = dkOf q k + 1 ∧ sameRegs q q') ∧
    (∀ s x b op k, feedOf (planeOf (tileAt s x.tile) b) x.eng x.slot op = some k →
      let X := tileAt s x.tile
      let p := planeOf X b
      let t := takeOp s x b op
      (∀ h r, (p.px8.get k {}).out = h :: r → ((planeOf (tileAt t x.tile) b).px8.get k {}).out = r ∧ t.demands = s.demands) ∧
      ((p.px8.get k {}).out = [] →
        (planeOf (tileAt t x.tile) b).lbuf.get k [] = (p.lbuf.get k []).drop 1 ∧
        (∀ u, k / 8 < 4 → neighbour x.tile (k / 8) = some u →
          (X.ptab.find? (fun e => e.op == 7 && e.ip == k / 8 && e.oc == k % 8) = none →
            t.demands = s.demands ++ [⟨u, (k / 8 + 2) % 4, k % 8, X.tlease.toNat, p.rid, p.graph, p.node⟩]) ∧
          (∀ e, X.ptab.find? (fun e => e.op == 7 && e.ip == k / 8 && e.oc == k % 8) = some e →
            t.demands = s.demands ++ [⟨u, (k / 8 + 2) % 4, e.ic, X.tlease.toNat, e.src.1, e.src.2.1, e.src.2.2⟩])) ∧
        (4 ≤ k / 8 → k / 8 < 7 → t.demands = s.demands ++ [⟨x.tile, k / 8, k % 8, X.tlease.toNat, p.rid, p.graph, p.node⟩]))))


/-! ### Taking a trap -/

/-- Taking a trap (R307, R417 to R421, R423): the halt line of the lease rises, with a new STOPID unless a stop is under way; one ORIGIN record is
queued with the cause, its detail, and the place; the node of the place becomes FAULTED with the cause in FCAUSE, unless it had ended. A lease that is
not valid, or that is being removed (R433), takes none. No tile, no other lease and no memory changes. An element that meets a trap keeps its tokens
and registers: its firing is suppressed. -/
def Obligations.TrapEntry : Prop :=
  (
    ∀ s lid cause detail pl payload fflg,
      let t := trap s lid cause detail pl payload fflg
      let l := leaseAt s lid
      let word : BitVec 32 := BitVec.ofNat 32 (cause % 65536 * 65536 + detail % 65536)
      let r : StopRec := ⟨1, word, pl.graph, pl.node, pl.tile, pl.eng, pl.slot, 0, fflg, 0, payload⟩
      (l.v = false ∨ l.lstate = .removing → t = s) ∧
      (l.v = true → l.lstate ≠ .removing →
        (leaseAt t lid).hline = true ∧ (leaseAt t lid).stopid = (if l.hline && (l.stopOpen || l.stopWritten) then l.stopid else l.stopid + 1) ∧
        (leaseAt t lid).recs = l.recs ++ [r] ∧
        (∀ n, nodeAt l pl.graph pl.node = some n → cause ≠ cBreak → (pl.graph, pl.node) ∉ l.faults →
          n.state ≠ .faulted → n.state ≠ .done → n.state ≠ .cancelled →
          ∃ n', nodeAt (leaseAt t lid) pl.graph pl.node = some n' ∧ n'.state = .faulted ∧
            n'.fcause = word) ∧
        (∀ g n, (g, n) ≠ (pl.graph, pl.node) → nodeAt (leaseAt t lid) g n = nodeAt l g n)) ∧
      t.tiles = s.tiles ∧ t.mem = s.mem ∧ t.scratch = s.scratch ∧ t.feb = s.feb ∧ t.reqs = s.reqs ∧
      ∀ k, k ≠ lid → leaseAt t k = leaseAt s k) ∧
  (
    ∀ s x i f c cause detail payload fl, ctxAt s x i f = some c → ∃ el,
      elemIn (planeOf (tileAt (trapAt s c cause detail payload fl) x.tile) c.b) x.eng x.slot = some el ∧
      el = { c.e with wait := none } ∧
      (trapAt s c cause detail payload fl).mem = s.mem ∧ (trapAt s c cause detail payload fl).scratch = s.scratch ∧
      (trapAt s c cause detail payload fl).wires = s.wires)


/-! ### Integer instructions -/

/-- R111 to R115: ADD, SUB, MUL, MAD, ABS and NEG give the exact result narrowed, MULH its high half, MIN and MAX the less and the greater, CLAMP
min(max(A, B), C). -/
def Obligations.IntegerArithmetic : Prop :=
  LanesAre .add wsOf (fun f c j v => Narrowed f (f.md.getLsbD 2) (num f (la f c j) + num f (lbi f c j)) v) ∧
  LanesAre .sub wsOf (fun f c j v => Narrowed f (f.md.getLsbD 2) (num f (la f c j) - num f (lbi f c j)) v) ∧
  LanesAre .mul wsOf (fun f c j v => Narrowed f (f.md.getLsbD 2) (num f (la f c j) * num f (lbi f c j)) v) ∧
  LanesAre .mulh wsOf (fun f c j v => Narrowed f false (num f (la f c j) * num f (lbi f c j) / 2 ^ tyBits f.typ) v) ∧
  LanesAre .mad wsOf (fun f c j v => Narrowed f (f.md.getLsbD 2) (num f (la f c j) * num f (lb f c j) + num f (lc f c j)) v) ∧
  LanesAre .min wsOf (fun f c j v => num f v = min (num f (la f c j)) (num f (lbi f c j))) ∧
  LanesAre .max wsOf (fun f c j v => num f v = max (num f (la f c j)) (num f (lbi f c j))) ∧
  LanesAre .abs wsOf (fun f c j v => Narrowed f (f.md.getLsbD 2) ((num f (la f c j)).natAbs : Int) v) ∧
  LanesAre .neg wsOf (fun f c j v => Narrowed f (f.md.getLsbD 2) (-num f (la f c j)) v) ∧
  LanesAre .clamp wsOf (fun f c j v => num f v = min (max (num f (la f c j)) (num f (lb f c j))) (num f (lc f c j)))

/-- R116 to R120: the bitwise instructions bit by bit, shifts by the count of each lane, rotation, counts, reversal and bit fields. -/
def Obligations.IntegerBits : Prop :=
  let bits (mk : Fields → Instr) (g : Bool → Bool → Bool) : Prop := ∀ f s c, Fires (mk f) f s c → ∃ w, exec (mk f) s = .next (firedWord s c w (wsOf f)) ∧
    ∀ k < 512, w.getLsbD k = g ((c.va (tyBits f.typ)).getLsbD k) ((c.vbi (tyBits f.typ) (f.md.getLsbD 0)).getLsbD k)
  let cnt (f : Fields) (c : Ctx) (j : Nat) : Nat := if f.md.getLsbD 0 then f.imm.toNat % 256 else lb f c j
  bits .and (fun a b => a && b) ∧ bits .or (fun a b => a || b) ∧ bits .xor (fun a b => a != b) ∧ bits .andn (fun a b => a && !b) ∧
  bits .not (fun a _ => !a) ∧
  LanesAre .shl wsOf (fun f c j v => v = la f c j * 2 ^ cnt f c j % 2 ^ tyBits f.typ) ∧
  LanesAre .shr wsOf (fun f c j v => v = la f c j / 2 ^ cnt f c j) ∧
  LanesAre .sar wsOf (fun f c j v => sx (tyBits f.typ) v = sx (tyBits f.typ) (la f c j) / 2 ^ cnt f c j) ∧
  LanesAre .rot wsOf (fun f c j v => ∀ i < tyBits f.typ, v.testBit ((i + cnt f c j) % tyBits f.typ) = (la f c j).testBit i) ∧
  LanesAre .clz wsOf (fun f c j v => (la f c j = 0 → v = tyBits f.typ) ∧
    (la f c j ≠ 0 → 2 ^ (tyBits f.typ - 1 - v) ≤ la f c j ∧ la f c j < 2 ^ (tyBits f.typ - v))) ∧
  LanesAre .popc wsOf (fun f c j v => v = ((List.range (tyBits f.typ)).filter (la f c j).testBit).length) ∧
  LanesAre .brev wsOf (fun f c j v => ∀ i < tyBits f.typ, v.testBit i = (la f c j).testBit (tyBits f.typ - 1 - i)) ∧
  LanesAre .ext wsOf (fun f c j v => posOf f + lenOf f ≤ tyBits f.typ →
    num f v = rd (tySigned f.typ) (lenOf f) (la f c j / 2 ^ posOf f % 2 ^ lenOf f)) ∧
  LanesAre .ins wsOf (fun f c j v => posOf f + lenOf f ≤ tyBits f.typ → ∀ i < tyBits f.typ,
    v.testBit i = if posOf f ≤ i ∧ i < posOf f + lenOf f then (lb f c j).testBit (i - posOf f) else (la f c j).testBit i)

/-- R121 to R123 and R129: CMP gives 1 or 0 under its condition, SEL chooses by bit 0 of C, ADDR forms the address or, under SCR, the scratch
address, and HASH mixes A xor B. -/
def Obligations.CompareSelectAddressHash : Prop :=
  LanesAre .cmp (fun _ => false) (fun f c j v =>
    let a := num f (la f c j)
    let b := num f (lane (tyBits f.typ) (c.vbi (tyBits f.typ) (f.md.getLsbD 4)) j)
    let holds : Prop := match f.md.toNat % 16 with | 0 => a = b | 1 => a ≠ b | 2 => a < b | 3 => a ≤ b | 4 => b < a | _ => b ≤ a
    f.md.toNat % 16 < 6 → (holds → v = 1) ∧ (¬holds → v = 0)) ∧
  LanesAre .sel wsOf (fun f c j v => v = if lc f c j % 2 = 1 then la f c j else lb f c j) ∧
  LanesAre .addr (fun _ => false) (fun f c j v =>
    let off := lb f c j * 2 ^ (f.imm.toNat % 64) + if f.md.getLsbD 0 then lc f c j else 0
    if f.md.getLsbD 2 then
      f.typ = .n64 → v % 2 ^ 20 = (la f c j + off) % 2 ^ 20 ∧ v / 2 ^ 20 = la f c j / 2 ^ 20 % 2 ^ 14
    else v = (la f c j + off) % 2 ^ tyBits f.typ) ∧
  LanesAre .hash wsOf (fun f c j v =>
    (tyBits f.typ = 64 →
      let h : BitVec 64 := BitVec.ofNat 64 (la f c j) ^^^ BitVec.ofNat 64 (lbi f c j)
      let h := (h ^^^ h >>> 32) * 0xD6E8FEB86659FD93
      let h := (h ^^^ h >>> 32) * 0xD6E8FEB86659FD93
      v = (h ^^^ h >>> 32).toNat) ∧
    (tyBits f.typ = 32 →
      let h : BitVec 32 := BitVec.ofNat 32 (la f c j) ^^^ BitVec.ofNat 32 (lbi f c j)
      let h := (h ^^^ h >>> 16) * 0x7FEB352D
      let h := (h ^^^ h >>> 15) * 0x846CA68B
      v = (h ^^^ h >>> 16).toNat))

/-- R124, R125, R127, R161 and R236: WID gives the work identifier of segment g and iteration NF, one level of it, g, i, GCNT or ICNT, in lane 0 with
zeros above; from i = ICNT on it traps with ITER_RANGE. LXY gives position, lease extent, region origin, their differences, and the origin at
load. MOV, FAN and STEER pass A unchanged (STEER to T0 or T1 by P); LBCAST copies one lane of A to all, LROT rotates lanes and fills from C under
FILL, LSHUF picks lanes of A and C by the indices in B. -/
def Obligations.MovesWorkIdsAndPlace : Prop :=
  (
    (∀ f s c, Fires (.wid f) f s c →
      let n := (nodeAt c.l c.p.graph c.p.node).getD {}
      let below (k : Nat) : Nat := ((List.range 7).filter fun j => k < j ∧ j ≤ launchNlev n.launch).foldl (fun a j => a + launchW n.launch j) 0
      let wid : Nat := (c.p.segg.toNat * 2 ^ below (launchSched n.launch)) ||| c.e.nf.toNat
      let lev := f.imm.toNat % 16
      let v : Nat := if lev = 0 then wid else if lev ≤ 6 then (if lev > launchNlev n.launch then 0 else wid / 2 ^ below lev % 2 ^ launchW n.launch lev)
        else if lev = 7 then c.p.segg.toNat else if lev = 8 then c.e.nf.toNat else if lev = 9 then n.gcur.toNat else launchIcnt n.launch
      (lev ≤ 10 → c.e.nf.toNat < launchIcnt n.launch → exec (.wid f) s = .next (firedWord s c (low (v % 2 ^ tyBits f.typ)) false)) ∧
      (launchIcnt n.launch ≤ c.e.nf.toNat →
        exec (.wid f) s = .next (trapAt s c cIterRange none (payload3 (c.va 64).toNat 0 0) c.e.fflg))) ∧
    LanesAre .lxy (fun _ => false) (fun f c j v =>
      let n := tyBits f.typ
      let lx := regX c.t.tlxy
      let ly := regY c.t.tlxy
      let ox := regX c.p.rorg
      let oy := regY c.p.rorg
      let dx : Int := sx 9 (c.p.rdsp.toNat / 128)
      let dy : Int := sx 7 (c.p.rdsp.toNat % 128)
      let want : List Int := [lx, ly, regX c.t.lext + 1, regY c.t.lext + 1, ox, oy, lx - ox, ly - oy, ox - dx, oy - dy]
      16 ≤ n → (v : Int) = (want[j]?).getD 0 % 2 ^ n)) ∧
  (
    (∀ f s c, Fires (.mov f) f s c → exec (.mov f) s = .next (firedWord s c (c.va (tyBits f.typ)) false)) ∧
    (∀ f s c, Fires (.fan f) f s c → exec (.fan f) s = .next (firedWord s c (c.va (tyBits f.typ)) false) ∧
      (f.out = .two → c.outs = [(0, f.t0), (1, f.t1)] ++ if f.imm.getLsbD 10 then [(2, fanT2 f)] else [])) ∧
    (∀ f s c, Fires (.steer f) f s c → exec (.steer f) s = .next (firedWord s c (c.va (tyBits f.typ)) false) ∧
      (f.out = .steer → c.outs = if c.pv then [(0, f.t0)] else [(1, f.t1)])) ∧
    LanesAre .lbcast (fun _ => false) (fun f c _ v =>
      let k := if f.md.getLsbD 0 then lb f c 0 else f.imm.toNat % 64
      v = if k < 512 / tyBits f.typ then la f c k else 0) ∧
    LanesAre .lrot (fun _ => false) (fun f c j v =>
      let m := 512 / tyBits f.typ
      let r := (if f.md.getLsbD 0 then lb f c 0 else f.imm.toNat % 128) % m
      v = if r ≤ j then la f c (j - r) else if f.md.getLsbD 1 then lc f c (j + m - r) else la f c (j + m - r)) ∧
    LanesAre .lshuf (fun _ => false) (fun f c j v =>
      let m := 512 / tyBits f.typ
      let i := lb f c j
      v = if i < m then la f c i else if f.md.getLsbD 0 ∧ i < 2 * m then lc f c (i - m) else 0))


/-! ### Floating instructions -/

/-- R139, R141, R143 and R146: each result lane of FADD, FSUB, FMUL, FFMA, FSCALE and of the transcendental functions is the operation on the values
of the operand lanes, rounded once; FMIN, FMAX, FABS and FNEG act on the lanes and raise no flag. -/
def Obligations.FloatArithmetic : Prop :=
  FloatLanes .fadd (fun m r sat k a b _ => fAdd m r sat k (unpack m a) (unpack m b)) ∧
  FloatLanes .fsub (fun m r sat k a b _ => fAdd m r sat k (unpack m a) (fpNeg (unpack m b))) ∧
  FloatLanes .fmul (fun m r sat k a b _ => fMul m r sat k (unpack m a) (unpack m b)) ∧
  FloatLanes .ffma (fun m r sat k a b d => fFma m r sat k (unpack m a) (unpack m b) (unpack m d)) ∧
  FloatLanes .fscale (fun m r sat k a b _ => fScale m r sat k (unpack m a) (sx (fWidth m) b)) ∧
  FloatLanes .fexp2 (fun m r sat k a _ _ => fTrans .exp2 m r sat k (unpack m a)) ∧
  FloatLanes .flog2 (fun m r sat k a _ _ => fTrans .log2 m r sat k (unpack m a)) ∧
  FloatLanes .frcp (fun m r sat k a _ _ => fTrans .rcp m r sat k (unpack m a)) ∧
  FloatLanes .frsq (fun m r sat k a _ _ => fTrans .rsq m r sat k (unpack m a)) ∧
  FloatLanes .fsqrt (fun m r sat k a _ _ => fTrans .sqrt m r sat k (unpack m a)) ∧
  FloatLanes .fmin (fun m _ _ _ a b _ => ⟨fMinMax m false a b, 0⟩) ∧
  FloatLanes .fmax (fun m _ _ _ a b _ => ⟨fMinMax m true a b, 0⟩) ∧
  FloatLanes .fabs (fun m _ _ _ a _ _ => ⟨signOp m false a, 0⟩) ∧
  FloatLanes .fneg (fun m _ _ _ a _ _ => ⟨signOp m true a, 0⟩)

/-- R83, R84, R86, R142 and Tables 4.3 and 6.5, for every format, rounding mode and SAT: a NaN operand gives the canonical NaN without a flag; ∞ − ∞
and 0 × ∞ are invalid, 0 × ∞ in FFMA even when C is NaN; an infinity with a number stays; an exact zero sum is −0 under RM and +0 otherwise; the
transcendental functions give what Table 6.5 lists for zeros, infinities and negative operands. A magnitude beyond the largest finite value
gives infinity or the largest finite value by mode and SAT, mirrored for a negative value, the canonical NaN in place of infinity for E4M3, and
raises overflow and inexact; an infinite value that meets a format with an infinity stays and raises nothing. -/
def Obligations.FloatSpecialResults : Prop :=
  (
    ∀ m r sat k,
      let nan : Fr := ⟨nanBits m, 0⟩
      let bad : Fr := ⟨nanBits m, flNV⟩
      let inf (n : Bool) : Fr := ⟨signed m n (infMag m), 0⟩
      let zero (n : Bool) : Fr := ⟨signed m n 0, 0⟩
      let pole (n : Bool) : Fr := ⟨signed m n (infMag m), flDZ⟩
      (∀ x, fAdd m r sat k .nan x = nan ∧ fAdd m r sat k x .nan = nan ∧ fMul m r sat k .nan x = nan ∧ fMul m r sat k x .nan = nan ∧
        (∀ a e n, fFma m r sat k (.fin n a e) x .nan = if (∃ z, x = .inf z) ∧ a = 0 then bad else nan)) ∧
      (∀ n a e, fAdd m r sat k (.inf n) (.inf (!n)) = bad ∧ fAdd m r sat k (.inf n) (.inf n) = inf n ∧
        (∀ z, fAdd m r sat k (.inf n) (.fin z a e) = inf n ∧ fMul m r sat k (.inf n) (.fin z 0 e) = bad ∧ fMul m r sat k (.fin z 0 e) (.inf n) = bad ∧
          (a ≠ 0 → fMul m r sat k (.inf n) (.fin z a e) = inf (n != z)))) ∧
      (∀ n a e, a ≠ 0 → fAdd m r sat k (.fin n a e) (.fin (!n) a e) = zero (r == .rm)) ∧
      (∀ n e g, fAdd m r sat k (.fin n 0 e) (.fin (!n) 0 g) = zero (r == .rm) ∧ fAdd m r sat k (.fin n 0 e) (.fin n 0 g) = zero n) ∧
      (∀ t, fTrans t m r sat k .nan = nan) ∧
      (∀ n e, fTrans .log2 m r sat k (.fin n 0 e) = pole true ∧ fTrans .rcp m r sat k (.fin n 0 e) = pole n ∧ fTrans .rsq m r sat k (.fin n 0 e) = pole n ∧
        fTrans .sqrt m r sat k (.fin n 0 e) = zero n) ∧
      (∀ a e, a ≠ 0 → fTrans .log2 m r sat k (.fin true a e) = bad ∧ fTrans .rsq m r sat k (.fin true a e) = bad ∧
        fTrans .sqrt m r sat k (.fin true a e) = bad) ∧
      fTrans .exp2 m r sat k (.inf true) = zero false ∧ fTrans .exp2 m r sat k (.inf false) = inf false ∧
      fTrans .log2 m r sat k (.inf true) = bad ∧ fTrans .log2 m r sat k (.inf false) = inf false ∧
      (∀ n, fTrans .rcp m r sat k (.inf n) = zero n) ∧ fTrans .rsq m r sat k (.inf true) = bad ∧ fTrans .rsq m r sat k (.inf false) = zero false ∧
      fTrans .sqrt m r sat k (.inf true) = bad ∧ fTrans .sqrt m r sat k (.inf false) = inf false) ∧
  (
    (∀ m ∈ [fFp32, fBf16, fFp16, fE5m2], ∀ r n,
      overflow m r true n = ⟨signed m n (maxMag m), flOF ||| flNX⟩ ∧
      overflow m r false n = ⟨if r = .rn ∨ r = .rs ∨ (r = .rp ∧ n = false) ∨ (r = .rm ∧ n = true) then signed m n (infMag m) else signed m n (maxMag m),
        flOF ||| flNX⟩ ∧
      ∀ sat, infTo m r sat n = ⟨signed m n (infMag m), 0⟩) ∧
    (∀ r n, overflow fE4m3 r true n = ⟨signed fE4m3 n 0x7E, flOF ||| flNX⟩ ∧
      overflow fE4m3 r false n =
        ⟨if r = .rn ∨ r = .rs ∨ (r = .rp ∧ n = false) ∨ (r = .rm ∧ n = true) then 0x7F else signed fE4m3 n 0x7E, flOF ||| flNX⟩ ∧
      ∀ sat, infTo fE4m3 r sat n = overflow fE4m3 r sat n) ∧
    (∀ m ∈ [fE2m1, fE3m2, fE2m3], ∀ r sat n, overflow m r sat n = ⟨signed m n (maxMag m), flOF ||| flNX⟩) ∧
    ∀ m ∈ [fFp32, fBf16, fFp16, fE4m3, fE5m2], ∀ r sat n z a e st k, a ≠ 0 → (300 : Int) ≤ e →
      roundTo m r sat n z a e st k = overflow m r sat n)

/-- R85 and R139: rounding is correct. Where a finite exact value does not overflow, the result is a number of the format; under RZ it is the one
of largest magnitude that is not beyond the value, under RP the least not below, under RM the greatest not above, under RN one of the nearest;
and inexact is raised exactly when it differs from the value. -/
def Obligations.RoundingIsCorrect : Prop :=
  ∀ m ∈ [fFp32, fBf16, fFp16, fE4m3, fE5m2], ∀ r sat z x k,
    let R := roundDy m r sat z x k
    R.fl &&& flOF = 0 → ∃ y, Represents m R.bits y ∧
      (R.fl &&& flNX = 0 ↔ cmpDy x y = .eq) ∧
      (∀ b w, Represents m b w →
        (r = .rp → dyLe x y ∧ (dyLe x w → dyLe y w)) ∧
        (r = .rm → dyLe y x ∧ (dyLe w x → dyLe w y)) ∧
        (r = .rz → (0 ≤ x.m → dyLe y x ∧ (dyLe w x → dyLe w y)) ∧ (x.m ≤ 0 → dyLe x y ∧ (dyLe x w → dyLe y w))) ∧
        (r = .rn → dyLe ⟨(addDy x ⟨-y.m, y.e⟩).m.natAbs, (addDy x ⟨-y.m, y.e⟩).e⟩ ⟨(addDy x ⟨-w.m, w.e⟩).m.natAbs, (addDy x ⟨-w.m, w.e⟩).e⟩))


/-- R143 to R145: FCMP compares under its condition, -0 equal to +0 and a NaN unordered; FCLASS gives one bit; FMIN and FMAX return one of the
operands, the other one beside a NaN, with -0 below +0. -/
def Obligations.FloatCompareAndClass : Prop :=
  LanesAre .fcmp (fun _ => false) (fun f c j v =>
    let o := fpCmp (unpack (fmtOf f.typ) (la f c j)) (unpack (fmtOf f.typ) (lb f c j))
    let holds : Prop := match f.md.toNat % 16 with
      | 0 => o = some .eq
      | 1 => o ≠ some .eq
      | 2 => o = some .lt
      | 3 => o = some .lt ∨ o = some .eq
      | 4 => o = some .gt
      | 5 => o = some .gt ∨ o = some .eq
      | 6 => o = none
      | _ => o ≠ none
    f.md.toNat % 16 < 8 → (holds → v = 1) ∧ (¬holds → v = 0)) ∧
  LanesAre .fclass wsOf (fun f c j v => 9 ≤ tyBits f.typ →
    let m := fmtOf f.typ
    v = match unpack m (la f c j) with
      | .inf n => if n then 1 else 128
      | .nan => 256
      | .fin n a _ => if a = 0 then (if n then 8 else 16) else if a < 2 ^ m.mb then (if n then 4 else 32) else if n then 2 else 64) ∧
  (∀ m ∈ [fFp32, fBf16, fFp16], ∀ mx a b, a < 2 ^ fWidth m → b < 2 ^ fWidth m →
    let x := unpack m a
    let y := unpack m b
    (x = .nan → y = .nan → fMinMax m mx a b = nanBits m) ∧ (x = .nan → y ≠ .nan → fMinMax m mx a b = b) ∧
    (x ≠ .nan → y = .nan → fMinMax m mx a b = a) ∧
    (fpCmp x y = some .lt → fMinMax m false a b = a ∧ fMinMax m true a b = b) ∧
    (fpCmp x y = some .gt → fMinMax m false a b = b ∧ fMinMax m true a b = a) ∧
    (fMinMax m mx (signed m true 0) 0 = if mx then 0 else signed m true 0) ∧ fMinMax m mx 0 (signed m true 0) = if mx then 0 else signed m true 0)

/-- R87 and R88: the source of random bits is a 32-bit Galois LFSR; a lane takes sixteen steps, the first bit shifted out as bit 0, and the lanes
take their bits one after the other; other modes than RS draw nothing. The seed of a segment is never 0. -/
def Obligations.StochasticSource : Prop :=
  (∀ v : BitVec 32, (lfsrStep v).1 = v.getLsbD 0 ∧ ∀ i, i < 32 →
    (lfsrStep v).2.getLsbD i = (v.getLsbD (i + 1) != (v.getLsbD 0 && decide (i = 31 ∨ i = 21 ∨ i = 1 ∨ i = 0)))) ∧
  (∀ n v i, i < n → (lfsrTake n v).1.testBit i = (lfsrAfter i v).getLsbD 0) ∧
  (∀ n v, (lfsrTake n v).1 < 2 ^ n ∧ (lfsrTake n v).2 = lfsrAfter n v) ∧
  (∀ k v j, j < k → (lfsrLanes k v).1[j]? = some (lfsrTake 16 (lfsrAfter (16 * j) v)).1) ∧
  (∀ c r k, (r ≠ .rs → drawn c r k = (List.replicate k 0, none)) ∧
    (r = .rs → drawn c r k = ((lfsrLanes k c.e.lfsr).1, some (lfsrAfter (16 * k) c.e.lfsr)))) ∧
  ∀ g ct eng slot, lfsrSeed g ct eng slot ≠ 0 ∧
    ((g * 0x9E3779B1 + ((ct * 512) ||| (eng * 128) ||| slot)) % 2 ^ 32 ≠ 0 →
      (lfsrSeed g ct eng slot).toNat = (g * 0x9E3779B1 + ((ct * 512) ||| (eng * 128) ||| slot)) % 2 ^ 32)

/-! ### Conversion, MX, PX8, lane reductions -/

/-- R147 to R149: CVT converts the selected lanes of A from STYP to TYP: block PART of more, narrower source lanes, or into block PART of more,
narrower result lanes beside C's lanes under MRG and zeros otherwise. CVTSR does so with stochastic rounding, whose numbers come from B under
RB. -/
def Obligations.ConversionsSelectLanes : Prop :=
  let part (f : Fields) : Nat := f.imm.toNat / 32 % 8
  let ls (f : Fields) : Nat := 512 / tyBits (stypOf f)
  let ld (f : Fields) : Nat := 512 / tyBits f.typ
  let count (f : Fields) : Nat := min (ls f) (ld f)
  let ok (f : Fields) : Prop := if ld f ≤ ls f then (part f + 1) * ld f ≤ ls f else (part f + 1) * ls f ≤ ld f
  let place (f : Fields) (j : Nat) : Option Nat :=
    if ld f ≤ ls f then some j else if part f * ls f ≤ j ∧ j < (part f + 1) * ls f then some (j - part f * ls f) else none
  let out (f : Fields) (c : Ctx) (r : Rnd) (rks : Nat → Nat) (j : Nat) : Fr :=
    match place f j with
    | some k => cvtLane (stypOf f) f.typ r (satF f) (rks k)
        (lane (tyBits (stypOf f)) (c.va (tyBits f.typ)) (if ld f ≤ ls f then part f * ld f + j else k))
    | none => ⟨if f.imm.getLsbD 8 then lc f c j else 0, 0⟩
  (∀ f s c, Fires (.cvt f) f s c → ok f →
    RoundsTo (.cvt f) s c (tyBits f.typ) (ld f) (lfAfter c (count f)) (wsOf f) (out f c (rndF f) (rk c (count f)))) ∧
  (∀ f s c, Fires (.cvtsr f) f s c → ok f →
    (f.md.getLsbD 0 = true → RoundsTo (.cvtsr f) s c (tyBits f.typ) (ld f) none (wsOf f) (out f c .rs fun k => if k < count f then lane 16 (c.vb (tyBits f.typ)) k else 0)) ∧
    (f.md.getLsbD 0 = false → RoundsTo (.cvtsr f) s c (tyBits f.typ) (ld f) (some (lfsrLanes (count f) c.e.lfsr).2) (wsOf f)
      (out f c .rs fun k => ((lfsrLanes (count f) c.e.lfsr).1[k]?).getD 0)))

/-- R100 and Table 4.8, lane by lane: integer to integer is exact in range, clamped under SAT or cut beyond it; integer to float and float to float
round once, a NaN becoming canonical; float to integer rounds, gives 0 with invalid for a NaN, and the end of the range with invalid beyond
it. -/
def Obligations.ConversionFollowsTheTable : Prop :=
  ∀ st dt r sat k v, v < 2 ^ tyBits st →
    let R := cvtLane st dt r sat k v
    let x : Int := rd (tySigned st) (tyBits st) v
    let lo : Int := if tySigned dt then -2 ^ (tyBits dt - 1) else 0
    let hi : Int := if tySigned dt then 2 ^ (tyBits dt - 1) - 1 else 2 ^ tyBits dt - 1
    (isFloat st = false → isFloat dt = false → R.fl = 0 ∧
      (lo ≤ x → x ≤ hi → rd (tySigned dt) (tyBits dt) R.bits = x) ∧
      (x < lo → sat = true → rd (tySigned dt) (tyBits dt) R.bits = lo) ∧ (hi < x → sat = true → rd (tySigned dt) (tyBits dt) R.bits = hi) ∧
      (sat = false → (R.bits : Int) = x % 2 ^ tyBits dt)) ∧
    (isFloat st = false → isFloat dt = true → R = roundDy (fmtOf dt) r sat false ⟨x, 0⟩ k) ∧
    (isFloat st = true → isFloat dt = true →
      (unpack (fmtOf st) v = .nan → R = ⟨nanBits (fmtOf dt), 0⟩) ∧
      (∀ n, unpack (fmtOf st) v = .inf n → R = infTo (fmtOf dt) r sat n) ∧
      ∀ n m e, unpack (fmtOf st) v = .fin n m e → R = roundTo (fmtOf dt) r sat n n m e false k) ∧
    (isFloat st = true → isFloat dt = false →
      let y := rd (tySigned dt) (tyBits dt) R.bits
      (unpack (fmtOf st) v = .nan → R = ⟨0, flNV⟩) ∧
      (∀ n, tyBits dt ≤ 64 → unpack (fmtOf st) v = .inf n → y = (if n then lo else hi) ∧ R.fl = flNV) ∧
      ∀ n m e, unpack (fmtOf st) v = .fin n m e →
        let z := roundInt r n m e k
        (lo ≤ z.1 → z.1 ≤ hi → y = z.1 ∧ R.fl = if z.2 then flNX else 0) ∧
        (z.1 < lo → y = lo ∧ R.fl = flNV) ∧ (hi < z.1 → y = hi ∧ R.fl = flNV))

/-- R150 to R155: MXQ sends the 32 elements of its block to T0 and the scale to T1, each in its part of an otherwise zero word; the scale is 0xFF with
zero elements where a lane is NaN, 127 for a zero block, and otherwise the exponent of the largest magnitude less emax, clamped; an element is
its value over the scale, rounded to the element format. MXDQ gives element times scale, rounded once, the canonical NaN under scale 0xFF. -/
def Obligations.MxBlocks : Prop :=
  (∀ f s c, Fires (.mxq f) f s c → f.out = .two → f.prd ≠ .rsv →
    let mxe := f.imm.toNat % 8
    let part := f.imm.toNat / 128 % 4
    let n := mxLane mxe
    let v (j : Nat) : Fp := unpack (fmtOf (tyOfCode (f.imm.toNat / 8 % 16))) (lane 16 (c.va n) j)
    let q := mxQuant mxe (rndF f) ((List.range 32).map v) (drawn c (rndF f) 32).1
    n * (32 * (part + 1)) ≤ 512 →
    (q.2.2 &&& c.l.rcd.fpen = 0 → ∃ ew sw fls,
      (∀ j, j < 512 / n → lane n ew j = if 32 * part ≤ j ∧ j < 32 * part + 32 then (q.2.1.getD (j - 32 * part) 0) % 2 ^ n else 0) ∧
      (∀ j, j < 64 → lane 8 sw j = if j = part then q.1 % 256 else 0) ∧ allFlags fls = q.2.2 ∧ exec (.mxq f) s = .next (commit s c
        { emits := [(0, f.t0, ⟨ew, c.sb⟩), (1, f.t1, ⟨sw, c.sb⟩)], take := c.ops, fls := fls, lfsr := (drawn c (rndF f) 32).2 })) ∧
    (q.2.2 &&& c.l.rcd.fpen ≠ 0 → ∃ j, 32 * part ≤ j ∧ j < 32 * part + 32 ∧
      exec (.mxq f) s = .next (trapAt s c cFpException none (payload3 q.2.2.toNat j 0) c.e.fflg))) ∧
  (∀ mxe r l rks, l.length = 32 → rks.length = 32 →
    let q := mxQuant mxe r l rks
    let emax : Int := if mxe = 1 then 2 else if mxe = 2 then 4 else if mxe = 4 then 0 else 2
    (.nan ∈ l → q = (255, List.replicate 32 0, flNV)) ∧
    (.nan ∉ l → (∀ v ∈ l, ∃ n e, v = .fin n 0 e) → q.1 = 127) ∧
    (.nan ∉ l → (∃ n, .inf n ∈ l) → q.1 = 254) ∧
    (∀ t : Int, .nan ∉ l → (∀ n, .inf n ∉ l) → (∃ v ∈ l, ∃ n m e, v = .fin n m e ∧ m ≠ 0 ∧ (Nat.log2 m : Int) + e = t) →
      (∀ v ∈ l, ∀ n m e, v = .fin n m e → m ≠ 0 → (Nat.log2 m : Int) + e ≤ t) →
      (q.1 : Int) = max 0 (min 254 (t - emax + 127))) ∧
    (.nan ∉ l → ∀ (j : Nat) (v : Fp) (k : Nat), l[j]? = some v → rks[j]? = some k →
      q.2.1[j]? = some (mxRound mxe r k (match v with | .fin n m e => .fin n m (e - ((q.1 : Int) - 127)) | x => x)).bits)) ∧
  ∀ f s c, Fires (.mxdq f) f s c →
    let mxe := f.imm.toNat % 8
    let part := f.imm.toNat / 8 % 4
    let sc := lane 8 (c.vb (tyBits f.typ)) part
    let off := 32 * part + if f.typ = .fp32 then 16 * (f.imm.toNat / 32 % 2) else 0
    let n := tyBits f.typ
    RoundsTo (.mxdq f) s c n (512 / n) (lfAfter c (512 / n)) (wsOf f) fun j =>
      if sc = 255 then ⟨nanBits (fmtOf f.typ), 0⟩
      else match mxValue mxe (lane (mxLane mxe) (c.va n) (off + j)) with
        | .fin ng k e => roundTo (fmtOf f.typ) (rndF f) (satF f) ng ng k (e + (sc : Int) - 127) false (rk c (512 / n) j)
        | .inf ng => infTo (fmtOf f.typ) (rndF f) (satF f) ng
        | .nan => ⟨nanBits (fmtOf f.typ), 0⟩

/-- R93 to R96: the canonical encoding of 64 FP8 bytes is a well-formed block of at most 33 units that decodes to those bytes. -/
def Obligations.Px8RoundTrip : Prop :=
  ∀ e5m2 bytes, bytes.length = 64 → (∀ b ∈ bytes, b < 256) →
    pxDecode e5m2 (pxEncode e5m2 bytes).1 = some bytes ∧ pxLen (pxEncode e5m2 bytes).1 = (pxEncode e5m2 bytes).2 ∧
    (pxEncode e5m2 bytes).1 < 2 ^ (16 * (pxEncode e5m2 bytes).2) ∧ (pxEncode e5m2 bytes).2 ≤ 33

/-- R156 and R157: PKPX appends the canonical block of A to the pending units in S, emits full words with sideband 00, and at a row's or stream's end
the rest with A's sideband; it fires only while it holds two demands on T0; a control token that meets pending units turns them into POISON of
cause 6 and stays at its head. -/
def Obligations.Px8Packing : Prop :=
  ∀ f s c t, HasTurn (.pkpx f) f s c → c.head .a = some t →
    let pend := c.e.s.toNat % 2 ^ 496
    let cnt := c.e.s.toNat / 2 ^ 496 % 32
    let blk := pxEncode (f.typ == .e5m2) ((List.range 64).map (lane 8 t.pay))
    let u := pend + blk.1 * 2 ^ (16 * cnt)
    let k := cnt + blk.2
    let last := decide (t.sb = 0b10 ∨ t.sb = 0b11)
    let n := if last then (k - 1) / 32 else k / 32
    let full : List (Nat × Target × Token) := (List.range n).map fun i => (0, f.t0, ⟨low (u / 2 ^ (512 * i) % 2 ^ 512), 0⟩)
    (isCtl t = false → ¬HoldsDemands c [(0, f.t0), (0, f.t0)] → exec (.pkpx f) s = .next (setWait s c (some .noDemand))) ∧
    (isCtl t = false → HoldsDemands c [(0, f.t0), (0, f.t0)] → exec (.pkpx f) s = .next (commit s c
      { emits := full ++ if last then [(0, f.t0, ⟨low (u / 2 ^ (512 * n)), t.sb⟩)] else [], take := [.a],
        s := some (if last then 0 else low (u / 2 ^ (512 * n) + (k - 32 * n) * 2 ^ 496)), lfsr := lfAfter c 64 })) ∧
    (isCtl t = true → cnt ≠ 0 → HoldsDemands c [(0, f.t0)] → exec (.pkpx f) s = .next (commit s c
      { emits := [(0, f.t0, poisonTok 6 c.ti)], nf := false, poison := 1, s := some 0 })) ∧
    (isCtl t = true → cnt = 0 → exec (.pkpx f) s = .next (setWait s c none))

/-- R158 to R160 and R162: DOT rounds the exact sum of the products of a group, LRED the exact sum of all lanes, AMAXV gives the largest magnitude
in FP32, the integer reductions and scans fold their lanes; LSCAN under CARRY takes the carry from S and leaves the last prefix there, or S's
initial value at the end of a row. The flags of a prefix count at the lane where it leaves (R138). -/
def Obligations.LaneReductions : Prop :=
  (∀ f s c, Fires (.dot f) f s c →
    let n := tyBits f.typ
    let m := fmtOf f.typ
    let ps (k : Nat) : List (Option Fp) := (List.range (32 / n)).map fun i => fpMul (unpack m (la f c (32 / n * k + i))) (unpack m (lb f c (32 / n * k + i)))
    RoundsTo (.dot f) s c 32 16 (lfAfter c 16) (wsOf f) fun k =>
      fSum fFp32 (rndF f) (satF f) (rk c 16 k) ((ps k).any (·.isNone))
        ((ps k).filterMap id ++ if f.md.getLsbD 0 then [unpack fFp32 (lane 32 (srcVal c 32 f.c c.hc) k)] else [])) ∧
  (∀ f s c, Fires (.lred f) f s c → isFloat f.typ = true →
    let m := fmtOf f.typ
    let l := (lanesOf (tyBits f.typ) (c.va (tyBits f.typ))).map (unpack m)
    let pick (mx : Bool) : Nat :=
      let v := (lanesOf (tyBits f.typ) (c.va (tyBits f.typ))).foldl (fMinMax m mx) (la f c 0)
      if unpack m v = .nan then nanBits m else v
    (f.md.toNat % 8 = 0 → RoundsTo (.lred f) s c (tyBits f.typ) 1 (lfAfter c 1) false fun _ => fSum m (rndF f) false (rk c 1 0) false l) ∧
    (f.md.toNat % 8 = 1 → RoundsTo (.lred f) s c (tyBits f.typ) 1 (lfAfter c 1) false fun _ => ⟨pick false, 0⟩) ∧
    (f.md.toNat % 8 = 2 → RoundsTo (.lred f) s c (tyBits f.typ) 1 (lfAfter c 1) false fun _ => ⟨pick true, 0⟩) ∧
    (f.md.toNat % 8 = 6 → RoundsTo (.lred f) s c (tyBits f.typ) 1 (lfAfter c 1) false fun _ => ⟨exactBits m (fpMaxAbs l), 0⟩)) ∧
  (∀ f s c, Fires (.lred f) f s c → isFloat f.typ = false → ∃ v, exec (.lred f) s = .next (firedWord s c (low v) false) ∧ v < 2 ^ tyBits f.typ ∧
    let l := lanesOf (tyBits f.typ) (c.va (tyBits f.typ))
    (f.md.toNat % 8 = 0 → v = l.foldl (· + ·) 0 % 2 ^ tyBits f.typ) ∧
    (f.md.toNat % 8 = 1 → num f v ∈ l.map (num f) ∧ ∀ x ∈ l, num f v ≤ num f x) ∧
    (f.md.toNat % 8 = 2 → num f v ∈ l.map (num f) ∧ ∀ x ∈ l, num f x ≤ num f v) ∧
    (f.md.toNat % 8 = 3 → ∀ i < tyBits f.typ, v.testBit i = l.all (·.testBit i)) ∧
    (f.md.toNat % 8 = 4 → ∀ i, v.testBit i = l.any (·.testBit i)) ∧
    (f.md.toNat % 8 = 5 → v = l.foldl (· ^^^ ·) 0)) ∧
  (∀ f s c, Fires (.amaxv f) f s c →
    let l := (lanesOf (tyBits f.typ) (c.va (tyBits f.typ))).map (unpack (fmtOf f.typ)) ++ if f.md.getLsbD 0 then [unpack fFp32 (lane 32 c.e.s 0)] else []
    exec (.amaxv f) s = .next (firedWord s c (low (exactBits fFp32 (fpMaxAbs l))) (wsOf f || f.md.getLsbD 0))) ∧
  (∀ f s c, Fires (.lscan f) f s c → isFloat f.typ = false → f.md.toNat % 8 < 3 →
    let n := tyBits f.typ
    let s0 : Nat := if f.md.getLsbD 4 then lane n c.e.s 0 else if f.md.toNat % 8 = 0 then 0
      else if f.md.toNat % 8 = 1 then (if tySigned f.typ then 2 ^ (n - 1) - 1 else 2 ^ n - 1) else if tySigned f.typ then 2 ^ (n - 1) else 0
    let p (k : Nat) : Nat := (List.range (k + 1)).foldl (fun a j =>
      if f.md.toNat % 8 = 0 then (a + la f c j) % 2 ^ n
      else if f.md.toNat % 8 = 1 then (if num f (la f c j) < num f a then la f c j else a) else if num f a < num f (la f c j) then la f c j else a) s0
    ∃ w sNew, exec (.lscan f) s = .next (commit s c { emits := emitAll c w, take := c.ops, s := sNew }) ∧
      (∀ j, j < 512 / n → lane n w j = if f.md.getLsbD 3 then (if j = 0 then s0 else p (j - 1)) else p j) ∧
      (f.md.getLsbD 4 = false → sNew = none) ∧ (f.md.getLsbD 4 = true → (c.sb = 0b10 ∨ c.sb = 0b11) → sNew = some c.e.sInit) ∧
      (f.md.getLsbD 4 = true → c.sb ≠ 0b10 → c.sb ≠ 0b11 → ∃ v, sNew = some v ∧ lane n v 0 = p (512 / n - 1) ∧ v.toNat / 2 ^ n = c.e.s.toNat / 2 ^ n)) ∧
  ∀ f s c, Fires (.lscan f) f s c → isFloat f.typ = true → f.md.toNat % 8 < 3 →
    let n := tyBits f.typ
    let m := fmtOf f.typ
    let op := f.md.toNat % 8
    let s0 : Nat := if f.md.getLsbD 4 then lane n c.e.s 0 else if op = 0 then 0 else signed m (decide (op = 2)) (infMag m)
    let l (k : Nat) : List Nat := (List.range (k + 1)).map (la f c)
    let p (k : Nat) : Fr := if op = 0 then fSum m .rn false 0 false ((s0 :: l k).map (unpack m)) else ⟨(l k).foldl (fMinMax m (decide (op = 2))) s0, 0⟩
    let excl := f.md.getLsbD 3
    let raised (j : Nat) : BitVec 5 := if excl then (if j = 0 then 0 else (p (j - 1)).fl) else (p j).fl
    CompletesUnlessTrapped (.lscan f) s c (if excl then 512 / n + 1 else 512 / n) raised fun fls e => ∃ w sNew,
      (∀ j, j < 512 / n → lane n w j = (if excl then (if j = 0 then s0 else (p (j - 1)).bits) else (p j).bits) % 2 ^ n) ∧
      (f.md.getLsbD 4 = false → sNew = none) ∧ (f.md.getLsbD 4 = true → (c.sb = 0b10 ∨ c.sb = 0b11) → sNew = some c.e.sInit) ∧
      (f.md.getLsbD 4 = true → c.sb ≠ 0b10 → c.sb ≠ 0b11 → ∃ v, sNew = some v ∧ lane n v 0 = (p (512 / n - 1)).bits % 2 ^ n ∧ v.toNat / 2 ^ n = c.e.s.toNat / 2 ^ n) ∧
      e = { emits := emitAll c w, take := c.ops, s := sNew, fls := fls }

/-! ### Dataflow and control instructions -/

/-- R237, R238 and R504: MERGE passes whole rows of A and B in arrival order, A first on a tie, keeps one stream end of the two, and turns a control
token in an open row into POISON of cause 8 that ends the row; MERGEP passes one token of A or B as P says, and POISON of cause 8 in place of
a control token. -/
def Obligations.Merging : Prop :=
  (∀ f s c, HasTurn (.merge f) f s c →
    let cur := sFld c 0 2
    let fa := sFld c 2 1
    let fb := sFld c 3 1
    let fa' (t : Token) (k : Nat) : Nat := if endsStream t ∧ k = 1 then 1 else fa
    let fb' (t : Token) (k : Nat) : Nat := if endsStream t ∧ k = 2 then 1 else fb
    let finished (h : Option Token) (fin : Nat) : Prop := fin = 1 ∨ ∃ u, h = some u ∧ rowish u = false
    let moves (k : Nat) (t : Token) (other : Option Token) (ofin : Nat) : Prop :=
      let e (out : Token) : Eff := { emits := toAll c out, take := [if k = 1 then .a else .b], nf := isData t,
                                     s := some (sLow c 4 ((if endsRow t then 0 else k) + 4 * fa' t k + 8 * fb' t k)) }
      (endsStream t = true → ¬finished other ofin → Does (.merge f) s c (e (if isCtl t then bubble false else { t with sb := 0b10 }))) ∧
      (endsStream t = false ∨ finished other ofin → Does (.merge f) s c (e t))
    (∀ t, c.ha = some t → rowish t = true → cur = 1 ∨ (cur = 0 ∧ fa = 0) → moves 1 t c.hb fb) ∧
    (∀ t, c.hb = some t → rowish t = true → cur = 2 ∨ (cur = 0 ∧ fb = 0 ∧ (fa = 1 ∨ ∀ u, c.ha = some u → rowish u = false)) → moves 2 t c.ha fa) ∧
    (∀ t, c.ha = some t → rowish t = false → cur = 1 →
      Does (.merge f) s c { emits := poisons c 8, nf := false, poison := 1, s := some (sLow c 4 (4 + 8 * fb)) }) ∧
    (∀ t, c.hb = some t → rowish t = false → cur = 2 →
      Does (.merge f) s c { emits := poisons c 8, nf := false, poison := 1, s := some (sLow c 4 (4 * fa + 8)) }) ∧
    (∀ t u, c.ha = some t → c.hb = some u → rowish t = false → rowish u = false → cur = 0 → Waits (.merge f) s c none)) ∧
  (∀ f s c p, HasTurn (.mergep f) f s c → c.hp = some p →
    let op : Opnd := if p.pay.getLsbD 0 then .a else .b
    (isCtl p = true → Waits (.mergep f) s c none) ∧
    (∀ t, isCtl p = false → c.head op = some t → isCtl t = false → Does (.mergep f) s c { emits := toAll c t, take := [.p, op] }) ∧
    (∀ t, isCtl p = false → c.head op = some t → isCtl t = true →
      Does (.mergep f) s c { emits := poisons c 8, take := [.p], nf := false, poison := 1 }))

/-- R239 to R242 and R504: GATE reads P at the first token of a row and passes or drops the row, with a BUBBLE for a dropped one under KB and
BUBBLE_END for one that ends the stream; DROP consumes every token but SWITCH and notes stream ends under NOTE; MARK sets the sideband when P
is 1; STRIP passes data without row ends and counts them; BUB makes an empty row of each token. -/
def Obligations.RowInstructions : Prop :=
  (∀ f s c t, HasTurn (.gate f) f s c → c.ha = some t →
    let row := isData t || isBubble t
    let e (pass : Bool) (take : List Opnd) : Eff :=
      { emits := if pass then toAll c t else if endsRow t && (endsStream t || f.imm.getLsbD 0) then toAll c (bubble (endsStream t)) else [],
        take := take, nf := isData t, s := some (sLow c 2 ((if endsRow t then 0 else 1) + if pass then 2 else 0)) }
    (row = true → sFld c 0 1 = 1 → Does (.gate f) s c (e (decide (sFld c 1 1 = 1)) [.a])) ∧
    (∀ p, row = true → sFld c 0 1 = 0 → c.hp = some p → isCtl p = false → Does (.gate f) s c (e (p.pay.getLsbD 0) [.p, .a])) ∧
    (row = true → sFld c 0 1 = 0 → c.hp = none → .a ∈ c.ops → Waits (.gate f) s c (some .noInput)) ∧
    (row = false → sFld c 0 1 = 1 → Does (.gate f) s c { emits := poisons c 8, nf := false, poison := 1, s := some (sLow c 1 0) }) ∧
    (row = false → sFld c 0 1 = 0 → Waits (.gate f) s c none)) ∧
  (∀ f s c t, HasTurn (.drop f) f s c → c.ha = some t →
    (isSwitch t = true → Waits (.drop f) s c none) ∧
    (isSwitch t = false → isSnap t = false →
      ∃ g, (∀ u, g u = u) ∧ Does (.drop f) s c { emits := if f.imm.getLsbD 0 && endsStream t then toAll c ⟨0, 0b11⟩ else [], take := [.a], nf := isData t, post := g })) ∧
  (∀ f s c, Fires (.mark f) f s c → f.out ≠ .steer →
    let sb : BitVec 2 := if c.pv ∧ c.sb ≠ 0b11 then (if f.imm.getLsbD 0 then 0b11 else 0b10) else c.sb
    exec (.mark f) s = .next (commit s c { emits := toAll c ⟨c.va (tyBits f.typ), sb⟩, take := c.ops })) ∧
  (∀ f s c t, HasTurn (.strip f) f s c → c.ha = some t → isData t = true ∨ isBubble t = true →
    let n := (sFld c 0 32 + if isData t then 1 else 0) % 2 ^ 32
    Does (.strip f) s c { emits := (if isData t then [(0, f.t0, ⟨t.pay, 0⟩)] else []) ++
                            if endsRow t && f.out == .two then [(1, f.t1, ⟨low n, if endsStream t then 0b11 else 0b10⟩)] else [],
                          take := [.a], s := some (sLow c 32 (if endsRow t then 0 else n)), nf := isData t }) ∧
  (∀ f s c, Fires (.bub f) f s c → exec (.bub f) s = .next (commit s c
    { emits := c.outs.map fun m => (m.1, m.2, bubble (c.sb == 0b11)), take := c.ops, nf := false }))

/-- R243 to R246: CARRY emits A and enters the loop, then B while P is 1, and leaves the loop on P 0; INVAR emits A while P is 1 and keeps it at its
head, and consumes it on P 0. A control token at P or B in the loop gives POISON of cause 8 and ends the loop. COUNT and RPT emit word k of n, the
word of k = n - 1 with the row's end, a BUBBLE for n = 0, and trap on an n above 2^32 - 1; EMITC emits its control token; TESTC tells control tokens from
data. -/
def Obligations.LoopsAndGenerators : Prop :=
  (
    (∀ f s c, HasTurn (.carry f) f s c →
      (∀ t, sFld c 0 1 = 0 → f.a = .tok → c.ha = some t → isCtl t = false →
        Does (.carry f) s c { emits := toAll c t, take := [.a], s := some (sLow c 1 1) }) ∧
      (sFld c 0 1 = 0 → f.a = .tok → c.ha = none → Waits (.carry f) s c none) ∧
      (sFld c 0 1 = 0 → f.a ≠ .tok → (∃ o ∈ c.ops, ∀ t, c.head o = some t → isCtl t = false) → Does (.carry f) s c { emits := toAll c ⟨c.va (tyBits f.typ), 0⟩, s := some (sLow c 1 1) }) ∧
      (∀ p t, sFld c 0 1 = 1 → c.hp = some p → isCtl p = false → p.pay.getLsbD 0 = true → c.hb = some t → isCtl t = false →
        Does (.carry f) s c { emits := toAll c t, take := [.p, .b] }) ∧
      (∀ p t, sFld c 0 1 = 1 → c.hp = some p → isCtl p = false → p.pay.getLsbD 0 = true → c.hb = some t → isCtl t = true → isSwitch t = false →
        Does (.carry f) s c { emits := poisons c 8, take := [.p, .b], nf := false, poison := 1, s := some (sLow c 1 0) }) ∧
      (∀ p, sFld c 0 1 = 1 → c.hp = some p → isCtl p = false → p.pay.getLsbD 0 = false →
        Does (.carry f) s c { take := [.p], s := some (sLow c 1 0) }) ∧
      (∀ p, sFld c 0 1 = 1 → c.hp = some p → isCtl p = true → isSwitch p = false →
        Does (.carry f) s c { emits := poisons c 8, take := [.p], nf := false, poison := 1, s := some (sLow c 1 0) })) ∧
    (∀ f s c p t, HasTurn (.invar f) f s c → c.hp = some p → c.ha = some t → isCtl p = false →
      (isCtl t = false → p.pay.getLsbD 0 = true → Does (.invar f) s c { emits := toAll c t, take := [.p] }) ∧
      (isCtl t = false → p.pay.getLsbD 0 = false → Does (.invar f) s c { take := [.p, .a] }) ∧
      (isCtl t = true → Waits (.invar f) s c none))) ∧
  (
    let gen (mk : Fields → Instr) (word : Fields → Ctx → Nat → Word) : Prop := ∀ f s c, HasTurn (mk f) f s c →
      (if c.ops = [] then c.e.due = true else ∀ o ∈ c.ops, ∃ t, c.head o = some t ∧ isCtl t = false) →
      let n := lane (tyBits f.typ) (c.va (tyBits f.typ)) 0
      let k := sFld c 0 32
      let last := match c.ha with | some t => t.sb == 0b11 | none => false
      (¬HoldsDemands c (targetsOf c.i c.f) → Waits (mk f) s c (some .noDemand)) ∧
      (HoldsDemands c (targetsOf c.i c.f) →
        (2 ^ 32 ≤ n → exec (mk f) s = .next (trapAt s c cIterRange none (payload3 n 0 0) c.e.fflg)) ∧
        (n = 0 → exec (mk f) s = .next (commit s c { emits := toAll c (bubble last), take := c.ops, nf := false })) ∧
        (0 < n → n < 2 ^ 32 → n = k + 1 → exec (mk f) s = .next (commit s c
          { emits := toAll c ⟨word f c k, if last then 0b11 else 0b10⟩, take := c.ops, s := some (sLow c 32 0) })) ∧
        (0 < n → n < 2 ^ 32 → n ≠ k + 1 → exec (mk f) s = .next (commit s c { emits := toAll c ⟨word f c k, 0⟩, s := some (sLow c 32 (k + 1)) })))
    gen .count (fun f c k => low (((lane (tyBits f.typ) (c.vb (tyBits f.typ)) 0 : Int) + k * f.imm.toInt) % 2 ^ tyBits f.typ).toNat) ∧
    gen .rpt (fun f c _ => c.vb (tyBits f.typ)) ∧
    (∀ f s c, Fires (.emitc f) f s c →
      let code := f.imm.toNat % 256
      let tok : Token := ctl (code + f.imm.toNat / 256 % 4 * 256) (if code = kSOT ∨ code = kEOT then c.p.segg.toNat else 0)
      (code ≠ kPOISON → exec (.emitc f) s = .next (commit s c { emits := c.outs.map fun m => (m.1, m.2, tok), take := c.ops, nf := false })) ∧
      (code = kPOISON → exec (.emitc f) s = .next (commit s c
        { emits := c.outs.map fun m => (m.1, m.2, poisonTok 255 c.ti), take := c.ops, nf := false, poison := 1 }))) ∧
    (∀ f s c t, HasTurn (.testc f) f s c → c.ha = some t → isSwitch t = false → isSnap t = false →
      (.p ∈ c.ops → ∃ p, c.hp = some p ∧ isCtl p = false) → predOff c = false → f.out ≠ .steer →
      let hit := isCtl t && (f.imm.toNat % 256 == 0 || codeOf t == f.imm.toNat % 256)
      let w : Token := ⟨low (if hit then 1 else 0), if isCtl t then 0 else t.sb⟩
      ∃ g, (∀ u, g u = u) ∧
        Does (.testc f) s c { emits := (targetsOf c.i c.f).map fun m => (m.1, m.2, if m.1 = 0 then w else t), take := c.ops, post := g }))


/-- R248 to R250: SEQT tags a token in its lane; REORD emits the token of the window that carries NEXT, or traps when a full window holds none; ROUTE
sends a row to the output of its key, and traps on a key without an output. -/
def Obligations.TagsAndRouting : Prop :=
  (∀ f s c, Fires (.seqt f) f s c → ∃ w, exec (.seqt f) s = .next (commit s c { emits := emitAll c w, take := c.ops, s := some (sLow c 32 (sFld c 0 32 + 1)) }) ∧
    ∀ j, j < 16 → lane 32 w j = if j = f.imm.toNat % 16 then sFld c 0 32 else lane 32 (c.va 512) j) ∧
  (∀ f s c k, HasTurn (.reord f) f s c → feedOf c.p c.x.eng c.x.slot .a = some k →
    let win := chanWindow c.p k
    let tag (t : Token) : Nat := lane 32 t.pay (f.imm.toNat % 16)
    let next := sFld c 0 32
    (∀ i t, win[i]? = some t → (∀ j u, j ≤ i → win[j]? = some u → isCtl u = false) → tag t = next → (∀ j u, j < i → win[j]? = some u → tag u ≠ next) →
      ∃ w, Does (.reord f) s c { emits := toAll c ⟨w, t.sb⟩, s := some (sLow c 32 (next + 1)), post := fun s => takeFrom s c.x.tile c.b k i } ∧
        ∀ j, j < 16 → lane 32 w j = if j = f.imm.toNat % 16 ∧ f.imm.getLsbD 4 = true then 0 else lane 32 t.pay j) ∧
    ((∀ t, win.head? = some t → isCtl t = false) → win ≠ [] → (∀ t ∈ win, isCtl t = false → tag t ≠ next) →
      ((c.p.salloc.get k 0).toNat ≤ (win.filter isData).length →
        exec (.reord f) s = .next (trapAt s c cReordWindow none (payload3 next 0 0) c.e.fflg)) ∧
      ((win.filter isData).length < (c.p.salloc.get k 0).toNat → Waits (.reord f) s c (some .noInput)))) ∧
  (∀ f s c t, HasTurn (.route f) f s c → c.ha = some t →
    let out (k : Nat) : Target := match f.t0 with | .port p ch z => .port p (BitVec.ofNat 3 (ch.toNat + k)) z | u => u
    let row := isData t || isBubble t
    let nout := f.imm.toNat % 8 + 1
    let key := sFld c 0 3
    -- DCNT of output j after a firing that emits to output k and T1 (the demands of a join's output are used by the join)
    let count (k j : Nat) : Nat := match out j with
      | .port p ch _ =>
        let used : Nat := (if j = k then 1 else 0) + match f.t1 with | .port q d _ => if q = p ∧ d = ch then 1 else 0 | .elem _ _ => 0
        c.p.dcnt.get (chKey p.toNat ch.toNat) 0 - if c.p.reduce.contains (chKey p.toNat ch.toNat) then 0 else used
      | .elem _ _ => 0
    (sFld c 3 1 = 1 → row = true →
      Does (.route f) s c { emits := [(0, out key, t)], take := [.a], nf := isData t, s := some (sLow c 4 (key + if endsRow t then 0 else 8)) }) ∧
    (sFld c 3 1 = 1 → row = false →
      Does (.route f) s c { emits := [(0, out key, poisonTok 8 c.ti)], nf := false, poison := 1, s := some (sLow c 4 key) }) ∧
    (sFld c 3 1 = 0 → row = false → Waits (.route f) s c none) ∧
    (∀ k take, sFld c 3 1 = 0 → row = true →
      (f.b = .tok ∧ take = [.b, .a] ∧ ∃ b, c.hb = some b ∧ isCtl b = false ∧ k = lane 32 b.pay 0) ∨ (f.b ≠ .tok ∧ take = [.a] ∧ k = lane 32 (c.vb 32) 0) →
      (nout ≤ k → exec (.route f) s = .next (trapAt s c cRouteKey none (payload3 k 0 0) c.e.fflg)) ∧
      (k < nout → f.out = .one →
        Does (.route f) s c { emits := [(0, out k, t)], take := take, nf := isData t, s := some (sLow c 4 (k + if endsRow t then 0 else 8)) }) ∧
      (k < nout → f.out = .two → ∃ w, (∀ j, j < nout → lane 8 w j = count k j % 256) ∧
        Does (.route f) s c { emits := [(0, out k, t), (1, f.t1, ⟨w, if isData t then t.sb else 0⟩)], take := take, nf := isData t, s := some (sLow c 4 (k + if endsRow t then 0 else 8)) })))

/-- R247: INTX and UNION merge two sorted rows by key, holding one pair back until it is known whether the row goes on; UNION fills the side that
has no such key. A control token at an open row gives POISON of cause 8 and ends the row and its stream. -/
def Obligations.Intersection : Prop :=
  ∀ uni : Bool,
    let mk : Fields → Instr := fun f => if uni then .union f else .intx f
    ∀ f s c, HasTurn (mk f) f s c →
    let x := xRead c.e.s
    let key (t : Token) : Nat := t.pay.toNat % 2 ^ 32
    let side (t : Token) : Nat := t.pay.toNat % 2 ^ 64
    let ends (t : Token) : Bool := t.sb == 0b10 || t.sb == 0b11
    let held : List (Nat × Target × Token) := if x.pv then toAll c ⟨low x.pend, 0⟩ else []
    let eatA (a : Token) (y : XState) : XState := { y with da := y.da || ends a, xa := y.xa || a.sb == 0b11 }
    let eatB (b : Token) (y : XState) : XState := { y with db := y.db || ends b, xb := y.xb || b.sb == 0b11 }
    let put (v : Nat) (y : XState) : XState := { y with pend := v, pv := true }
    let onlyA (a : Token) : Eff := if uni then { emits := held, take := [.a], s := some (xWrite (put (side a + key a * 2 ^ 64) (eatA a x))) }
      else { take := [.a], s := some (xWrite (eatA a x)) }
    let onlyB (b : Token) : Eff := if uni then { emits := held, take := [.b], s := some (xWrite (put (key b + side b * 2 ^ 64) (eatB b x))) }
      else { take := [.b], s := some (xWrite (eatB b x)) }
    -- both rows open and data at both heads
    (∀ a b, x.da = false → x.db = false → c.ha = some a → c.hb = some b → isCtl a = false → isCtl b = false →
      (key a = key b → Does (mk f) s c { emits := held, take := [.a, .b], s := some (xWrite (put (side a + side b * 2 ^ 64) (eatB b (eatA a x)))) }) ∧
      (key a < key b → Does (mk f) s c (onlyA a)) ∧ (key b < key a → Does (mk f) s c (onlyB b))) ∧
    -- one row ended
    (∀ a, x.da = false → x.db = true → c.ha = some a → isCtl a = false → Does (mk f) s c (onlyA a)) ∧
    (∀ b, x.da = true → x.db = false → c.hb = some b → isCtl b = false → Does (mk f) s c (onlyB b)) ∧
    -- an empty row of A, and of B
    (∀ a, x.da = false → c.ha = some a → isBubble a = true →
      Does (mk f) s c { take := [.a], nf := false, s := some (xWrite { x with da := true, xa := endsStream a }) }) ∧
    (∀ b, x.db = false → c.hb = some b → isBubble b = true → (x.da = true ∨ ∀ a, c.ha = some a → isBubble a = false) →
      Does (mk f) s c { take := [.b], nf := false, s := some (xWrite { x with db := true, xb := endsStream b }) }) ∧
    -- a control token of another code at an open row
    (∀ a b, x.da = false → c.ha = some a → isCtl a = true → isBubble a = false → c.hb = some b → isBubble b = false ∨ x.db = true →
      (x.db = true ∨ x.pv = true ∨ isCtl b = false) →
      Does (mk f) s c { emits := poisons c 8, nf := false, poison := 1, s := some (xWrite { x with da := true, xa := true }) }) ∧
    -- both rows ended
    (x.da = true → x.db = true →
      let last := x.xa && x.xb
      let y : XState := { x with pv := false, da := x.xa && !last, db := x.xb && !last, xa := x.xa && !last, xb := x.xb && !last }
      (x.pv = true → Does (mk f) s c { emits := toAll c ⟨low x.pend, if last then 0b11 else 0b10⟩, s := some (xWrite y) }) ∧
      (x.pv = false → Does (mk f) s c { emits := toAll c (bubble last), nf := false, s := some (xWrite y) }))

/-! ### Accumulators -/

/-- R164, R166 and R167: the carry-save adder keeps the sum; a step adds the contribution, cut to the cell's unit toward minus infinity, to the
value of the cell, which is first moved to a larger anchor where the contribution needs one; STK notes what is cut off and OVF a value that
leaves 48 bits; a zero contribution changes nothing; a special one only sets its flag (Table 7.2); a settle keeps the value and makes room. -/
def Obligations.AccumulatorCells : Prop :=
  (∀ s c q, (csa s c q).1 + (csa s c q).2 = s + c + q) ∧
  (∀ c, stepCell .zero c = c ∧ stepCell .nan c = { c with nans := true } ∧ stepCell .inv c = { c with inv := true } ∧
    stepCell (.inf false) c = { c with infp := true } ∧ stepCell (.inf true) c = { c with infn := true }) ∧
  (∀ c k, let d := raiseBy c k
    (k < 48 → cellV d = cellV c / 2 ^ k) ∧ (d.stk = true ↔ c.stk = true ∨ cellV c % 2 ^ k ≠ 0) ∧ d.anc = c.anc ∧ d.aset = c.aset) ∧
  (∀ c (m e : Int), m ≠ 0 →
    let top : Int := (Nat.log2 m.natAbs : Int) + e;
    (-600 < top) → top < 500 →
    let d := stepCell (.fin m e) c
    let anc : Int := if c.aset = false ∨ ancOf c ≤ top then top + 1 else ancOf c
    let v : Int := if c.aset = false then 0 else cellV c / 2 ^ (anc - ancOf c).toNat
    let cut := decide (c.aset = true ∧ cellV c % 2 ^ (anc - ancOf c).toNat ≠ 0)
    let sh := e - anc + 40
    let q : Int := if 0 ≤ sh then m * 2 ^ sh.toNat else m / 2 ^ (-sh).toNat
    let lost := decide (sh < 0 ∧ m % 2 ^ (-sh).toNat ≠ 0)
    d.aset = true ∧ (-512 ≤ anc → anc ≤ 511 → ancOf d = anc ∧ (anc - ancOf c < 48 →
      (cellV d - (v + q)) % 2 ^ 48 = 0 ∧ d.stk = (c.stk || cut || lost) ∧ d.ovf = (c.ovf || decide (v + q < -2 ^ 47) || decide (2 ^ 47 ≤ v + q))))) ∧
  ∀ c, let d := settleCell c
    (c.aset = false → d = c) ∧
    (c.aset = true → (cellV c).natAbs < 2 ^ 46 → cellV d = cellV c ∧ d.anc = c.anc ∧ d.cw = 0) ∧
    (c.aset = true → 2 ^ 46 ≤ (cellV c).natAbs → ancOf c ≤ 505 → ancOf d = ancOf c + 6 ∧ cellV d = cellV c / 64 ∧
      (d.stk = true ↔ c.stk = true ∨ cellV c % 64 ≠ 0)) ∧
    (c.aset = true → 2 ^ 46 ≤ (cellV c).natAbs → 505 < ancOf c → ancOf d = 511 ∧ if 0 < cellV c then d.infp = true else d.infn = true)

/-- R181 to R183: ACLR resets the cells of its rows, and SCNT when the rows are all; MMA in token mode (R176) and AADDV are one step of the set, with
the contributions that their operands give each cell; ARESC multiplies the cells of each row by a power of two. All wait while a readout or a
sort chunk holds the set (R170). The compares and ASTAT (R186 to R188) complete too, and leave every set as it is. -/
def Obligations.AccumulatorUpdates : Prop :=
  (∀ f s c, Fires (.aclr f) f s c → cellsOk (setOf c) → (setOf c).rdo.kind = 0 → ∃ a,
    exec (.aclr f) s = .next (setAcc c a (commit s c { emits := zeroAll c 0, take := c.ops })) ∧ cellsOk a ∧
    (∀ k, k < 1024 → cellOf a k = if row0 f ≤ k / 32 ∧ k / 32 < row0 f + nrow f then {} else cellOf (setOf c) k) ∧
    a.scnt = (if row0 f = 0 ∧ nrow f = 32 then 0 else (setOf c).scnt) ∧ a.rdo = (setOf c).rdo) ∧
  (∀ f s c, Fires (.mma f) f s c → cellsOk (setOf c) → (setOf c).rdo.kind = 0 → c.p.acc0.rdo.kind ≠ 4 → c.p.acc1.rdo.kind ≠ 4 →
    let n := mmaLane f
    let x (m : Fmt) (j : Nat) : Fp := unpack m (lane n (c.va n) j)
    let y (m : Fmt) (j : Nat) : Fp := unpack m (lane n (c.vb n) j)
    let xm (j : Nat) : Fp := mxValue (f.md.toNat % 8) (lane n (c.va n) j)
    let ym (j : Nat) : Fp := mxValue (f.md.toNat % 8) (lane n (c.vb n) j)
    let p (k : Nat) : Contrib :=
      let i := k / 32
      let j := k % 32
      match f.typ with
      | .bf16 => contribOf [(x fBf16 i, y fBf16 j)] 0 false
      | .fp16 => contribOf [(x fFp16 i, y fFp16 j)] 0 false
      | .e4m3 => contribOf [(x fE4m3 (2 * i), y fE4m3 (2 * j)), (x fE4m3 (2 * i + 1), y fE4m3 (2 * j + 1))] 0 false
      | .e5m2 => contribOf [(x fE5m2 (2 * i), y fE5m2 (2 * j)), (x fE5m2 (2 * i + 1), y fE5m2 (2 * j + 1))] 0 false
      | _ =>
        let four := decide (f.md.toNat % 8 = 1)
        let sa := lane 8 (c.vc n) (if four then i / 8 else i / 16)
        let sb := lane 8 (c.vc n) (8 + if four then j / 8 else j / 16)
        let sc : Int := (sa : Int) + sb - 254
        let bad := decide (sa = 255 ∨ sb = 255)
        if four then contribOf [(xm (4 * i), ym (4 * j)), (xm (4 * i + 1), ym (4 * j + 1)), (xm (4 * i + 2), ym (4 * j + 2)),
          (xm (4 * i + 3), ym (4 * j + 3))] sc bad
        else contribOf [(xm (2 * i), ym (2 * j)), (xm (2 * i + 1), ym (2 * j + 1))] sc bad
    f.typ ∈ [.bf16, .fp16, .e4m3, .e5m2, .mx] → ∃ a t, exec (.mma f) s = .next t ∧
      Stepped c p (setOf c) a (commit s c { emits := zeroAll c c.sb, take := c.ops }) t) ∧
  (∀ f s c, Fires (.aaddv f) f s c → cellsOk (setOf c) → (setOf c).rdo.kind = 0 →
    let n := tyBits f.typ
    let one : Fp := .fin false 1 0
    let p (k : Nat) : Contrib :=
      let j := k % 32
      let at_ (l : Nat) : Contrib := contribOf [(unpack (fmtOf f.typ) (lane n (c.va n) l), one)] 0 false
      if row0 f ≤ k / 32 ∧ k / 32 < row0 f + nrow f then
        (if f.typ = .fp32 then (if j / 16 = (if f.md.getLsbD 0 then 1 else 0) then at_ (j % 16) else .zero) else at_ j)
      else .zero
    ∃ a t, exec (.aaddv f) s = .next t ∧ Stepped c p (setOf c) a (commit s c { emits := zeroAll c c.sb, take := c.ops }) t) ∧
  (∀ f s c, Fires (.aresc f) f s c → cellsOk (setOf c) → (setOf c).rdo.kind = 0 → ∃ a n,
    exec (.aresc f) s = .next (holdRaise c n (setAcc c a (commit s c { emits := emitAll c 1, take := c.ops }))) ∧
    cellsOk a ∧ a.scnt = (setOf c).scnt ∧
    ∀ k, k < 1024 →
      let x := cellOf (setOf c) k
      let y := cellOf a k
      let d : Int := sx 16 (lane 16 (c.va 16) (k / 32))
      let anc := ancOf x + d
      (x.aset = false → y = x) ∧
      (x.aset = true → -512 ≤ anc → anc ≤ 511 → ancOf y = anc ∧ y.sw = x.sw ∧ y.cw = x.cw ∧ y.stk = x.stk) ∧
      (x.aset = true → 511 < anc → ancOf y = 511 ∧ (cellV x = 0 → y.infp = x.infp ∧ y.infn = x.infn) ∧ (0 < cellV x → y.infp = true) ∧
        (cellV x < 0 → y.infn = true)) ∧
      (x.aset = true → anc < -512 → ancOf y = -512 ∧ (-512 - anc < 48 → cellV y = cellV x / 2 ^ (-512 - anc).toNat) ∧
        (y.stk = true ↔ x.stk = true ∨ cellV x % 2 ^ (-512 - anc).toNat ≠ 0))) ∧
  (∀ mk ∈ [Instr.acmp, .acmpq, .astat], ∀ f s c, Fires (mk f) f s c → (setOf c).rdo.kind = 0 → ∃ w sb,
    exec (mk f) s = .next (commit s c { emits := c.outs.map fun m => (m.1, m.2, ⟨w, sb⟩), take := c.ops }) ∧
    ∀ b, accOf (planeOf (tileAt (commit s c { emits := c.outs.map fun m => (m.1, m.2, ⟨w, sb⟩), take := c.ops }) c.x.tile) c.b) b = accOf c.p b) ∧
  (∀ mk ∈ [Instr.aclr, .mma, .aaddv, .aresc, .acmp, .acmpq, .astat, .resolve, .aimg, .aredl], ∀ f s c, HasTurn (mk f) f s c → MayExecute c →
    HoldsDemands c c.outs → (setOf c).rdo.kind ≠ 0 → Waits (mk f) s c (some .other))

/-- R186 to R188: with no readout or sort chunk on the set, ACMP compares the exact value of each cell of its row with lane 0 of B; ACMPQ looks at the
window of the upper halves alone, and answers LT or GT only where ACMP does; ASTAT counts set and sticky cells and gives SCNT, RDO, flags and
anchors. Each completes and leaves the set as it is. -/
def Obligations.AccumulatorCompares : Prop :=
  (∀ f s c, Fires (.acmp f) f s c → (setOf c).rdo.kind = 0 → ∃ w, exec (.acmp f) s = .next (firedWord s c w false) ∧
    ∀ j, j < 32 → lane 16 w j = acmpCell (cellOf (setOf c) (32 * (f.imm.toNat % 32) + j)) (unpack fFp32 (lane 32 (c.vb 32) 0))) ∧
  (∀ f s c, Fires (.acmpq f) f s c → (setOf c).rdo.kind = 0 → ∃ w, exec (.acmpq f) s = .next (firedWord s c w false) ∧
    ∀ j, j < 32 → lane 16 w j = acmpqCell (cellOf (setOf c) (32 * (f.imm.toNat % 32) + j)) (unpack fFp32 (lane 32 (c.vb 32) 0))) ∧
  (∀ x t, (cellNan x = true ∨ t = .nan → acmpCell x t = 3 ∧ acmpqCell x t = 2) ∧
    (cellNan x = false → t ≠ .nan →
      (x.infp = true → (acmpCell x t = if t = .inf false then 2 else 1) ∧ acmpqCell x t = if t = .inf false then 2 else 1) ∧
      (x.infn = true → (acmpCell x t = if t = .inf true then 2 else 0) ∧ acmpqCell x t = if t = .inf true then 2 else 0) ∧
      (x.infp = false → x.infn = false →
        let h := sx 16 (x.sw.toNat / 2 ^ 32) + sx 16 (x.cw.toNat / 2 ^ 32)
        let wide : Prop := h * 2 ^ 32 < -2 ^ 47 ∨ 2 ^ 47 ≤ h * 2 ^ 32 + 2 ^ 33 - 2
        (∀ n, t = .inf n → (acmpCell x t = if n then 1 else 0) ∧ (x.aset = false ∨ ¬wide → acmpqCell x t = if n then 1 else 0)) ∧
        (x.aset = true → wide → acmpqCell x t = 2) ∧
        ∀ n m e, t = .fin n m e →
          (x.aset = false → let o := cmpDy ⟨0, 0⟩ (toDy n m e)
            acmpCell x t = (if o = .lt then 0 else if o = .gt then 1 else 2) ∧ acmpqCell x t = (if o = .lt then 0 else if o = .gt then 1 else 2)) ∧
          (x.aset = true → ¬wide → let tu := toDy n m (e - (ancOf x - 40))
            acmpqCell x t = if cmpDy ⟨h * 2 ^ 32 + 2 ^ 33 - 2, 0⟩ tu = .lt then 0 else if cmpDy ⟨h * 2 ^ 32, 0⟩ tu = .gt then 1 else 2))) ∧
    (acmpqCell x t = 0 → acmpCell x t = 0) ∧ (acmpqCell x t = 1 → acmpCell x t = 1) ∧
    (∀ n m e, t = .fin n m e → cellNan x = false → x.infp = false → x.infn = false → x.aset = true →
      let o := cmpDy ⟨cellV x, ancOf x - 40⟩ (toDy n m e)
      acmpCell x t = if o = .lt then 0 else if o = .gt then 1 else if x.stk then 1 else 2)) ∧
  (∀ f s c, Fires (.astat f) f s c → cellsOk (setOf c) → (setOf c).rdo.kind = 0 → ∃ w,
    exec (.astat f) s = .next (commit s c { emits := c.outs.map fun m => (m.1, m.2, ⟨w, 0⟩), take := c.ops }) ∧
    let cs := (List.range 1024).map (cellOf (setOf c))
    lane 32 w 0 = (setOf c).scnt.toNat ∧ lane 32 w 1 = ((setOf c).rdo.slot * 2 ^ 22 + (setOf c).rdo.pos * 2 ^ 13) % 2 ^ 32 ∧ (∀ j, 7 ≤ j → lane 32 w j = 0) ∧ lane 32 w 2 = (cs.filter (·.aset)).length ∧ lane 32 w 3 = (cs.filter (·.stk)).length ∧
    (lane 32 w 4).testBit 4 = cs.any (·.ovf) ∧ (lane 32 w 4).testBit 3 = cs.any (·.inv) ∧ (lane 32 w 4).testBit 2 = cs.any (·.nans) ∧
    (lane 32 w 4).testBit 1 = cs.any (·.infp) ∧ (lane 32 w 4).testBit 0 = cs.any (·.infn) ∧
    ((∀ x ∈ cs, x.aset = false) → lane 32 w 5 = 0x80000000 ∧ lane 32 w 6 = 0x7FFFFFFF) ∧
    ((∃ x ∈ cs, x.aset = true) → (∃ x ∈ cs, x.aset = true ∧ sx 32 (lane 32 w 5) = ancOf x) ∧ (∃ x ∈ cs, x.aset = true ∧ sx 32 (lane 32 w 6) = ancOf x) ∧
      ∀ x ∈ cs, x.aset = true → ancOf x ≤ sx 32 (lane 32 w 5) ∧ sx 32 (lane 32 w 6) ≤ ancOf x))

/-- R189 to R191: a cell image holds the whole cell, and ALDI refuses one with reserved bits or of an unset cell that is not zero; ALDI writes the
header's SCNT or four cells of its place, counted by NF, sends its zero word after the last, and traps on a bad word without writing. -/
def Obligations.AccumulatorImages : Prop :=
  (∀ x, cellOfImage (cellImage x) = x ∧ cellImage x < 2 ^ 128 ∧
    (badImage (cellImage x) = true ↔ x.aset = false ∧ (x.sw ≠ 0 ∨ x.cw ≠ 0 ∨ x.anc ≠ 0 ∨ x.stk = true))) ∧
  (∀ v, v < 2 ^ 128 → badImage v = false → cellImage (cellOfImage v) = v) ∧
  ∀ f s c, HasTurn (.aldi f) f s c → MayExecute c → cellsOk (setOf c) → (setOf c).rdo.kind = 0 →
    let k := c.e.nf.toNat % (1 + 8 * nrow f)
    let w := c.va 512
    let bad : Prop := if k = 0 then w.toNat / 64 ≠ 0 else ∃ j, j < 4 ∧ badImage (lane 128 w j) = true
    let base := 32 * (row0 f + (k - 1) / 8) + 4 * ((k - 1) % 8)
    let e : Eff := { emits := if k = 8 * nrow f then zeroAll c 0b11 else [], take := c.ops }
    (bad → exec (.aldi f) s = .next (trapAt s c cAccImage none (payload3 (w.toNat % 2 ^ 64) 0 0) c.e.fflg)) ∧
    (¬bad → HoldsDemands c e.needs → row0 f + nrow f ≤ 32 → ∃ a, exec (.aldi f) s = .next (setAcc c a (commit s c e)) ∧ cellsOk a ∧
      (k = 0 → a.cells = (setOf c).cells ∧ a.scnt = if row0 f = 0 ∧ nrow f = 32 then BitVec.ofNat 6 w.toNat else (setOf c).scnt) ∧
      (k ≠ 0 → a.scnt = (setOf c).scnt ∧ ∀ n, n < 1024 →
        cellOf a n = if base ≤ n ∧ n < base + 4 then cellOfImage (lane 128 w (n - base)) else cellOf (setOf c) n))

/-- R175, R185, R189, R193 and R195: RESOLVE, AIMG and AREDL set RDO and nothing else; a readout word leaves once the element holds a demand on each
target, with sideband 10 at a row's end and 11 at the last, and moves POS on or ends the readout; RESOLVE's lanes are the cells rounded once by
Table 7.5, AIMG's are their images, AREDL's their fixed-point values; RROOT rounds the eight lanes of a reduction word. -/
def Obligations.Readouts : Prop :=
  (∀ f s c, HasTurn (.resolve f) f s c → MayExecute c → (setOf c).rdo.kind = 0 →
    exec (.resolve f) s = .next (setAcc c { setOf c with rdo := ⟨1, c.x.slot, 0⟩ } (commit s c { take := c.ops }))) ∧
  (∀ f s c, HasTurn (.aimg f) f s c → MayExecute c → (setOf c).rdo.kind = 0 →
    exec (.aimg f) s = .next (setAcc c { setOf c with rdo := ⟨2, c.x.slot, 0⟩ } (commit s c { take := c.ops }))) ∧
  (∀ f s c, HasTurn (.aredl f) f s c → MayExecute c → (setOf c).rdo.kind = 0 →
    exec (.aredl f) s = .next (setAcc c { setOf c with rdo := ⟨3, c.x.slot, 0⟩ } (commit s c { take := c.ops }))) ∧
  (∀ s t acc c, readoutOwner s t acc = some c → tileRuns s t = true →
    let a := accOf c.p acc
    let r := readoutAt c a.rdo.kind a.rdo.pos a
    let all := targetsOf c.i c.f
    (a.rdo.kind = 1 ∨ a.rdo.kind = 2 ∨ a.rdo.kind = 3) →
    (¬HoldsDemands c all → exec (.readoutWord t acc) s = .next (setWait s c (some .noDemand))) ∧
    (HoldsDemands c all → NoException c r.fls → ∃ u a', exec (.readoutWord t acc) s = .next (all.foldl (fun s m => emitTo s c.x c.b m.1 m.2 ⟨r.w, r.sb⟩) u) ∧
      accOf (planeOf (tileAt u t) c.b) acc = a' ∧ u.mem = s.mem ∧ u.scratch = s.scratch ∧ u.wires = s.wires ∧
      a'.rdo = (if r.last then {} else { a.rdo with pos := a.rdo.pos + 1 }) ∧ a'.scnt = a.scnt ∧
      (a.rdo.kind = 2 ∨ c.f.md.getLsbD 0 = false → a'.cells = a.cells) ∧
      (a.rdo.kind ≠ 2 → c.f.md.getLsbD 0 = true → cellsOk a → ∀ k, cellOf a' k = if k ∈ r.cells then {} else cellOf a k)) ∧
    (HoldsDemands c all → ∀ j, enabledLane c.l.rcd.fpen r.fls = some j → ∃ u, exec (.readoutWord t acc) s =
        .next (trapAt u c cFpException none (payload3 (allFlags r.fls).toNat j (r.row + r.col * 2 ^ 16)) c.e.fflg) ∧
      (accOf (planeOf (tileAt u t) c.b) acc).rdo = {} ∧ u.wires = s.wires)) ∧
  (∀ c pos a, let f := c.f
    let per := if f.typ = .fp32 then 2 else 1
    let row := row0 f + pos / per
    let r := readoutAt c 1 pos a
    let rnd := rndOf (f.md.toNat / 4 % 8)
    r.sb = (if pos + 1 ≥ per * nrow f then 0b11 else if pos % per + 1 = per then 0b10 else 0) ∧ (r.last = true ↔ per * nrow f ≤ pos + 1) ∧
    (8 ≤ tyBits f.typ → tyBits f.typ ≤ 32 → ∀ j, j < 32 / per → lane (tyBits f.typ) r.w j =
      (resolveCell (fmtOf f.typ) rnd (f.md.getLsbD 1) (((drawn c rnd (32 / per)).1[j]?).getD 0) (cellOf a (32 * row + 32 / per * (pos % per) + j))).bits % 2 ^ tyBits f.typ)) ∧
  (∀ c pos a, let row := row0 c.f + pos / 8
    let r := readoutAt c 2 (pos + 1) a
    (readoutAt c 2 0 a).w = low a.scnt.toNat ∧ (readoutAt c 2 0 a).sb = 0 ∧ (readoutAt c 2 0 a).last = false ∧
    r.sb = (if pos + 1 ≥ 8 * nrow c.f then 0b11 else if pos % 8 = 7 then 0b10 else 0) ∧
    ∀ j, j < 4 → lane 128 r.w j = cellImage (cellOf a (32 * row + 4 * (pos % 8) + j))) ∧
  (∀ c pos a, let row := row0 c.f + pos / 4
    let rda := sx 10 (lane 64 (c.vb 64) 0 % 1024)
    let r := readoutAt c 3 pos a
    ∀ j, j < 8 → lane 64 r.w j = (redLane rda (cellOf a (32 * row + 8 * (pos % 4) + j))).bits % 2 ^ 64) ∧
  (∀ m r sat k x, let R := resolveCell m r sat k x
    (cellNan x = true → R = ⟨nanBits m, if x.ovf ∨ x.inv ∨ (x.infp ∧ x.infn) then flNV else 0⟩) ∧
    (cellNan x = false → x.infp = true → R = infTo m r sat false) ∧ (cellNan x = false → x.infn = true → R = infTo m r sat true) ∧
    (cellNan x = false → x.infp = false → x.infn = false → (x.aset = false → R = ⟨signed m (r == .rm) 0, 0⟩) ∧
      (x.aset = true → x.stk = false → R = roundDy m r sat (r == .rm) ⟨cellV x, ancOf x - 40⟩ k))) ∧
  (∀ rda x, x.aset = true → cellNan x = false → x.infp = false → x.infn = false → ancOf x - 40 = rda - 56 → (cellV x).natAbs < 2 ^ 47 →
    sx 64 (redLane rda x).bits = cellV x) ∧
  (∀ f s c, Fires (.rroot f) f s c →
    RoundsTo (.rroot f) s c (tyBits f.typ) 8 (lfAfter c 8) false fun j =>
      roundDy (fmtOf f.typ) (rndF f) (satF f) (rndF f == .rm) ⟨sx 64 (lane 64 (c.va 64) j), sx 10 (lane 64 (c.vb 64) 0 % 1024) - 56⟩ (rk c 8 j))

/-- R196 to R199: XSORT's order is stable, by rank; a word of keys enters the chunk of the set and shows RDO KIND 4; a chunk closes at a row's end or
at 1,024 keys and then holds its words in order, with the indices or pairs that FORM2 asks for; a control token discards an open chunk; each word leaves
under demand, and the last one frees the set. XMERGE takes words of A and B, merges pairs in order with ties to A, and emits words of eight. -/
def Obligations.SortMode : Prop :=
  (∀ t desc (l : List (Nat × Nat)), l.length ≤ 2048 →
    let le (x y : Nat × Nat) : Bool := keyLe t desc x.1 y.1
    let r := sortBy le 11 l
    r.Perm l ∧ (∀ (i j : Nat) x y, i < j → r[i]? = some x → r[j]? = some y → le x y = true) ∧
    ∀ k, r.filter (fun x => keyRank t x.1 == k) = l.filter (fun x => keyRank t x.1 == k)) ∧
  (∀ f sb keys, tyBits f.typ = 16 ∨ tyBits f.typ = 32 → keys.length ≤ 2048 →
    let n := tyBits f.typ
    let l := sortBy (fun x y => keyLe f.typ (f.md.getLsbD 4) x.1 y.1) 11 keys
    let ws := chunkWords f sb keys
    let cut (m per : Nat) (g : Nat × Nat → Nat) (us : List Token) : Prop := us.length = (l.length + per - 1) / per ∧
      ∀ i u, us[i]? = some u → u.sb = (if i + 1 = us.length then sb else 0) ∧ ∀ j, j < per → lane m u.pay j = ((l[per * i + j]?.map g).getD 0) % 2 ^ m
    let side (k : Nat) : List Token := (ws.filter fun w => w.1 == k).map (·.2)
    (f.md.toNat / 4 % 4 = 0 → cut n (512 / n) (·.1) (side 0) ∧ side 1 = [] ∧ ws.length = (side 0).length) ∧
    (f.md.toNat / 4 % 4 = 1 → cut n (512 / n) (·.1) (side 0) ∧ cut 32 16 (·.2) (side 1) ∧ ws.length = (side 0).length + (side 1).length) ∧
    (f.md.toNat / 4 % 4 = 2 → cut 64 8 (fun x => x.1 * 2 ^ 32 + x.2) (side 0) ∧ side 1 = [] ∧ ws.length = (side 0).length)) ∧
  (∀ f s c t, HasTurn (.xsort f) f s c → c.ha = some t →
    let a := setOf c
    let n := tyBits f.typ
    let pos := a.sort.runs.get c.x.slot 0
    let opened : Prop := a.rdo.kind = 4 ∧ a.rdo.slot = c.x.slot ∧ a.sort.words = []
    let keys := a.sort.keys ++ (List.range (512 / n)).map fun i => (lane n t.pay i, (pos + i) % 2 ^ 32)
    let ends : Prop := t.sb = 0b10 ∨ t.sb = 0b11
    (isCtl t = false → a.rdo.kind = 0 ∨ opened → ∃ a', exec (.xsort f) s = .next (setAcc c a' (commit s c { take := [.a] })) ∧
      a'.cells = a.cells ∧ a'.scnt = a.scnt ∧ a'.rdo.kind = 4 ∧ a'.rdo.slot = c.x.slot ∧
      (∀ k, k ≠ c.x.slot → a'.sort.runs.get k 0 = a.sort.runs.get k 0) ∧
      (¬ends → keys.length < 1024 → a'.sort.keys = keys ∧ a'.sort.runs.get c.x.slot 0 = pos + 512 / n ∧ a'.sort.words = []) ∧
      (¬ends → 1024 ≤ keys.length → a'.sort.keys = [] ∧ a'.sort.runs.get c.x.slot 0 = pos + 512 / n ∧ a'.sort.words = chunkWords f 0b10 keys) ∧
      (ends → a'.sort.keys = [] ∧ a'.sort.runs.get c.x.slot 0 = 0 ∧ a'.sort.words = chunkWords f t.sb keys)) ∧
    (isCtl t = false → a.rdo.kind ≠ 0 → ¬opened → Waits (.xsort f) s c (some .other)) ∧
    (isCtl t = true → ¬opened → Waits (.xsort f) s c none) ∧
    (isCtl t = true → opened → HoldsDemands c c.outs → exec (.xsort f) s =
      .next (setAcc c { a with cells := [], rdo := {}, sort := { runs := a.sort.runs.del c.x.slot } } (commit s c (poisonOn c 5 [] c.outs))))) ∧
  (∀ s t acc c k tok rest tg, readoutOwner s t acc = some c → tileRuns s t = true → (accOf c.p acc).sort.words = (k, tok) :: rest →
    (targetsOf c.i c.f).find? (fun m => m.1 == k) = some (k, tg) →
    let a := accOf c.p acc
    let a' : AccSet := if rest = [] then { a with cells := [], rdo := {}, sort := { a.sort with words := [] } }
      else { a with rdo := { a.rdo with pos := a.rdo.pos + 1 }, sort := { a.sort with words := rest } }
    (HoldsDemands c [(k, tg)] → exec (.sortChunkWord t acc) s = .next (emitTo (modPlane s t c.b fun p => withAcc p acc a') c.x c.b k tg tok)) ∧
    (¬HoldsDemands c [(k, tg)] → exec (.sortChunkWord t acc) s = .next (setWait s c (some .noDemand)))) ∧
  (∀ t desc n m, m.bufA.length + m.bufB.length < n → m.pend.length ≤ 8 →
    let r := xmRun t desc n m
    let le (x y : Nat) : Bool := keyLe t desc (x / 2 ^ 32) (y / 2 ^ 32)
    (∃ out, r.pend = m.pend ++ out ∧ mergeBy le n m.bufA m.bufB = out ++ mergeBy le n r.bufA r.bufB) ∧
    r.da = m.da ∧ r.db = m.db ∧ r.xa = m.xa ∧ r.xb = m.xb ∧ r.pend.length ≤ 8 ∧
    (r.pend.length < 8 → (r.bufA = [] ∧ r.da = false) ∨ (r.bufB = [] ∧ r.db = false) ∨ (r.bufA = [] ∧ r.bufB = []))) ∧
  ∀ f s c, HasTurn (.xmerge f) f s c →
    let m := c.e.xm
    let row (t : Token) : Bool := isData t || isBubble t
    let upto (m : Xmerge) : State → State := fun s => modElem s c.x c.b fun e => { e with xm := m }
    let run (m : Xmerge) : Xmerge := xmRun f.typ (f.md.getLsbD 4) 32 m
    let done : Prop := m.da = true ∧ m.db = true ∧ m.bufA = [] ∧ m.bufB = []
    let needA : Prop := m.bufA = [] ∧ m.da = false
    let needB : Prop := m.bufB = [] ∧ m.db = false
    let ps (t : Token) : List Nat := if isData t then (List.range 8).map (lane 64 t.pay) else []
    (done → m.pend = [] → Does (.xmerge f) s c { emits := toAll c (bubble (m.xa && m.xb)), nf := false, post := upto {} }) ∧
    (done → m.pend ≠ [] → ∃ w, (∀ j, j < 8 → lane 64 w j = (m.pend[j]?).getD 0 % 2 ^ 64) ∧
      Does (.xmerge f) s c { emits := toAll c ⟨w, if m.xa && m.xb then 0b11 else 0b10⟩, nf := false, post := upto {} }) ∧
    (¬done → 8 ≤ m.pend.length → ∃ w, (∀ j, j < 8 → lane 64 w j = (m.pend[j]?).getD 0 % 2 ^ 64) ∧
      Does (.xmerge f) s c { emits := toAll c ⟨w, 0⟩, nf := false, post := upto (run { m with pend := [] }) }) ∧
    (¬done → m.pend.length < 8 →
      (∀ t, needA → c.ha = some t → row t = true → (needB → ∀ u, c.hb = some u → row u = true) →
        Does (.xmerge f) s c { take := [.a], nf := isData t, post := upto (run { m with bufA := ps t, da := endsRow t, xa := endsStream t }) }) ∧
      (∀ t, needB → c.hb = some t → row t = true → (needA → c.ha = none) →
        Does (.xmerge f) s c { take := [.b], nf := isData t, post := upto (run { m with bufB := ps t, db := endsRow t, xb := endsStream t }) }) ∧
      (∀ t, needA → c.ha = some t → row t = false → (xmIdle m = true → ∃ u, c.hb = some u ∧ row u = true) →
        Does (.xmerge f) s c { emits := poisons c 8, nf := false, poison := 1, post := upto (run { m with da := true, xa := true }) }) ∧
      (∀ t, needB → c.hb = some t → row t = false → (needA → ∀ u, c.ha = some u → row u = true) →
          (xmIdle m = true → ∃ u, c.ha = some u ∧ row u = true) →
        Does (.xmerge f) s c { emits := poisons c 8, nf := false, poison := 1, post := upto (run { m with db := true, xb := true }) }))

/-! ### Rings -/

/-- R252 to R258, R279 (log 100): a push asks for its word to be written at its place of the tail entry, and the last word of an entry completes it; a
pop asks for the head entry's words in order; DISC drops a whole head entry; RSTAT gives the descriptor, and SET loads one or faults; MMA in ring form
is one step for each pair of words of the two head entries, then pops them; an engine's word lands in its reserved entry, or nothing of it in a bank
without a grant, and the entries complete in the order of their reservation. -/
def Obligations.Rings : Prop :=
  (∀ r : Ring, (ringFull r = true ↔ r.nent.toNat + 1 ≤ r.cnt.toNat + r.resv.length ∨ (r.cnt.toNat + r.resv.length = r.nent.toNat ∧ r.wpos ≠ 0)) ∧
    (r.resv = [] → ringComplete r = { r with wpos := 0, tail := BitVec.ofNat 12 ((r.tail.toNat + 1) % (r.nent.toNat + 1)), cnt := r.cnt + 1 }) ∧
    ringPop r = { r with rpos := 0, head := BitVec.ofNat 12 ((r.head.toNat + 1) % (r.nent.toNat + 1)), cnt := r.cnt - 1 } ∧
    (∀ k w, ringOff r k w = r.base.toNat + (k * (r.esz.toNat + 1) + w) * 64) ∧
    (∀ k b l, r.resv = (k, b) :: l → (∀ e ∈ l, e.1 ≠ k ∧ e.2 = false) → ringLand r k = { r with resv := l, cnt := r.cnt + 1 }) ∧
    (∀ k b l j, r.resv = (k, false) :: l → j ≠ k → l = [(j, b)] → ringLand r j = { r with resv := [(k, false), (j, true)] })) ∧
  (∀ s t off w, memoriesCanonical s = true → off % 16 = 0 → let u := putScrWord s t off w
    scrWord u t off = w ∧ scratchBut s u (scrKey t off) 64 ∧ ∀ g, g ∈ u.feb ↔ g ∈ s.feb ∨ (scrKey t off / 16 ≤ g ∧ g < scrKey t off / 16 + 4)) ∧
  (∀ c op off dest, off % 16 = 0 → let q := ringReq c op off dest
    q.ring = true ∧ q.phase = .home ∧ q.who = c.x ∧ q.plane = c.b ∧ q.op = op ∧ q.dest = dest ∧ q.counted = true ∧ (∀ p ∈ q.rest, p.sp = .scr) ∧
    Covers q.rest (fun k => c.ti * 2 ^ 20 + off + k) 64) ∧
  (∀ f s c, HasTurn (.rpush f) f s c → MayExecute c →
    let n := f.imm.toNat % 8
    let r := ringAt c.p n
    let off := ringOff r r.tail.toNat r.wpos.toNat
    let last : Bool := decide (r.esz.toNat + 1 ≤ r.wpos.toNat + 1)
    let e : Eff := { emits := if last then zeroAll c 0 else [], take := c.ops }
    ringSetDue c.p n = false →
    (r.v = false → exec (.rpush f) s = .next (trapAt s c cRingMisuse none (payload3 (c.va 512).toNat 0 0) c.e.fflg)) ∧
    (r.v = true → ringFull r = true → Waits (.rpush f) s c (some .ringFull)) ∧
    (r.v = true → ringFull r = false → 16 ≤ c.e.outs.toNat → Waits (.rpush f) s c (some .other)) ∧
    (r.v = true → ringFull r = false → c.e.outs.toNat < 16 → HoldsDemands c e.needs → exec (.rpush f) s =
      .next (modRing (issueReq (commit s c e) (ringReq c (.write (c.va 512)) off (.targets [] 0))) c.x.tile c.b n fun r =>
        if last then ringComplete r else { r with wpos := r.wpos + 1 }))) ∧
  (∀ f s c, Fires (.rpop f) f s c →
    let n := f.imm.toNat % 8
    let r := ringAt c.p n
    let off := ringOff r r.head.toNat r.rpos.toNat
    let last : Bool := decide (r.esz.toNat + 1 ≤ r.rpos.toNat + 1)
    ringSetDue c.p n = false →
    (r.v = false → exec (.rpop f) s = .next (trapAt s c cRingMisuse none (payload3 (c.va 512).toNat 0 0) c.e.fflg)) ∧
    (r.v = true → r.cnt = 0 → Waits (.rpop f) s c (some .ringEmpty)) ∧
    (r.v = true → r.cnt ≠ 0 → 16 ≤ c.e.outs.toNat → Waits (.rpop f) s c (some .other)) ∧
    (r.v = true → r.cnt ≠ 0 → c.e.outs.toNat < 16 → exec (.rpop f) s = .next (modRing (issueReq (commit s c { take := c.ops, reserve := c.outs })
      (ringReq c (.read false false 0) off (.targets (c.outs.map (·.1)) (if last then 0b10 else 0)))) c.x.tile c.b n fun r =>
        if last then ringPop r else { r with rpos := r.rpos + 1 }))) ∧
  (∀ f s c, Fires (.rpopDisc f) f s c →
    let n := f.imm.toNat % 8
    let r := ringAt c.p n
    ringSetDue c.p n = false →
    (r.v = false ∨ (r.cnt ≠ 0 ∧ r.rpos ≠ 0) → exec (.rpopDisc f) s = .next (trapAt s c cRingMisuse none (payload3 (c.va 512).toNat 0 0) c.e.fflg)) ∧
    (r.v = true → r.cnt = 0 → Waits (.rpopDisc f) s c (some .ringEmpty)) ∧
    (r.v = true → r.cnt ≠ 0 → r.rpos = 0 → exec (.rpopDisc f) s =
      .next (modRing (commit s c { emits := zeroAll c 0, take := c.ops }) c.x.tile c.b n ringPop))) ∧
  (∀ f s c, Fires (.rstat f) f s c →
    let n := f.imm.toNat % 8
    let r := ringAt c.p n
    ringSetDue c.p n = false → ∃ w, exec (.rstat f) s = .next (commit s c { emits := c.outs.map (fun m => (m.1, m.2, ⟨w, 0⟩)), take := c.ops }) ∧
      w.toNat = 2 ^ 35 * (r.rpos.toNat + 2 ^ 6 * (r.wpos.toNat + 2 ^ 6 * (r.cnt.toNat + 2 ^ 13 * (r.tail.toNat + 2 ^ 12 * (r.head.toNat + 2 ^ 12 *
        (r.base.toNat + 2 ^ 20 * (r.nent.toNat + 2 ^ 12 * (r.esz.toNat + 2 ^ 6 * (r.efmt.toNat + 2 ^ 4 * (r.dual.toNat + 2 * r.v.toNat))))))))))) ∧
  (∀ f s c, Fires (.rstatSet f) f s c → c.ops = [] ∨ ringSetDue c.p (f.imm.toNat % 8) = false →
    let n := f.imm.toNat % 8
    let old := ringAt c.p n
    let r := ringOfBits ((c.va 512).toNat % 2 ^ 128)
    let bad : Prop := (old.v = true ∧ (old.cnt ≠ 0 ∨ old.wpos ≠ 0 ∨ old.rpos ≠ 0)) ∨ old.resv ≠ [] ∨
      (r.v = true ∧ 2 ^ 20 < r.base.toNat + (r.nent.toNat + 1) * (r.esz.toNat + 1) * 64) ∨
      (r.v = true ∧ ∃ o, r.base.toNat ≤ o ∧ o < r.base.toNat + (r.nent.toNat + 1) * (r.esz.toNat + 1) * 64 ∧ o < 2 ^ 20 ∧ granted c.t (o / 2 ^ 16) = false) ∨
      (c.va 512).toNat / 2 ^ 84 % 2 ^ 6 ≠ 0 ∨ (c.va 512).toNat % 2 ^ 35 ≠ 0
    (bad → exec (.rstatSet f) s = .next (trapAt s c cRingMisuse none (payload3 (c.va 512).toNat 0 0) c.e.fflg)) ∧
    (¬bad → exec (.rstatSet f) s = .next (modRing (commit s c { emits := zeroAll c c.sb, take := c.ops }) c.x.tile c.b n fun _ => r)) ∧
    r.head = 0 ∧ r.tail = 0 ∧ r.cnt = 0 ∧ r.wpos = 0 ∧ r.rpos = 0 ∧ r.resv = []) ∧
  (∀ f s c, Fires (.mmaRing f) f s c → cellsOk (setOf c) → (setOf c).rdo.kind = 0 → c.p.acc0.rdo.kind ≠ 4 → c.p.acc1.rdo.kind ≠ 4 →
    let na := f.imm.toNat / 512 % 8
    let nb := f.imm.toNat / 64 % 8
    let ks := f.imm.toNat % 64 + 1
    let ra := ringAt c.p na
    let rb := ringAt c.p nb
    let need := if f.typ = .mx then 2 * ks else ks
    let wb := if rb.dual then (rb.esz.toNat + 1) / 2 else 0
    let la := if ra.dual then (ra.esz.toNat + 1) / 2 else ra.esz.toNat + 1
    let lb := if rb.dual then (rb.esz.toNat + 1) / 2 else rb.esz.toNat + 1
    let a (k : Nat) : Nat := ringOff ra ra.head.toNat k
    let b (k : Nat) : Nat := ringOff rb rb.head.toNat (wb + k)
    let word (o : Nat) : Word := ringWord s c.x.tile o
    ((∀ k q, (k, q) ∈ s.reqs → q.ring = false) → ∀ o, word o = scrWord s c.x.tile o) ∧
    let p (k : Nat) : Nat → Contrib := mmaContrib f (word (a k)) (word (b k)) (fun i => lane 8 (word (a (ks + k))) (mmaBlk f i))
      (fun j => lane 8 (word (b (ks + k))) (mmaBlk f j))
    (ringSetDue c.p na = false → ringSetDue c.p nb = false → ra.v = true → rb.v = true → (na = nb → ra.dual = true) → need ≤ la → need ≤ lb →
    (ra.cnt = 0 ∨ rb.cnt = 0 → Waits (.mmaRing f) s c (some .ringEmpty)) ∧
    (ra.cnt ≠ 0 → rb.cnt ≠ 0 → ra.rpos = 0 → rb.rpos = 0 → BanksServe c ((List.range need).map a ++ (List.range need).map b) →
      ∃ t, ∃ as : Nat → AccSet, exec (.mmaRing f) s = .next t ∧ as 0 = setOf c ∧ (∀ k, k < ks → StepsTo (p k) (as k) (as (k + 1))) ∧
        accOf (planeOf (tileAt t c.x.tile) c.b) (asel c) = as ks ∧ sameMemory s t ∧
        ringAt (planeOf (tileAt t c.x.tile) c.b) na = ringPop ra ∧ ringAt (planeOf (tileAt t c.x.tile) c.b) nb = ringPop rb))) ∧
  (∀ s k r n entry w, s.reqs.find k = some r → r.dest = .ring n entry w → r.phase = .done → stored (leaseAt s r.lease) = false → r.err = none →
    let p := planeOf (tileAt s r.who.tile) r.plane
    let off := ringOff (ringAt p n) entry w
    (∀ j q, (j, q) ∈ s.reqs → j < k → q.ring = true → q.who.tile = r.who.tile → ∀ g ∈ q.rest, ringMeets s q off g = false) →
    (granted (tileAt s r.who.tile) (bankOf off) = false → ∃ t, exec (.ringDeliveryLand k) s = .next t ∧ t.reqs.find k = none ∧ t.scratch = s.scratch) ∧
    (granted (tileAt s r.who.tile) (bankOf off) = true → bankReady (tileAt s r.who.tile) (bankOf off) = true → off % 16 = 0 → memoriesCanonical s = true → ∃ t, exec (.ringDeliveryLand k) s = .next t ∧ t.reqs.find k = none ∧
      scrWord t r.who.tile off = r.got ∧ scratchBut s t (scrKey r.who.tile off) 64 ∧
      let more : Prop := ∃ j q m, (j, q) ∈ s.reqs ∧ j ≠ k ∧ q.who.tile = r.who.tile ∧ q.plane = r.plane ∧ q.dest = .ring n entry m
      (more → ringAt (planeOf (tileAt t r.who.tile) r.plane) n = ringAt p n) ∧
      (¬more → ringAt (planeOf (tileAt t r.who.tile) r.plane) n = ringLand (ringAt p n) entry)))

/-! ### Scratch memory -/

/-- R276, R305 to R312 and R320 to R322: LDS, STS, their indexed forms, FESET, FECLR, PREFW and the atomics issue one request over the bytes that the rules
name, or trap with SCRATCH_RANGE, ALIGN, TENSOR_RANGE or TID_FORMAT and issue nothing; FENCE lets its token pass when no access that it covers is
outstanding, and waits until then; but one whose accesses are all on their way goes ahead and marks them, so that what could tell stands back
(the model's choice, log 99). -/
def Obligations.ScratchRequests : Prop :=
  (∀ s r, let u := issueReq s r
    u.reqs.find s.nextReq = some r ∧ u.nextReq = s.nextReq + 1 ∧ (∀ k, k ≠ s.nextReq → u.reqs.find k = s.reqs.find k) ∧ sameMemory s u) ∧
  (let single (mk : Fields → Instr) (op : Fields → Ctx → ReqOp) : Prop := ∀ f s c, Fires (mk f) f s c →
    let w := tyBits f.typ / 8
    let ea := (((c.aa : Int) + f.imm.toInt * (w : Int)) % 2 ^ 64).toNat
    let ok : Prop := InLease c ea ∧ InLease c c.aa ∧ ea / 2 ^ 20 = c.aa / 2 ^ 20
    (¬ok → MemTraps (mk f) s c cScratchRange ea 0) ∧ (ok → ea % w ≠ 0 → MemTraps (mk f) s c cAlign ea 0) ∧
    (ok → ea % w = 0 → Issues (mk f) s c .other fun r => AsksScratch c r (op f c) ∧ Covers r.rest (fun k => rebase c (ea + k)) w)
  single .lds (fun f _ => .read (f.md.getLsbD 5) (f.md.getLsbD 4) 0) ∧ single .sts (fun f c => .write (c.vb (tyBits f.typ)))) ∧
  (let indexed (mk : Fields → Instr) (op : Fields → Ctx → ReqOp) : Prop := ∀ f s c, Fires (mk f) f s c →
    let w := tyBits f.typ / 8
    let n := min 16 (64 / w)
    let ea (j : Nat) : Nat := c.aa + lane 32 (c.vb 32) j * w
    let ok (j : Nat) : Prop := InLease c (ea j) ∧ InLease c c.aa ∧ ea j / 2 ^ 20 = c.aa / 2 ^ 20
    let fine (j : Nat) : Prop := ok j ∧ ea j % w = 0
    (∀ j, j < n → (∀ i, i < j → fine i) →
      (¬ok j → MemTraps (mk f) s c cScratchRange (ea j) 0) ∧ (ok j → ea j % w ≠ 0 → MemTraps (mk f) s c cAlign (ea j) 0)) ∧
    ((∀ j, j < n → fine j) → Issues (mk f) s c .other fun r =>
      AsksScratch c r (op f c) ∧ Covers r.rest (fun k => rebase c (ea (k / w) + k % w)) (n * w))
  indexed .ldsi (fun f _ => .read (f.md.getLsbD 5) (f.md.getLsbD 4) 0) ∧ indexed .stsi (fun f c => .write (c.vc (tyBits f.typ)))) ∧
  (let bits (mk : Fields → Instr) (b : Bool) : Prop := ∀ f s c, Fires (mk f) f s c →
    let a := lane 64 (c.va 64) 0
    let n := lane 64 (c.va 64) 1
    let ok : Prop := InLease c a ∧ 0 < n ∧ n ≤ 65536 ∧ a % 2 ^ 20 + 16 * n ≤ 2 ^ 20
    (¬ok → MemTraps (mk f) s c cScratchRange a 0) ∧ (ok → a % 16 ≠ 0 → MemTraps (mk f) s c cAlign a 0) ∧
    (ok → a % 16 = 0 → Issues (mk f) s c .other fun r => AsksScratch c r (.feb b) ∧ Covers r.rest (fun k => rebase c (a + k)) (16 * n))
  bits .feset true ∧ bits .feclr false) ∧
  (∀ f s c, Fires (.prefw f) f s c →
    let a := lane 64 (c.va 64) 0
    let n := lane 64 (c.va 64) 1
    let ok : Prop := InLease c a ∧ 0 < n ∧ n ≤ 2 ^ 20 ∧ a % 2 ^ 20 + n ≤ 2 ^ 20
    (¬ok → MemTraps (.prefw f) s c cScratchRange a 0) ∧
    (ok → Issues (.prefw f) s c .other fun r => AsksScratch c r .wake ∧ (∀ p ∈ r.rest, p.addr / 2 ^ 20 = rebase c a / 2 ^ 20) ∧
      ∀ b, b < 16 → ((∃ p ∈ r.rest, bankOf p.addr = b) ↔ ∃ k, k < n ∧ bankOf (a + k) = b))) ∧
  (∀ m ∈ [(Instr.aadd, 0xB0), (.afadd, 0xB1), (.amin, 0xB2), (.amax, 0xB3), (.aand, 0xB4), (.aor, 0xB5), (.axor, 0xB6), (.axch, 0xB7), (.acas, 0xB8),
      (.aincb, 0xB9)], ∀ f s c, Fires (m.1 f) f s c → tyBits f.typ = 32 ∨ tyBits f.typ = 64 →
    let n := tyBits f.typ
    let op : ReqOp := .atomic m.2 n (tySigned f.typ) (lane n (c.vb n) 0) (lane n (c.vc n) 0) (f.md.extractLsb' 0 2) (f.md.extractLsb' 2 3)
    let a := c.aa
    (f.md.getLsbD 5 = false →
      (¬InLease c a → MemTraps (m.1 f) s c cScratchRange a 0) ∧ (InLease c a → a % (n / 8) ≠ 0 → MemTraps (m.1 f) s c cAlign a 0) ∧
      (InLease c a → a % (n / 8) = 0 → Issues (m.1 f) s c .other fun r => AsksScratch c r op ∧ Covers r.rest (fun k => rebase c (a + k)) (n / 8))) ∧
    (f.md.getLsbD 5 = true →
      let tid := f.imm.toNat / 16
      let t := tidFor c tid
      let fmt := if f.typ = .fp32 then 5 else if n = 64 then 4 else 3
      (t.fmt ≠ fmt → exec (m.1 f) s = .next (trapAt s c cTidFormat none (payload3 a 0 0) c.e.fflg)) ∧
      (t.fmt = fmt → tidCount t ≤ a → MemTraps (m.1 f) s c cTensorRange a tid) ∧
      (t.fmt = fmt → a < tidCount t → elemAddr t a % (n / 8) ≠ 0 →
        exec (m.1 f) s = .next (trapAt s c cAlign none (payload3 a tid (elemAddr t a)) c.e.fflg)) ∧
      (t.fmt = fmt → a < tidCount t → elemAddr t a % (n / 8) = 0 → Issues (m.1 f) s c .hbm fun r =>
        Asks c r op ∧ r.phase = .issued ∧ r.tid = tid ∧ (∀ p ∈ r.rest, p.sp = .va) ∧ Covers r.rest (fun k => elemAddr t a + k) (n / 8)))) ∧
  (∀ f s c t, HasTurn (.fence f) f s c → c.ha = some t → isSwitch t = false → isSnap t = false → (.p ∈ c.ops → c.hp.isSome = true) →
    (∀ p, c.hp = some p → isCtl p = false) → (isData t = true → predOff c = false) →
    let kind := f.md.toNat % 4
    let un (p : Piece) : Prop := p.sp = .pa ∧ p.okind = 2
    let held (r : Req) (p : Piece) : Prop :=
      (kind = 0 → reqReads r = true ∧ ¬un p) ∧ (kind = 1 → (reqReads r = true ∨ reqWrites r = true) ∧ ¬un p) ∧
      (kind = 2 → reqReads r = true ∨ reqWrites r = true) ∧ (kind = 3 → reqWrites r = true)
    let due (u : State) (k : Nat) (r : Req) : Prop :=
      (k, r) ∈ u.reqs ∧ k < u.nextReq ∧ r.who.tile = c.x.tile ∧ r.counted = true ∧ ∃ p ∈ r.rest, held r p
    let passes : Prop := (∀ k r, ¬due s k r) ∨ (kind < 3 ∧ ∃ l, (∀ k r, (k, r) ∈ l ↔ due s k r) ∧ mayPass s l = true)
    (¬passes → Waits (.fence f) s c (some .fence)) ∧
    (passes → ∃ g, Does (.fence f) s c { emits := toAll c t, take := c.ops, nf := isData t, post := g } ∧
      ∀ u, g u = { u with reqs := (g u).reqs } ∧ ∀ k r, u.reqs.find k = some r →
        ((∃ q, due u k q) → kind < 3 → (g u).reqs.find k = some { r with marks := r.marks ++ [scopeOf f] }) ∧
        (¬(∃ q, due u k q) ∨ kind = 3 → (g u).reqs.find k = some r)))

/-- R279, R280, R282, R289, R290 and R319: a bank that serves performs one granule of a request: a store puts its bytes and fills the granule, a load
gets its bytes, a load under F waits until every granule that it covers is full (one whose lanes wait each for its own is `begun`, R309), one under C
empties each behind earlier such loads, an atomic answers the old value and stores the new one of Table 11.8 and marks what it goes ahead of (log 99).
An ungranted bank fails the request, but of a job only the granule (R331, log 27). A waiting load reads once its granules are full; after 2^24 cycles
its element traps. -/
def Obligations.BankService : Prop :=
  (∀ opc n g m b d, atomicNew opc n g m b d =
    if opc = 0xB0 then ((m + b) % 2 ^ n, true)
    else if opc = 0xB1 then ((fAdd fFp32 .rn false 0 (unpack fFp32 m) (unpack fFp32 b)).bits, true)
    else if opc = 0xB2 then ((min (rd g n m) (rd g n b) % 2 ^ n).toNat, true)
    else if opc = 0xB3 then ((max (rd g n m) (rd g n b) % 2 ^ n).toNat, true)
    else if opc = 0xB4 then (m &&& b, true) else if opc = 0xB5 then (m ||| b, true) else if opc = 0xB6 then (m ^^^ b, true)
    else if opc = 0xB7 then (b, true) else if opc = 0xB8 then (if m = d then (b, true) else (m, false))
    else (if b ≤ m then 0 else m + 1, true)) ∧
  (∀ s k i r p rest, memoriesCanonical s = true → s.reqs.find k = some r → r.phase = .home → pickGranule r.rest i = some (p, rest) → p.sp = .scr →
    let t := (scrPlace s r.lease p.addr).1
    let off := (scrPlace s r.lease p.addr).2
    let x := tileAt s t
    let key := t * 2 ^ 20 + off
    let rest' (u : State) : Prop := ∃ q, u.reqs.find k = some q ∧ q.rest = rest ∧ q.dest = r.dest ∧ q.op = r.op ∧ q.err = r.err ∧
      (q.phase = if rest = [] then .done else .home)
    let full : Prop := ∀ q ∈ r.rest, let u := scrPlace s r.lease q.addr
      (u.1 * 2 ^ 20 + u.2) / 16 ∈ s.feb
    let mine (c : Bool) : Prop := key / 16 ∈ s.feb ∧ (r.begun = true ∨ full) ∧ (c = true → feAhead s k r t (off / 16) = false)
    (granted x (bankOf off) = false → exec (.bankAccess k i) s = .next { s with reqs := s.reqs.put k (failPiece r p rest cBankUngranted 0) }) ∧
    (granted x (bankOf off) = true → bankReady x (bankOf off) = true → shut x = false → (∀ d, x.drain = some d → d.mask.getLsbD (bankOf off) = false ∨ k < d.before) →
      scrTurn s k r t (off / 16) = true → mayPass s (releaseDue s k r 0) = true → standsBack s r p = false → s.badMem.contains (scrBad key) = false → 0 < p.len → off % 16 + p.len ≤ 16 →
      (∀ f c n, r.op ≠ .read f c n → rest = [] ∨ (r.rest.takeWhile fun q => !withinPiece p q).any (sameGranule s r t (off / 16)) = false) →
      (∀ w, r.op = .write w → ∃ u, exec (.bankAccess k i) s = .next u ∧ rest' u ∧
        (∀ j, j < p.len → (Memory.read u.scratch (key + j)).toNat = w.toNat / 2 ^ (8 * (p.pos + j)) % 2 ^ 8) ∧ scratchBut s u key p.len ∧
        ∀ g, g ∈ u.feb ↔ g ∈ s.feb ∨ g = key / 16) ∧
      (∀ b, r.op = .feb b → ∃ u, exec (.bankAccess k i) s = .next u ∧ rest' u ∧ u.mem = s.mem ∧ u.scratch = s.scratch ∧
        ∀ g, g ∈ u.feb ↔ (g = key / 16 ∧ b = true) ∨ (g ≠ key / 16 ∧ g ∈ s.feb)) ∧
      (r.op = .wake → ∃ u, exec (.bankAccess k i) s = .next u ∧ rest' u ∧ sameMemory s u) ∧
      (∀ o n g b d ord sc, r.op = .atomic o n g b d ord sc → n = 32 ∨ n = 64 → ∃ u, exec (.bankAccess k i) s = .next u ∧ rest' u ∧
        let m := Memory.readN s.scratch (n / 8) key
        (∃ q, u.reqs.find k = some q ∧ q.got.toNat = m) ∧ scratchBut s u key (n / 8) ∧
        if (atomicNew o n g m b d).2 then Memory.readN u.scratch (n / 8) key = (atomicNew o n g m b d).1 % 2 ^ n ∧ ∀ h, h ∈ u.feb ↔ h ∈ s.feb ∨ h = key / 16
        else u.scratch = s.scratch ∧ u.feb = s.feb) ∧
      (∀ f c n, r.op = .read f c n → (f = true → mine c) →
        r.rest.Pairwise (fun a b => a.pos + a.len ≤ b.pos ∨ b.pos + b.len ≤ a.pos) → ∃ u, exec (.bankAccess k i) s = .next u ∧
        u.mem = s.mem ∧ u.scratch = s.scratch ∧ (∀ g, g ∈ u.feb ↔ g ∈ s.feb ∧ (g = key / 16 → c = false)) ∧
        ∃ q, u.reqs.find k = some q ∧ q.rest = r.rest.filter (fun a => !sameGranule s r t (off / 16) a) ∧
          (r.waitFe = false → q.waitFe = false) ∧
          (q.rest = [] → q.phase = .done) ∧
          ∀ a ∈ r.rest, sameGranule s r t (off / 16) a = true → ∀ j, j < a.len → a.pos + j < 64 →
            byteOf q.got (a.pos + j) = (Memory.read s.scratch (t * 2 ^ 20 + (scrPlace s r.lease a.addr).2 + j)).toNat) ∧
      (∀ c n, r.op = .read true c n → ¬mine c → r.waitFe = false → ∃ u, exec (.bankAccess k i) s = .next u ∧
        sameMemory s u ∧ ∃ q, u.reqs.find k = some q ∧ q.waitFe = true ∧ q.rest = r.rest ∧ q.fewait = r.fewait))) ∧
  (∀ r p rest cause pa, let q := failPiece r p rest cause pa
    ((∀ j m, r.dest ≠ .job j m) → q.rest = [] ∧ q.phase = .done ∧ q.err = some (BitVec.ofNat 16 cause) ∧ q.errPa = pa) ∧
    (∀ j m, r.dest = .job j m → q.rest = rest ∧ (rest = [] → q.phase = .done) ∧ (rest ≠ [] → q.phase = r.phase) ∧
      (r.err = none → q.err = some (BitVec.ofNat 16 cause) ∧ q.errPa = pa) ∧ (r.err ≠ none → q.err = r.err ∧ q.errPa = r.errPa) ∧
      ∀ b, q.lost.testBit b = (r.lost.testBit b || decide (p.pos ≤ b ∧ b < p.pos + p.len)))) ∧
  (∀ s k r c n p, s.reqs.find k = some r → r.op = .read true c n → r.rest = [p] → p.sp = .scr → r.waitFe = true →
    let t := (scrPlace s r.lease p.addr).1
    let off := (scrPlace s r.lease p.addr).2
    let key := t * 2 ^ 20 + off
    granted (tileAt s t) (bankOf off) = true → bankReady (tileAt s t) (bankOf off) = true → shut (tileAt s t) = false → off % 16 + p.len ≤ 16 → 0 < p.len →
    scrTurn s k r t (off / 16) = true → standsBack s r p = false → s.badMem.contains (scrBad key) = false →
    (key / 16 ∈ s.feb → (c = true → feAhead s k r t (off / 16) = false) → ∃ u, exec (.feLoadRelease k) s = .next u ∧ u.mem = s.mem ∧ u.scratch = s.scratch ∧
      (∀ g, g ∈ u.feb ↔ g ∈ s.feb ∧ (g = key / 16 → c = false)) ∧
      ∃ q, u.reqs.find k = some q ∧ q.rest = [] ∧ q.phase = .done ∧ q.waitFe = false ∧
        ∀ j, j < p.len → p.pos + j < 64 → byteOf q.got (p.pos + j) = (Memory.read s.scratch (key + j)).toNat) ∧
    (key / 16 ∉ s.feb → exec (.feLoadRelease k) s = .next s)) ∧
  ∀ s k r, s.reqs.find k = some r → r.waitFe = true →
    (2 ^ 24 ≤ r.fewait.toNat + 1 → ∃ d fl u, exec (.feWatchdog k) s =
        .next (trap u r.lease cFeWatchdog d (placeOf (tileAt u r.who.tile) (planeOf (tileAt u r.who.tile) r.plane) r.who.eng r.who.slot)
          (payload3 r.opw.toNat 0 0) fl) ∧ u.reqs.find k = none ∧ (∀ j, j ≠ k → u.reqs.find j = s.reqs.find j) ∧ sameMemory s u) ∧
    (r.fewait.toNat + 1 < 2 ^ 24 → exec (.feWatchdog k) s = .next s)

/-- R346 to R358, R374, R377 and Table 12.6: a packet reaches its tile or is refused with FIREWALL; a TLB hit places the pieces of its page; a walk
that ends in a leaf does so too and fills both TLBs, a failing one fails the request, an absent page holds it and stops the region; a channel performs
one piece for the owner of the frame and refuses any other; host memory is reached through the port of the tenant's PF; replies leave in issue order
to their targets or their consumer, through the landing buffer where the channel is full. An access that fails is the whole request's failure, or a
job's granule (R319, R331). A host agent's write takes its place among the accesses to host memory and to a peer's (R288). -/
def Obligations.MemoryService : Prop :=
  (∀ s k r p l, s.reqs.find k = some r → r.phase = .mesh → (∀ n, r.op ≠ .ctr n) → r.rest = p :: l →
    let x := tileAt s (scrPlace s r.lease p.addr).1
    shut x = false →
    (tileBound x = true → x.tlease.toNat = r.lease → exec (.meshPacketArrival k) s = .next { s with reqs := s.reqs.put k { r with phase := .home } }) ∧
    (tileBound x = false ∨ x.tlease.toNat ≠ r.lease → exec (.meshPacketArrival k) s = .next { s with reqs := s.reqs.put k (failReq r cFirewall) })) ∧
  (∀ r e, let q := placePiece r e
    q.rest.length = r.rest.length ∧ ∀ (j : Nat) p, r.rest[j]? = some p →
      (p.sp = .va → p.addr / 2 ^ lvlShift e.level = e.vpn → q.rest[j]? = some { p with sp := .pa, addr := e.pa + p.addr % 2 ^ lvlShift e.level, okind := e.okind, va := p.addr, lvl := e.level }) ∧
      (p.sp ≠ .va ∨ p.addr / 2 ^ lvlShift e.level ≠ e.vpn → q.rest[j]? = some p)) ∧
  (∀ s k r p, s.reqs.find k = some r → r.phase = .issued → untranslated r = some p → streamHeld s k r = false →
    let d := dieOfReq s r
    let m := mtlbKey s r
    (∀ e, (s.mtlb.get m []).find? (fun e => tlbHits e r.lease r.ten p.addr) = some e →
      (reqWrites r = true → e.w = false → exec (.translate k) s = .next { s with reqs := s.reqs.put k (failPiece r p (r.rest.erase p) cPermission 0) }) ∧
      (reqWrites r = false ∨ (e.w = true ∧ e.d = true) → exec (.translate k) s = .next (claim { s with reqs := s.reqs.put k (placePiece r e) } r.ten (queueStructs (placePiece r e))))) ∧
    (∀ e, (s.mtlb.get m []).find? (fun e => tlbHits e r.lease r.ten p.addr) = none →
      (s.lltlb.get d []).find? (fun e => tlbHits e r.lease r.ten p.addr) = some e → reqWrites r = false ∨ (e.w = true ∧ e.d = true) →
      exec (.translate k) s = .next (claim { claim { s with mtlb := s.mtlb.put m (tlbPut (s.mtlb.get m []) 64 e) } r.ten [3 * 4096 + d] with
        reqs := s.reqs.put k (placePiece r e) } r.ten (queueStructs (placePiece r e)))) ∧
    (mustWalk s r p = false → exec (.walk k) s = .next s) ∧
    (mustWalk s r p = true → (∀ u lvl base ok w dirty, walkLease s r.lease p.addr (reqWrites r) = (u, .leaf lvl base ok w dirty) → reqWrites r = false ∨ (w = true ∧ dirty = true) →
      ∃ v e, exec (.walk k) s = .next v ∧ e.lease = r.lease ∧ e.ten = r.ten ∧ e.level = lvl ∧ e.vpn = p.addr / 2 ^ lvlShift lvl ∧ e.pa = base ∧ e.okind = ok ∧
        e.w = w ∧ e.d = dirty ∧ v.reqs.find k = some (placePiece r e) ∧ (v.mtlb.get m []).head? = some e ∧ (v.lltlb.get d []).head? = some e ∧
        v.mem = u.mem ∧ v.scratch = s.scratch) ∧
    (∀ u cause pa, walkLease s r.lease p.addr (reqWrites r) = (u, .fail cause pa) → ∃ v, exec (.walk k) s = .next v ∧
      v.reqs.find k = some (failPiece r p (r.rest.erase p) cause pa) ∧ v.mem = u.mem ∧ v.scratch = s.scratch) ∧
    (∀ u, walkLease s r.lease p.addr (reqWrites r) = (u, .absent) →
      let l := leaseAt u r.lease
      let rid := reqRegion u r
      let mine := l.pfrecs.filter fun f => f.rid == rid && !f.loader
      let known : Prop := 16 ≤ mine.length ∨ ∃ f ∈ mine, f.resolved = false ∧ f.va.toNat / 65536 = p.addr / 65536
      let f : Pfrec := { tag := l.ftag, va := BitVec.ofNat 64 p.addr, tid := r.tid, write := reqWrites r, element := p.element, rid := rid }
      let at_ := l.rcd.saveb.toNat + Config.pfrecAt f.tag.toNat
      let told (z : State) : State := countEvent (notifyLease z r.lease 0x83 (BitVec.ofNat 64 at_) 0) r.lease 13 1
      (known → exec (.walk k) s = .next { u with reqs := u.reqs.put k { r with phase := .faulted } }) ∧
      (¬known → ∃ w, w.reqs.find k = some { r with phase := .faulted } ∧ sameMemory u w ∧
        (leaseAt w r.lease).pfrecs = l.pfrecs ++ [f] ∧ (leaseAt w r.lease).ftag = l.ftag + 1 ∧
        (∀ g, l.regions.find? (fun g => g.rid == rid) = some g → (∀ t ∈ regionTiles l.rcd g, (tileAt w t).frozen = true) ∧
          ∀ h ∈ (leaseAt w r.lease).regions, h.rid = rid → h.frozen = true) ∧
        (∀ z, postWrite w r.lease at_ (pfrecBytes f) = (z, .ok ()) → exec (.walk k) s = .next (told z)) ∧
        ∀ z c, postWrite w r.lease at_ (pfrecBytes f) = (z, .error c) → exec (.walk k) s = .next (told (startRemoval z r.lease cSaveFault)))))) ∧
  (∀ s k pa data, exec (.hostMemoryRequest k (.agent pa data)) s =
    .next (if (paClass pa = 1 ∨ paClass pa = 2) ∧ pa % 16 + data.length ≤ 16 ∧ agentWaits s pa = false then { s with mem := Memory.putBytes s.mem pa data } else s)) ∧
  (∀ s k i r p rest, memoriesCanonical s = true → s.reqs.find k = some r → r.phase = .issued → pickGranule r.rest i = some (p, rest) → p.sp = .pa →
    orderHolds s k r p = true → mayPass s (releaseDue s k r p.okind) = true → standsBack s r p = false → soTurn r p = true → laneTurn r p = true →
    ((∃ o n g b d ord sc, r.op = .atomic o n g b d ord sc) → rest = []) →
    let serves (run : Host.Outcome State Fault Refusal) : Prop :=
      (∀ cause, channelCause s r.ten p.addr = some cause → (cause = cUncorrectable → wholeWrite r.op p.len = false) → ∃ u, run = .next u ∧
        u.reqs.find k = some (failPiece r p rest cause p.addr) ∧ sameMemory s u) ∧
      (channelCause s r.ten p.addr = none →
        let rest' (u : State) (q : Req) : Prop := u.reqs.find k = some q ∧ q.rest = rest ∧ q.dest = r.dest ∧ q.err = r.err ∧ (rest = [] → q.phase = .done)
        (∀ w, r.op = .write w → r.job = none → ∃ u q, run = .next u ∧ rest' u q ∧ u.scratch = s.scratch ∧ u.feb = s.feb ∧
          (∀ j, j < p.len → (Memory.read u.mem (p.addr + j)).toNat = w.toNat / 2 ^ (8 * (p.pos + j)) % 2 ^ 8) ∧
          ∀ a, a < p.addr ∨ p.addr + p.len ≤ a → Memory.read u.mem a = Memory.read s.mem a) ∧
        (∀ f c n, r.op = .read f c n →
          let here (a : Piece) : Prop := a.sp = .pa ∧ a.addr / 16 = p.addr / 16 ∧ (a.addr + a.len - 1) / 16 = p.addr / 16
          (p :: rest).Pairwise (fun a b => a.pos + a.len ≤ b.pos ∨ b.pos + b.len ≤ a.pos) →
          ∃ u q, run = .next u ∧ u.reqs.find k = some q ∧ q.dest = r.dest ∧ q.err = r.err ∧ sameMemory s u ∧
            q.rest = rest.filter (fun a => !decide (here a)) ∧ (q.rest = [] → q.phase = .done) ∧
            (∀ a, (a = p ∨ (a ∈ rest ∧ here a)) → ∀ j, j < a.len → a.pos + j < 64 → byteOf q.got (a.pos + j) = (Memory.read s.mem (a.addr + j)).toNat) ∧
            ∀ j, j < 64 → (∀ a, (a = p ∨ (a ∈ rest ∧ here a)) → j < a.pos ∨ a.pos + a.len ≤ j) → byteOf q.got j = byteOf r.got j) ∧
        (∀ o n g b d ord sc, r.op = .atomic o n g b d ord sc → n = 32 ∨ n = 64 → p.pos = 0 → p.len = n / 8 → ∃ u q, run = .next u ∧ rest' u q ∧ u.scratch = s.scratch ∧ u.feb = s.feb ∧
          let m := Memory.readN s.mem (n / 8) p.addr
          q.got.toNat = m ∧ Memory.readN u.mem (n / 8) p.addr = (if (atomicNew o n g m b d).2 then (atomicNew o n g m b d).1 % 2 ^ n else m) ∧
          ∀ a, a < p.addr ∨ p.addr + n / 8 ≤ a → Memory.read u.mem a = Memory.read s.mem a))
    (paClass p.addr = 0 ∨ paClass p.addr = 2 → serves (exec (.hbmRequestServe k i) s)) ∧
    (paClass p.addr = 1 → (portUp s r.ten = true → heldFirst s k r = false → serves (exec (.hostMemoryRequest k (.piece i)) s)) ∧
      (portUp s r.ten = false ∨ heldFirst s k r = true → exec (.hostMemoryRequest k (.piece i)) s = .next s))) ∧
  (∀ s ten pa, (paClass pa ≠ 0 → channelCause s ten pa = none) ∧
    (paClass pa = 0 → (fotOf s (paStack pa) (paFrame pa) ≠ ten → channelCause s ten pa = some cFrameOwner) ∧
      (fotOf s (paStack pa) (paFrame pa) = ten → s.kslot.find (paStack pa * 64 + ten) = none → channelCause s ten pa = some cKeyAbsent))) ∧
  (∀ s k r, s.reqs.find k = some r → r.phase = .done → replyBehind s k r = false → stored (leaseAt s r.lease) = false → mayPass s (replyDue s k r) = true → r.err = none →
    let v := markReqs s (atomicScope r) (replyDue s k r)
    let x := tileAt v r.who.tile
    let tok (sb : BitVec 2) : Token := replyTok r sb (tiOf x)
    (∀ outs sb i f, r.dest = .targets outs sb → shut x = false → fieldsAt (planeOf x r.plane) r.who.eng r.who.slot = some (i, f) → exec (.replyDelivery k) s =
      .next (((targetsOf i f).filter fun m => outs.contains m.1).foldl (fun u m => putTo u r.who r.plane m.1 m.2 (tok sb)) (retireReq v k r))) ∧
    (∀ T e n op t u, r.dest = .desc T e n op → replyTile v r T = some t → shut (tileAt v t) = false →
      let px := match r.op with | .px8 _ _ _ _ w => !w | _ => false
      let word := if px = true then memToken v t e n op (tok r.sb) else tok r.sb
      landReply v t e n op word k px = (u, true) → (px = true → isPoison word = false) →
      (r.job = none → exec (.replyDelivery k) s = .next (retireReq u k r)) ∧
      ∀ j, r.job = some j → exec (.replyDelivery k) s = .next (gathNote (retireReq u k r) r j)) ∧
    (∀ j m, r.dest = .job j m → exec (.replyDelivery k) s = .next (jobReply (retireReq v k r) r j m)) ∧
    (r.dest = .none → exec (.replyDelivery k) s = .next (retireReq v k r))) ∧
  (∀ r sb ti, replyTok r sb ti = if r.err ≠ none then poisonTok 0x0A ti else match r.op with
      | .read _ _ 0 => ⟨r.got, sb⟩
      | .read _ _ (n + 1) => ⟨spread6 (n + 1) r.got, sb⟩
      | .atomic _ _ _ _ _ _ _ => ⟨r.got, sb⟩
      | .note t => t
      | .px8 _ _ _ _ false => if r.raw = 1 then ⟨r.got, sb⟩ else poisonTok 2 ti
      | _ => ⟨0, sb⟩) ∧
  (∀ s t e n op tok tag key, let x := tileAt s t
    let p := activePlane x
    let q := p.lbuf.get key []
    feedOf p e n op = some key → (p.px8.get key {}).bad = false →
    (landedBefore x e n op = false → suspended p e = false → q.length < (p.salloc.get key 0).toNat →
      landReply s t e n op tok tag false = (modActive s t fun p =>
        { p with lbuf := p.lbuf.put key (q ++ [tok]), late := p.late ++ [key] }, true)) ∧
    (landedBefore x e n op = true ∨ suspended p e = true ∨ (p.salloc.get key 0).toNat ≤ q.length →
      (x.spill = [] → x.landb.length + (if mayLand p e then 0 else landReserved s t) < 16 →
      landReply s t e n op tok tag false = (modTile s t fun x => { x with landb := x.landb ++ [⟨tok, x.planeB, e, n, some op, BitVec.ofNat 32 tag⟩] }, true)) ∧
      (x.spill ≠ [] ∨ 16 ≤ x.landb.length + (if mayLand p e then 0 else landReserved s t) → landReply s t e n op tok tag false = (s, false)))) ∧
  (∀ s t, tileRuns s t = false → exec (.landbDeliver t) s = .next s) ∧
  ∀ s t e r op key, tileRuns s t = true → (tileAt s t).landb = e :: r → e.opnd = some op →
    let p := planeOf (tileAt s t) e.plane
    let q := p.lbuf.get key []
    feedOf p e.eng e.slot op = some key → blockShut (leaseAt s (tileAt s t).tlease.toNat) p e.eng = false →
    (q.length < (p.salloc.get key 0).toNat → exec (.landbDeliver t) s =
      .next (modTile (modPlane s t e.plane fun p => { p with lbuf := p.lbuf.put key (q ++ [e.tok]), late := p.late ++ [key] }) t
        fun x => refillLandb { x with landb := r })) ∧
    ((p.salloc.get key 0).toNat ≤ q.length → exec (.landbDeliver t) s = .next s)

/-- R97, R314 to R318, R332, R333 and R353: a parameter word is refused or names a range that lies in the tensor; LDT opens one, and its requests
follow at the pace of RBKT with their elements' bytes, and wait while a reply that may land has no entry to reserve (R105); STT writes one word at
each firing and hands its completion to the consumer at the end; WIN opens a window, WINADV moves its LOW on, and the window feeds its ring entry by
entry. -/
def Obligations.TensorRanges : Prop :=
  (∀ w t (ix stt : Bool), let st := lane 64 w 0
    let n := lane 64 w 1
    let rl := lane 64 w 2
    let sd := lane 64 w 3
    let m := if t.fmt = 10 ∨ t.fmt = 11 then 64 else if 12 ≤ t.fmt then 32 else 1
    let rowlen := if rl = 0 then n else rl
    let stride := if sd = 0 then rowlen else sd
    let rows := (n + rowlen - 1) / max 1 rowlen
    let bad : Prop := n = 0 ∨ 2 ^ 40 ≤ n ∨ 2 ^ 24 ≤ rl ∨ w.toNat / 2 ^ 256 ≠ 0 ∨ (ix = true ∧ rl = 0) ∨ (stt = true ∧ stride < rowlen) ∨
      st % m ≠ 0 ∨ n % m ≠ 0 ∨ rl % m ≠ 0 ∨ sd % m ≠ 0
    let past : Prop := ∃ k i, k * rowlen + i < n ∧ i < rowlen ∧ tidCount t ≤ st + k * stride + i
    (bad → readParam w t ix stt = .error cSpbInvalid) ∧ (¬bad → past → readParam w t ix stt = .error cTensorRange) ∧
    (¬bad → ¬past → readParam w t ix stt = .ok ⟨st, n, rowlen, stride⟩ ∧ (⟨st, n, rowlen, stride⟩ : Param).rows = rows)) ∧
  (∀ t n k, t.fmt < 12 → k * (fmtBits t.fmt / 8) ≤ 64 →
    (∀ p ∈ elemPieces t n k, p.sp = .va) ∧
    Covers (elemPieces t n k) (fun b => elemAddr t (n + b / (fmtBits t.fmt / 8)) + b % (fmtBits t.fmt / 8)) (k * (fmtBits t.fmt / 8))) ∧
  (∀ t n k, 12 ≤ t.fmt → t.fmt < 16 → k * fmtBits t.fmt / 8 ≤ 64 → (∀ p ∈ elemPieces t n k ++ scalePieces t n k, p.sp = .va) ∧
    Covers (elemPieces t n k) (fun b => t.base + n * fmtBits t.fmt / 8 + b) (k * fmtBits t.fmt / 8) ∧
    Covers (scalePieces t n k) (fun b => t.aux + n / 32 + b) ((k + 31) / 32)) ∧
  (∀ b e st es ss n, strideAddr [] ss n = 0 ∧ strideAddr (e :: es) (st :: ss) n = n % e * st + strideAddr es ss (n / e) ∧
    elemAddr { base := b, exts := e :: es, strs := st :: ss } n = b + (n % e * st + strideAddr es ss (n / e))) ∧
  (∀ f s c, HasTurn (.ldt f) f s c → AllData c → (c.ops = [] → c.e.due = true) → predOff c = false → c.e.rqp.act = false →
    let tid := f.imm.toNat / 16
    let t := tidFor c tid
    let w : Word := if f.a = .tok then c.va 64 else c.e.s
    (∀ cause, readParam w t (f.md.getLsbD 0) false = .error cause → MemTraps (.ldt f) s c cause (lane 64 w 0) tid) ∧
    (∀ p, f.md.getLsbD 0 = false → readParam w t false false = .ok p →
      ∃ q : Rqp, q.act = true ∧ q.start = p.start ∧ q.count = p.count ∧ q.rowlen = p.rowlen ∧ q.stride = p.stride ∧ q.row = 0 ∧ q.col = 0 ∧ q.ix = false ∧
        q.scale = false ∧ q.esb = (if f.a ≠ .tok ∨ ∃ a, c.ha = some a ∧ a.sb = 0b11 then 0b11 else 0b10) ∧
        (HoldsDemands c c.outs → exec (.ldt f) s = .next (modElem (commit s c { take := c.ops, reserve := c.outs }) c.x c.b fun e => { e with rqp := q })) ∧
        (¬HoldsDemands c c.outs → Waits (.ldt f) s c (some .noDemand))) ∧
    (∀ p b, f.md.getLsbD 0 = true → readParam w t true false = .ok p → c.hb = some b →
      let rows := indexRows b.pay
      ((∃ r ∈ rows, p.rows ≤ r) → MemTraps (.ldt f) s c cTensorRange p.start tid) ∧
      ((∀ r ∈ rows, r < p.rows) → rows ≠ [] → ∃ q : Rqp, q.act = true ∧ q.start = p.start ∧ q.stride = p.stride ∧ q.rowlen = p.rowlen ∧ q.count = p.count ∧
        q.row :: q.rows = rows ∧ q.col = 0 ∧ q.ix = true ∧ q.esb = (if b.sb = 0b11 then 0b11 else 0b10) ∧
        (HoldsDemands c c.outs → exec (.ldt f) s = .next (modElem (commit s c
          { take := c.ops.filter fun o => o != .a || b.sb == 0b11, reserve := c.outs }) c.x c.b fun e => { e with rqp := q }))) ∧
      (rows = [] → HoldsDemands c c.outs → ∃ q : Rqp, q.act = false ∧ exec (.ldt f) s = .next (c.outs.foldl
        (fun s m => putTo s c.x c.b m.1 m.2 ⟨0, match c.ha with | some a => a.sb | none => 0⟩)
        (modElem (commit s c { take := c.ops.filter fun o => o != .a || b.sb == 0b11, reserve := c.outs }) c.x c.b fun e => { e with rqp := q }))))) ∧
  (∀ s x f c, fieldsAt (activePlane (tileAt s x.tile)) x.eng x.slot = some (.ldt f, f) → ctxAt s x (.ldt f) f = some c → c.e.rqp.act = true →
    tileRuns s x.tile = true → c.t.hold = false →
    let q := c.e.rqp
    let t := tidFor c (f.imm.toNat / 16)
    let p : Param := ⟨q.start, q.count, q.rowlen, q.stride⟩
    let n := min (epw t) (p.lenOf q.row - q.col)
    let el := q.start + q.row * q.stride + q.col
    let rowEnd : Prop := p.lenOf q.row ≤ q.col + n
    let lastRow : Prop := if q.ix then q.rows = [] else p.rows ≤ q.row + 1
    (c.e.rbkt < 1024 → exec (.rangeRequestIssue x) s = .next (setWait s c (some .noDemand))) ∧
    (1024 ≤ c.e.rbkt → landFull s (noteReq c ⟨0, 0⟩) = true → exec (.rangeRequestIssue x) s = .next (setWait s c (some .landing))) ∧
    (1024 ≤ c.e.rbkt → landFull s (noteReq c ⟨0, 0⟩) = false → 16 ≤ c.e.outs.toNat → exec (.rangeRequestIssue x) s = .next (setWait s c (some .hbm))) ∧
    (1024 ≤ c.e.rbkt → landFull s (noteReq c ⟨0, 0⟩) = false → c.e.outs.toNat < 16 → ∃ (r : Req) (q' : Rqp) (u : State),
      u = issueReq (modElem s x c.b fun e => { e with rbkt := e.rbkt - 1024, rqp := q', wait := none }) r ∧
      (q'.act = true ∨ c.outs = [] → exec (.rangeRequestIssue x) s = .next u) ∧
      (q'.act = false → c.outs ≠ [] → exec (.rangeRequestIssue x) s = .next (issueReq u (doneReq c q.asb))) ∧
      r.who = x ∧ r.lease = c.lid ∧ r.plane = c.b ∧ r.dest = descDest c ∧ r.phase = .issued ∧ r.all = r.rest ∧
      (¬(isMx t = true ∧ q.scale = false) → r.sb = (if p.lenOf q.row ≤ q.col + n then (if q.ix then (if q.rows = [] then q.esb else 0b10)
        else if p.rows ≤ q.row + 1 then q.esb else 0b10) else 0)) ∧
      (isMx t = false → isPx t = false → r.op = .read false false 0 ∧ r.rest = elemPieces t el n) ∧
      (isMx t = true → q.scale = false → r.op = .read false false (if fmtBits t.fmt = 6 then n else 0) ∧ r.rest = elemPieces t el n ∧
        q' = { q with scale := true }) ∧
      (isMx t = true → q.scale = true → r.op = .read false false 0 ∧ r.rest = scalePieces t el n) ∧
      (isPx t = true → r.op = .px8 (decide (t.fmt = 11)) t.base (el / 64) ((tidCount t + 63) / 64) false ∧ r.rest = dirPieces t el) ∧
      (isMx t = false ∨ q.scale = true → (¬rowEnd → q' = { q with col := q.col + n, scale := false }) ∧
        (rowEnd → lastRow → q' = { q with act := false, scale := false, col := 0 }) ∧
        (rowEnd → ¬lastRow → q' = { q with col := 0, scale := false, row := if q.ix then q.rows.headD 0 else q.row + 1, rows := q.rows.drop 1 })))) ∧
  (∀ f s c b q, HasTurn (.stt f) f s c → c.hb = some b → isData b = true → (.p ∈ c.ops → ∃ p, c.hp = some p ∧ isCtl p = false) → predOff c = false →
    let tid := f.imm.toNat / 16
    let t := tidFor c tid
    (c.e.rqp.act = true ∧ q = c.e.rqp) ∨ (c.e.rqp.act = false ∧ ∃ a p, (if f.a = .tok then c.ha else some ⟨c.e.s, 0⟩) = some a ∧ isCtl a = false ∧
        readParam a.pay t false true = .ok p ∧ q.act = true ∧ q.start = p.start ∧ q.count = p.count ∧ q.rowlen = p.rowlen ∧ q.stride = p.stride ∧ q.row = 0 ∧
        q.col = 0 ∧ q.scale = false ∧ q.bad = false ∧ q.did = 0 ∧ q.rows = [] ∧ q.ix = false ∧ q.esb = 0 ∧ q.asb = c.sb) →
    let p : Param := ⟨q.start, q.count, q.rowlen, q.stride⟩
    let n := min (epw t) (p.lenOf q.row - q.col)
    let el := q.start + q.row * q.stride + q.col
    let half : Prop := isMx t = true ∧ q.scale = false
    let full : Prop := p.lenOf q.row ≤ q.col + n ∨ b.sb = 0b10 ∨ b.sb = 0b11
    let last : Prop := ¬half ∧ ((full ∧ p.rows ≤ q.row + 1) ∨ b.sb = 0b11)
    let w (v : Word) : Prop := if half ∧ fmtBits t.fmt = 6 then pack6 n b.pay = some v else v = b.pay
    let asks (r : Req) : Prop := r.who = c.x ∧ r.lease = c.lid ∧ r.plane = c.b ∧ r.dest = .none ∧ r.phase = .issued ∧ r.all = r.rest ∧ r.tid = tid ∧
      (isPx t = false → ∃ v, w v ∧ r.op = .write v ∧ r.rest = if isMx t && q.scale then scalePieces t el n else elemPieces t el n) ∧
      (isPx t = true → r.op = .px8 (decide (t.fmt = 11)) t.base (el / 64) ((tidCount t + 63) / 64) true ∧ r.rest = dirPieces t el)
    q.bad = false → (∃ v, w v) → c.e.outs.toNat < 16 →
    let next : Rqp := if isMx t && !q.scale then { q with scale := true, did := 0 }
      else if p.lenOf q.row ≤ q.col + n ∨ b.sb = 0b10 ∨ b.sb = 0b11 then { q with row := q.row + 1, col := 0, scale := false, did := 0 }
      else { q with col := q.col + n, scale := false, did := 0 }
    (¬last → ∃ r, asks r ∧
      exec (.stt f) s = .next (issueReq (modElem (commit s c { take := c.ops.filter (· != .a) }) c.x c.b fun e => { e with rqp := next }) r)) ∧
    (last → c.e.rbkt < 1024 → Waits (.stt f) s c (some .noDemand)) ∧
    (last → 1024 ≤ c.e.rbkt → landFull s (noteReq c ⟨0, 0⟩) = true → Waits (.stt f) s c (some .landing)) ∧
    (last → 1024 ≤ c.e.rbkt → landFull s (noteReq c ⟨0, 0⟩) = false → ∃ r, asks r ∧ exec (.stt f) s = .next (postNote c ⟨0, if b.sb = 0b11 then 0b11 else 0b10⟩ (issueReq (modElem (commit s c
      { take := c.ops.filter (· != .a) ++ if f.a = .tok then [.a] else [] }) c.x c.b fun e => { e with rqp := {} }) r)))) ∧
  (∀ s c t, ∃ r, postNote c t s = issueReq (modElem s c.x c.b fun e => { e with rbkt := e.rbkt - 1024 }) r ∧ r.op = .note t ∧ r.rest = [] ∧
    r.phase = .done ∧ r.dest = descDest c ∧ r.counted = false ∧ r.who = c.x) ∧
  (∀ s c t, landFull s (noteReq c t) = true ↔ ∃ T e n op k, descDest c = .desc T e n op ∧ replyTile s (noteReq c t) T = some k ∧
    mayLand (activePlane (tileAt s k)) e = true ∧ 16 ≤ (tileAt s k).landb.length + landReserved s k) ∧
  (∀ f s c, Fires (.win f) f s c →
    let k := f.imm.toNat % 8
    let nofeed := f.imm.getLsbD 3
    let tid := f.imm.toNat / 16
    let t := tidFor c tid
    let st := lane 64 (c.va 512) 0
    let n := lane 64 (c.va 512) 1
    let r := ringAt c.p k
    let e : Eff := { emits := zeroAll c c.sb, take := c.ops }
    (nofeed = true ∨ ringSetDue c.p k = false) →
    ((c.va 512).toNat / 2 ^ 128 ≠ 0 ∨ 2 ^ 40 ≤ st + n → MemTraps (.win f) s c cSpbInvalid st tid) ∧
    ((c.va 512).toNat / 2 ^ 128 = 0 → st + n < 2 ^ 40 →
      (n = 0 → exec (.win f) s = .next (modWin (commit s c e) c.x.tile c.b k fun _ => {})) ∧
      (0 < n → 10 ≤ t.fmt → exec (.win f) s = .next (trapAt s c cTidFormat none (payload3 st 0 0) c.e.fflg)) ∧
      (0 < n → t.fmt < 10 → nofeed = false → r.v = false ∨ n * fmtBits t.fmt / 8 % ((r.esz.toNat + 1) * 64) ≠ 0 →
        exec (.win f) s = .next (trapAt s c cRingMisuse none (payload3 st 0 0) c.e.fflg)) ∧
      (0 < n → t.fmt < 10 → (nofeed = true ∨ (r.v = true ∧ n * fmtBits t.fmt / 8 % ((r.esz.toNat + 1) * 64) = 0)) → ∃ v : Win, v.v = true ∧ v.nofeed = nofeed ∧
        v.tid.toNat = tid ∧ v.low.toNat = st ∧ v.feed.toNat = st ∧ v.stop.toNat = st + n ∧
        exec (.win f) s = .next (modWin (commit s c e) c.x.tile c.b k fun _ => v)))) ∧
  (∀ f s c, Fires (.winadv f) f s c → exec (.winadv f) s = .next (modWin (commit s c { emits := zeroAll c c.sb, take := c.ops }) c.x.tile c.b (f.imm.toNat % 8)
    fun w => winAdvance w (lane 64 (c.va 512) 0))) ∧
  (∀ w x, (winAdvance w x).low.toNat = min (max w.low.toNat x) w.stop.toNat ∧ (winAdvance w x).stop = w.stop ∧ (winAdvance w x).feed = w.feed ∧
    ((winAdvance w x).v = true ↔ w.v = true ∧ max w.low.toNat x < w.stop.toNat)) ∧
  ∀ s t w, let x := tileAt s t
    let p := activePlane x
    let v := winAt p w
    let r := ringAt p w
    let tid := planeTid (leaseAt s x.tlease.toNat) p v.tid.toNat
    let per := 512 / fmtBits tid.fmt
    x.hold = false → ringSetDue p w = false → v.v = true → v.nofeed = false → v.feed.toNat < v.stop.toNat → r.v = true → ringFull r = false → r.wpos = 0 → entriesHeld x r 1 = false → p.pst = .active →
    tileRuns s t = true → bwphPwh (tileBwph s t) ≠ 2 → ∃ u, exec (.windowFeed t w) s = .next u ∧ sameMemory s u ∧ u.nextReq = s.nextReq + (r.esz.toNat + 1) ∧
      (∀ i, i < r.esz.toNat + 1 → ∃ q, u.reqs.find (s.nextReq + i) = some q ∧ q.dest = .ring w r.tail.toNat i ∧ q.op = .read false false 0 ∧ q.phase = .issued ∧
        q.rest = elemPieces tid (v.feed.toNat + i * per) per) ∧
      ringAt (activePlane (tileAt u t)) w = { r with tail := BitVec.ofNat 12 ((r.tail.toNat + 1) % (r.nent.toNat + 1)), resv := r.resv ++ [(r.tail.toNat, false)] } ∧
      winAt (activePlane (tileAt u t)) w = { v with feed := v.feed + BitVec.ofNat 40 (per * (r.esz.toNat + 1)) }

/-! ### Jobs and queues -/

/-- R297, R324 to R331: a job instruction sends its card to the checker; an accepted card enters JOBT with the next serial and an edge to every job
whose footprint meets its own, and the firing completes with the handle; a bad one traps; a card waits behind a due RSTAT.SET of the ring that it
names (R253) and for a landing entry (R105), and one that would ask for a reply in a slab that drains is held (R368). A job starts when its edges are
complete, a collective when every member is there, and under a halt neither does (R343); a COPY reads every element once and writes what it read, all
bytes but those whose read failed (R331), and its words land in their ring entries (R258); a job whose accesses are performed leaves JOBT, with its
completion token. WAITJ waits for that, and JSTAT tells how far a job has come. -/
def Obligations.Jobs : Prop :=
  (∀ m ∈ [(Instr.copy, JobKind.copy), (.gath, .gath), (.scat, .scat), (.scata, .scata), (.coll, .coll)], ∀ f s c, Fires (m.1 f) f s c →
    ((∃ x ∈ c.l.cards, x.who = some c.x) →
      Waits (m.1 f) s c (some (if m.2 = .copy ∧ landFull s (noteReq c ⟨0, 0⟩) = true then .landing else .jobEdge))) ∧
    ((∀ x ∈ c.l.cards, x.who ≠ some c.x) → exec (m.1 f) s = .next (modLease (setWait s c (some .jobEdge)) c.lid fun l =>
      { l with cards := l.cards ++ [⟨m.2, c.va 512, some c.x, c.b, c.p.graph, c.p.node⟩] }))) ∧
  (∀ a b : Bool × Nat × Nat, a.2.1 < a.2.2 → b.2.1 < b.2.2 →
    (overlaps a b = true ↔ a.1 = b.1 ∧ ∃ g, a.2.1 < 16 * g + 16 ∧ 16 * g < a.2.2 ∧ b.2.1 < 16 * g + 16 ∧ 16 * g < b.2.2)) ∧
  (∀ s lid m, (cardBad m.kind m.card = true → checkCard s lid m = (s, .bad cJobCard (0, 0, 0))) ∧
    (∀ u j, checkCard s lid m = (u, .ok j) → cardBad m.kind m.card = false ∧ (leaseAt s lid).jobt.length < 256 ∧ j.serial = (leaseAt s lid).jser ∧
      j.kind = m.kind ∧ j.card = m.card ∧ j.who = m.who ∧ j.plane = m.plane ∧ j.graph = m.graph ∧ j.node = m.node ∧ j.running = false ∧ j.err = none ∧
      j.left = 0 ∧ j.next = 0 ∧ j.buf = [] ∧
      (∀ e, e ∈ j.edges ↔ ∃ k q, (k, q) ∈ (leaseAt s lid).jobt ∧ q.serial.toNat = e ∧
        let at_ (p : Job) : List (Bool × Nat × Nat) → List (Bool × Nat × Nat) := placedFoot u lid p.who p.plane
        (anyOverlap (at_ q q.wfoot) (at_ j j.rfoot) = true ∨ anyOverlap (at_ q q.rfoot) (at_ j j.wfoot) = true ∨
          anyOverlap (at_ q q.wfoot) (at_ j j.wfoot) = true)))) ∧
  (∀ s lid j, cDring j.card = false → (∃ k, k < 256 ∧ (leaseAt s lid).jobt.find k = none) →
    let u := (enterJob s lid j).1
    let slot := (leaseAt s lid).jobt.freeKey 256 0
    (enterJob s lid j).2 = j.serial.toNat * 256 + slot ∧ slot < 256 ∧ (leaseAt s lid).jobt.find slot = none ∧
    (leaseAt u lid).jobt.find slot = some { j with ents := [] } ∧ (∀ k, k ≠ slot → (leaseAt u lid).jobt.find k = (leaseAt s lid).jobt.find k) ∧
    (leaseAt u lid).jser = (leaseAt s lid).jser + 1 ∧ sameMemory s u ∧ u.tiles = s.tiles ∧ u.reqs = s.reqs) ∧
  (∀ s m, cardHeld s m = true ↔ (m.kind = .copy ∨ m.kind = .gath) ∧ ∃ x, m.who = some x ∧ (tileAt s x.tile).hold = true) ∧
  (∀ w cause a, (0x40 ≤ cause → cause ≤ 0x56 → cardPayload w cause a = payload3 a.1 a.2.1 a.2.2) ∧
    (cause < 0x40 ∨ 0x56 < cause → cardPayload w cause a = payload3 (w.toNat % 2 ^ 64) 0 0)) ∧
  (∀ s lid m x i f c, (leaseAt s lid).cards.find? (fun m => !cardHeld s m) = some m → m.who = some x →
    fieldsAt (planeOf (tileAt s x.tile) m.plane) x.eng x.slot = some (i, f) → ctxAt s x i f = some c → c.b = m.plane → mayFire s c = true →
    HoldsDemands c c.outs → (cDring m.card = true → ringSetDue c.p (cRing m.card) = false) →
    (m.kind = .copy → landFull s (noteReq c ⟨0, 0⟩) = true → exec (.jobAccept lid) s = .next (setWait s c (some .landing))) ∧
    ((m.kind = .copy → landFull s (noteReq c ⟨0, 0⟩) = false) →
    let drop (u : State) : State := modLease u lid fun l => { l with cards := l.cards.erase m }
    (∀ u, checkCard s lid m = (u, .wait) → exec (.jobAccept lid) s = .next u) ∧
    (∀ u cause a, checkCard s lid m = (u, .bad cause a) → ∃ d v, v = { drop u with fresh := u.fresh + 1 } ∧ exec (.jobAccept lid) s =
      .next (trap (setWait v c none) lid cause d (placeOf c.t c.p x.eng x.slot) (cardPayload m.card cause a) c.e.fflg)) ∧
    (∀ u j, checkCard s lid m = (u, .ok j) →
      let e := enterJob (drop u) lid { j with desc := c.e.k0, epoch := c.p.mepoch, out10 := f.out == .two, sb := c.sb }
      let put : List (Nat × Target × Token) := (c.outs.filter fun m => m.1 == 0).map fun m => (m.1, m.2, ⟨low e.2, c.sb⟩)
      exec (.jobAccept lid) s = .next (commit e.1 c { emits := put, take := c.ops, reserve := c.outs.filter fun m => m.1 != 0 })))) ∧
  (∀ s lid m x i f c, (leaseAt s lid).cards.find? (fun m => !cardHeld s m) = some m → m.who = some x →
    fieldsAt (planeOf (tileAt s x.tile) m.plane) x.eng x.slot = some (i, f) → ctxAt s x i f = some c → c.b = m.plane →
    mayFire s c = false ∨ ¬HoldsDemands c c.outs ∨ (cDring m.card = true ∧ ringSetDue c.p (cRing m.card) = true) → exec (.jobAccept lid) s = .next s) ∧
  (∀ s lid m nd u j, (leaseAt s lid).cards.find? (fun m => !cardHeld s m) = some m → m.who = none → nodeAt (leaseAt s lid) m.graph m.node = some nd → nd.state = .ready →
    mayIssue (leaseAt s lid) = true → checkCard s lid m = (u, .ok j) →
    exec (.jobAccept lid) s = .next (moveNode (enterJob (modLease u lid fun l => { l with cards := l.cards.erase m }) lid j).1 lid m.graph m.node .armed)) ∧
  (∀ s lid m nd u cause a, (leaseAt s lid).cards.find? (fun m => !cardHeld s m) = some m → m.who = none → nodeAt (leaseAt s lid) m.graph m.node = some nd → nd.state = .ready →
    mayIssue (leaseAt s lid) = true → checkCard s lid m = (u, .bad cause a) → ∃ d,
    exec (.jobAccept lid) s = .next (graphFault { modLease u lid fun l => { l with cards := l.cards.erase m } with fresh := u.fresh + 1 } lid 4 m.graph m.node cause d 0)) ∧
  (∀ s lid slot j, (leaseAt s lid).jobt.find slot = some j → (leaseAt s lid).lstate ≠ .removing → j.running = false →
    (j.kind ≠ .coll → mayIssue (leaseAt s lid) = true → (∀ e ∈ j.edges, ∀ k q, (k, q) ∈ (leaseAt s lid).jobt → q.serial.toNat ≠ e) →
      exec (.jobStart lid slot) s = .next (modLease s lid fun l => { l with jobt := l.jobt.put slot { j with running := true, since := s.nextReq } })) ∧
    (j.kind = .coll ∨ mayIssue (leaseAt s lid) = false ∨ (∃ e ∈ j.edges, ∃ k q, (k, q) ∈ (leaseAt s lid).jobt ∧ q.serial.toNat = e) →
      exec (.jobStart lid slot) s = .next s)) ∧
  (∀ s lid g slots, (leaseAt s lid).colls.find? (fun x => x.1 == g) = some (g, slots) →
    let js := slots.filterMap fun k => (leaseAt s lid).jobt.find k
    let ready : Prop := (∃ j r, js = j :: r ∧ js.length = cGsize j.card + 1) ∧ mayIssue (leaseAt s lid) = true ∧
      ∀ j ∈ js, openEdges (leaseAt s lid) j = 0 ∧ j.running = false
    (ready → ∃ t, exec (.collStart lid g) s = .next t ∧ ∀ k j, (leaseAt s lid).jobt.find k = some j → (leaseAt t lid).jobt.find k =
      some (if k ∈ slots then { j with running := true, since := s.nextReq, mates := js.map mateOf } else j)) ∧
    (¬ready → exec (.collStart lid g) s = .next s)) ∧
  (∀ (j : Job) row e, j.kind = .copy → j.itid = none → row < jobRows .copy j.card → e < jobRowLen .copy j.card row →
    (jobSparse j (jobBits j.card j.src j.dst) = true → ∀ t, j.dst = some t → ∃ q els, q < jobReads j ∧ (jobRead j q).row = row ∧
      (jobRead j q).els = some (els, elemAddr t (cDoff j.card + row * cDstr j.card + e) / 16) ∧ e ∈ els) ∧
    (jobSparse j (jobBits j.card j.src j.dst) = false →
    let here (q : Nat) : Prop := let r := jobRead j q
      r.scale = false ∧ r.row = row ∧ r.lo ≤ e ∧ e < r.lo + r.n
    ∃ q, q < jobReads j ∧ here q ∧ ∀ p, here p → p = q)) ∧
  (∀ s lid slot j, (leaseAt s lid).jobt.find slot = some j → (leaseAt s lid).lstate ≠ .removing → j.running = true → j.kind = .copy → pxJob j = none →
    j.itid = none →
    let bits := jobBits j.card j.src j.dst
    let note (g : Job → Job) : State := modLease s lid fun l => { l with jobt := l.jobt.put slot (g j) }
    (j.buf = [] → j.next < jobReads j → let r := jobRead j j.next
      (r.scale = false ∨ j.src ≠ none) → (jobAsc j = false ∨ j.left = 0) →
      exec (.jobStart lid slot) s = .next (jobIssue (note fun j => { j with next := j.next + 1 }) lid slot j (.read false false 0)
        (readPieces s j r) (4 * j.next) (if j.src.isSome then cStid j.card else 0))) ∧
    (∀ q v lost b, j.buf = (4 * q, v, lost) :: b → let r := jobRead j q
      let u := note fun j => { j with buf := j.buf.del (4 * q) }
      let whole (ps : List Piece) : List Piece := ps.filter fun p => decide (lost / 2 ^ p.pos % 2 ^ p.len = 0)
      (cDring j.card = false → exec (.jobStart lid slot) s = .next (jobIssue u lid slot j (.write (low v)) (whole (writePieces u j r (cDoff j.card +
        if j.dst.isSome then r.row * cDstr j.card else r.row * cDstr j.card * bits / 8))) (4 * q + 1)
        (if j.dst.isSome then cDtid j.card else 0))) ∧
      (∀ x, cDring j.card = true → j.who = some x →
        let ps := whole (ringPieces u j x (ringByte j r) (jobBytes bits r.n))
        (ps ≠ [] → exec (.jobStart lid slot) s = .next (jobIssue u lid slot j (.write (low v)) ps (4 * q + 1) 0)) ∧
        (ps = [] → exec (.jobStart lid slot) s = .next (landBytes u lid slot j x (ringByte j r) (jobBytes bits r.n))))) ∧
    (∀ q v b x, j.buf = (4 * q + 1, v) :: b → j.who = some x → let r := jobRead j q
      exec (.jobStart lid slot) s = .next (landBytes (note fun j => { j with buf := j.buf.del (4 * q + 1) }) lid slot j x (ringByte j r) (jobBytes bits r.n)))) ∧
  (∀ s j r, r.mate = mateOf j →
    let bits := jobBits j.card j.src j.dst
    (r.els = none → readPieces s j r = jobPieces s j.who j.plane j.src r.off bits r.lo r.n r.scale ∧
      ∀ off, writePieces s j r off = jobPieces s j.who j.plane j.dst off bits r.lo r.n r.scale) ∧
    ∀ els g, r.els = some (els, g) → readPieces s j r = elsPieces s j.who j.plane j.src r.off bits els ∧
      ∀ off, writePieces s j r off = (elsPieces s j.who j.plane j.dst off bits els).filter fun p => decide (p.addr / 16 = g)) ∧
  (∀ s who b t off w els, 0 < w → els.length * w ≤ 64 →
    Covers (elsPieces s who b (some t) off (8 * w) els) (fun k => elemAddr t (off + els.getD (k / w) 0) + k % w) (els.length * w)) ∧
  (∀ s lid slot j op ps m tid, ps ≠ [] → (leaseAt s lid).jobt.find slot = some j → ∃ r, (jobIssue s lid slot j op ps m tid).reqs.find s.nextReq = some r ∧
    r.op = op ∧ r.rest = ps ∧ r.dest = .job slot m ∧ r.lease = lid ∧ r.tid = tid ∧
    (leaseAt (jobIssue s lid slot j op ps m tid) lid).jobt.find slot = some { j with left := j.left + 1 }) ∧
  (∀ s lid slot j, (leaseAt s lid).jobt.find slot = some j → jobDone s lid j = true → (j.who = none ∨ stored (leaseAt s lid) = false) →
    (∀ x, j.who = some x → j.kind = .copy → ∃ el, elemIn (planeOf (tileAt s x.tile) j.plane) x.eng x.slot = some el ∧ rbktUnit ≤ el.rbkt) →
    (∃ t, exec (.jobComplete lid slot) s = .next t ∧ (leaseAt t lid).jobt.find slot = none) ∧
    (∀ x i f, j.who = some x → j.kind ≠ .copy → j.err = none →
      fieldsAt (planeOf (tileAt s x.tile) j.plane) x.eng x.slot = some (i, f) → ∃ u, (leaseAt u lid).jobt = (leaseAt s lid).jobt.del slot ∧
        u.reqs = s.reqs ∧ u.tiles = s.tiles ∧ sameMemory s u ∧ exec (.jobComplete lid slot) s = .next (checkDone (if j.out10 = true ∧ j.owed = none ∧
          (planeOf (tileAt s x.tile) j.plane).graph = j.graph ∧ (planeOf (tileAt s x.tile) j.plane).node = j.node then
          ((targetsOf i f).filter fun m => m.1 == 1).foldl (fun u m => putTo u x j.plane m.1 m.2 ⟨0, j.sb⟩) u else u) lid j.graph j.node))) ∧
  (∀ f s c, Fires (.waitj f) f s c →
    ((jobOfHandle c.l c.aa).isSome = true → Waits (.waitj f) s c (some .jobEdge)) ∧
    (jobOfHandle c.l c.aa = none → exec (.waitj f) s = .next (firedWord s c 0 false))) ∧
  (∀ l h, (∀ j, jobOfHandle l h = some j ↔ l.jobt.find (h % 256) = some j ∧ j.serial.toNat = h / 256)) ∧
  (∀ f s c, Fires (.jstat f) f s c → ∃ w, exec (.jstat f) s = .next (firedWord s c w false) ∧
    (jobOfHandle c.l c.ab = none → w = 0) ∧
    ∀ j, jobOfHandle c.l c.ab = some j → lane 64 w 0 = (if j.running then 2 else 1) ∧ lane 64 w 1 = openEdges c.l j % 2 ^ 64)

/-- R25, R260 to R269 and R505: POSTC appends its stamped record to the shard of its key; GROW raises GCNT within the launch's limit; ENQ sends a
message, at most 16 of an element being out, which its queue's home appends or reports full; those of one element to one queue are decided in order,
and an element's answers leave in the order of its messages; DEQ takes the oldest message; QSTAT reads the queue; the sequencer takes the
oldest record of a shard. -/
def Obligations.Queues : Prop :=
  (∀ f s c, Fires (.postc f) f s c →
    let w := c.va 512
    let key := w.toNat / 2 ^ 128 % 2 ^ 64
    let k := c.lid * 64 + (key / 2 ^ 21 ^^^ key / 2 ^ 27 ^^^ key / 2 ^ 33 ^^^ key / 2 ^ 39) % 64
    let q := s.shards.get k []
    (256 ≤ q.length → Waits (.postc f) s c (some .ringFull)) ∧
    (q.length < 256 → ∃ r u, exec (.postc f) s = .next (requeue u c.lid (w.toNat / 2 ^ 80 % 2 ^ 16) (w.toNat / 2 ^ 64 % 2 ^ 16)) ∧
      (let v := commit s c { emits := zeroAll c 0, take := c.ops }
       u = countEvent { v with shards := s.shards.put k (q ++ [r]) } c.lid 16 1) ∧
      r.toNat % 2 ^ 32 = 0 ∧ r.toNat / 2 ^ 32 % 2 ^ 64 = w.toNat / 2 ^ 32 % 2 ^ 64 ∧ r.toNat / 2 ^ 128 = w.toNat / 2 ^ 128 ∧
      r.toNat / 2 ^ 96 % 2 ^ 32 = c.l.rcd.tenid.toNat * 128 + c.lid)) ∧
  (∀ f s c nd, Fires (.grow f) f s c → nodeAt c.l c.p.graph c.p.node = some nd →
    let v := nd.gcur.toNat + c.aa % 2 ^ 32
    (nd.closed = true → exec (.grow f) s = .next (trapAt s c cNodeClosed none (payload3 c.aa 0 0) c.e.fflg)) ∧
    (nd.closed = false → nd.state ≠ .running → Waits (.grow f) s c (some .other)) ∧
    (nd.closed = false → nd.state = .running → growLimit nd.launch < v → exec (.grow f) s = .next (trapAt s c cGrowRange none (payload3 c.aa 0 0) c.e.fflg)) ∧
    (nd.closed = false → nd.state = .running → v ≤ growLimit nd.launch → ∃ w, lane 64 w 0 = v ∧ exec (.grow f) s =
      .next (requeue (modLease (commit s c { emits := emitAll c w, take := c.ops }) c.lid fun l => modNode l c.p.graph c.p.node fun nd =>
        { nd with gcur := BitVec.ofNat 32 v }) c.lid c.p.graph c.p.node))) ∧
  (∀ f s c, Fires (.enq f) f s c →
    (16 ≤ c.e.outs.toNat → Waits (.enq f) s c (some .other)) ∧
    (c.e.outs.toNat < 16 → ∃ m : EnqMsg, m.who = c.x ∧ m.plane = c.b ∧ m.ans = none ∧ m.retry = false ∧ m.handle.toNat = c.aa ∧ m.msg = c.vb 512 ∧ m.nb = f.md.getLsbD 0 ∧
      exec (.enq f) s = .next (modElem (modLease (commit s c { take := c.ops, reserve := c.outs }) c.lid fun l => { l with enqs := l.enqs ++ [m] }) c.x c.b
        fun e => { e with outs := e.outs + 1 }))) ∧
  (∀ l h q, queueOf l h = some q ↔ l.queues.get (h % 1024) {} = q ∧ q.v = true ∧ q.gen.toNat = h / 2 ^ 48 % 2 ^ 16 ∧ h / 2 ^ 10 % 2 ^ 38 = 0) ∧
  (∀ s lid m, let h := m.handle.toNat
    let x := tileAt s m.who.tile
    let at_ : Place := placeOf x (planeOf x m.plane) m.who.eng m.who.slot
    (queueOf (leaseAt s lid) h = none → ∃ d fl, enqDecide lid m s = .refuse (trap { giveBack s m.who m.plane with fresh := s.fresh + 1 } lid
      cStaleHandle d at_ (payload3 h (curGen (leaseAt s lid) h) 0) fl)) ∧
    (∀ q, queueOf (leaseAt s lid) h = some q →
      let t := queueTile s lid q
      let off := queueOff q q.count
      (shut (tileAt s t) = true → enqDecide lid m s = .later s) ∧
      (shut (tileAt s t) = false → q.ring = none →
        (q.count < q.cap →
          (bankCase (tileAt s t) off = .ready → enqDecide lid m s = .answer (touchBanks (putScrWord
            (setQueue lid (h % 1024) { q with count := q.count + 1 } s) t off m.msg) t [off]) ⟨0, 0⟩) ∧
          (bankCase (tileAt s t) off = .asleep → enqDecide lid m s = .later (wakeBank s t (bankOf off))) ∧
          (bankCase (tileAt s t) off = .draining → enqDecide lid m s = .later s) ∧
          (bankCase (tileAt s t) off = .ungranted → ∃ d fl,
            let v := markPoisoned (countPoison s m.who.tile 1) m.who.tile m.plane true
            enqDecide lid m s = .answer (trap { v with fresh := v.fresh + 1 } lid cBankUngranted d at_ (payload3 h 0 off) fl) (poisonTok 0x0A (tiOf x)))) ∧
        (q.cap ≤ q.count → m.nb = true → enqDecide lid m s = .answer (countEvent s lid 25 1) ⟨2, 0⟩) ∧
        (q.cap ≤ q.count → m.nb = false → enqDecide lid m s = .again s)))) ∧
  (∀ l i m, (i, m) ∈ enqHeads l ↔ l[i]? = some m ∧ m.ans = none ∧ ∀ (j : Nat) k, j < i → l[j]? = some k → k.ans = none →
    k.who = m.who → k.plane = m.plane → k.handle.toNat % 1024 ≠ m.handle.toNat % 1024) ∧
  (∀ s lid, stored (leaseAt s lid) = false → ∃ hs n, exec (.enqArrival lid) s =
      .next (enqFlush lid (leaseAt s lid).enqs.length (enqStep lid hs { s with fresh := n })) ∧ ∀ m, m ∈ hs ↔ m ∈ enqHeads (leaseAt s lid).enqs) ∧
  (∀ s lid m, stored (leaseAt s lid) = false → (leaseAt s lid).enqs = [m] → m.ans = none →
    let queue (u : State) (l : List EnqMsg) : State := modLease u lid fun z => { z with enqs := l }
    let still (u : State) : Prop := (leaseAt u lid).enqs = [m]
    (∀ u, enqDecide lid m s = .later u → still u → exec (.enqArrival lid) s = .next u) ∧
    (∀ u, enqDecide lid m s = .again u → still u → exec (.enqArrival lid) s = .next (queue u [{ m with retry := true }])) ∧
    (∀ u tok, enqDecide lid m s = .answer u tok → still u →
      exec (.enqArrival lid) s = .next (putTargets (modElem (queue u []) m.who m.plane fun e => { e with outs := e.outs - 1 }) m.who m.plane tok)) ∧
    (∀ u, enqDecide lid m s = .refuse u → still u →
      exec (.enqArrival lid) s = .next (queue (modElem u m.who m.plane fun e => { e with outs := e.outs - 1 }) []))) ∧
  (∀ s lid n, (∀ (i : Nat) m, (leaseAt s lid).enqs[i]? = some m → m.ans ≠ none →
      ∃ (j : Nat) (k : EnqMsg), j < i ∧ (leaseAt s lid).enqs[j]? = some k ∧ k.who = m.who ∧ k.plane = m.plane) → enqFlush lid n s = s) ∧
  (∀ s lid q m, memoriesCanonical s = true → q.count < q.cap → q.base.toNat + 64 * q.cap ≤ 2 ^ 20 →
    queueMsgs (putScrWord s (queueTile s lid q) (queueOff q q.count) m) lid (queuePut q) = queueMsgs s lid q ++ [m]) ∧
  (∀ s lid q, queueMsgs s lid (queuePop q) = (queueMsgs s lid q).drop 1) ∧
  (∀ x off, bankCase x off = .ready ↔ granted x (bankOf off) = true ∧ bankReady x (bankOf off) = true ∧
    ∀ d, x.drain = some d → d.mask.getLsbD (bankOf off) = false) ∧
  (∀ f s c, Fires (.deq f) f s c →
    let h := c.ab
    (queueOf c.l h = none → exec (.deq f) s = .next (trapAt s c cStaleHandle none (payload3 h (curGen c.l h) 0) c.e.fflg)) ∧
    (∀ q, queueOf c.l h = some q → q.ring = none → 0 < q.count →
      let t := queueTile s c.lid q
      let off := queueOff q 0
      (shut (tileAt s t) = true → Waits (.deq f) s c (some .other)) ∧
      (shut (tileAt s t) = false →
        (bankCase (tileAt s t) off = .ready → exec (.deq f) s = .next (touchBanks (setQueue c.lid (h % 1024)
          { q with head := (q.head + 1) % max 1 q.cap, count := q.count - 1 } (commit s c
          { emits := c.outs.map fun o => (o.1, o.2, if o.1 = 0 then ⟨scrWord s t off, 0⟩ else ⟨0, 0⟩), take := c.ops })) t [off])) ∧
        (bankCase (tileAt s t) off = .asleep → exec (.deq f) s = .next (wakeBank (setWait s c (some .wake)) t (bankOf off))) ∧
        (bankCase (tileAt s t) off = .draining → Waits (.deq f) s c (some .other)) ∧
        (bankCase (tileAt s t) off = .ungranted → ∃ d,
          let v := commit s c { emits := c.outs.map fun o => (o.1, o.2, poisonTok 0x0A c.ti), take := c.ops, nf := false, poison := 1 }
          exec (.deq f) s = .next (trap { v with fresh := v.fresh + 1 } c.lid cBankUngranted d (placeOf c.t c.p c.x.eng c.x.slot) (payload3 h 0 off) c.e.fflg)))) ∧
    (∀ q, queueOf c.l h = some q → q.ring = none → q.count = 0 →
      (f.md.getLsbD 0 = false → Waits (.deq f) s c (some .ringEmpty)) ∧
      (f.md.getLsbD 0 = true → exec (.deq f) s = .next (commit s c
        { emits := c.outs.map fun o => (o.1, o.2, if o.1 = 0 then ⟨0, 0⟩ else ⟨3, 0⟩), take := c.ops })))) ∧
  (∀ f s c, Fires (.qstat f) f s c →
    let q := c.l.queues.get (c.ab % 1024) {}
    ∃ w t, exec (.qstat f) s = .next t ∧ lane 64 w 3 = q.gen.toNat ∧
      (queueOf c.l c.ab = none → lane 64 w 0 = 0 ∧ lane 64 w 1 = 0 ∧ lane 64 w 2 = 0 ∧ t = commit s c { emits := emitAll c w, take := c.ops }) ∧
      (queueOf c.l c.ab = some q → q.ring = none → lane 64 w 0 = 1 ∧ lane 64 w 1 = q.count % 2 ^ 64 ∧ lane 64 w 2 = q.cap % 2 ^ 64 ∧
        t = commit s c { emits := emitAll c w, take := c.ops }) ∧
      (queueOf c.l c.ab = some q → q.ring ≠ none → lane 64 w 0 = 2 ∧ lane 64 w 2 = q.cap % 2 ^ 64)) ∧
  ∀ s lid sh w rest, s.shards.get (lid * 64 + sh) [] = w :: rest → (leaseAt s lid).v = true → mayIssue (leaseAt s lid) = true →
    let g := w.toNat / 2 ^ 80 % 2 ^ 16
    let n := w.toNat / 2 ^ 64 % 2 ^ 16
    let k := w.toNat / 2 ^ 32 % 2 ^ 32
    let pop := countEvent { s with shards := s.shards.put (lid * 64 + sh) rest } lid 17 1
    let refused : Prop := exec (.contDequeue lid sh) s = .next (graphFault pop lid 4 g n cContTarget 0 (BitVec.ofNat 256 w.toNat))
    (nodeAt (leaseAt s lid) g n = none → refused) ∧
    ∀ nd, nodeAt (leaseAt s lid) g n = some nd →
      let past : Prop := nd.state = .cancelled ∨ nd.state = .done ∨ ((nd.state = .armed ∨ nd.state = .running) ∧ nd.closed = true)
      (past → exec (.contDequeue lid sh) s = .next (checkDone (countLate pop lid g n) lid g n)) ∧
      (¬past → isCont nd = false ∨ isConfig nd = false → refused) ∧
      (¬past → isCont nd = true → isConfig nd = true → nd.state ≠ .armed → nd.state ≠ .running → exec (.contDequeue lid sh) s = .next s) ∧
      (¬past → isCont nd = true → isConfig nd = true → nd.state = .armed ∨ nd.state = .running →
        (nd.gcur.toNat ≤ k → refused) ∧
        (k < nd.gcur.toNat → ∀ r, idleRegion (leaseAt s lid) g n = some r → exec (.contDequeue lid sh) s = .next (issueSeg pop lid r.rid k (some (low (w.toNat / 2 ^ 128))))) ∧
        (k < nd.gcur.toNat → idleRegion (leaseAt s lid) g n = none → exec (.contDequeue lid sh) s = .next s))

/-! ### Bank power -/

/-- R334 to R342 and Table 11.11: BWPH writes the fields that its mask names; BANKP acts on banks that the tile holds, and a request to the others is
what they answer with BANK_UNGRANTED (Table 11.4); a bank drowses, wakes after its time, is zeros when it wakes from DISCARD or has been granted, and
leaves the tile scrubbed; a drain ends when its banks are idle, or after 512 cycles with the busy ones named. -/
def Obligations.BankPower : Prop :=
  (∀ f s c, Fires (.bwph f) f s c →
    let v := lane 64 (c.va 64) 0 % 2 ^ 32
    let m (k : Nat) : Bool := f.imm.getLsbD k
    let bad : Prop := (m 2 = true ∧ v / 2 ^ 28 % 4 = 3) ∨ (m 0 = true ∧ v / 2 ^ 10 % 4 = 3) ∨ v % 1024 ≠ 0
    (bad → exec (.bwph f) s = .next (trapAt s c cBwphValue none (payload3 v 0 0) c.e.fflg)) ∧
    (¬bad → ∃ n : BitVec 32, exec (.bwph f) s = .next (modLease (commit s c { emits := zeroAll c c.sb, take := c.ops }) c.lid fun l =>
        { l with rcd := { l.rcd with bwph := n } }) ∧
      ∀ i, i < 32 → n.getLsbD i = if (30 ≤ i ∧ m 3 = true) ∨ (28 ≤ i ∧ i < 30 ∧ m 2 = true) ∨ (12 ≤ i ∧ i < 28 ∧ m 1 = true) ∨ (10 ≤ i ∧ i < 12 ∧ m 0 = true)
        then v.testBit i else c.l.rcd.bwph.getLsbD i)) ∧
  (∀ mk ∈ [Instr.bankpWake, .bankpDiscard, .bankpRelease, .bankpStatus], ∀ f s c, Fires (mk f) f s c →
    (∃ b, b < 16 ∧ c.aa.testBit b = true ∧ c.t.bankg.getLsbD b = false) → Issues (mk f) s c .other fun r =>
      Asks c r .wake ∧ r.phase = .home ∧ (∀ p ∈ r.rest, p.sp = .scr ∧ p.addr / 2 ^ 20 = c.ti) ∧
      ∀ b, b < 16 → ((∃ p ∈ r.rest, bankOf p.addr = b) ↔ c.aa.testBit b = true ∧ c.t.bankg.getLsbD b = false)) ∧
  (∀ f s c, Fires (.bankpWake f) f s c → (∀ b, b < 16 → c.aa.testBit b = true → c.t.bankg.getLsbD b = true) →
    (c.aa % 65536 = 0 → exec (.bankpWake f) s = .next (firedWord s c 0 false)) ∧
    (c.aa % 65536 ≠ 0 → Issues (.bankpWake f) s c .other fun r => Asks c r .wake ∧ r.phase = .home ∧ (∀ p ∈ r.rest, p.sp = .scr ∧ p.addr / 2 ^ 20 = c.ti) ∧
      ∀ b, b < 16 → ((∃ p ∈ r.rest, bankOf p.addr = b) ↔ c.aa.testBit b = true))) ∧
  (let drains (mk : Fields → Instr) (rel : Bool) : Prop := ∀ f s c, Fires (mk f) f s c → (∀ b, b < 16 → c.aa.testBit b = true → c.t.bankg.getLsbD b = true) →
    let demanded (b : Nat) : Prop := (c.t.pa.pst ≠ .empty ∧ c.t.pa.banks.getLsbD b = true) ∨ (c.t.pb.pst ≠ .empty ∧ c.t.pb.banks.getLsbD b = true)
    (c.aa % 65536 = 0 → exec (mk f) s = .next (firedWord s c 0 false)) ∧
    (c.aa % 65536 ≠ 0 → rel = true → (∃ b, b < 16 ∧ c.aa.testBit b = true ∧ demanded b) → MemTraps (mk f) s c cBankDemand c.aa 0) ∧
    (c.aa % 65536 ≠ 0 → (rel = true → ∀ b, b < 16 → c.aa.testBit b = true → ¬demanded b) →
      (c.t.drain ≠ none → Waits (mk f) s c (some .other)) ∧
      (c.t.drain = none → ∃ d : Drain, d.who = c.x ∧ d.plane = c.b ∧ d.release = rel ∧ d.mask.toNat = c.aa % 65536 ∧ d.sb = c.sb ∧ d.before = s.nextReq ∧ d.cycles = 0 ∧
        exec (mk f) s = .next (modTile (commit s c { take := c.ops, reserve := c.outs }) c.x.tile fun x => { x with drain := some d })))
  drains .bankpDiscard false ∧ drains .bankpRelease true) ∧
  (∀ f s c, Fires (.bankpStatus f) f s c → (∀ b, b < 16 → c.aa.testBit b = true → c.t.bankg.getLsbD b = true) → ∃ w,
    exec (.bankpStatus f) s = .next (firedWord s c w false) ∧ lane 64 w 1 = c.t.bankg.toNat ∧
    ∀ b, b < 16 → lane 2 w b = match bankMode c.t b with | .off => 0 | .retain => 1 | .active => 2 | .discard => 3) ∧
  (∀ s t b, let x := tileAt s t
    let rth := (tileBwph s t).toNat / 2 ^ 12 % 2 ^ 16
    let n := 4 * ((tileBwph s t).toNat / 2 ^ 30 % 4 + 1)
    let on (b : Nat) : Prop := b < 16 ∧ bankReady x b = true
    (bankReady x b = true → rth ≠ 0 → 16 * rth ≤ (x.bidle.get b 0).toNat → exec (.bankDrowse t b) s = .next (modTile s t fun x => setBank x b .retain)) ∧
    (bankReady x b = false ∨ rth = 0 ∨ (x.bidle.get b 0).toNat < 16 * rth → exec (.bankDrowse t b) s = .next s) ∧
    (((List.range 16).filter fun b => bankReady x b).length ≤ n → exec (.bankSbcLimit t) s = .next s) ∧
    (n < ((List.range 16).filter fun b => bankReady x b).length → on b → (∀ k, on k → (x.bidle.get k 0).toNat ≤ (x.bidle.get b 0).toNat) →
      (∀ k, k < b → on k → (x.bidle.get k 0).toNat < (x.bidle.get b 0).toNat) → exec (.bankSbcLimit t) s = .next (modTile s t fun x => setBank x b .retain))) ∧
  (∀ s t b, let x := tileAt s t
    let u := wakeBank s t b
    (x.wakes.find b = none → bankMode x b = .retain → (tileAt u t).wakes.find b = some 6 ∧ sameMemory s u) ∧
    (x.wakes.find b = none → bankMode x b = .discard → (tileAt u t).wakes.find b = some 1184 ∧ sameMemory s u) ∧
    (x.wakes.find b ≠ none ∨ bankMode x b = .active ∨ bankMode x b = .off → u = s)) ∧
  (∀ s t b, memoriesCanonical s = true → b < 16 → let x := tileAt s t
    let lo := t * 2 ^ 20 + b * 2 ^ 16
    let zeros (u : State) : Prop := u.mem = s.mem ∧ (∀ a, lo ≤ a → a < lo + 2 ^ 16 → Memory.read u.scratch a = 0) ∧ (∀ g, lo / 16 ≤ g → g < lo / 16 + 2 ^ 12 → g ∉ u.feb) ∧
      (∀ a, a < lo ∨ lo + 2 ^ 16 ≤ a → Memory.read u.scratch a = Memory.read s.scratch a) ∧ (∀ g, g < lo / 16 ∨ lo / 16 + 2 ^ 12 ≤ g → (g ∈ u.feb ↔ g ∈ s.feb))
    let serves (u : State) : Prop := bankMode (tileAt u t) b = .active ∧ (tileAt u t).wakes.find b = none ∧ (∀ k, k ≠ b → bankMode (tileAt u t) k = bankMode x k)
    (x.wakes.find b = some 0 → x.scrub.getLsbD b = false → bankMode x b = .discard → ∃ u, exec (.bankWakeDone t b) s = .next u ∧ serves u ∧ zeros u) ∧
    (x.wakes.find b = some 0 → x.scrub.getLsbD b = false → bankMode x b ≠ .discard → ∃ u, exec (.bankWakeDone t b) s = .next u ∧ serves u ∧ sameMemory s u) ∧
    (x.wakes.find b = some 0 → x.scrub.getLsbD b = true → ∃ u, exec (.bankGrantScrubDone t b) s = .next u ∧ serves u ∧ zeros u ∧ (tileAt u t).scrub.getLsbD b = false) ∧
    (x.wakes.find b ≠ some 0 → exec (.bankWakeDone t b) s = .next s ∧ exec (.bankGrantScrubDone t b) s = .next s)) ∧
  ∀ s t d, (tileAt s t).drain = some d →
    let busy (b : Nat) : Prop := b < 16 ∧ d.mask.getLsbD b = true ∧ bankBusy s t d.before b = true
    ((∃ b, busy b) → exec (.bankDrained t) s = .next s) ∧
    ((∀ b, ¬busy b) → ∃ u, exec (.bankDrained t) s = .next (drainAnswer u d 0 0) ∧ (tileAt u t).drain = none ∧
      (d.release = false → sameMemory s u ∧ ∀ b, b < 16 → d.mask.getLsbD b = true → bankMode (tileAt s t) b = .active ∨ bankMode (tileAt s t) b = .retain →
        bankMode (tileAt u t) b = .discard) ∧
      (d.release = true → (∀ b, b < 16 → d.mask.getLsbD b = true → bankMode (tileAt u t) b = .off ∧ granted (tileAt u t) b = false ∧
          ∀ a, t * 2 ^ 20 + b * 2 ^ 16 ≤ a → a < t * 2 ^ 20 + (b + 1) * 2 ^ 16 → Memory.read u.scratch a = 0) ∧
        (∀ b, b < 16 → d.mask.getLsbD b = false → bankMode (tileAt u t) b = bankMode (tileAt s t) b ∧ granted (tileAt u t) b = granted (tileAt s t) b))) ∧
    (d.cycles < 512 → exec (.bankDrainTimeout t) s = .next s) ∧
    (512 ≤ d.cycles → ∃ m, (∀ b, m.testBit b = true ↔ busy b) ∧ exec (.bankDrainTimeout t) s = .next (drainAnswer (modTile s t fun x => { x with drain := none }) d 1 m))

/-! ### Segments, barriers, snapshots and traps -/

/-- R88, R109, R406 and R407: FORK gives every element of the plane its initial S, clears NF and FFLG, seeds LFSR, sets SEGG, makes
the entry slots due and, once it holds its demands, emits SOT; RDV consumes tokens and notes its block's arrival at a stream end; when every present
block has arrived, nothing is outstanding and every entry slot has had the turn that FORK gives it (the model's reading, log 49), the tile's segment
ends, and RDV emits its EOT. -/
def Obligations.Segments : Prop :=
  (∀ s t r g, forkDue s t = some (r, g) → let u := forkEffects s t g none
    let p := activePlane (tileAt s t)
    let q := activePlane (tileAt u t)
    q.segg = BitVec.ofNat 32 g ∧ q.inSeg = true ∧ q.poisoned = false ∧ (tileAt u t).planeB = (tileAt s t).planeB ∧
    q.route = p.route ∧ q.lbuf = p.lbuf ∧ q.rings = p.rings ∧ q.acc0 = p.acc0 ∧ q.acc1 = p.acc1 ∧
    (∀ e, e < 3 → (q.rdva.getLsbD e = true ↔ ∃ b, blockOf p e = some b ∧ ∀ el ∈ b.elems, ∀ f, instrAt el ≠ some (.rdv f))) ∧
    ∀ e slot el b, elemIn p e slot = some el → blockOf p e = some b → elemIn q e slot = some { el with
      s := el.sInit, nf := 0, fflg := 0, lfsr := lfsrSeed g (configIndex (tileAt s t) p) e slot, xm := {}, wait := none, due := b.ents.contains slot || isFork el }) ∧
  (∀ f s c, ctxAt s s.cur (.fork f) f = some c → tileRuns s c.x.tile = true → c.p.pst = .active → suspended c.p c.x.eng = false → c.t.capture = none →
    throttledAt s c.x.tile = false →
    let sot (u : State) (d : Ctx) : Prop :=
      (HoldsDemands d d.outs → exec (.fork f) s = .next (commit u d { emits := toAll d (ctl kSOT d.p.segg.toNat), nf := false })) ∧
      (¬HoldsDemands d d.outs → exec (.fork f) s = .next (setWait u d (some .noDemand)))
    (c.e.due = false → exec (.fork f) s = .next s) ∧
    (c.p.inSeg = false → forkDue s c.x.tile = none → exec (.fork f) s = .next s) ∧
    (c.e.due = true → c.p.inSeg = true → sot s c) ∧
    (c.e.due = true → c.p.inSeg = false → ∀ r g d, forkDue s c.x.tile = some (r, g) →
      ctxAt (forkEffects s c.x.tile g (c.l.conts.find r.rid)) s.cur (.fork f) f = some d → sot (forkEffects s c.x.tile g (c.l.conts.find r.rid)) d)) ∧
  (∀ f s c t, HasTurn (.rdv f) f s c → c.ha = some t → isSwitch t = false → isSnap t = false →
    let e : Eff := { take := c.ops, nf := isData t }
    (t.sb = 0b11 ∨ (isCtl t = true ∧ (codeOf t = kBUBBLE_END ∨ codeOf t = kEOT)) → exec (.rdv f) s = .next (modPlane (commit s c e) c.x.tile c.b fun p =>
      { p with rdva := p.rdva ||| BitVec.ofNat 3 (2 ^ c.x.eng) })) ∧
    (t.sb ≠ 0b11 → (isCtl t = true → codeOf t ≠ kBUBBLE_END ∧ codeOf t ≠ kEOT) → exec (.rdv f) s = .next (commit s c e))) ∧
  (∀ s t, tileRuns s t = true → let x := tileAt s t
    let p := activePlane x
    let ready : Prop := p.inSeg = true ∧ (∀ e, e < 3 → blockOf p e = none ∨ p.rdva.getLsbD e = true) ∧
      (∀ e slot el, elemIn p e slot = some el → e < 3 → el.outs = 0 ∧ (el.due = false ∨ el.wait ≠ none ∨ el.nf ≠ 0 ∨ suspended p e = true)) ∧
      ∀ k ∈ x.landb ++ x.spill, k.plane ≠ x.planeB
    let owed (u : State) : State := modPlane u t x.planeB fun p => { p with inSeg := false, eots := if (streamRdv p).isSome then p.eots ++ [p.segg] else p.eots }
    (¬ready → exec (.segmentComplete t) s = .next (emitEot s t)) ∧
    (ready → exec (.segmentComplete t) s = .next (tileDone (emitEot (owed s) t) t p.poisoned))) ∧
  (∀ s t g r i ins f c, let x := tileAt s t
    (activePlane x).eots = g :: r → streamRdv (activePlane x) = some (i, ins, f) → ctxAt s ⟨t, 0, i⟩ ins f = some c → HoldsDemands c c.outs →
    emitEot s t = modPlane ((toAll c (ctl kEOT g.toNat)).foldl (fun u m => emitTo u c.x x.planeB m.1 m.2.1 m.2.2) (setWait s c none)) t x.planeB fun p =>
      { p with eots := r }) ∧
  ∀ s t b r, let lid := (tileAt s t).tlease.toNat
    regionAt (leaseAt s lid) (activePlane (tileAt s t)).rid = some r → r.seg ≠ none →
    let left := r.left.filter (· != t)
    let noted := modLease s lid fun l => modRegion l r.rid fun r => { r with left := r.left.filter (· != t), poisoned := r.poisoned || b }
    (left ≠ [] → tileDone s t b = noted) ∧ (left = [] → tileDone s t b = segmentEnd noted lid r.rid)

/-- R228 to R231 and Table 8.5: a tile delivers SWITCH to its elements without token operands; it castles only when its shadow plane is COMPLETE,
every element of the old plane is switched with nothing outstanding, no data waits and no pre-emption gates the lease (the model's reading of R463,
log 106); then the planes change places in one step, the old one is EMPTY with registers that the rule leaves undefined, and the memories stay. -/
def Obligations.Castling : Prop :=
  (∀ s t, castleReady s t = true → let x := tileAt s t
    let p := activePlane x
    p.pst = .active ∧ (shadowPlane x).pst = .complete ∧ tileRuns s t = true ∧ (leaseAt s x.tlease.toNat).lstate ≠ .gating ∧ p.eots = [] ∧
    segmentReady x x.planeB = false ∧
    (∀ e slot el, e < 3 → elemIn p e slot = some el → el.sw = true ∧ el.outs = 0 ∧ el.rqp.act = false ∧ ∀ u ∈ el.qa ++ el.qb ++ el.qc ++ el.qp, isCtl u = true) ∧
    (∀ k q, (k, q) ∈ p.lbuf → ∀ u ∈ q, isCtl u = true) ∧ (∀ k ∈ x.landb ++ x.spill, k.plane ≠ x.planeB) ∧ p.acc0.rdo.kind = 0 ∧ p.acc1.rdo.kind = 0 ∧
    (∀ k r, (k, r) ∈ p.rings → r.resv = []) ∧ ∀ k r, (k, r) ∈ s.reqs → r.lease = x.tlease.toNat → r.who.tile ≠ t) ∧
  (∀ s t, castleReady s t = false → exec (.castling t) s = .next s) ∧
  (∀ s t r, castleReady s t = true → regionAt (leaseAt s (tileAt s t).tlease.toNat) (shadowPlane (tileAt s t)).rid = some r → r.stopped = false →
    ∃ u, exec (.castling t) s = .next (startTile (passRegion u (tileAt s t).tlease.toNat r.rid) t) ∧
      (tileAt u t).planeB = !(tileAt s t).planeB ∧ activePlane (tileAt u t) = { shadowPlane (tileAt s t) with pst := .active } ∧
      (∃ a b g, shadowPlane (tileAt u t) = { cext := a, rorg := b, segg := g }) ∧ (tileAt u t).swf = 0 ∧ sameMemory s u ∧ u.reqs = s.reqs ∧ u.wires = s.wires ∧ ∀ k, k ≠ t → tileAt u k = tileAt s k) ∧
  ∀ s t e slot el i f c, let x := tileAt s t
    let p := activePlane x
    tileRuns s t = true → (leaseAt s x.tlease.toNat).lstate ≠ .gating → p.pst = .active → (shadowPlane x).pst = .loading ∨ (shadowPlane x).pst = .complete →
    (if linkEnds p then switchEverywhere x p = true else lastDone s t = true ∧ p.eots = []) →
    (e, slot, el) ∈ elemsOf p → (∀ m ∈ elemsOf p, m ≠ (e, slot, el) → m.2.2.sw = true ∨ ∃ j g, fieldsAt p m.1 m.2.1 = some (j, g) ∧ WellFormed.tokenOperands j ≠ []) →
    fieldsAt p e slot = some (i, f) → WellFormed.tokenOperands i = [] → el.sw = false → ctxAt s ⟨t, e, slot⟩ i f = some c →
    resultsBehind s c = false → answersBehind s c = false →
    (HoldsDemands c (targetsOf i f) → exec (.switchDelivery t) s = .next ((targetsOf i f).foldl (fun u g => emitTo u ⟨t, e, slot⟩ x.planeB g.1 g.2 (ctl kSWITCH 0))
      (modElem s ⟨t, e, slot⟩ x.planeB fun el => { el with sw := true }))) ∧
    (¬HoldsDemands c (targetsOf i f) → exec (.switchDelivery t) s = .next (setWait s c (some .noDemand)))

/-- R224 to R227, R234 and Tables 8.2 to 8.4, for an element whose operands all take part: equal codes at every operand go on as one token, different
codes become POISON of cause 8, a control token beside data takes the data with it as POISON of cause 9, POISON goes on alone, SWITCH on every operand
switches the element unless its shadow plane is EMPTY (R232) or a pre-emption gates the lease (the model's reading, log 106), and SNAP on every
operand goes on. PKPX marks the SOT that it hands on as a carrier stream's (R157); a FENCE keeps its control tokens until its condition holds (R322).
-/
def Obligations.ControlTokens : Prop :=
  ∀ s x c, siteCtx s x = some c → ctlCan s c = true → c.p.inSeg = true → ctlOps c = c.ops → c.ops ≠ [] → toConsumer c = false → resultsBehind s c = false →
    answersBehind s c = false → c.e.rqp.act = false → ctlS c = none → deadSnaps c = [] →
    let ts := ctlTargets c
    let fence : Prop := ∃ f, c.i = .fence f ∧ fenceReady s c.x.tile (f.md.toNat % 4) = false
    let marks (u : State) : State := match c.i with | .fence f => fenceMark u c.x.tile (f.md.toNat % 4) (scopeOf f) | _ => u
    let sends (run : Host.Outcome State Fault Refusal) (take : List Opnd) (tok : Token) (new : Bool) (g : State → State) : Prop :=
      (fence → run = .next (setWait s c (some .fence))) ∧
      (¬fence → HoldsDemands c ts → run = .next (marks (g (commit s c { emits := ts.map (fun m => (m.1, m.2, tok)), take := take, nf := false, poison := if new then 1 else 0, hold := true })))) ∧
      (¬fence → ¬HoldsDemands c ts → run = .next (setWait s c (some .noDemand)))
    let hd (o : Opnd) (P : Token → Prop) : Prop := ∃ t, c.head o = some t ∧ P t
    (∀ o t, c.ops.head? = some o → c.head o = some t → (∀ k ∈ c.ops, hd k fun u => isCtl u = true ∧ codeOf u = codeOf t) → isPoison t = false → isSwitch t = false →
      isSnap t = false →
      sends (exec (.alignedControlForward x) s) c.ops (ctlCopy c t) false id ∧ (ctlCopy c t).sb = t.sb ∧
      ((∀ f, c.i ≠ .pkpx f) ∨ codeOf t ≠ kSOT → ctlCopy c t = t) ∧
      ∀ f, c.i = .pkpx f → codeOf t = kSOT → ∀ b, (ctlCopy c t).pay.getLsbD b =
        if b = 8 then true else if b = 9 then (f.typ == .e5m2) else t.pay.getLsbD b) ∧
    (∀ o k, o ∈ c.ops → k ∈ c.ops → (∀ q ∈ c.ops, hd q fun u => isCtl u = true ∧ isPoison u = false ∧ isSwitch u = false) →
      (∃ t u, c.head o = some t ∧ c.head k = some u ∧ codeOf t ≠ codeOf u) → sends (exec (.alignedControlForward x) s) c.ops (poisonTok 8 c.ti) true id) ∧
    (∀ o, o ∈ c.ops → (∀ k ∈ c.ops, ∀ u, c.head k = some u → isPoison u = false) → (∃ k ∈ c.ops, hd k fun u => isCtl u = true ∧ isSnap u = false) →
      c.ops.find? (fun k => dataHead (c.head k)) = some o → sends (exec (.alignedControlForward x) s) [o] (poisonTok 9 c.ti) true id) ∧
    (∀ o t, c.ops.find? (fun k => match c.head k with | some u => isPoison u | none => false) = some o → c.head o = some t →
      ((∀ k ∈ c.ops, hd k fun u => isCtl u = false ∨ isPoison u = true) → sends (exec (.poisonPropagate x) s) c.ops t false id) ∧
      ((∃ k ∈ c.ops, hd k fun u => isCtl u = true ∧ isPoison u = false) → sends (exec (.poisonPropagate x) s) [o] t false id)) ∧
    ((∀ k ∈ c.ops, hd k fun u => isSwitch u = true) →
      ((shadowPlane c.t).pst = .empty ∨ c.l.lstate = .gating → exec (.switchConsume x) s = .next s) ∧
      ((shadowPlane c.t).pst ≠ .empty → c.l.lstate ≠ .gating → sends (exec (.switchConsume x) s) c.ops (ctl kSWITCH 0) false fun u =>
        switchPassed c (modElem u c.x c.b fun e => { e with sw := true }))) ∧
    ∀ o t, c.ops.head? = some o → c.head o = some t → (∀ k ∈ c.ops, hd k fun u => isSnap u = true) →
      sends (exec (.snapAlign x) s) c.ops t false fun u => modElem u c.x c.b fun e => { e with snaps := e.snaps ++ [snapId t] }

/-- R234, R282, R408 to R413: BAR and SIG wait for the tile's accesses, or mark those that are on their way and go ahead (log 99), and send one
arrival to the barrier unit, which counts arrivals of one N, closes the phase at N and refuses another N; a BAR emits its token once released, behind
the tile's reads. SNAP opens a snapshot and emits its token; a tile captures once its elements have passed it. PLANE reads the planes; AWAIT suspends
its block until its condition holds; NDONE and NFAIL close the node at the segments issued. -/
def Obligations.Synchronization : Prop :=
  (∀ m ∈ [(Instr.bar, false), (.sig, true)], ∀ f s c, Fires (m.1 f) f s c →
    let n := c.ab % 65536
    let clear : Prop := mayPass s (fenceDue s c.x.tile 2) = true
    let acquired : Prop := mayPass s (readsDue s c.x.tile) = true
    (c.e.bar = .none → n = 0 → exec (m.1 f) s = .next (trapAt s c cBarMismatch none (payload3 c.ab 0 0) c.e.fflg)) ∧
    (c.e.bar = .none → n ≠ 0 → ¬clear → Waits (m.1 f) s c (some .fence)) ∧
    (c.e.bar = .none → n ≠ 0 → clear → exec (m.1 f) s = .next (modElem (modLease (fenceMark (setWait s c (some .fence)) c.x.tile 2 (scopeOf f)) c.lid fun l =>
        { l with barMsgs := l.barMsgs ++ [⟨c.x, c.b, f.imm.toNat % 256, BitVec.ofNat 16 n, m.2, BitVec.ofNat 64 c.ab⟩] }) c.x c.b fun e => { e with bar := .travelling })) ∧
    (c.e.bar = .travelling ∨ c.e.bar = .waiting ∨ c.e.bar = .closed → Waits (m.1 f) s c (some .fence)) ∧
    (c.e.bar = .released → m.2 = true → exec (m.1 f) s =
      .next (modElem (commit s c { emits := zeroAll c c.sb, take := c.ops }) c.x c.b fun e => { e with bar := .none })) ∧
    (c.e.bar = .released → m.2 = false → ¬acquired → Waits (m.1 f) s c (some .fence)) ∧
    (c.e.bar = .released → m.2 = false → acquired → ∀ t, c.ha = some t → HoldsDemands c (targetsOf c.i c.f) → exec (m.1 f) s =
      .next (let u := commit s c { emits := toAll c t, take := c.ops }
        modElem (markReqs u (scopeOf f) (readsDue u c.x.tile)) c.x c.b fun e => { e with bar := .none }))) ∧
  (∀ s t k r, ((k, r) ∈ readsDue s t ↔ (k, r) ∈ s.reqs ∧ k < s.nextReq ∧ r.who.tile = t ∧ r.counted = true ∧ reqReads r = true ∧ r.rest ≠ []) ∧
    ((k, r) ∈ fenceDue s t 2 ↔
      (k, r) ∈ s.reqs ∧ k < s.nextReq ∧ r.who.tile = t ∧ r.counted = true ∧ (reqReads r = true ∨ reqWrites r = true) ∧ r.rest ≠ [])) ∧
  (∀ s lid m rest, stored (leaseAt s lid) = false → (leaseAt s lid).barMsgs = m :: rest →
    let b := (leaseAt s lid).bars.get m.bid {}
    let n := if b.n = 0 then m.n else b.n
    let arr := if b.n = 0 then 0 else b.arr
    let heard := modLease s lid fun l => { l with barMsgs := rest }
    let told (v : BarSt) : State := modElem heard m.who m.plane fun e => { e with bar := v }
    (n ≠ m.n → ∃ d fl, exec (.barrierArrival lid) s = .next (trap { told .none with fresh := s.fresh + 1 } lid cBarMismatch d
      (placeOf (tileAt (told .none) m.who.tile) (planeOf (tileAt (told .none) m.who.tile) m.plane) m.who.eng m.who.slot) (payload3 m.opw.toNat 0 0) fl)) ∧
    (n = m.n → arr + 1 ≠ n → ∃ b' : Bar, b'.n = n ∧ b'.arr = arr + 1 ∧ b'.phase = b.phase ∧ exec (.barrierArrival lid) s =
      .next (modLease (told (if m.sig then .released else .waiting)) lid fun l => { l with bars := l.bars.put m.bid b' })) ∧
    (n = m.n → arr + 1 = n → exec (.barrierArrival lid) s = .next (closePhase m.bid (modLease (told (if m.sig then .released else .waiting)) lid fun l =>
      { l with bars := l.bars.put m.bid { phase := !b.phase, n := 0, arr := 0 } }) lid))) ∧
  (∀ s lid bid t e slot el, t ∈ boundTiles s lid → elemIn (activePlane (tileAt s t)) e slot = some el → el.bar = .waiting →
    (∀ f, instrAt el = some (.bar f) → f.imm.toNat % 256 = bid → ∃ k, elemIn (activePlane (tileAt (closePhase bid s lid) t)) e slot = some k ∧ k = { el with bar := .closed }) ∧
    ((∀ f, instrAt el = some (.bar f) → f.imm.toNat % 256 ≠ bid) → elemIn (activePlane (tileAt (closePhase bid s lid) t)) e slot = some el)) ∧
  (∀ s x el, elemIn (activePlane (tileAt s x.tile)) x.eng x.slot = some el →
    (el.bar = .closed → exec (.barRelease x) s = .next (modElem s x (tileAt s x.tile).planeB fun e => { e with bar := .released })) ∧
    (el.bar ≠ .closed → exec (.barRelease x) s = .next s)) ∧
  (∀ f s c, Fires (.snap f) f s c →
    let id := BitVec.ofNat 32 c.ab
    let known : Prop := ∃ k v, (k, v) ∈ c.l.snps ∧ v.id = id
    let e : Eff := { emits := c.outs.map fun m => (m.1, m.2, ctl kSNAP id.toNat), take := c.ops, nf := false }
    let passed (u : State) : State := modElem u c.x c.b fun e => { e with snaps := e.snaps ++ [id] }
    (c.l.rcd.snpto = 0 ∨ id = 0 → exec (.snap f) s = .next (trapAt s c cSnapDisabled none (payload3 c.ab 0 0) c.e.fflg)) ∧
    (c.l.rcd.snpto ≠ 0 → id ≠ 0 → ¬known → 4 ≤ c.l.snps.length → Waits (.snap f) s c (some .other)) ∧
    (c.l.rcd.snpto ≠ 0 → id ≠ 0 → known → exec (.snap f) s = .next (passed (commit s c e))) ∧
    (c.l.rcd.snpto ≠ 0 → id ≠ 0 → ¬known → c.l.snps.length < 4 → exec (.snap f) s = .next (passed (openSnap id c.p.rid c.lid (commit s c e))))) ∧
  (∀ s t i v, let x := tileAt s t
    (leaseAt s x.tlease.toNat).snps.find i = some v → t ∈ v.left → x.capture = none → tileRuns s t = true → (activePlane x).pst = .active →
    (activePlane x).rid = v.rid → ((∀ e slot el, e < 3 → elemIn (activePlane x) e slot = some el → v.id ∈ el.snaps ∨ instrAt el = none ∨
      ∃ j, instrAt el = some j ∧ WellFormed.tokenOperands j = []) → ∃ n g, (t, tileSections x [(x.planeB, activePlane x)] false true) ∈ g ∧
        (∀ m ∈ g, m.1 = t ∨ m ∈ v.got) ∧ (∀ m ∈ v.got, m.1 ≠ t → m ∈ g) ∧ exec (.snapCapture t i) s =
          .next (modLease (modTile s t fun x => { x with capture := some n }) x.tlease.toNat fun l => { l with snps := l.snps.put i { v with got := g } })) ∧
    ((∃ e slot el j, e < 3 ∧ elemIn (activePlane x) e slot = some el ∧ v.id ∉ el.snaps ∧ instrAt el = some j ∧ WellFormed.tokenOperands j ≠ []) →
      exec (.snapCapture t i) s = .next s)) ∧
  (∀ s t i v k r, let x := tileAt s t
    (leaseAt s x.tlease.toNat).snps.find i = some v → t ∈ v.left → (∃ b, (t, b) ∈ v.got) → x.capture = some 0 → v.left.filter (· != t) = k :: r →
    exec (.snapCaptureWritten t i) s = .next (modLease (modTile s t fun x => { x with capture := none }) x.tlease.toNat fun l =>
      { l with snps := l.snps.put i { v with left := k :: r } })) ∧
  (∀ s t i v, let x := tileAt s t
    (leaseAt s x.tlease.toNat).snps.find i = some v → (∃ b, (t, b) ∈ v.got) → x.capture = some 0 → v.left = [t] → ∃ u,
    exec (.snapCaptureWritten t i) s = .next u ∧ (tileAt u t).capture = none ∧ (leaseAt u x.tlease.toNat).snps.find i = none) ∧
  (∀ s lid i v, (leaseAt s lid).snps.find i = some v →
    (v.cycles < 1024 * (leaseAt s lid).rcd.snpto.toNat → exec (.snapTimeout lid i) s = .next s) ∧
    (1024 * (leaseAt s lid).rcd.snpto.toNat ≤ v.cycles → ∃ u, exec (.snapTimeout lid i) s = .next u ∧ (leaseAt u lid).snps.find i = none ∧
      v.id ∈ (leaseAt u lid).deadSnaps)) ∧
  (∀ f s c, Fires (.plane f) f s c →
    (f.md.getLsbD 0 = true → (shadowPlane c.t).pst ≠ .complete → Waits (.plane f) s c (some .castling)) ∧
    (f.md.getLsbD 0 = false ∨ (shadowPlane c.t).pst = .complete → ∃ w, exec (.plane f) s = .next (firedWord s c w false) ∧
      lane 32 w 0 = (if c.t.planeB then 1 else 0) ∧ lane 32 w 1 = pstCode c.t.pa.pst ∧ lane 32 w 2 = pstCode c.t.pb.pst ∧ lane 32 w 3 = c.p.mepoch.toNat ∧
      lane 32 w 4 = c.p.segg.toNat)) ∧
  (∀ f s c, Fires (.await f) f s c →
    let a : Awst := { v := true, kind := f.md.getLsbD 0, val := BitVec.ofNat 64 c.ab }
    let met : Prop := if f.md.getLsbD 0 then c.ab = 0 else jobOfHandle c.l c.ab = none
    (met → HoldsDemands c (targetsOf c.i c.f) → exec (.await f) s = .next (commit s c { emits := awaitEmits c, take := c.ops })) ∧
    (¬met → exec (.await f) s = .next (modElem (setWait s c (some (if f.md.getLsbD 0 then .other else .jobEdge))) c.x c.b fun e => { e with awst := a }))) ∧
  (∀ s x c i f, let t := tileAt s x.tile
    fieldsAt (activePlane t) x.eng x.slot = some (i, f) → ctxAt s x i f = some c → c.e.awst.v = true → tileRuns s x.tile = true → (activePlane t).inSeg = true →
    (awaitMet (leaseAt s t.tlease.toNat) c.e = false → exec (.awaitResume x) s = .next s) ∧
    (awaitMet (leaseAt s t.tlease.toNat) c.e = true → landbReady t t.planeB x.eng = false → HoldsDemands c c.outs → exec (.awaitResume x) s =
      .next (commit (modElem s x t.planeB fun e => { e with awst := {} }) c { emits := awaitEmits c, take := c.ops }))) ∧
  (∀ f s c nd, nodeAt c.l c.p.graph c.p.node = some nd →
    (Fires (.ndone f) f s c → ∃ w, lane 32 w 0 = nd.giss.toNat ∧ exec (.ndone f) s =
      .next (closeNode c.lid c.p.graph c.p.node none (commit s c { emits := emitAll c w, take := c.ops }))) ∧
    (Fires (.nfail f) f s c → exec (.nfail f) s = .next (closeNode c.lid c.p.graph c.p.node (some (BitVec.ofNat 16 c.ab)) (commit s c { take := c.ops })))) ∧
  ∀ s lid g n fail nd, nodeAt (leaseAt s lid) g n = some nd → ∃ u nd', closeNode lid g n fail s = checkDone (requeue u lid g n) lid g n ∧
    nodeAt (leaseAt u lid) g n = some nd' ∧ nd'.gcur = nd.giss ∧ nd'.closed = true ∧ nd'.nfail = (if nd.nfail = none then fail else nd.nfail) ∧ nd'.giss = nd.giss ∧
    nd'.state = nd.state

/-- R414, R415, R442, R443, R449, R451 and R452: TRAP, BRK, HALT and a failing ASRT consume their token and trap with IMM16 as detail; BRK keeps its
token for CONTINUE; RDID and TRIGR read and write what they name; RDCTR reads its own engine's and element's counters at once, those of its tile's
other engines at the end of the cycle, and any other at its home, when its request is there; a tile's increments reach LSTL. -/
def Obligations.TrapsAndReads : Prop :=
  (∀ f s c, HasTurn (.trap f) f s c → MayExecute c → exec (.trap f) s = .next (trap (commit s c { take := c.ops }) c.lid cTrap f.imm.toNat
    (placeOf c.t c.p c.x.eng c.x.slot) (payload3 (c.va 512).toNat f.imm.toNat 0) c.e.fflg)) ∧
  (∀ f s c, HasTurn (.halt f) f s c → MayExecute c → exec (.halt f) s = .next (trap (commit s c { take := c.ops }) c.lid cHalt f.imm.toNat
    (placeOf c.t c.p c.x.eng c.x.slot) (payload3 (c.va 512).toNat f.imm.toNat 0) c.e.fflg)) ∧
  (∀ f s c, Fires (.brk f) f s c → ∃ tok : Token, tok.pay = c.va 512 ∧ exec (.brk f) s = .next (modLease (trap (commit s c { take := c.ops, reserve := c.outs }) c.lid cBreak
    f.imm.toNat (placeOf c.t c.p c.x.eng c.x.slot) (payload3 (c.va 512).toNat f.imm.toNat 0) c.e.fflg) c.lid fun l =>
      { l with brk := l.brk ++ [(c.x, c.b, tok)], broken := true })) ∧
  (∀ f s c, HasTurn (.asrt f) f s c → MayExecute c →
    ((c.va 512).getLsbD 0 = true → Does (.asrt f) s c { emits := c.outs.map fun m => (m.1, m.2, ⟨c.va 512, c.sb⟩), take := c.ops }) ∧
    ((c.va 512).getLsbD 0 = false → exec (.asrt f) s = .next (trap (commit s c { take := c.ops }) c.lid cAssert f.imm.toNat
      (placeOf c.t c.p c.x.eng c.x.slot) (payload3 (c.va 512).toNat f.imm.toNat 0) c.e.fflg))) ∧
  (∀ f s c, Fires (.rdid f) f s c → ∃ w, exec (.rdid f) s = .next (firedWord s c w false) ∧
    lane 32 w 0 = c.t.tten.toNat ∧ lane 32 w 1 = c.lid ∧ lane 32 w 2 = c.p.graph % 2 ^ 32 ∧ lane 32 w 3 = c.p.node % 2 ^ 32 ∧
    lane 32 w 4 = Config.dieOf c.x.tile % 2 ^ 32 ∧ lane 32 w 5 = (s.fmask.get (Config.dieOf c.x.tile) 0).toNat ∧
    lane 32 w 6 = (if c.t.planeB then 1 else 0) ∧ lane 32 w 7 = c.x.eng % 2 ^ 32 ∧ lane 32 w 8 = c.x.slot % 2 ^ 32 ∧ ∀ j, 9 ≤ j → j < 16 → lane 32 w j = 0) ∧
  (∀ f s c, Fires (.rdctr f) f s c →
    let k := f.imm.toNat % 4096
    let cls := f.imm.toNat / 4096
    let own : Prop := (cls = 5 ∧ k / 16 % 4 = c.x.eng) ∨ cls = 6
    ∃ r, exec (.rdctr f) s = .next (issueReq (commit s c { take := c.ops, reserve := c.outs }) r) ∧ r.who = c.x ∧ r.lease = c.lid ∧ r.plane = c.b ∧
      r.dest = .targets (c.outs.map (·.1)) c.sb ∧ r.sb = c.sb ∧ r.counted = false ∧ r.rest = [] ∧
      (¬own → r.op = .ctr f.imm.toNat ∧ r.phase = if cls = 5 then .home else .mesh) ∧
      (own → r.phase = .done ∧ ∃ w, r.op = .note ⟨w, c.sb⟩ ∧ lane 64 w 1 = s.tick.toNat ∧
        (cls = 5 → k / 64 % 2 = 1 → lane 64 w 0 = (c.t.actc.get c.x.eng 0).toNat) ∧
        (cls = 5 → k / 64 % 2 = 0 → lane 64 w 0 = (c.t.stc.get (16 * c.x.eng + k % 16) 0).toNat) ∧
        (cls = 6 → lane 64 w 0 = if k % 2 = 0 then c.e.nf.toNat else c.e.fflg.toNat))) ∧
  (∀ s k r n, s.reqs.find k = some r → r.op = .ctr n →
    let l := leaseAt s r.lease
    let i := n % 4096
    (r.phase = .mesh → (∀ j q m, (j, q) ∈ s.reqs → j < k → q.who = r.who → q.phase = .mesh → q.op ≠ .ctr m) → ∃ w,
      exec (.meshPacketArrival k) s = .next { s with reqs := s.reqs.put k { r with op := .note ⟨w, r.sb⟩, phase := .done } } ∧ lane 64 w 1 = s.tick.toNat ∧
      (n / 4096 = 0 → lane 64 w 0 = (l.evc.get i 0).toNat) ∧ (n / 4096 = 1 → lane 64 w 0 = (l.lstl.get i 0).toNat) ∧
      (n / 4096 = 2 → lane 64 w 0 = (l.lcyc.get i 0).toNat) ∧ (n / 4096 = 3 → lane 64 w 0 = (l.ifa.get i 0).toNat) ∧
      (n / 4096 = 4 → lane 64 w 0 = (l.txc.get i 0).toNat) ∧ (n / 4096 = 8 → lane 64 w 0 = (s.mctr.get i 0).toNat) ∧
      (n / 4096 = 9 → lane 64 w 0 = s.tick.toNat)) ∧
    (r.phase = .mesh → (∃ j q m, (j, q) ∈ s.reqs ∧ j < k ∧ q.who = r.who ∧ q.phase = .mesh ∧ q.op = .ctr m) → exec (.meshPacketArrival k) s = .next s) ∧
    ∀ x : Nat → Tile, r.phase = .home → n / 4096 = 5 → ∃ w, answerCtr s x r = { r with op := .note ⟨w, r.sb⟩, phase := .done } ∧
      lane 64 w 1 = s.tick.toNat ∧ lane 64 w 0 = if n / 64 % 2 = 1 then ((x r.who.tile).actc.get (n / 16 % 4) 0).toNat
        else ((x r.who.tile).stc.get (16 * (n / 16 % 4) + n % 16) 0).toNat) ∧
  (∀ f s c, Fires (.trigr f) f s c →
    let w := (c.va 64).toNat
    let ctr := w / 2 ^ 64 % 2 ^ 16
    let t : Thr := { v := w.testBit 81, dir := w.testBit 80, ctrid := BitVec.ofNat 16 ctr, thresh := BitVec.ofNat 64 w }
    let bad : Prop := w / 2 ^ 82 ≠ 0 ∨ ¬((ctr / 4096, ctr % 4096) ∈ [(0, 64), (1, 16), (2, 4), (3, 8), (8, 8)].flatMap fun m => (List.range m.2).map fun k => (m.1, k))
    (bad → exec (.trigr f) s = .next (trapAt s c cTrigCounter none (payload3 (w % 2 ^ 64) (w / 2 ^ 64 % 2 ^ 64) 0) c.e.fflg)) ∧
    (¬bad → exec (.trigr f) s = .next (testWatchers (armThr (testWatchers (commit s c { emits := zeroAll c c.sb, take := c.ops }) c.lid) c.lid
      (f.imm.toNat % 16) t) c.lid))) ∧
  (∀ s lid k t, t.st = false → let l := leaseAt (armThr s lid k t) lid
    let v := counterOf s (leaseAt s lid) t.ctrid.toNat
    t.ctrid.toNat / 4096 ≠ 4 →
    let on : Prop := t.v = true ∧ if t.dir then v ≤ t.thresh.toNat else t.thresh.toNat ≤ v
    (on → l.thr.get k {} = { t with st := true } ∧ (l.txc.get k 0).toNat = 1) ∧ (¬on → l.thr.get k {} = t ∧ (l.txc.get k 0).toNat = 0)) ∧
  ∀ s t, let x := tileAt s t
    (x.delta = [] → exec (.lstlDeltaSend t) s = .next s) ∧
    (∀ k n, k < 16 → x.delta = [(k, n)] → ∃ u, exec (.lstlDeltaSend t) s = .next u ∧ (tileAt u t).delta = [] ∧
      (leaseAt u x.tlease.toNat).lstl.get k 0 = (leaseAt s x.tlease.toNat).lstl.get k 0 + BitVec.ofNat 64 n ∧
      ∀ j, j ≠ k → (leaseAt u x.tlease.toNat).lstl.get j 0 = (leaseAt s x.tlease.toNat).lstl.get j 0)

/-! ### Links -/

/-- R98, R99, R194, R210, R215 to R219, R376 to R378 and R478: a token of its tile's own lease goes into the queue of its channel or on over its
route, any other is rejected; while a halt is up it goes no further than its switch (R419), and no join fires (R420); a SWITCH that a route sends on
has passed its channel's head; a demand counts for the configuration that its tag names, and over the edge of the grid one of a peer's for the active
plane's link (log 43); a join adds one token of each source, lane by lane, modulo 2^64, at a tile and in a reach port's unit; a token of a peer takes
its channel's stamp; the unpack stage takes a token or expands a block, and after a malformed one gives POISON. -/
def Obligations.LinkTraffic : Prop :=
  (∀ s t p c w, (s.wires.find? fun w => w.tile == t && w.port == p && w.ch == c) = some w →
    let u : State := { s with wires := s.wires.erase w }
    let x := tileAt s t
    let key := chKey p c
    let b := applicable x key
    let pl := planeOf x b
    let v := (pl.route.get key 0).toNat
    let mine : Prop := x.tten ≠ 0 ∧ w.stamp = some x.tlease.toNat
    let plain : Prop := mine ∧ (isCtl w.tok = true → 1 ≤ codeOf w.tok ∧ codeOf w.tok ≤ 7) ∧ ∀ e ∈ x.ptab, e.ip = p → e.ic ≠ c
    let sent : State := if isSwitch w.tok = true ∧ b = x.planeB then modTile u t fun x => { x with swf := x.swf ||| BitVec.ofNat 64 (2 ^ key) } else u
    let halted : Prop := (leaseAt s x.tlease.toNat).hline = true ∧ (leaseAt s x.tlease.toNat).scan = false
    (¬mine → exec (.tokenArrival t p c) s = .next (rejectToken u t p c w)) ∧
    (plain → halted → pl.pst = .empty ∨ v.testBit 15 = false ∨ v.testBit 14 = false → passesOn x p c = true → exec (.tokenArrival t p c) s = .next s) ∧
    (plain → pl.pst ≠ .empty → v.testBit 15 = true → v.testBit 14 = true → exec (.tokenArrival t p c) s =
      .next (modPlane u t b fun p => { p with lbuf := p.lbuf.put key (p.lbuf.get key [] ++ [w.tok]), late := p.late ++ [key] })) ∧
    (plain → ¬halted → pl.pst ≠ .empty → v.testBit 15 = true → v.testBit 14 = false → v % 64 ∉ pl.reduce → exec (.tokenArrival t p c) s =
      .next (sendOut sent t (v % 64 / 8) (v % 64 % 8) w.tok)) ∧
    (plain → ¬halted → pl.pst ≠ .empty → v.testBit 15 = true → v.testBit 14 = false → v % 64 ∈ pl.reduce → exec (.tokenArrival t p c) s =
      .next (modPlane sent t b fun p => { p with lbuf := p.lbuf.put (fwdJoinKey (v % 64) key) (p.lbuf.get (fwdJoinKey (v % 64) key) [] ++ [w.tok]) })) ∧
    (plain → ¬halted → pl.pst = .empty ∨ v.testBit 15 = false → (∀ f ∈ x.fwd, f.lease ≠ x.tlease.toNat) → exec (.tokenArrival t p c) s = .next (rejectToken u t p c w))) ∧
  (∀ s t p c w, (tileAt s t).tten = 0 →
    ((∀ l, w.stamp = some l → (leaseAt s l).v = false) → rejectToken s t p c w = { s with pf0log := s.pf0log + 1 }) ∧
    (∀ l, w.stamp = some l → (leaseAt s l).v = true → ∃ d, rejectToken s t p c w = trap { countEvent s l 7 1 with fresh := s.fresh + 1 } l cFirewall d
      ⟨0xFFFF, 3, 0xFF, 0xFFFF, 0xFFFF⟩ (payload3 (w.tok.pay.toNat % 2 ^ 64) (w.tok.sb.toNat * 256 + p * 32 + c) 0) 0)) ∧
  (∀ s t p c d, (s.demands.find? fun d => d.tile == t && d.port == p && d.ch == c) = some d →
    let u : State := { s with demands := s.demands.erase d }
    let x := tileAt s t
    let out := chKey p c
    let tagged (b : Bool) : Prop := let q := planeOf x b
      q.pst ≠ .empty ∧ q.rid = d.rid ∧ q.graph = d.graph ∧ q.node = d.node ∧ x.tlease.toNat = d.lease
    (∀ e, x.ptab.find? (fun e => e.op == p && e.oc == c && e.src == (d.rid, d.graph, d.node)) = some e → e.ip ≠ 7 →
      exec (.demandArrival t p c) s = .next (demandOver u t (chKey e.ip e.ic) d.lease d.rid d.graph d.node)) ∧
    ((∀ e ∈ x.ptab, ¬(e.op = p ∧ e.oc = c ∧ e.src = (d.rid, d.graph, d.node))) →
    ((∀ b, ¬tagged b) → exec (.demandArrival t p c) s = .next u) ∧
    ∀ b, tagged b → (b = x.planeB ∨ ¬tagged x.planeB) →
      let q := planeOf x b
      let counted : State := modPlane u t b fun p => { p with dcnt := p.dcnt.put out (p.dcnt.get out 0 + 1) }
      (out ∈ q.reduce → exec (.demandArrival t p c) s = .next counted) ∧
      (out ∉ q.reduce → forwardFrom q out = none → targetsChannel q out = true → exec (.demandArrival t p c) s = .next counted) ∧
      (∀ i, out ∉ q.reduce → forwardFrom q out = some i → exec (.demandArrival t p c) s = .next (demandBack u t i d.lease d.rid d.graph d.node)) ∧
      (out ∉ q.reduce → forwardFrom q out = none → targetsChannel q out = false → exec (.demandArrival t p c) s = .next u))) ∧
  (∀ s t p c, (∀ d ∈ s.demands, ¬(d.tile = t ∧ d.port = p ∧ d.ch = c)) → let x := tileAt s t
    let q := activePlane x
    let out := chKey p c
    let edge : Prop := p < 4 ∧ neighbour t p = none ∧ reachFor t p c ≠ none
    (¬edge → exec (.demandArrival t p c) s = .next s) ∧
    (edge → q.pst ≠ .empty → (∀ e ∈ x.ptab, e.op ≠ p ∨ e.oc ≠ c) → out ∉ q.reduce → forwardFrom q out = none → targetsChannel q out = true →
      exec (.demandArrival t p c) s = .next (modPlane s t x.planeB fun p => { p with dcnt := p.dcnt.put out (p.dcnt.get out 0 + 1) }))) ∧
  (∀ s t key lid rid g n u, key / 8 < 4 → neighbour t (key / 8) = some u → (∀ e ∈ (tileAt s t).ptab, e.op ≠ 7) →
    demandBack s t key lid rid g n = { s with demands := s.demands ++ [⟨u, facing (key / 8), key % 8, lid, rid, g, n⟩] }) ∧
  (∀ s t p c, tileRuns s t = false → exec (.reductionJoin t p c) s = .next s) ∧
  (∀ s t p c b, tileRuns s t = true → let x := tileAt s t
    let out := chKey p c
    let ready (b : Bool) : Prop := let q := planeOf x b
      out ∈ q.reduce ∧ out ∉ q.gated ∧ 0 < q.dcnt.get out 0 ∧ ∀ m ∈ joinSources q out, q.lbuf.get m.1 [] ≠ []
    ready b → (b = x.planeB ∨ ¬ready x.planeB) →
    let q := planeOf x b
    let src := joinSources q out
    let hs := src.filterMap fun m => (q.lbuf.get m.1 []).head?
    let lid := x.tlease.toNat
    let taken : State := src.foldl (fun s m => match m.2 with | some i => demandBack s t i lid q.rid q.graph q.node | none => s) (modPlane s t b fun p =>
      { p with lbuf := src.foldl (fun l m => l.put m.1 ((l.get m.1 []).drop 1)) p.lbuf, dcnt := p.dcnt.put out (p.dcnt.get out 0 - 1) })
    (∀ sb, hs ≠ [] → (∀ h ∈ hs, isCtl h = false ∧ h.sb = sb) → ∃ w n, exec (.reductionJoin t p c) s = .next (sendOut (countEvent taken lid 5 n) t p c ⟨w, sb⟩) ∧
      (∀ i, i < 8 → lane 64 w i = (hs.map fun h => lane 64 h.pay i).foldl (· + ·) 0 % 2 ^ 64) ∧
      ∀ h k, hs = [h, k] → n = ((List.range 8).filter fun i =>
        decide (sx 64 (lane 64 h.pay i) + sx 64 (lane 64 k.pay i) < -(2 ^ 63)) || decide ((2 ^ 63 : Int) ≤ sx 64 (lane 64 h.pay i) + sx 64 (lane 64 k.pay i))).length) ∧
    (hs ≠ [] → (∀ h ∈ hs, isCtl h = false) → (∃ h ∈ hs, ∃ k ∈ hs, h.sb ≠ k.sb) →
      exec (.reductionJoin t p c) s = .next (sendOut (countPoison (countEvent taken lid 5 0) t 1) t p c (poisonTok 7 (tiOf x)))) ∧
    (∀ h, hs.head? = some h → (∀ k ∈ hs, isCtl k = true ∧ codeOf k = codeOf h) → exec (.reductionJoin t p c) s = .next (sendOut (countEvent taken lid 5 0) t p c h)) ∧
    ((∃ h ∈ hs, isCtl h = true) → (∃ k ∈ hs, isCtl k = false) → exec (.reductionJoin t p c) s = .next s)) ∧
  (∀ s p c pay sb, let v := s.rpb.get (8 * p + c) 0
    let a := Config.reachAt p c
    let w (tok : Token) : Wire := ⟨a / 64, a / 8 % 4, a % 8, tok, some (v.toNat % 128)⟩
    let gate : Prop := (leaseAt s (v.toNat % 128)).lstate = .gating ∨ (leaseAt s (v.toNat % 128)).lstate = .preempted ∨ (leaseAt s (v.toNat % 128)).hline = true ∨
      (tileAt s (a / 64)).hold = true
    let q := s.reachq.put (8 * p + c) (s.reachq.get (8 * p + c) [] ++ [⟨pay, sb⟩])
    let mates := (List.range 8).filter fun d => Config.reachAt p d == a
    (16 ≤ p ∨ 8 ≤ c → exec (.reachTokenEntry p c pay sb) s = .next s) ∧
    (p < 16 → c < 8 →
      (v.getLsbD 7 = false → exec (.reachTokenEntry p c pay sb) s = .next { s with pf0log := s.pf0log + 1 }) ∧
      (v.getLsbD 7 = true → (leaseAt s (v.toNat % 128)).v = false →
        exec (.reachTokenEntry p c pay sb) s = .next (rejectToken s (a / 64) (a / 8 % 4) (a % 8) (w ⟨pay, sb⟩))) ∧
      (v.getLsbD 7 = true → (leaseAt s (v.toNat % 128)).v = true →
        (gate → exec (.reachTokenEntry p c pay sb) s = .next s) ∧
        (¬gate → mates = [c] → exec (.reachTokenEntry p c pay sb) s = .next { s with wires := s.wires ++ [w ⟨pay, sb⟩] }) ∧
        (¬gate → mates ≠ [c] → (∃ d ∈ mates, q.get (8 * p + d) [] = []) → exec (.reachTokenEntry p c pay sb) s = .next { s with reachq := q }) ∧
        (¬gate → mates ≠ [c] → (∀ d ∈ mates, q.get (8 * p + d) [] ≠ []) → ∀ tok n arise,
          joinToken (tiOf (tileAt s (a / 64))) (mates.filterMap fun d => (q.get (8 * p + d) []).head?) = some (tok, n, arise) →
          ∃ u, exec (.reachTokenEntry p c pay sb) s = .next u ∧ u.wires = s.wires ++ [w tok] ∧
            ∀ d, d < 8 → u.reachq.get (8 * p + d) [] = if d ∈ mates then (q.get (8 * p + d) []).drop 1 else s.reachq.get (8 * p + d) [])))) ∧
  ∀ s t p c, let x := tileAt s t
    let key := chKey p c
    let u := (activePlane x).px8.get key {}
    let n := pxNext u
    let ev := Instr.px8UnpackBlock t p c
    let put (v : Px8) : State := modPlane s t x.planeB fun p =>
      { p with px8 := p.px8.put key v, late := p.late ++ List.replicate (v.out.length - u.out.length) (64 + key) }
    let took (v : Px8) : State := returnDemand (modPlane (put v) t x.planeB fun p => { p with lbuf := p.lbuf.put key ((p.lbuf.get key []).drop 1) }) t x.planeB key
    tileRuns s t = true → (activePlane x).pst = .active →
    (∀ l, u.carrier = true → u.bad = false → 16 ≤ u.nbits → 0 < n → n ≤ u.nbits → (∀ m ∈ u.sbs, m.1 < n → m.2 = 0) → pxDecode u.e5m2 (u.bits % 2 ^ n) = some l →
      ∃ v sb, exec ev s = .next (countEvent (put v) x.tlease.toNat 26 1) ∧ v.out = u.out ++ [⟨ofLanes 8 l, sb⟩] ∧ v.carrier = true ∧ v.bad = false ∧
        (∀ m, (u.sbs.find? fun m => decide (n ≤ m.1)) = some m → (m.2 = 0b10 ∨ m.2 = 0b11) ∧ u.bits / 2 ^ n % 2 ^ (m.1 - n) = 0 →
          sb = m.2 ∧ v.nbits = u.nbits - m.1 ∧ v.bits = u.bits / 2 ^ m.1) ∧
        ((∀ m ∈ u.sbs, m.2 = 0) → sb = 0 ∧ v.nbits = u.nbits - n ∧ v.bits = u.bits / 2 ^ n)) ∧
    (u.carrier = true → 16 ≤ u.nbits → 0 < n → n ≤ u.nbits → u.bad = true ∨ pxDecode u.e5m2 (u.bits % 2 ^ n) = none →
      ∃ v, exec ev s = .next (countPoison (countEvent (put v) x.tlease.toNat 26 0) t 1) ∧ v.bad = true ∧ v.carrier = true ∧
        v.out = u.out ++ [poisonTok 2 (tiOf x)]) ∧
    (∀ h r, seenTokens (activePlane x) key = h :: r → isCtl h = false → u.carrier = true → u.bad = false → (u.nbits < 16 ∨ (u.nbits < n ∧ 0 < n)) →
      ∃ v, exec ev s = .next (took v) ∧ v.bits = u.bits + h.pay.toNat * 2 ^ u.nbits ∧ v.nbits = u.nbits + 512 ∧ v.sbs = u.sbs ++ [(u.nbits + 512, h.sb)] ∧ v.out = u.out) ∧
    (∀ h r, seenTokens (activePlane x) key = h :: r → isCtl h = true → codeOf h = kSOT → u.nbits = 0 → p < 7 → c < 8 → (u.carrier = true ∨ h.pay.getLsbD 8 = true) →
      ∃ v, exec ev s = .next (took v) ∧ v.out = u.out ++ [h] ∧ v.carrier = h.pay.getLsbD 8 ∧ v.e5m2 = h.pay.getLsbD 9 ∧ v.bad = false) ∧
    (∀ h r, seenTokens (activePlane x) key = h :: r → isCtl h = true → codeOf h = kEOT → u.nbits = 0 → u.carrier = true →
      ∃ v, exec ev s = .next (took v) ∧ v.out = u.out ++ [h] ∧ v.carrier = false)

/-! ### Loading -/

/-- R59 to R61, R390, R392, R394 to R396 and R503: an image that passes its checks is kept for its node, one that fails faults it; the copy pass sends
a pattern that has stayed the same and traps on one that has changed; a pattern that has arrived is COMPLETE, or ACTIVE in the active plane; the
dispatcher arms, passes regions on and works RDYQ from its head; a node that becomes READY has its launch header checked (R23), and a stream that
cannot be bound faults the node as it is armed (R385). -/
def Obligations.Loading : Prop :=
  (∀ s lid g n nd, let l := leaseAt s lid
    nodeAt l g n = some nd →
    let due : Prop := mayIssue l = true ∧ (dispatchWants l = some (g, n) ∨ ((trackRegion l g n).isSome = true ∧ ∀ c ∈ l.checked, ¬(c.graph = g ∧ c.node = n)))
    let first : Prop := nd.state = .ready ∨ nd.state = .waiting
    let ev := Instr.checkPass lid g n
    (¬due → exec ev s = .next s) ∧
    (due → first → launchBad nd.launch = true → exec ev s = .next (checkFails s lid g n 4 cLaunchInvalid none 0)) ∧
    (due → (first → launchBad nd.launch = false) →
      (∀ u f, readImage s lid nd.cfgp.toNat = (u, .error (some f)) → exec ev s = .next (checkFails u lid g n 3 cLoadRefused none (reportBits 1 f))) ∧
      (∀ u, readImage s lid nd.cfgp.toNat = (u, .ok .wait) → exec ev s = .next u) ∧
      (∀ u c, readImage s lid nd.cfgp.toNat = (u, .ok (.fail c)) → exec ev s = .next (checkFails u lid g n 4 cConfigFetch (some c) 0)) ∧
      ∀ u m, readImage s lid nd.cfgp.toNat = (u, .ok (.ok m)) →
        let racem := (leaseAt u lid).rcd.racem
        let keep (u : State) : State := modLease u lid fun l =>
          { l with checked := (l.checked.filter fun c => !(c.graph == g && c.node == n)) ++ [⟨g, n, m, patHashes m⟩], woken := true }
        (∀ f, (checkImage m racem).1 = some f → exec ev s = .next (checkFails u lid g n 3 cLoadRefused none (reportBits 1 f))) ∧
        (checkImage m racem = (none, none) → ¬first → exec ev s = .next (keep u)) ∧
        (∀ f, checkImage m racem = (none, some f) → ¬first → exec ev s = .next (keep (flagLoad u lid g n f))) ∧
        (∀ v, checkImage m racem = (none, none) → first → checkTids u lid g n (bindingsOf m) = (v, none) → exec ev s = .next (keep v)) ∧
        (∀ v c d, checkImage m racem = (none, none) → first → checkTids u lid g n (bindingsOf m) = (v, some (c, d)) → exec ev s = .next (checkFails v lid g n 4 c d 0)))) ∧
  (∀ s lid g n kind cause d pay nd, nodeAt (leaseAt s lid) g n = some nd →
    (nd.state = .waiting → checkFails s lid g n kind cause d pay = s) ∧
    (nd.state ≠ .waiting → ∃ e, (∀ k, d = some k → e = k) ∧ ∃ u : State, (u = s ∨ u = { s with fresh := s.fresh + 1 }) ∧
      checkFails s lid g n kind cause d pay = graphFault u lid kind g n cause e pay)) ∧
  (∀ s lid rid r k p nd, let l := leaseAt s lid
    regionAt l rid = some r → r.nextPat = some k → (patsOf r.img)[k]? = some p → nodeAt l r.graph r.node = some nd → nd.state = .armed ∨ nd.state = .running →
    mayIssue l = true → r.stopped = false → r.behind = [] → (∀ m ∈ patPlaces l.rcd r p, (tileAt s m.1).moving = false ∧ portalHolds r.img p rid (tileAt s m.1) = false ∧
      (planeFor (tileAt s m.1) rid).isSome = true) →
    let ev := Instr.copyPassPattern lid rid
    (∀ u c, loaderParts s lid r.va (patParts r.img p) = (u, .fail c) → exec ev s = .next (trap u lid cConfigFetch c ⟨0xFFFF, 5, 0xFF, r.graph, r.node⟩ 0 0)) ∧
    (∀ u b, loaderParts s lid r.va (patParts r.img p) = (u, .ok b) → r.hashes[k]? ≠ some (sha256 b) → ∃ d, exec ev s =
      .next (trap { u with fresh := u.fresh + 1 } lid cImageChanged d ⟨0xFFFF, 5, 0xFF, r.graph, r.node⟩ 0 0)) ∧
    (∀ u b, loaderParts s lid r.va (patParts r.img p) = (u, .ok b) → r.hashes[k]? = some (sha256 b) → (patsOf r.img)[k + 1]? = none → exec ev s =
      .next (modLease ((patPlaces l.rcd r p).foldl (fun s m => match planeFor (tileAt s m.1) rid with
        | some b => modPlane s m.1 b fun _ => loadPlane l.rcd r p m.2.1 m.2.2
        | none => s) u) lid fun l => modRegion l rid fun r => { r with nextPat := none }))) ∧
  (∀ s t b, let x := tileAt s t
    let due (b : Bool) : Prop := (planeOf x b).pst = .loading ∧ (planeOf x b).whole = true
    due b → (b = x.planeB ∨ ¬due x.planeB) → x.moving = false → leaseRuns (leaseAt s x.tlease.toNat) = true →
    (∀ r, regionAt (leaseAt s x.tlease.toNat) (planeOf x b).rid = some r → r.behind = []) →
    ∃ u, exec (.patternArrived t) s = .next u ∧ (planeOf (tileAt u t) b).pst = (if b = x.planeB then .active else .complete) ∧
      (planeOf (tileAt u t) (!b)).pst = (planeOf x (!b)).pst) ∧
  (∀ s lid, let arms (u : State) : State := (activeNodes (leaseAt u lid)).foldl (fun s m =>
      if m.2.2.state == .ready && nodeKind m.2.2 != 0 then armOther s lid m.1 m.2.1 m.2.2 else s) u
    let passes (u : State) : State := ((leaseAt u lid).regions.map (·.rid)).foldl (passTurn lid) u
    (mayArm s lid = false → exec (.dispatch lid) s = .next s) ∧
    (mayArm s lid = true → exec (.dispatch lid) s = .next (let u := passes (arms (goOn (modLease s lid fun l =>
          { l with woken := l.regions.any fun r => r.ended == some s.cycle }) lid))
      dispatchFrom lid (rdyqSeen (leaseAt u lid)) u))) ∧
  (∀ s lid, goOn s lid = ((leaseAt s lid).regions.filter fun r => match r.ended with | some c => c != s.cycle | none => false).foldl
    (fun u r => boundary u lid r.rid) s) ∧
  (∀ s lid g n q c, let l := leaseAt s lid
    let skips : State := let u := skipNode s lid g n
      if l.rdyq.head? = some (g, n) ∧ aged (leaseAt u lid) (g, n) = true then u else dispatchFrom lid q u
    (g, n) ∈ l.rdyq → (l.checked.find? fun c => c.graph == g && c.node == n) = some c →
    (∀ ox oy b a, placeNode s lid g n c.img none = .at_ ox oy b a → dispatchFrom lid ((g, n) :: q) s = dispatchFrom lid q (allot s lid g n ox oy c b a none false)) ∧
    (placeNode s lid g n c.img none = .waits → dispatchFrom lid ((g, n) :: q) s = skips) ∧
    (∀ r o nd, placeNode s lid g n c.img none = .never r o → nodeAt l g n = some nd → nd.state ≠ .ready → dispatchFrom lid ((g, n) :: q) s = skips) ∧
    (∀ r o nd, placeNode s lid g n c.img none = .never r o → nodeAt l g n = some nd → nd.state = .ready → ∃ d, dispatchFrom lid ((g, n) :: q) s =
      dispatchFrom lid q (graphFault { s with fresh := s.fresh + 1 } lid 3 g n (placeCause r) d (reportBits 1 { reason := r, origin := o }))) ∧
    (∀ k nd, placeNode s lid g n c.img none = .fails k → nodeAt l g n = some nd → nd.state = .ready → ∃ d,
      let u := stepNode s lid g n .armed
      dispatchFrom lid ((g, n) :: q) s = dispatchFrom lid q (graphFault { u with fresh := u.fresh + 1 } lid 4 g n k d 0))) ∧
  (∀ s lid g n, let u := moveNode s lid g n .ready
    let bad : Prop := ∃ nd, nodeAt (leaseAt u lid) g n = some nd ∧ nd.state = .ready ∧ isConfig nd = true ∧ launchBad nd.launch = true
    (bad → readyNode s lid g n = checkFails u lid g n 4 cLaunchInvalid none 0) ∧ (¬bad → readyNode s lid g n = u)) ∧
  (∀ s lid g n nd, let l := leaseAt s lid
    (nodeKind nd = 3 → armOther s lid g n nd = moveNode (setLease s lid { l with mgmtReqs := l.mgmtReqs ++ [(g, n)] }) lid g n .armed) ∧
    (∀ x, nodeKind nd = 2 → l.graphs.find g = some x →
      armOther s lid g n nd = moveNode (notifyLease s lid 0x84 (x.nodesVa + BitVec.ofNat 64 (128 * n)) 0) lid g n .armed) ∧
    (nodeKind nd = 4 → trigOk s lid nd = true → armOther s lid g n nd = testTrigger (moveNode s lid g n .armed) lid g n)) ∧
  (∀ s lid g n r c ox oy b a, let l := leaseAt s lid
    trackRegion l g n = some r → (l.checked.find? fun c => c.graph == g && c.node == n) = some c → mayArm s lid = true →
    placeNode s lid g n c.img (some r.rid) = .at_ ox oy b a → exec (.trackArm lid g n) s = .next (allot s lid g n ox oy c b a (some r.rid) true)) ∧
  ∀ s lid g n k rest, let l := leaseAt s lid
    let u := setLease s lid { l with etoks := rest }
    let less := modLease u lid fun l => modNode l g n fun nd => { nd with pend := nd.pend - 1 }
    l.etoks = (g, n, k) :: rest → ∀ nd, nodeAt l g n = some nd →
    (nd.state = .waiting → 1 < nd.pend → exec (.edgeToken lid) s = .next less) ∧
    (nd.state = .waiting → nd.pend = 1 → exec (.edgeToken lid) s = .next (readyNode less lid g n)) ∧
    (∀ u, u = modLease less lid (fun l => { l with rseq := l.rseq + 1 }) → nd.state ≠ .waiting → nd.pend ≠ 0 → nd.viaTrack = true → k = true →
      exec (.edgeToken lid) s = .next (checkDone (requeue (modLease u lid fun l => modNode l g n fun nd => { nd with rorder := l.rseq }) lid g n) lid g n)) ∧
    ((nd.state = .waiting ∧ nd.pend = 0) ∨ ((nd.state = .done ∨ nd.state = .faulted ∨ nd.state = .cancelled) ∧ (nd.viaTrack = false ∨ nd.pend = 0 ∨ k = false)) → exec (.edgeToken lid) s =
      .next (checkGraph (modLease u lid fun l => modNode l g n fun nd => { nd with ctok := nd.ctok + 1 }) lid g))

/-! ### Graphs -/

/-- R386, R387, R389, R396 and R401 to R404: what the commands on graphs answer and change. -/
def Obligations.GraphCommands : Prop :=
  let live (s : State) (c : Cmd) : Prop := ((leaseAt s (cmdLease c)).v = true ∨ cmdLease c = mgmtKey) ∧ (leaseAt s (cmdLease c)).lstate ≠ .removing
  (∀ mk ∈ [Instr.glaunch, .gcancel, .resumeCone, .continueNode], ∀ s c, ¬live s c → exec (mk c) s = .next (finishCmd s c stRemoved 0)) ∧
  (∀ s c, live s c → let lid := cmdLease c
    let g := cmdGraph c
    let l := leaseAt s lid
    let rd (u : State) (va n : Nat) := fetchGraph u lid va n
    (16 ≤ l.actg.length ∨ g ∈ l.actg → exec (.glaunch c) s = .next (finishCmd s c stGbusy 0)) ∧
    (l.actg.length < 16 → g ∉ l.actg →
      (∀ u e, rd s (l.rcd.grtab.toNat + 32 * g) 32 = (u, .error e) → exec (.glaunch c) s = .next (finishCmd u c stGraphFetch (e % 65536))) ∧
      ∀ u v, rd s (l.rcd.grtab.toNat + 32 * g) 32 = (u, .ok v) →
        let nn := fld v 64 32
        let ne := fld v 96 32
        let bad : Prop := fld v 200 8 ≠ 0 ∨ nn = 0 ∨ 65535 < nn ∨ 2 ^ 24 < ne ∨ fld v 0 64 % 128 ≠ 0 ∨ fld v 128 64 % 8 ≠ 0
        (fld v 192 8 ≠ 0 → exec (.glaunch c) s = .next (finishCmd u c stGbusy 0)) ∧
        (fld v 192 8 = 0 → bad → ∃ d, exec (.glaunch c) s = .next (finishCmd { u with fresh := u.fresh + 1 } c stGraphInvalid d)) ∧
        ∀ u1 recs u2 es, fld v 192 8 = 0 → ¬bad → fetchAll lid (fld v 0 64) 128 (List.range nn) u = (u1, .ok recs) →
          fetchAll lid (fld v 128 64) 8 (List.range ne) u1 = (u2, .ok es) →
          let x : Graph := { nodesVa := BitVec.ofNat 64 (fld v 0 64), nnode := nn, nedge := ne, edgesVa := BitVec.ofNat 64 (fld v 128 64),
                             nodes := recs.map nodeOfRecord, edges := es.map (BitVec.ofNat 64) }
          (∀ i e, graphFlaw (lid == mgmtKey) recs x = some (i, e) → exec (.glaunch c) s = .next (finishCmd u2 c stGraphInvalid (i + if e then 2 ^ 32 else 0))) ∧
          (graphFlaw (lid == mgmtKey) recs x = none → exec (.glaunch c) s = .next (finishCmd (launchGraph u2 lid g x) c stDone 0)))) ∧
  (∀ s c, live s c → let lid := cmdLease c
    let g := cmdGraph c
    let l := leaseAt s lid
    (∀ x, l.graphs.find g = some x → x.gstate = 1 →
      exec (.gcancel c) s = .next (finishCmd (endGraph ((List.range x.nodes.length).foldl (cancelNode lid g) s) lid g 4) c stDone 0)) ∧
    (∀ x, l.graphs.find g = some x → x.gstate ≠ 1 → exec (.gcancel c) s = .next (finishCmd s c stDone 0)) ∧
    (l.graphs.find g = none → exec (.gcancel c) s = .next (finishCmd s c stDone 0))) ∧
  (∀ s c x nd, live s c → let lid := cmdLease c
    let g := cmdGraph c
    let n := cmdField c 20 2
    let l := leaseAt s lid
    l.graphs.find g = some x → nodeAt l g n = some nd →
    let cone := coneOf x n
    let streamIn : Prop := ∃ e ∈ edgeList x, edgeKind e.2.2 = 1 ∧ edgeDst e.2.2 ∈ cone ∧ e.1 ∉ cone
    let part : Prop := (x.gstate = 3 ∨ x.gstate = 1) ∧ nd.state = .faulted ∧ nodeOver nd = true
    let hit := (List.range x.nodes.length).filter fun i => cone.contains i && (match x.nodes[i]? with | some u => u.state == .faulted || u.state == .cancelled | none => false)
    (part → streamIn → exec (.resumeCone c) s = .next (finishCmd s c stConeStream 0)) ∧
    (¬part → exec (.resumeCone c) s = .next (finishCmd s c stNotPart 0)) ∧
    let ids := (List.range x.nodes.length).filter cone.contains
    (∀ u e i, ¬streamIn → part → (x.gstate = 1 ∨ l.actg.length < 16) → fetchAll lid x.nodesVa.toNat 128 ids s = (u, .error (e, i)) →
      exec (.resumeCone c) s = .next (finishCmd u c stGraphFetch (e % 65536 + i % 2 ^ 24 * 2 ^ 16 + 2 ^ 40))) ∧
    ∀ u recs, ¬streamIn → part → (x.gstate = 1 ∨ l.actg.length < 16) → fetchAll lid x.nodesVa.toNat 128 ids s = (u, .ok recs) →
      let l := ((ids.zip recs).filter fun m => hit.contains m.1).foldl (fun l m => modNode l g m.1 (resumeNode x (m.1 == n) m.1 m.2)) (leaseAt u lid)
      let l := match l.graphs.find g with | some y => { l with graphs := l.graphs.put g { y with gstate := 1 } } | none => l
      let l := { l with actg := if g ∈ l.actg then l.actg else l.actg ++ [g], etoks := l.etoks.filter fun t => !(t.1 == g && hit.contains t.2.1) }
      exec (.resumeCone c) s = .next (finishCmd (hit.foldl (fun s i => match nodeAt (leaseAt s lid) g i with
        | some u => if u.pend = 0 then readyNode s lid g i else writeNode s lid g i
        | none => s) (gWrite (setLease u lid l) lid (l.rcd.grtab.toNat + 32 * g + 24) [1])) c stDone 0)) ∧
  (∀ s c, (leaseAt s (cmdLease c)).v = false → cmdLease c ≠ mgmtKey → exec (.nodedone c) s = .next (finishCmd s c stRemoved 0)) ∧
  (∀ s c nd, (leaseAt s (cmdLease c)).v = true ∨ cmdLease c = mgmtKey → let lid := cmdLease c
    let g := cmdGraph c
    let n := cmdField c 20 2
    nodeAt (leaseAt s lid) g n = some nd →
    (nd.state ≠ .armed ∨ nodeKind nd ≠ 2 → exec (.nodedone c) s = .next (finishCmd s c stDone 0)) ∧
    (nd.state = .armed → nodeKind nd = 2 → cmdField c 22 1 = 0 → exec (.nodedone c) s = .next (finishCmd (moveNode s lid g n .done) c stDone 0)) ∧
    (nd.state = .armed → nodeKind nd = 2 → cmdField c 22 1 ≠ 0 → ∃ d, exec (.nodedone c) s =
      .next (finishCmd (graphFault { s with fresh := s.fresh + 1 } lid 4 g n cNodeFail d 0) c stDone 0))) ∧
  (∀ s c, live s c → let lid := cmdLease c
    let l := leaseAt s lid
    (l.lstate = .preempted ∨ l.lstate = .gating → exec (.continueNode c) s = .next (waitCmd s c)) ∧
    (l.lstate ≠ .preempted → l.lstate ≠ .gating → exec (.continueNode c) s =
      .next (let u := l.brk.foldl (fun s m => match fieldsAt (planeOf (tileAt s m.1.tile) m.2.1) m.1.eng m.1.slot with
          | some (i, f) => (targetsOf i f).foldl (fun s g => putTo s m.1 m.2.1 g.1 g.2 m.2.2) s
          | none => s) s
        finishCmd (dropHalt (modLease u lid fun l => { l with brk := [], broken := false }) lid) c stDone 0))) ∧
  (∀ s lid g n ok, let l := leaseAt s lid
    let u := setLease s lid { l with mgmtReqs := l.mgmtReqs.filter (· != (g, n)) }
    ((g, n) ∉ l.mgmtReqs → exec (.mgmtAnswer lid g n ok) s = .next s) ∧
    ∀ nd, (g, n) ∈ l.mgmtReqs → nodeAt l g n = some nd → nd.state = .armed → nodeKind nd = 3 →
      (ok = true → mgmtAllowed u lid nd = true → exec (.mgmtAnswer lid g n ok) s = .next (moveNode u lid g n .done)) ∧
      (ok = false ∨ mgmtAllowed u lid nd = false → ∃ d, exec (.mgmtAnswer lid g n ok) s = .next (graphFault { u with fresh := u.fresh + 1 } lid 4 g n cNodeFail d 0))) ∧
  (∀ s lid nd, let k := nd.kparam.toNat % 256
    mgmtAllowed s lid nd = true ↔ lid = mgmtKey ∨ (1 ≤ k ∧ k ≤ 15 ∧ (pfAt s (leaseAt s lid).rcd.tenid.toNat).mask.getLsbD k = true)) ∧
  (∀ s lid g n nd x, let l := leaseAt s lid
    let rs := l.regions.filter fun r => r.graph == g && r.node == n
    nodeAt l g n = some nd → l.graphs.find g = some x → l.lstate ≠ .removing → x.gstate = 1 →
    (nd.state = .faulted → nd.polDone = true → nd.policy.toNat % 4 = 0 → nd.rtry.toNat < nd.rbudg → (∀ r ∈ rs, releasable s lid r = true) →
      exec (.nodeRetry lid g n) s = .next (releaseStopped (stepNode (modLease s lid fun l => modNode l g n fun nd => { nd with rtry := nd.rtry + 1 }) lid g n .retry) lid)) ∧
    (nd.state = .retry → rs = [] → exec (.nodeRetry lid g n) s = .next (readyNode (modLease s lid fun l => modNode l g n fun nd => { nd with
      gcur := BitVec.ofNat 32 (fld nd.launch.toNat 48 32), giss := 0, gset := [], gcomp := 0, skip := 0, closed := false, nfail := none, nalloc := 0 }) lid g n))) ∧
  (∀ s c st res, (∀ e ∈ s.journal, e.seq = c.seq → e.state ≠ 4) → c.seq ≤ s.jhead.toNat → s.jhead.toNat + s.jpend.length < 2 ^ 64 → ∃ e, (pfAt (finishCmd s c st res) c.pf).cwait = (pfAt s c.pf).cwait ++ [e] ∧
    e.tag.toNat = cmdTag c ∧ e.res.toNat = res % 2 ^ 48 ∧ e.status = st ∧ e.outc = true ∧ e.ring = c.ring ∧
    ∀ j ∈ (finishCmd s c st res).journal, j.seq = c.seq → j.state ≠ 1 ∧ j.state ≠ 2) ∧
  ∀ s lid g n nd kind cause d pay, nodeAt (leaseAt s lid) g n = some nd → (g, n) ∉ (leaseAt s lid).faults → nd.state = .ready ∨ nd.state = .armed ∨ nd.state = .running → ∃ nd',
    nodeAt (leaseAt (graphFault s lid kind g n cause d pay) lid) g n = some nd' ∧ nd'.state = .faulted ∧ nd'.fcause.toNat / 65536 = cause % 65536 ∧
    (leaseAt (graphFault s lid kind g n cause d pay) lid).hline = (leaseAt s lid).hline

/-! ### Stops -/

/-- R400, R414, R419, R421 to R438 and R63: the records of a stop are written in order, 64 bytes each, then the summary, and the tenant is told;
policies are applied and the halt line falls; quiescence, its bound, freeze-scans and the halt's bound; PREEMPT, RESUME and REMOVE; answers to page
faults; and errors in banks, tiles and shared structures. -/
def Obligations.Stops : Prop :=
  (∀ s lid, let l := leaseAt s lid
    let ev := Instr.stopRecordsWrite lid
    let first : Prop := l.stopOpen = true ∧ l.stopWritten = false
    let cause : BitVec 32 := match l.recs.find? fun r => r.kind == 1 with | some r => r.cause | none => 0
    let recs := l.recs.map (fillRec s l) ++ if l.stopOpen && !l.stopWritten then stoppedRecs s lid cause else []
    let u := recs.foldl (writeRec lid) (modLease s lid fun l => { l with recs := [] })
    let v := modLease u lid fun l => { l with stopOpen := false, stopWritten := l.hline, lost := l.lost + (recs.length - 4096) }
    let before := (l.recs.takeWhile fun r => r.kind != 1).length
    let w := writeSummary (modLease v lid fun m => { m with stopFirst := l.sseq + 1 + BitVec.ofNat 32 before, stopCause := cause }) lid
    let m := leaseAt w lid
    let all := w.mirror ++ [(BitVec.ofNat 64 (lid + m.stopid.toNat * 2 ^ 8 + cause.toNat * 2 ^ 32), w.tick)]
    let held : Prop := copyingNow s lid = true ∨ (l.stopOpen = true ∧ skidOver s lid = false)
    (recordsDue l = false ∨ held → exec ev s = .next s) ∧
    (recordsDue l = true → ¬held → (leaseAt u lid).lstate = .removing → exec ev s = .next u) ∧
    (recordsDue l = true → ¬held → (leaseAt u lid).lstate ≠ .removing → ¬first → exec ev s = .next (writeSummary v lid)) ∧
    (recordsDue l = true → ¬held → (leaseAt u lid).lstate ≠ .removing → first → exec ev s =
      .next (notifyLease { w with mirror := all.drop (all.length - 64) } lid 0x81 m.rcd.stbase 0))) ∧
  (∀ s lid r, let l := leaseAt s lid
    l.lstate ≠ .removing → writeRec lid s r = gWrite (setLease s lid { l with sseq := l.sseq + 1 }) lid (l.rcd.stbase.toNat + 64 + 64 * ((l.sseq + 1).toNat % 4096))
      (recordBytes lid { l with sseq := l.sseq + 1 } (l.sseq + 1) s.tick r) ∧ ∀ q k, (recordBytes lid l q k r).length = 64) ∧
  (∀ s lid cause, let l := leaseAt s lid
    let u := startRemoval s lid cause
    (l.v = false ∨ l.lstate = .removing → u = s) ∧
    (l.v = true → l.lstate ≠ .removing → (leaseAt u lid).lstate = .removing ∧ (leaseAt u lid).hline = true ∧ (leaseAt u lid).rmCause = BitVec.ofNat 16 cause ∧
      (∀ k r, (k, r) ∈ u.reqs → r.lease ≠ lid) ∧ (leaseAt u lid).jobt = [] ∧ (leaseAt u lid).queues = [] ∧
      (leaseAt u lid).rmReqs = l.rmReqs + (s.reqs.filter fun m => m.2.lease == lid).length + l.jobt.length)) ∧
  (∀ s lid, let l := leaseAt s lid
    let ev := Instr.policyApply lid
    let u := l.faults.foldl (applyPolicy lid) s
    let v := ((leaseAt u lid).regions.filter fun r => releasable u lid r).foldl (fun s r => dropSaved s lid r.rid) u
    let w := dropHalt (releaseStopped v lid) lid
    (l.lstate = .removing ∨ recordsDue l = true → exec ev s = .next s) ∧
    (l.lstate ≠ .removing → recordsDue l = false → l.haltReq = true → exec ev s = .next (startRemoval s lid cHalt)) ∧
    (l.lstate ≠ .removing → recordsDue l = false → l.haltReq = false → exec ev s = .next ((leaseAt w lid).actg.foldl (fun s g => checkGraph s lid g) w))) ∧
  (∀ s lid e nd x, let l := leaseAt s lid
    let u := stopNode (setLease s lid { l with faults := l.faults.filter (· != e) }) lid e.1 e.2
    let v := modLease u lid fun l => modNode l e.1 e.2 fun nd => { nd with polDone := true }
    nodeAt l e.1 e.2 = some nd → l.graphs.find e.1 = some x → l.lstate ≠ .removing → x.gstate = 1 →
    (nd.policy.toNat % 4 = 2 → applyPolicy lid s e = startRemoval v lid (nd.fcause.toNat / 65536)) ∧
    (nd.policy.toNat % 4 = 0 → nd.rtry.toNat < nd.rbudg → applyPolicy lid s e = v) ∧
    (nd.policy.toNat % 4 = 1 ∨ (nd.policy.toNat % 4 = 0 ∧ nd.rbudg ≤ nd.rtry.toNat) → applyPolicy lid s e = cancelCone v lid e.1 e.2)) ∧
  (∀ s lid, let l := leaseAt s lid
    let falls : Prop := l.hline = true ∧ (l.lstate = .active ∨ l.lstate = .moving ∨ l.lstate = .gating) ∧ l.scan = false ∧ l.recs = [] ∧ l.stopOpen = false ∧ l.faults = [] ∧ l.broken = false
    (falls → dropHalt s lid = rouse (setLease s lid { l with hline := false, stopWritten := false }) lid) ∧ (¬falls → dropHalt s lid = s)) ∧
  (∀ s lid, let l := leaseAt s lid
    let ts := boundTiles s lid
    let u := ts.foldl (fun s t => let b := tileBusy s lid t; modTile s t fun x => { x with qbusy := b }) s
    let d := busyDies u lid
    let p := busyPorts u lid
    let n := (ts.filter fun t => (tileAt u t).qbusy).length + popCount 16 d.toNat + p.length
    let q := if n = 0 then (leaseAt u lid).quiet + 1 else 0
    let v := modLease u lid fun l => { l with qroot := BitVec.ofNat 16 (min n 65535), qdie := d, qport := p, quiet := if n = 0 then (leaseAt s lid).quiet + 1 else 0 }
    (l.v = false ∨ l.lstate = .removing ∨ l.lstate = .free → exec (.quiescenceSample lid) s = .next s) ∧
    (l.v = true → l.lstate ≠ .removing → l.lstate ≠ .free → (l.lstate ≠ .gating ∨ l.hline = true ∨ l.scan = true ∨ q < 2) → exec (.quiescenceSample lid) s = .next v) ∧
    (l.v = true → l.lstate = .gating → l.hline = false → l.scan = false → 2 ≤ q → exec (.quiescenceSample lid) s = .next (savePreempt v lid false))) ∧
  (∀ s lid, let l := leaseAt s lid
    let past : Prop := l.lstate = .gating ∧ l.scan = false ∧ 1024 * l.rcd.qbnd.toNat ≤ l.gateCycles ∧ recordsDue l = false ∧ l.faults = []
    let late : Prop := (recordsDue l = true ∨ l.scan = true) ∧ l.hline = true ∧ 64 + 3200 + 65536 ≤ l.stopCycles
    (past → exec (.qbndExpiry lid) s = .next (setLease s lid { l with hline := true, scan := true, stopCycles := 0 })) ∧
    (¬past → exec (.qbndExpiry lid) s = .next s) ∧
    (late → exec (.haltTimeout lid) s = .next (startRemoval s lid cHalted)) ∧ (¬late → exec (.haltTimeout lid) s = .next s)) ∧
  (∀ s lid, let l := leaseAt s lid
    (l.scan = true → l.lstate = .gating → recordsDue l = false → l.faults = [] → (inFlight s lid = false ∨ 64 + 3200 ≤ l.stopCycles) →
      exec (.freezeScanDone lid 0) s = .next (savePreempt s lid true)) ∧
    (inFlight s lid = true → l.stopCycles < 64 + 3200 → exec (.freezeScanDone lid 0) s = .next s) ∧
    ∀ rid r, rid ≠ 0 → l.lstate ≠ .removing → regionAt l rid = some r → r.frozen = true → r.scanned = false →
      let u := (regionTiles l.rcd r).foldl sendDeltas s
      let h : ImgHead := { regionHead (leaseAt u lid) rid with kind := 3, hashes := if r.nextPat.isSome then r.hashes else [] }
      let body := imageBody ((regionTiles l.rcd r).map (tileAt u)) true
      let n := imageBytes h body
      (∀ v w i ok, freeEntry lid n ((List.range 251).map (· + 5)) u = (v, some i) → writeImage v lid i h body = (w, ok) → exec (.freezeScanDone lid rid) s =
        .next (modLease w lid fun l => modRegion l rid fun r => { r with scanned := true, entry := if ok then some i else none })) ∧
      (∀ v, freeEntry lid n ((List.range 251).map (· + 5)) u = (v, none) → ∃ i, exec (.freezeScanDone lid rid) s =
        .next (modLease (saveRecord { v with fresh := v.fresh + 1 } lid cSaveFull i n) lid fun l => modRegion l rid fun r => { r with scanned := true }))) ∧
  (∀ s c, let lid := cmdLease c
    let l := leaseAt s lid
    let held : Prop := c ∈ s.cmdWait ∧ ∃ r ∈ l.regions, r.stopped = true
    (l.lstate = .active → l.hline = false → held → exec (.preempt c) s = .next s) ∧
    (l.lstate = .active → l.hline = false → ¬held → exec (.preempt c) s = .next (startGate s c false)) ∧
    (l.lstate = .active → l.hline = true → l.broken = true → recordsDue l = false → l.faults = [] → exec (.preempt c) s = .next (startGate s c true)) ∧
    (l.lstate = .active → l.hline = true → (l.broken = false ∨ recordsDue l = true ∨ l.faults ≠ []) → exec (.preempt c) s = .next (waitCmd s c)) ∧
    (l.lstate = .moving → exec (.preempt c) s = .next (waitCmd s c)) ∧
    (l.lstate ≠ .active → l.lstate ≠ .moving → exec (.preempt c) s = .next (finishCmd s c stNotActive 0)) ∧
    (∀ scan, (leaseAt (startGate s c scan) lid).lstate = .gating ∧ (leaseAt (startGate s c scan) lid).scan = scan ∧ c ∈ (leaseAt (startGate s c scan) lid).pending) ∧
    (l.lstate ≠ .preempted → exec (.resume c) s = .next (finishCmd s c stNotActive 0)) ∧
    (l.lstate = .preempted → (∀ v, l.saved = some v → v.inPlace = true) → exec (.resume c) s = .next (resumed s c)) ∧
    (∀ v u w secs, l.lstate = .preempted → l.saved = some v → v.inPlace = false →
      reloadAll lid v (if v.frozen then [] else l.regions.filter fun r => !r.frozen) s = (u, some []) → imageSections u lid 0 = (w, secs) →
      exec (.resume c) s =
        .next (resumed ((match (leaseAt w lid).saved with | some v => v.tiles.map (savedTile (leaseAt w lid) secs v) | none => []).foldl restoreTile w) c)) ∧
    (∀ v u, l.lstate = .preempted → l.saved = some v → v.inPlace = false → reloadAll lid v (if v.frozen then [] else l.regions.filter fun r => !r.frozen) s = (u, none) →
      exec (.resume c) s = .next (waitCmd u c)) ∧
    (l.lstate = .free → exec (.remove c) s = .next (finishCmd s c stNotActive 0)) ∧
    (l.lstate ≠ .free → exec (.remove c) s = .next (modLease (startRemoval s lid cRemoved) lid fun l => { l with rmCmds := l.rmCmds ++ [c] }))) ∧
  (∀ s e, let x := tileAt (restoreTile s e) e.1
    x.planeB = e.2.planeB ∧ x.pa = e.2.pa ∧ x.pb = e.2.pb ∧ x.landb = e.2.landb ∧ x.spill = e.2.spill ∧ x.swf = e.2.swf ∧ x.actc = e.2.actc ∧
    x.stc = e.2.stc) ∧
  (∀ s lid, ((leaseAt s lid).lstate ≠ .removing → exec (.removalComplete lid) s = .next s) ∧
    ((leaseAt s lid).lstate = .removing → ∃ u, exec (.removalComplete lid) s = .next u ∧ u.leases.find lid = none)) ∧
  (∀ s t, memoriesCanonical s = true → let u := clearTile s t
    tileAt u t = {} ∧ (∀ a, t * 2 ^ 20 ≤ a → a < (t + 1) * 2 ^ 20 → Memory.read u.scratch a = 0) ∧ (∀ k, k ≠ t → tileAt u k = tileAt s k) ∧ u.mem = s.mem ∧
    ∀ a, a < t * 2 ^ 20 ∨ (t + 1) * 2 ^ 20 ≤ a → Memory.read u.scratch a = Memory.read s.scratch a) ∧
  (∀ s lid, let u := dropTraces s lid
    (∀ w ∈ u.wires, w.stamp ≠ some lid) ∧ (∀ w ∈ u.peerOut, w.stamp ≠ some lid) ∧ (∀ d ∈ u.demands, d.lease ≠ lid) ∧ (∀ d ∈ u.peerDemands, d.lease ≠ lid) ∧
    (∀ w ∈ u.heldWrites, w.1 ≠ lid) ∧ (∀ m ∈ u.reachq, ∀ h ∈ reachHeld s lid, h.1 ≠ m.1) ∧
    (∀ k l, (k, l) ∈ u.mtlb ++ u.lltlb → ∀ e ∈ l, e.lease ≠ lid) ∧ (∀ k v, (k, v) ∈ u.rpb → v.getLsbD 7 = true → v.toNat % 128 ≠ lid) ∧
    ∀ k x, (k, x) ∈ u.tiles → ∀ f ∈ x.fwd, f.lease ≠ lid) ∧
  (∀ s c, let lid := cmdLease c
    let l := leaseAt s lid
    (l.v = true ∨ lid = mgmtKey) → l.lstate ≠ .removing →
    (openPfrec l c = none → exec (.pfresolve c) s = .next (finishCmd s c stFaultTag 0) ∧ exec (.pfdecline c) s = .next (finishCmd s c stFaultTag 0)) ∧
    ∀ f, openPfrec l c = some f →
      (f.loader = true → exec (.pfresolve c) s = .next (finishCmd (setLease s lid { l with pfrecs := l.pfrecs.filter fun g => g.tag != f.tag }) c stDone 0)) ∧
      (let u := setLease s lid { l with pfrecs := l.pfrecs.map fun g => if g.tag = f.tag then { g with resolved := true } else g }
       f.loader = false → (f.rid ≠ 0 → exec (.pfresolve c) s = .next (finishCmd (thaw u lid f.rid) c stDone 0)) ∧
        (f.rid = 0 → exec (.pfresolve c) s =
          .next (finishCmd (reissueFree (modLease u lid fun l => { l with pfrecs := l.pfrecs.filter fun g => g.tag != f.tag }) lid) c stDone 0))) ∧
      (f.loader = true → exec (.pfdecline c) s = .next (finishCmd (setLease s lid { l with
        pfrecs := l.pfrecs.map fun g => if g.tag = f.tag then { g with declined := true } else g }) c stDone 0)) ∧
      (f.loader = false → ∃ hit : Req → Bool, (∀ q, hit q = true ↔ q.lease = lid ∧ q.phase = .faulted ∧ reqRegion s q = f.rid ∧
          ∃ p, untranslated q = some p ∧ p.addr / 65536 = f.va.toNat / 65536) ∧
        let u := modLease { s with reqs := s.reqs.map fun m => (m.1, if hit m.2 then failPage m.2 (f.va.toNat / 65536) cTranslation else m.2) } lid fun l =>
          { l with pfrecs := l.pfrecs.filter fun g => g.tag != f.tag }
        exec (.pfdecline c) s = .next (finishCmd (thaw (if f.rid = 0 then reissueFree u lid else u) lid f.rid) c stDone 0))) ∧
  (∀ (q : Req) page, (∃ p ∈ q.rest, p.sp = .va ∧ p.addr / 65536 = page) → (∀ j g, q.dest ≠ .job j g) →
    (failPage q page cTranslation).rest = [] ∧ (failPage q page cTranslation).err = some (BitVec.ofNat 16 cTranslation)) ∧
  (∀ s t b, let x := tileAt s t
    (x.tten = 0 ∨ (bankMode x b ≠ .active ∧ bankMode x b ≠ .retain) → exec (.patrolScrub t b) s = .next s) ∧
    (x.tten ≠ 0 → bankMode x b = .active ∨ bankMode x b = .retain → ∃ n bad k, n ≤ 4096 ∧ k ≤ 1 ∧ (k = 0 → bad = s.badMem) ∧
      (∀ g ∈ bad, g ∈ s.badMem ∨ ∃ k, k < 4096 ∧ g = scrBad (t * 2 ^ 20 + b * 2 ^ 16 + 16 * k)) ∧ (∀ g ∈ s.badMem, g ∈ bad) ∧
      exec (.patrolScrub t b) s = .next (countEvent { s with
        fresh := s.fresh + 3, badMem := bad, pf0log := s.pf0log + k
        dieErrs := s.dieErrs.put (Config.dieOf t) (s.dieErrs.get (Config.dieOf t) 0 + BitVec.ofNat 64 n) } x.tlease.toNat 8 n))) ∧
  (∀ s t d, let x := tileAt s t
    let p := activePlane x
    (x.tten = 0 → exec (.tileUncorrectable t d) s = .next s) ∧
    let trapped (g n : Nat) := trap (countEvent { s with pf0log := s.pf0log + 1 } x.tlease.toNat 9 1) x.tlease.toNat cUncorrectable d ⟨tiOf x, 3, 0xFF, g, n⟩ 0 0
    (x.tten ≠ 0 → p.pst = .empty → exec (.tileUncorrectable t d) s = .next (trapped 0xFFFF 0xFFFF)) ∧
    (x.tten ≠ 0 → p.pst ≠ .empty → exec (.tileUncorrectable t d) s = .next (trapped p.graph p.node))) ∧
  ∀ s i k, let now := s.ownbm.get i 0
    let corrupt : Bool := k == 3 || s.bmpar.get i false != parityOf now
    let kind := if corrupt then 3 else k
    let set : BitVec 33 := if corrupt then BitVec.ofNat 33 (2 ^ 33 - 2) else now ||| ownersOf s i
    let hit := (s.leases.filter fun m => m.2.v && set.getLsbD m.2.rcd.tenid.toNat).map (·.1)
    ∃ u, exec (.sharedUncorrectable i k) s = .next { hit.foldl (blastLease i kind) u with pf0log := (hit.foldl (blastLease i kind) u).pf0log + 1 } ∧
      u.leases = s.leases ∧ u.tiles = s.tiles ∧ u.mem = s.mem ∧ u.ownbm.get i 0 = 0 ∧
      u.reqs = (s.reqs.map fun m => (m.1, if heldAt s i m.2 then failReq m.2 cUncorrectable else m.2)) ∧
      u.wires = s.wires.map fun w => if wireAt i w then { w with tok := poisonTok 0x0A (tiOf (tileAt s w.tile)) } else w

/-! ### Binding and moves -/

/-- R132, R356, R362 to R365, R368 to R371, R477 and R506: BIND and REBIND check a record in order and then take effect; FOTSET frees a frame, and its
new owner comes with its scrub; MOVE runs the entries of its plan by position; an entry drains, is copied and rebound, the first part of a divided
region before the second drains, or ends with its reason where it stood. Behind a link that is down BIND, REBIND and MOVE wait (log 108). -/
def Obligations.BindingAndMoves : Prop :=
  (∀ s c, let lid := cmdLease c
    let l := leaseAt s lid
    let v := recordAt s c
    let r := bindRecOf v
    let waits : Prop := l.scrubbing = true ∧ c ∈ l.pending
    let bad : Prop := bindBad lid v = true ∨ grantBad s r = true
    (waits → scrubGoes s lid = true → exec (.bind c) s = .next s) ∧
    (waits → scrubGoes s lid = false → exec (.bind c) s =
      .next (finishCmd (zeroSummary (setLease s lid { l with scrubbing := false, lstate := .active, pending := [] }) lid) c stDone 0)) ∧
    (¬waits → l.v = true ∨ l.lstate ≠ .free → exec (.bind c) s = .next (finishCmd s c stSlotBusy 0)) ∧
    (l.v = false → l.lstate = .free → ¬waits → s.linkUp0 = false → exec (.bind c) s = .next { s with linkHeld := true }) ∧
    (l.v = false → l.lstate = .free → ¬waits → s.linkUp0 = true →
      (bad → exec (.bind c) s = .next (finishCmd s c stBadField 0)) ∧
      (¬bad → (∃ t ∈ leaseTiles r, tileTaken s lid t = true) → exec (.bind c) s = .next (finishCmd s c stOverlap 0)) ∧
      (¬bad → (∀ t ∈ leaseTiles r, tileTaken s lid t = false) → shareBad s lid r = true → exec (.bind c) s = .next (finishCmd s c stShare 0)) ∧
      (¬bad → (∀ t ∈ leaseTiles r, tileTaken s lid t = false) → shareBad s lid r = false → needBad s r (leaseTiles r) = true →
        exec (.bind c) s = .next (finishCmd s c stFeatureAbsent 0)) ∧
      (¬bad → (∀ t ∈ leaseTiles r, tileTaken s lid t = false) → shareBad s lid r = false → needBad s r (leaseTiles r) = false → ∃ u, exec (.bind c) s = .next u ∧
        c ∈ u.cmdWait ∧ (leaseAt u lid).v = true ∧ (leaseAt u lid).rcd = r ∧ (leaseAt u lid).scrubbing = true ∧ (leaseAt u lid).lstate = .free ∧
        (leaseAt u lid).pending = [c] ∧ ∀ t ∈ leaseTiles r, let x := tileAt u t
          x.tlease = BitVec.ofNat 7 lid ∧ x.tten = r.tenid ∧ x.lorg = r.lorg ∧ x.lext = r.lext ∧ x.tlxy = mkReg (t % 256 - regX r.lorg) (t / 256 - regY r.lorg)))) ∧
  (∀ s c, let lid := cmdLease c
    let l := leaseAt s lid
    let v := recordAt s c
    let r := bindRecOf v
    let pre : Prop := l.lstate = .preempted
    let added := (leaseTiles r).filter fun t => !(leaseTiles l.rcd).contains t
    let gone := (leaseTiles l.rcd).filter fun t => !(leaseTiles r).contains t
    let bad : Prop := bindBad lid v = true ∨ grantBad s r = true ∨ rebindBad l.rcd r (l.lstate == .preempted) = true
    let rcd : State := setLease s lid { l with rcd := r, bankWait := 0 }
    (l.v = false ∨ l.lstate = .removing → exec (.rebind c) s = .next (finishCmd s c stNotActive 0)) ∧
    (l.v = true → l.lstate ≠ .removing → l.lstate ≠ .active → ¬pre → exec (.rebind c) s = .next (waitCmd s c)) ∧
    (l.v = true → l.lstate = .active ∨ pre → s.linkUp0 = false → exec (.rebind c) s = .next { s with linkHeld := true }) ∧
    (l.v = true → l.lstate = .active ∨ pre → s.linkUp0 = true →
      (bad → exec (.rebind c) s = .next (finishCmd s c stBadField 0)) ∧
      (∀ st, ¬bad → slotFlaw s lid r added = some st → exec (.rebind c) s = .next (finishCmd s c st 0)) ∧
      (¬bad → slotFlaw s lid r added = none → ¬pre → exec (.rebind c) s = .next (finishCmd (modLease rcd lid fun l => { l with woken := true }) c stDone 0)) ∧
      (¬bad → slotFlaw s lid r added = none → pre → rebindBusy s lid r = true → 512 ≤ l.bankWait →
        exec (.rebind c) s = .next (finishCmd (setLease s lid { l with bankWait := 0 }) c stBankBusy 0)) ∧
      (¬bad → slotFlaw s lid r added = none → pre → rebindBusy s lid r = true → l.bankWait < 512 →
        exec (.rebind c) s = .next (waitCmd (setLease s lid { l with bankWait := max 1 l.bankWait }) c)) ∧
      (¬bad → slotFlaw s lid r added = none → pre → rebindBusy s lid r = false → exec (.rebind c) s = .next (finishCmd (modLease
        (grantAll ((leaseTiles r).foldl (bindTile lid r) (gone.foldl unbindTile rcd)) lid r) lid fun l => { l with woken := true }) c stDone 0)))) ∧
  (∀ s c, let st := cmdField c 20 1
    let fr := cmdField c 22 2
    let under : Prop := ∃ f ∈ s.fotChanges, f.stack = st ∧ f.frame = fr
    (under → exec (.fotset c) s = .next (waitCmd s c)) ∧
    (¬under → ∃ f : FotChange, f.stack = st ∧ f.frame = fr ∧ f.owner = BitVec.ofNat 6 (cmdField c 21 1) ∧ f.cmd = c ∧ exec (.fotset c) s =
      .next { s with fot := s.fot.del (st * 32768 + fr), fotChanges := s.fotChanges ++ [f], cmdWait := s.cmdWait.filter (· != c) })) ∧
  (∀ s st fr, st < 16 → fr < 32768 →
    ((∀ f ∈ s.fotChanges, ¬(f.stack = st ∧ f.frame = fr)) → exec (.frameDrainedScrub st fr) s = .next s) ∧
    ∀ f, memoriesCanonical s = true → (s.fotChanges.find? fun f => f.stack == st && f.frame == fr) = some f → fotOf s st fr = 63 →
      ∃ u, exec (.frameDrainedScrub st fr) s = .next (finishCmd u f.cmd stDone 0) ∧ fotOf u st fr = f.owner.toNat ∧ u.scratch = s.scratch ∧
        (∀ a, st * 2 ^ 36 + fr * 2 ^ 21 ≤ a → a < st * 2 ^ 36 + fr * 2 ^ 21 + 2 ^ 21 → Memory.read u.mem a = 0) ∧
        (∀ a, a < st * 2 ^ 36 + fr * 2 ^ 21 ∨ st * 2 ^ 36 + fr * 2 ^ 21 + 2 ^ 21 ≤ a → Memory.read u.mem a = Memory.read s.mem a) ∧
        ∀ g ∈ u.fotChanges, ¬(g.stack = st ∧ g.frame = fr)) ∧
  (∀ s c, let plan := hostPa (cmdField c 24 8)
    let es := readPlan s plan (cmdField c 32 4)
    (s.move.isSome = true → exec (.move c) s = .next (waitCmd s c)) ∧
    (s.move = none → s.linkUp0 = false → exec (.move c) s = .next { s with linkHeld := true }) ∧
    (s.move = none → s.linkUp0 = true → ∃ m : MoveRun, m.cmd = c ∧ m.plan = plan ∧ m.done = 0 ∧ m.cur = none ∧
      exec (.move c) s = .next (nextEntry m es { s with cmdWait := s.cmdWait.filter (· != c) }))) ∧
  (∀ s plan n, let es := readPlan s plan n
    es.length = n ∧ (∀ k, k < n → planEntry s plan k ∈ es) ∧
    ∀ i a b, es[i]? = some a → es[i + 1]? = some b → planPos s a ≤ planPos s b ∧ (planPos s a = planPos s b → a.idx < b.idx)) ∧
  (∀ m s, nextEntry m [] s = finishCmd { s with move := none } m.cmd stDone m.done) ∧
  (∀ m e r s, (∀ rid, entryFails s e = .ok rid → nextEntry m (e :: r) s = beginEntry s { m with rest := r } e rid) ∧
    ∀ st, entryFails s e = .error st → nextEntry m (e :: r) s = nextEntry m r (leaveMoving (writeEstat s m.plan e.idx st) e.lease r)) ∧
  (∀ s e, let l := leaseAt s e.lease
    (e.bad = true → entryFails s e = .error stBadField) ∧
    (e.bad = false → l.v = false ∨ (l.lstate ≠ .active ∧ l.lstate ≠ .moving) → entryFails s e = .error stNotActive) ∧
    (∀ rid, entryFails s e = .ok rid → ∃ a, moveFlaw s e rid = .ok a)) ∧
  (∀ s m e, s.move = some m → m.cur = some e →
    let l := leaseAt s e.lease
    let gone : Prop := e.whole = false ∧ ∀ r, regionAt l m.rid = some r → r.stopped = true
    let drained : Prop := m.copying = false ∧ l.lstate = .moving ∧ slabDrained s m e = true
    let late : Prop := m.copying = false ∧ (gone ∨ l.hline = true ∨ 1024 * l.rcd.qbnd.toNat ≤ m.cycles)
    (¬drained → exec .moveDrained s = .next s) ∧
    (drained → exec .moveDrained s = .next { (partTiles l e m.rid m.second).foldl (fun s t => modTile s t fun x => { x with moving := true }) s with
      move := some { m with copying := true, since := s.nextReq, cycles := 0 } }) ∧
    (l.lstate ≠ .moving → exec .moveDrainTimeout s = .next (endEntry s m e stNotActive)) ∧
    (l.lstate = .moving → late → exec .moveDrainTimeout s = .next (failEntry s m e stDrainTimeout)) ∧
    (l.lstate = .moving → ¬late → exec .moveDrainTimeout s = .next s) ∧
    (m.copying = true → l.lstate = .moving →
      let busy := slabBanksBusy s (partTiles l e m.rid m.second) m.since
      let scrubs : Prop := e.whole = true ∧ scrubbedByMove s e = true ∧ m.cycles < 1024
      let first : Prop := e.whole = false ∧ e.cut ≠ 0 ∧ m.second = false
      (busy = true → 512 ≤ m.cycles → exec .moveCopyDone s = .next (failEntry s m e stBankBusy)) ∧
      (busy = true → m.cycles < 512 → exec .moveCopyDone s = .next s) ∧
      (busy = false → scrubs → exec .moveCopyDone s = .next s) ∧
      (busy = false → ¬scrubs →
        (∀ st, moveFlaw s e m.rid = .error st → exec .moveCopyDone s = .next (failEntry s m e st)) ∧
        ∀ a, moveFlaw s e m.rid = .ok a →
          (first → exec .moveCopyDone s = .next { moveFirst s e m.rid with move := some { m with second := true, copying := false, cycles := 0 } }) ∧
          (¬first → exec .moveCopyDone s =
            .next (endEntry (countEvent (if e.whole then moveLease s e else moveSlab s e m.rid m.second a) e.lease 12 1) m e stDone)))) ∧
    (∀ st, failEntry s m e st = endEntry (if m.second then undoFirst s e m.rid else s) m e st)) ∧
  ∀ whole rids dx dy p, p.pst ≠ .empty → p.rid ∈ rids → let q := movedPlane whole rids dx dy p
    q.mepoch = p.mepoch + 1 ∧ q.gated = [] ∧ q.blk0 = p.blk0 ∧ q.lbuf = p.lbuf ∧ q.rings = p.rings ∧ q.acc0 = p.acc0 ∧
    (whole = true → q.rdsp = p.rdsp ∧ q.rorg = p.rorg) ∧
    (whole = false → sx 9 (q.rdsp.toNat / 128) = sx 9 ((sx 9 (p.rdsp.toNat / 128) + dx) % 512).toNat ∧
      sx 7 (q.rdsp.toNat % 128) = sx 7 ((sx 7 (p.rdsp.toNat % 128) + dy) % 128).toNat)

/-! ### Commands of tenants -/

/-- R265, R354, R359, R360, R497 and R505: TLBINV and HARVEST empty the TLB entries of their range and complete when the requests from before them are
performed; HARVEST clears D page by page and reports it; EVICTQ returns pages that no window needs; QCREATE, QDESTROY, QSWAP and QLOAD make, end,
store and restore a queue, whose place QCREATE chooses (log 36); JSTATUS gives the state of a journal entry of the tenant. -/
def Obligations.TenantCommands : Prop :=
  let live (s : State) (c : Cmd) : Prop := ((leaseAt s (cmdLease c)).v = true ∨ cmdLease c = mgmtKey) ∧ (leaseAt s (cmdLease c)).lstate ≠ .removing
  (∀ mk ∈ [Instr.tlbinv, .harvest, .evictq, .qcreate, .qdestroy, .qswap, .qload], ∀ s c, ¬live s c → exec (mk c) s = .next (finishCmd s c stRemoved 0)) ∧
  (∀ s c, live s c → let lid := cmdLease c
    let va := cmdField c 24 8
    let n := cmdField c 32 8
    let mark (u : State) (res lo hi : Nat) : State := modLease u lid fun l => { l with marks := l.marks.put c.seq ⟨u.nextReq, res, lo, hi⟩ }
    let r := pageRange s lid va (va + n)
    let size (a : Nat) : Nat := match (leafOf s lid a).2 with | some (lvl, _, _) => 2 ^ lvlShift lvl | none => 65536
    let lo := min r.1 (va / size va * size va)
    let hi := max r.2 ((va + n - 1) / size (va + n - 1) * size (va + n - 1) + size (va + n - 1))
    let ends (u : State) (w : Bool) : State := afterRequests u c w
    (hasMark s c = true → exec (.tlbinv c) s = .next (ends s false) ∧ exec (.harvest c) s = .next (ends s true)) ∧
    (hasMark s c = false → exec (.tlbinv c) s = .next (ends (mark (tlbDrop s lid va n) 0 r.1 r.2) false)) ∧
    (hasMark s c = false → ∀ u bits v, harvestPages lid (va + n) (n / 65536 + 2) va s = (u, bits) →
      (vaWrite u lid (cmdField c 40 8) (bitBytes bits) = (v, .ok ()) → exec (.harvest c) s = .next (ends (mark v (bits.filter id).length lo hi) true)) ∧
      ∀ e, vaWrite u lid (cmdField c 40 8) (bitBytes bits) = (v, .error e) → ∃ st, exec (.harvest c) s = .next (finishCmd { v with fresh := v.fresh + 1 } c st 0)) ∧
    (∀ m w, (leaseAt s lid).marks.find c.seq = some m →
      (rangeBusy s lid m w = true → ends s w = waitCmd s c) ∧
      (rangeBusy s lid m w = false → ends s w = finishCmd (modLease s lid fun l => { l with marks := l.marks.del c.seq }) c stDone m.res)) ∧
    ∀ u pages v, evictPages lid (va + n) (leaseNeeds s lid) (n / 65536 + 2) 64 va s = (u, pages) →
      (vaWrite u lid (cmdField c 40 8) ((pages.map fun p => toBytes 8 p).flatten) = (v, .ok ()) → exec (.evictq c) s = .next (finishCmd v c stDone pages.length)) ∧
      ∀ e, vaWrite u lid (cmdField c 40 8) ((pages.map fun p => toBytes 8 p).flatten) = (v, .error e) → ∃ st, exec (.evictq c) s =
        .next (finishCmd { v with fresh := v.fresh + 1 } c st 0)) ∧
  (∀ s lid (m : Mark) w, rangeBusy s lid m w = true ↔ ∃ k r p, (k, r) ∈ s.reqs ∧ k < m.key ∧ r.lease = lid ∧ (w = true → reqWrites r = true) ∧ p ∈ r.rest ∧ p.sp = .pa ∧
    p.va < m.hi ∧ m.lo < p.va + p.len) ∧
  (∀ s lid va n, let u := tlbDrop s lid va n
    let w := pageRange s lid va (va + n)
    let stays (e : TlbE) : Prop := e.lease ≠ lid ∨ va + n ≤ e.vpn * 2 ^ lvlShift e.level ∨ (e.vpn + 1) * 2 ^ lvlShift e.level ≤ va
    u.mem = s.mem ∧ u.reqs = s.reqs ∧ u.leases = s.leases ∧ (∀ k l, (k, l) ∈ u.mtlb ++ u.lltlb → ∀ e ∈ l, stays e) ∧
    (∀ k l, (k, l) ∈ s.mtlb → ∃ l', (k, l') ∈ u.mtlb ∧ ∀ e ∈ l, stays e → e ∈ l') ∧
    w.1 ≤ va ∧ va + n ≤ w.2 ∧ ∀ k l, (k, l) ∈ s.mtlb ++ s.lltlb → ∀ e ∈ l, ¬stays e → w.1 ≤ e.vpn * 2 ^ lvlShift e.level ∧ (e.vpn + 1) * 2 ^ lvlShift e.level ≤ w.2) ∧
  (∀ s u lid va lvl pa pte, leafOf s lid va = (u, some (lvl, pa, pte)) → let size := 2 ^ lvlShift lvl
    harvestPage s lid va = (if pte.testBit 58 then ({ tlbDrop u lid (va / size * size) size with mem := Memory.writeN u.mem 8 pa (pte - 2 ^ 58) }, size, true)
      else (tlbDrop u lid (va / size * size) size, size, false))) ∧
  (∀ s u lid va, leafOf s lid va = (u, none) → harvestPage s lid va = (tlbDrop u lid (va / 65536 * 65536) 65536, 65536, false)) ∧
  (∀ s lid va, (leafOf s lid va).1 = s ∨ ∃ c, (leafOf s lid va).1 = refused s lid c) ∧
  (∀ s lid stop needs k n va, let r := evictPages lid stop needs k n va s
    r.1.mem = s.mem ∧ r.1.reqs = s.reqs ∧ r.2.length ≤ n ∧ ∀ p ∈ r.2, p < stop ∧
      ∃ a lvl pa pte, (leafOf s lid a).2 = some (lvl, pa, pte) ∧ p = a / 2 ^ lvlShift lvl * 2 ^ lvlShift lvl ∧ pageNeeded needs p (2 ^ lvlShift lvl) = false) ∧
  (∀ x taken cap v k, queueBase x taken cap v = some k → k % 64 = 0 ∧ k + 64 * cap ≤ 2 ^ 20 ∧ (∀ u ∈ taken, k + 64 * cap ≤ 64 * u.1 ∨ 64 * u.2 ≤ k) ∧
    ∀ b, b < 16 → granted x b = false → k + 64 * cap ≤ b * 65536 ∨ (b + 1) * 65536 ≤ k) ∧
  (∀ s c, live s c → let lid := cmdLease c
    let qid := cmdField c 20 2
    let q := (leaseAt s lid).queues.get qid {}
    let va := cmdField c 24 8
    let fails (mk : Cmd → Instr) : Prop := exec (mk c) s = .next (finishCmd s c stQueueState 0)
    (q.v = true → fails .qcreate) ∧
    (q.v = false → let r : MsgQueue := { v := true, gen := q.gen, home := cmdField c 22 2, cap := cmdField c 24 4 }
      let u : State := { s with fresh := s.fresh + 1 }
      ∃ v, (∀ k, queueBase (tileAt s (queueTile s lid r)) (queueTaken (leaseAt s lid) r.home) r.cap v = some k →
          exec (.qcreate c) s = .next (finishCmd (setQueue lid qid { r with base := BitVec.ofNat 20 k } u) c stDone 0)) ∧
        (queueBase (tileAt s (queueTile s lid r)) (queueTaken (leaseAt s lid) r.home) r.cap v = none → ∃ st, exec (.qcreate c) s = .next (finishCmd u c st 0))) ∧
    (q.v = false → fails .qdestroy ∧ (q.ring = none → fails .qswap) ∧ fails .qload) ∧
    (let gen : BitVec 16 := if q.gen.toNat = 65535 then 1 else q.gen + 1
     let done (u : State) (n : Nat) : Prop := exec (.qdestroy c) s = .next (finishCmd (setQueue lid qid { gen := gen } u) c stDone (n % 2 ^ 32 + gen.toNat * 2 ^ 32))
     (q.v = true → q.ring = none → done s q.count) ∧
     (∀ r u h t, q.v = true → q.ring = some r → ringHeadTail s lid r.toNat = (u, .ok (h, t)) → done u (t - h)) ∧
     ∀ r u e, q.v = true → q.ring = some r → ringHeadTail s lid r.toNat = (u, .error e) → ∃ n, done { u with fresh := u.fresh + 1 } n) ∧
    (q.ring ≠ none → fails .qswap) ∧
    (∀ u, q.v = true → q.ring = none → vaWrite s lid (va + 64) (((queueMsgs s lid q).map fun m => toBytes 64 m.toNat).flatten) = (u, .ok ()) →
      (∀ w, vaWrite u lid va (ringHeader q qid) = (w, .ok ()) →
        exec (.qswap c) s = .next (finishCmd (setQueue lid qid { q with head := 0, count := 0, ring := some (BitVec.ofNat 64 va) } w) c stDone 0)) ∧
      ∀ w e, vaWrite u lid va (ringHeader q qid) = (w, .error e) → exec (.qswap c) s = .next (finishCmd w c stQueueState 0)) ∧
    (∀ u e, q.v = true → q.ring = none → vaWrite s lid (va + 64) (((queueMsgs s lid q).map fun m => toBytes 64 m.toNat).flatten) = (u, .error e) →
      exec (.qswap c) s = .next (finishCmd u c stQueueState 0)) ∧
    (q.ring = none → fails .qload) ∧
    (∀ r u h t, q.v = true → q.ring = some r → ringHeadTail s lid r.toNat = (u, .ok (h, t)) →
      (∀ w l, ringMessages lid r.toNat q.cap (min (t - h) q.cap) h u = (w, .ok l) →
        exec (.qload c) s = .next (finishCmd (queueFill lid q (setQueue lid qid { q with head := 0, count := l.length, ring := none } w) l) c stDone 0)) ∧
      ∀ w e, ringMessages lid r.toNat q.cap (min (t - h) q.cap) h u = (w, .error e) → exec (.qload c) s = .next (finishCmd w c stQueueState 0))) ∧
  (∀ s lid (q : MsgQueue), (queueMsgs s lid q).length = q.count ∧
    ∀ k, k < q.count → (queueMsgs s lid q)[k]? = some (scrWord s (queueTile s lid q) ((q.base.toNat + 64 * ((q.head + k) % max 1 q.cap)) % 2 ^ 20))) ∧
  ∀ s c, let seq := cmdField c 24 8
    (∀ e, (s.journal.find? fun e => e.seq == seq && e.ten == c.pf) = some e → exec (.jstatus c) s = .next (finishCmd s c stDone e.state)) ∧
    ((∀ e ∈ s.journal, ¬(e.seq = seq ∧ e.ten = c.pf)) → exec (.jstatus c) s = .next (finishCmd s c stDone 0))

/-! ### Rings and completion queues -/

/-- R271 to R274, R483 to R491: the Arbiter reads the entry at RHEAD, refuses it with the first failing check, or journals it before PSUB takes it, as
64 bytes of Table 9.7 at its entry's place in HBM (log 102); a command takes effect after the earlier ones of its tenant; entries go to QTAIL while a
slot is free, behind the notices that came before them; registers take the values that their limits allow; an FLR removes the tenant's leases and
cancels its live commands, and once they are gone resets its registers; an entry signals its vector, mask and pending bits being the family's (log
107); a port's link, with the writes that waited for it (log 108). -/
def Obligations.HostInterface : Prop :=
  (∀ s pf r, let p := pfAt s pf
    let head := (p.rhead.get r 0).toNat
    let k := (p.rctl.get r 0).toNat % 32
    let v := Memory.readN s.mem 64 (hostPa ((p.rbase.get r 0).toNat + 64 * (head % 2 ^ k)))
    let c : Cmd := { pf := pf, ring := r, seq := s.jhead.toNat + 1, e := BitVec.ofNat 512 v }
    let read : Prop := s.psubCmd = none ∧ journalRoom s = true ∧ pfTurn s = some pf ∧ ringTurnOf s pf = some r
    let u := modPf { s with lastPf := pf } pf fun p => { p with rhead := p.rhead.put r (BitVec.ofNat 32 (head + 1)), lastRing := r }
    (ringReady s pf r = true ↔ pfLive s pf = true ∧ portUp s pf = true ∧ p.flr = none ∧ p.tdi ≠ .error ∧ p.cwait = [] ∧ queueRoom p = true ∧
      (p.rctl.get r 0).getLsbD 31 = true ∧ r < 8 ∧ p.rtail.get r 0 ≠ p.rhead.get r 0) ∧
    (ringTurnOf s pf = some r → ringReady s pf r = true ∧ ∃ i, i < 8 ∧ r = (p.lastRing + 1 + i) % 8 ∧ ∀ j, j < i → ringReady s pf ((p.lastRing + 1 + j) % 8) = false) ∧
    (pfTurn s = some pf → ringTurnOf s pf ≠ none ∧ ∃ i, i < 33 ∧ pf = (s.lastPf + 1 + i) % 33 ∧ ∀ j, j < i → ringTurnOf s ((s.lastPf + 1 + j) % 33) = none) ∧
    (¬read → exec (.arbiterCommandRead pf r) s = .next s) ∧
    (∀ st, read → refusal u c = some st → ∃ e : CEntry, e.tag.toNat = cmdTag c ∧ e.res = 0 ∧ e.status = st ∧ e.outc = false ∧ e.ring = r ∧
      exec (.arbiterCommandRead pf r) s = .next (postEntry u pf e)) ∧
    (read → refusal u c = none → ∃ e : CEntry, e.tag.toNat = cmdTag c ∧ e.res.toNat = c.seq % 2 ^ 48 ∧ e.status = stAccepted ∧ e.outc = false ∧ e.ring = r ∧
      exec (.arbiterCommandRead pf r) s = .next { postEntry (journalAdd u pf (cmdKind c) 1 (journalLease c) (digestOf c.e)) pf e with psub := c.e, psubCmd := some c })) ∧
  (∀ s c, let p := pfAt s c.pf
    let aborted : Prop := c.pf ≠ 0 ∧ p.tdreq = true ∧ p.tdi ≠ .run
    (kindOk s c = false → refusal s c = some stRejKind) ∧ (kindOk s c = true → fieldBad c = true → refusal s c = some stRejField) ∧
    (kindOk s c = true → fieldBad c = false → leaseOk s c = false → refusal s c = some stRejLease) ∧
    (kindOk s c = true → fieldBad c = false → leaseOk s c = true → boundBad s c = true → refusal s c = some stRejBound) ∧
    (kindOk s c = true → fieldBad c = false → leaseOk s c = true → boundBad s c = false → aborted → refusal s c = some stAborted) ∧
    (kindOk s c = true → fieldBad c = false → leaseOk s c = true → boundBad s c = false → ¬aborted → refusal s c = none) ∧
    (1 ≤ c.pf → (kindOk s c = true ↔ 1 ≤ cmdKind c ∧ cmdKind c ≤ 15 ∧ p.mask.getLsbD (cmdKind c) = true)) ∧
    (c.pf = 0 → (kindOk s c = true ↔ (0x40 ≤ cmdKind c ∧ cmdKind c ≤ 0x48) ∨ cmdKind c ∈ [0x01, 0x02, 0x0F]))) ∧
  (∀ s ten kind st lid d, let u := journalAdd s ten kind st lid d
    (journalRoom s = false → u.jhead = s.jhead ∧ u.journal = s.journal ∧ u.jpend.length = s.jpend.length + 1) ∧
    (s.jhead.toNat + 1 < 2 ^ 64 → journalRoom s = true → u.jhead = s.jhead + 1 ∧ ∃ e, e ∈ u.journal ∧ e.seq = s.jhead.toNat + 1 ∧ e.ten = ten ∧ e.kind = kind ∧ e.state = st ∧ e.lease = lid ∧
      e.digest = d ∧ e.tacc = s.tick)) ∧
  (∀ s e k, memoriesCanonical s = true → e ∈ s.journal → e.seq ∈ s.jdirty → journalHeld s e.seq = true →
    (∀ d ∈ s.journal, d.seq ∈ s.jdirty → d.seq % journalSize s = e.seq % journalSize s → d = e) → k < 64 →
    some (Memory.read (journalFlush s).mem (Config.journalBase + 64 * (e.seq % journalSize s) + k)) = (toBytes 8 e.seq ++ toBytes 1 e.ten ++ toBytes 1 e.kind ++ toBytes 1 e.state ++ toBytes 1 e.lease ++
      toBytes 4 0 ++ toBytes 16 e.digest.toNat ++ toBytes 8 e.tacc.toNat ++ toBytes 8 e.tfin.toNat ++ toBytes 16 0)[k]?) ∧
  (∀ s, (s.psubCmd = none → exec .psubTake s = .next s) ∧
    ∀ c i, s.psubCmd = some c → cmdInstr c = some i → let u := journalTo { s with psubCmd := none } c.seq 2
      let behind : Prop := 1 ≤ c.pf ∧ c.pf ≤ 32 ∧ ∃ d ∈ s.cmdWait, d.pf = c.pf ∧ hasMark u d = false
      (behind → exec .psubTake s = .next (waitCmd u c)) ∧ (¬behind → exec .psubTake s = .next { u with agenda := .event i :: u.agenda })) ∧
  (∀ s v, exec (.psubForeignWrite v) s = .next { s with pf0log := s.pf0log + 1 }) ∧
  (∀ s pf, let p := pfAt s pf
    let open_ : Prop := queueRoom p = true ∧ portUp s pf = true
    (¬open_ → exec (.completionWrite pf) s = .next s) ∧
    (∀ e r, open_ → p.cwait = e :: r → (e.after = 0 ∨ (p.nbuf = [] ∧ p.nmerged = [])) →
      exec (.completionWrite pf) s = .next (modPf (writeEntry s pf e) pf fun p => { p with cwait := r })) ∧
    (∀ e r, open_ → p.cwait = e :: r → e.after ≠ 0 → (p.nbuf ≠ [] ∨ p.nmerged ≠ []) → exec (.completionWrite pf) s = .next (writeNotice s pf p)) ∧
    (open_ → p.cwait = [] → exec (.completionWrite pf) s = .next (writeNotice s pf p)) ∧
    (p.nbuf = [] → p.nmerged = [] → writeNotice s pf p = s) ∧
    (∀ k n r, p.nmerged = (k, n) :: r → p.nbefore = 0 → ∃ e : CEntry, e.status = 0x87 ∧ e.tag.toNat = k % 2 ^ 64 ∧ e.res.toNat = n % 2 ^ 48 ∧ e.outc = false ∧
      writeNotice s pf p = modPf (writeEntry s pf e) pf fun p => { p with nmerged := r, cwait := p.cwait.map fun e => { e with after := e.after - 1 } }) ∧
    (∀ n r, (p.nmerged = [] ∨ p.nbefore ≠ 0) → p.nbuf = n :: r → ∃ e : CEntry, e.status = n.code ∧ e.tag = n.va ∧ e.res = n.res ∧ e.outc = false ∧
      writeNotice s pf p = modPf (writeEntry s pf e) pf fun p =>
        { p with nbuf := r, nbefore := p.nbefore - 1, cwait := p.cwait.map fun e => { e with after := e.after - 1 } })) ∧
  (∀ s pf e, let p := pfAt s pf
    let k := p.qctl.toNat % 32
    let t := p.qtail.toNat
    writeEntry s pf e = modPf { s with mem := Memory.putBytes s.mem (hostPa (p.qbase.toNat + 16 * (t % 2 ^ k))) (toBytes 8 e.tag.toNat ++ toBytes 6 e.res.toNat ++
      toBytes 1 e.status ++ toBytes 1 (t / 2 ^ k % 2 * 128 + (if e.outc then 8 else 0) + e.ring % 8)) } pf fun p =>
      signal { p with qtail := p.qtail + 1 } (vectorOf e.status)) ∧
  (∀ (p : Pf) v, ((msixHalf p (2 * v + 1)).getLsbD 32 = true → signal p v = { p with pba := p.pba ||| BitVec.ofNat 3 (2 ^ v) }) ∧
    ((msixHalf p (2 * v + 1)).getLsbD 32 = false → signal p v = { p with msgs := p.msgs ++ [v] })) ∧
  (∀ s pf n, let p := pfAt s pf
    (p.nbuf.length < 64 → exec (.noticeMerge pf n) s = .next s) ∧
    (64 ≤ p.nbuf.length → let u := mergeNotice s pf n
      exec (.noticeMerge pf n) s = .next u ∧ (pfAt u pf).nmerged.get n.code 0 = p.nmerged.get n.code 0 + 1 ∧ (pfAt u pf).nbuf = p.nbuf)) ∧
  (∀ s pf n, ∃ k, let u := writeWaiting pf k s
    let q := pfAt u pf
    let free : Prop := queueRoom q = true ∧ portUp u pf = true
    (free → ∃ e : CEntry, e.status = n.code ∧ e.tag = n.va ∧ e.res = n.res ∧ e.outc = false ∧ notify s pf n = writeEntry u pf e) ∧
    (¬free → q.nbuf.length < 64 → notify s pf n = modPf u pf fun p => { p with nbuf := p.nbuf ++ [n] }) ∧
    (¬free → 64 ≤ q.nbuf.length → notify s pf n = mergeNotice u pf n)) ∧
  (∀ s pf r v, let p := pfAt s pf
    let q : Pf := { p with rtail := p.rtail.put r (BitVec.ofNat 32 v) }
    let ahead := (v + 2 ^ 32 - (p.rhead.get r 0).toNat) % 2 ^ 32
    let far : Prop := (p.rctl.get r 0).getLsbD 31 = true ∧ 2 ^ ((p.rctl.get r 0).toNat % 32) < ahead
    (pfLive s pf = false → exec (.rtailDoorbell pf r v) s = .next s) ∧
    (pfLive s pf = true → 8 ≤ r ∨ 2 ^ 32 ≤ v → exec (.rtailDoorbell pf r v) s = .next { s with pf0log := s.pf0log + 1 }) ∧
    (pfLive s pf = true → r < 8 → v < 2 ^ 32 → ¬far → ∃ u, exec (.rtailDoorbell pf r v) s = .next u ∧ pfAt u pf = q) ∧
    (pfLive s pf = true → r < 8 → v < 2 ^ 32 → far → ∃ u, exec (.rtailDoorbell pf r v) s = .next u ∧
      pfAt u pf = { q with rctl := q.rctl.put r (p.rctl.get r 0 &&& 0x7FFFFFFF) })) ∧
  (∀ s pf r v, let p := pfAt s pf
    let guarded : Prop := match r with | .rbase _ | .qbase | .msix _ | .cfg _ | .aerUn | .aerCor => True | _ => False
    let ours : Prop := match r with | .powerLimit | .tempLimit _ | .mgmtGrtab | .mgmtStbase | .mgmtSaveb | .rpb _ _ => True | _ => False
    let ev := Instr.registerWrite pf r v
    (pfLive s pf = false → exec ev s = .next s) ∧
    (pfLive s pf = true → pf ≠ 0 → ours → exec ev s = .next { s with pf0log := s.pf0log + 1 }) ∧
    (pfLive s pf = true → pf ≠ 0 → guarded → p.tdi = .locked ∨ p.tdi = .run → exec ev s = .next (modPf (resetLeases s pf) pf fun p => { p with tdi := .error })) ∧
    (pfLive s pf = true → pf = 0 ∨ (¬ours ∧ (guarded → p.tdi ≠ .locked ∧ p.tdi ≠ .run)) →
      let bad : State := { s with pf0log := s.pf0log + 1 }
      (∀ k, r = .rbase k → exec ev s = .next (if k < 8 ∧ v < 2 ^ 64 ∧ (p.rctl.get k 0).getLsbD 31 = false then modPf s pf fun p => { p with rbase := p.rbase.put k (BitVec.ofNat 64 v) } else bad)) ∧
      (r = .qbase → exec ev s = .next (if v < 2 ^ 64 ∧ p.qctl.getLsbD 31 = false then modPf s pf fun p => { p with qbase := BitVec.ofNat 64 v } else bad)) ∧
      (r = .qctl → exec ev s = .next (if v < 2 ^ 32 ∧ v / 32 % 2 ^ 26 = 0 ∧ 4 ≤ v % 32 ∧ v % 32 ≤ 16 then modPf s pf fun p => { p with qctl := BitVec.ofNat 32 v } else bad)) ∧
      (r = .qhead → exec ev s = .next (if v < 2 ^ 32 ∧ (v + 2 ^ 32 - p.qhead.toNat) % 2 ^ 32 ≤ (p.qtail.toNat + 2 ^ 32 - p.qhead.toNat) % 2 ^ 32 then
        modPf s pf fun p => { p with qhead := BitVec.ofNat 32 v } else bad)) ∧
      (r = .qtail ∨ (∃ k, r = .rhead k) → exec ev s = .next s) ∧
      (r = .powerLimit → exec ev s = .next (if v ≤ 15000 then { s with powerLimit := v } else bad)) ∧
      (∀ d, r = .tempLimit d → exec ev s = .next (if d < 8 then { s with tempLimit := s.tempLimit.put d v } else bad)) ∧
      (∀ k, r = .msix k → exec ev s = .next (if k < 6 ∧ v < 2 ^ 64 then modPf s pf fun p => writeMsix p k (BitVec.ofNat 64 v) else bad)) ∧
      (∀ p c, r = .rpb p c → let u : State := { s with rpb := s.rpb.put (8 * p + c) (BitVec.ofNat 8 v) }
        exec ev s = .next (if p < 16 ∧ c < 8 ∧ v < 256 then (if 128 ≤ v then claim u (leaseAt s (v % 128)).rcd.tenid.toNat [5 * 4096 + p] else u) else bad)))) ∧
  (∀ s pf, let u := resetLeases s pf
    let left := (s.leases.filter fun m => m.2.v && decide (m.2.rcd.tenid.toNat = pf)).map (·.1)
    (pf = 0 ∨ 32 < pf → exec (.pfFlr pf) s = .next s ∧ exec (.stopInterface pf) s = .next s) ∧
    (1 ≤ pf → pf ≤ 32 → exec (.pfFlr pf) s = .next (startFlr s pf true []) ∧ exec (.stopInterface pf) s = .next (startFlr s pf false [])) ∧
    (∀ full cs, left ≠ [] → let t := startFlr s pf full cs
      t.leases = u.leases ∧ t.journal = u.journal ∧ t.fot = u.fot ∧ t.kslot = u.kslot ∧ (pfAt t pf).tdi = (pfAt u pf).tdi ∧ (pfAt t pf).rbase = (pfAt u pf).rbase ∧
        ∃ f, (pfAt t pf).flr = some (f, left) ∧ (full = true → f = true)) ∧
    (∀ t f, (pfAt t pf).flr = some (f, []) → (pfAt t pf).flrCmds = [] → let p := pfAt (endFlr t pf) pf
      p.tdi = .unlocked ∧ p.flr = none ∧ (f = true → (∀ r, p.rbase.get r 0 = 0 ∧ p.rctl.get r 0 = 0 ∧ p.rtail.get r 0 = 0 ∧ p.rhead.get r 0 = 0) ∧
        p.qbase = 0 ∧ p.qctl = 0 ∧ p.qhead = 0 ∧ p.qtail = 0) ∧ (f = false → p.rbase = (pfAt t pf).rbase ∧ p.qbase = (pfAt t pf).qbase)) ∧
    (∀ t, (∀ f, (pfAt t pf).flr ≠ some (f, [])) → endFlr t pf = t) ∧
    ((∀ e ∈ s.jpend, e.state ≠ 1 ∧ e.state ≠ 2) → ∀ e ∈ u.journal, e.ten = pf → e.state ≠ 1 ∧ e.state ≠ 2) ∧ (∀ c ∈ u.cmdWait, c.pf ≠ pf) ∧ (∀ c, u.psubCmd = some c → c.pf ≠ pf) ∧
    u = ((s.leases.filter fun m => m.2.v && decide (m.2.rcd.tenid.toNat = pf)).map (·.1)).foldl (fun s l => startRemoval s l cRemoved) (journalDrain s.jpend.length { s with
      cmdWait := u.cmdWait, psubCmd := u.psubCmd
      jdirty := s.jdirty ++ (s.journal.filter fun e => decide (e.ten = pf ∧ (e.state = 1 ∨ e.state = 2))).map (·.seq)
      journal := s.journal.map fun e => if e.ten = pf ∧ (e.state = 1 ∨ e.state = 2) then { e with state := 4, tfin := s.tick } else e })) ∧
  ∀ s p, exec (.portLinkDown p) s = .next (if p = 0 then { s with linkUp0 := false } else { s with linkUp1 := false }) ∧
    (let u : State := if p = 0 then { s with linkUp0 := true } else { s with linkUp1 := true }
     exec (.portLinkUp p) s = .next (s.heldWrites.foldl (fun s w => gWrite s w.1 w.2.1 w.2.2) { u with heldWrites := [] }))

/-! ### The platform -/

/-- R378, R446, R487, R488 and R491 to R499: the operator's ALLOW and PFRESET; the TDISP states of a tenant's PF; keys go into all 16 base dies or
none; attestation and firmware; bring-up; throttling and telemetry. -/
def Obligations.Platform : Prop :=
  (∀ s c, ∃ p : Pf, p.mask.toNat = cmdField c 24 8 ∧ p.maxLen.toNat = cmdField c 32 8 ∧ p.maxQueues.toNat = cmdField c 40 2 ∧ p.maxCap.toNat = cmdField c 44 4 ∧
    (p.tdreq = true ↔ cmdField c 42 1 = 1) ∧
    p = { pfAt s (cmdField c 20 1) with mask := p.mask, maxLen := p.maxLen, maxQueues := p.maxQueues, maxCap := p.maxCap, tdreq := p.tdreq } ∧
    exec (.allow c) s = .next (finishCmd { s with pfs := s.pfs.put (cmdField c 20 1) p } c stDone 0)) ∧
  (∀ s c, exec (.pfreset c) s = .next (startFlr { s with cmdWait := s.cmdWait.filter (· != c) } (cmdField c 20 1) true [c])) ∧
  (∀ s pf f, (pfAt s pf).flr = some (f, []) → ∃ u, endFlr s pf = (pfAt s pf).flrCmds.foldl (fun s c => finishCmd s c stDone 0) u ∧ (pfAt u pf).tdi = .unlocked ∧
    (pfAt u pf).flrCmds = []) ∧
  (∀ s pf, let p := pfAt s pf
    let ten : Prop := 1 ≤ pf ∧ pf ≤ 32
    let into (u : State) (v : Tdi) : State := modPf u pf fun p => { p with tdi := v }
    (ten → p.keyed = true → p.tdi = .unlocked → exec (.lockInterface pf) s = .next (into s .locked)) ∧
    (¬ten ∨ p.keyed = false ∨ p.tdi ≠ .unlocked → exec (.lockInterface pf) s = .next s) ∧
    (ten → p.tdi = .locked → exec (.startInterface pf) s = .next (into s .run)) ∧
    (¬ten ∨ p.tdi ≠ .locked → exec (.startInterface pf) s = .next s) ∧
    (ten → exec (.stopInterface pf) s = .next (startFlr s pf false [])) ∧
    (ten → exec (.getDeviceInterfaceReport pf) s = .next (modPf s pf fun p => { p with doe := reportBytes p }))) ∧
  (∀ s pf key, pf ≤ 32 → pfLive s pf = true → journalRoom s = true →
    let owns : Prop := ∃ k v, (k, v) ∈ s.fot ∧ (v : BitVec 6).toNat = pf
    let told (u : State) (st js : Nat) : Prop := (pfAt u pf).doe = toBytes 1 st ∧ u.jhead.toNat = (s.jhead.toNat + 1) % 2 ^ 64 ∧
      ∃ e ∈ u.journal, e.seq = s.jhead.toNat + 1 ∧ e.ten = pf ∧ e.state = js
    (owns → ∃ u, exec (.keySet pf key) s = .next u ∧ u.kslot = s.kslot ∧ told u stKeyBusy 5) ∧
    (owns → ∃ u, exec (.keyClear pf) s = .next u ∧ u.kslot = s.kslot ∧ told u stKeyBusy 5) ∧
    (¬owns → ∃ u, exec (.keySet pf key) s = .next u ∧ told u stDone 3 ∧ (∀ d, d < 16 → u.kslot.find (d * 64 + pf) = some key) ∧
      ∀ k, (∀ d, d < 16 → k ≠ d * 64 + pf) → u.kslot.find k = s.kslot.find k) ∧
    (¬owns → ∃ u, exec (.keyClear pf) s = .next u ∧ told u stDone 3 ∧ (∀ d, d < 16 → u.kslot.find (d * 64 + pf) = none) ∧
      ∀ k, (∀ d, d < 16 → k ≠ d * 64 + pf) → u.kslot.find k = s.kslot.find k)) ∧
  (∀ s pf i, ∃ m, exec (.spdmMessage pf i) s = .next (modPf s pf fun p => { p with doe := m })) ∧
  (∀ s p i, let pf := if p = 0 then i else 17 + i
    (p ≤ 1 → i ≤ 16 → ∃ u, exec (.ideKm p i) s = .next u ∧ (pfAt u pf).keyed = true ∧ (p * 32 + i) ∈ u.ide ∧ ∀ k, k ≠ pf → pfAt u k = pfAt s k)) ∧
  (∀ s i img, ∃ u, exec (.pldmFirmwareUpdate i img) s = .next u ∧ u = { s with staged := u.staged } ∧ (i, img) ∈ u.staged ∧
    (∀ m, m ∈ u.staged → m.1 = i → m = (i, img)) ∧ ∀ m, m.1 ≠ i → (m ∈ u.staged ↔ m ∈ s.staged)) ∧
  (∀ s, ∃ u, exec .moduleReset s = .next u ∧ u.stage = 0 ∧ u.tiles = [] ∧ u.leases = [] ∧ u.pfs = [] ∧ u.journal = [] ∧ u.fot = [] ∧ u.kslot = [] ∧ u.staged = [] ∧
    u.mem = s.mem ∧ u.scratch = [] ∧ u.feb = [] ∧ u.fmask = s.fmask ∧
    (∀ i img, s.staged = [(i, img)] → u.firmware.get i [] = img ∧ ∀ j, j ≠ i → u.firmware.get j [] = s.firmware.get j []) ∧ (s.staged = [] → u.firmware = s.firmware)) ∧
  (∀ s d ok, let due : Prop := s.stage.toNat % 16 = 2 ∧ d < 8 ∧ s.stage.getLsbD (4 + d) = false ∧ s.failed.getLsbD d = false
    let full : Prop := ∀ k, k < 8 → k = d ∨ s.stage.getLsbD (4 + k) = true ∨ s.failed.getLsbD k = true
    (¬due → exec (.dieJoin d ok) s = .next s) ∧
    (due → ok = true → ∃ u, exec (.dieJoin d ok) s = .next u ∧ u.failed = s.failed ∧ u.fmask = s.fmask.put d (Config.fusedMask d) ∧
      (∀ i, 4 ≤ i → i < 32 → u.stage.getLsbD i = (s.stage.getLsbD i || decide (i = 4 + d ∨ i = 12 + 2 * d ∨ i = 13 + 2 * d))) ∧
      (full → u.stage.toNat % 16 = 3) ∧ (¬full → u.stage.toNat % 16 = 2)) ∧
    (due → ok = false → ∃ u, exec (.dieJoin d ok) s = .next u ∧ u.fmask = s.fmask ∧ (∀ k, k < 8 → u.failed.getLsbD k = (s.failed.getLsbD k || decide (k = d))) ∧
      (∀ i, 4 ≤ i → i < 32 → u.stage.getLsbD i = (s.stage.getLsbD i || decide (i = 31))) ∧
      (full → u.stage.toNat % 16 = 3) ∧ (¬full → u.stage.toNat % 16 = 2))) ∧
  (∀ s d, (d ∈ s.throttled → exec (.throttleEnter d) s = .next s) ∧
    (d ∉ s.throttled → ∃ u, exec (.throttleEnter d) s = .next u ∧ u.throttled = s.throttled ++ [d] ∧ u.mctr = s.mctr.put 2 (s.mctr.get 2 0 + 1)) ∧
    exec (.throttleExit d) s = .next { s with throttled := s.throttled.filter (· != d) }) ∧
  ∀ s temps power amps, ∃ u, exec (.mctrRefresh temps power amps) s = .next u ∧ u.mctr.get 0 0 = BitVec.ofNat 64 (temps.foldl max 0) ∧
    u.mctr.get 1 0 = BitVec.ofNat 64 power ∧ u.mctr.get 3 0 = BitVec.ofNat 64 amps ∧ (∀ k, k ≠ 0 → k ≠ 1 → k ≠ 3 → u.mctr.get k 0 = s.mctr.get k 0) ∧ u.tiles = s.tiles
end

