-- ==== Sys2Proof/Laws/Tab.lean ====
section
/-! SUPPORT. What the keyed tables, the lists and the lanes do: one lemma per reader and update. -/

namespace Sys2Proof

@[simp] theorem Tab.find_put_self {α : Type} (t : Tab α) (k : Nat) (v : α) : (t.put k v).find k = some v := by
  induction t with
  | nil => simp [Tab.put, Tab.find]
  | cons p r ih =>
    obtain ⟨j, w⟩ := p
    simp only [Tab.put]
    split
    · simp [Tab.find]
    · split
      · simp [Tab.find]
      · rename_i h; simp [Tab.find, h, ih]

theorem Tab.find_put_ne {α : Type} (t : Tab α) {j k : Nat} (v : α) (h : j ≠ k) : (t.put k v).find j = t.find j := by
  have hk : ¬ k = j := fun e => h e.symm
  induction t with
  | nil => simp [Tab.put, Tab.find, hk]
  | cons p r ih =>
    obtain ⟨i, w⟩ := p
    simp only [Tab.put]
    split
    · simp [Tab.find, hk]
    · split
      · rename_i e; subst e; simp [Tab.find, hk]
      · simp only [Tab.find, ih]

@[simp] theorem Tab.get_put_self {α : Type} (t : Tab α) (k : Nat) (v d : α) : (t.put k v).get k d = v := by simp [Tab.get]

theorem Tab.get_put_ne {α : Type} (t : Tab α) {j k : Nat} (v d : α) (h : j ≠ k) : (t.put k v).get j d = t.get j d := by
  simp [Tab.get, Tab.find_put_ne t v h]

theorem Tab.find_del_self {α : Type} (t : Tab α) (k : Nat) : (t.del k).find k = none := by
  induction t with
  | nil => rfl
  | cons p r ih =>
    obtain ⟨i, w⟩ := p
    simp only [Tab.del]
    split
    · exact ih
    · rename_i e; simp [Tab.find, e, ih]

theorem Tab.find_del_ne {α : Type} (t : Tab α) {j k : Nat} (h : j ≠ k) : (t.del k).find j = t.find j := by
  have hk : ¬ k = j := fun e => h e.symm
  induction t with
  | nil => rfl
  | cons p r ih =>
    obtain ⟨i, w⟩ := p
    simp only [Tab.del]
    split
    · rename_i e; subst e; simp [Tab.find, hk, ih]
    · simp [Tab.find, ih]

namespace Machine

theorem setAt_length {α : Type} (l : List α) (n : Nat) (v : α) : (setAt l n v).length = l.length := by
  induction l generalizing n with
  | nil => rfl
  | cons x r ih => cases n <;> simp [setAt, ih]

theorem modAt_length {α : Type} (l : List α) (n : Nat) (g : α → α) : (modAt l n g).length = l.length := by
  induction l generalizing n with
  | nil => rfl
  | cons x r ih => cases n <;> simp [modAt, ih]

theorem modAt_get {α : Type} (l : List α) (n : Nat) (g : α → α) : (modAt l n g)[n]? = l[n]?.map g := by
  induction l generalizing n with
  | nil => rfl
  | cons x r ih => cases n <;> simp [modAt, ih]

theorem modAt_get_ne {α : Type} (l : List α) {i n : Nat} (g : α → α) (h : i ≠ n) : (modAt l n g)[i]? = l[i]? := by
  induction l generalizing i n with
  | nil => rfl
  | cons x r ih =>
    cases n with
    | zero => cases i with
      | zero => exact absurd rfl h
      | succ i => simp [modAt]
    | succ n => cases i with
      | zero => simp [modAt]
      | succ i => simpa [modAt] using ih (fun e => h (by rw [e]))

/-! ### Lanes -/

theorem packLanes_lt (n : Nat) (l : List Nat) : packLanes n l < 2 ^ (n * l.length) := by
  induction l with
  | nil => simp [packLanes]
  | cons v r ih =>
    have h1 : v % 2 ^ n < 2 ^ n := Nat.mod_lt _ (Nat.two_pow_pos n)
    have h2 : 2 ^ (n * (r.length + 1)) = 2 ^ n * 2 ^ (n * r.length) := by rw [← Nat.pow_add]; congr 1; ring
    have h3 : 2 ^ n * (packLanes n r + 1) ≤ 2 ^ n * 2 ^ (n * r.length) := Nat.mul_le_mul_left _ ih
    have h4 : 2 ^ n * (packLanes n r + 1) = 2 ^ n * packLanes n r + 2 ^ n := by ring
    simp only [packLanes, List.length_cons, h2]
    omega

theorem packLanes_lane (n : Nat) (l : List Nat) (j : Nat) (h : j < l.length) : packLanes n l / 2 ^ (n * j) % 2 ^ n = l[j] % 2 ^ n := by
  induction l generalizing j with
  | nil => simp at h
  | cons v r ih =>
    cases j with
    | zero => simp [packLanes, Nat.add_mod]
    | succ j =>
      have hp : 0 < 2 ^ n := Nat.two_pow_pos n
      have h1 : 2 ^ (n * (j + 1)) = 2 ^ n * 2 ^ (n * j) := by rw [← Nat.pow_add]; congr 1; ring
      have h2 : (v % 2 ^ n + 2 ^ n * packLanes n r) / 2 ^ n = packLanes n r := by
        rw [Nat.add_mul_div_left _ _ hp, Nat.div_eq_of_lt (Nat.mod_lt _ hp), Nat.zero_add]
      simp only [packLanes, h1, ← Nat.div_div_eq_div_mul, h2, List.getElem_cons_succ]
      exact ih j (by simpa using h)

/-- A lane of a word built from its lanes. -/
theorem lane_ofLanes (n : Nat) (l : List Nat) (j : Nat) (hl : n * l.length ≤ 512) (h : j < l.length) : lane n (ofLanes n l) j = l[j] % 2 ^ n := by
  have h1 : packLanes n l < 2 ^ 512 := Nat.lt_of_lt_of_le (packLanes_lt n l) (Nat.pow_le_pow_right (by decide) hl)
  simp only [lane, ofLanes, BitVec.toNat_ofNat, Nat.mod_eq_of_lt h1]
  exact packLanes_lane n l j h

theorem lane_lt (n : Nat) (w : Word) (j : Nat) : lane n w j < 2 ^ n := Nat.mod_lt _ (Nat.two_pow_pos n)

theorem lane_map1 (n : Nat) (g : Nat → Nat) (a : Word) (j : Nat) (h : j < 512 / n) : lane n (map1 n g a) j = g (lane n a j) % 2 ^ n := by
  have hl : n * (512 / n) ≤ 512 := Nat.mul_div_le 512 n
  rw [map1, lane_ofLanes _ _ _ (by simpa using hl) (by simpa using h)]
  simp

theorem lane_map2 (n : Nat) (g : Nat → Nat → Nat) (a b : Word) (j : Nat) (h : j < 512 / n) :
    lane n (map2 n g a b) j = g (lane n a j) (lane n b j) % 2 ^ n := by
  have hl : n * (512 / n) ≤ 512 := Nat.mul_div_le 512 n
  rw [map2, lane_ofLanes _ _ _ (by simpa using hl) (by simpa using h)]
  simp

theorem lane_map3 (n : Nat) (g : Nat → Nat → Nat → Nat) (a b c : Word) (j : Nat) (h : j < 512 / n) :
    lane n (map3 n g a b c) j = g (lane n a j) (lane n b j) (lane n c j) % 2 ^ n := by
  have hl : n * (512 / n) ≤ 512 := Nat.mul_div_le 512 n
  rw [map3, lane_ofLanes _ _ _ (by simpa using hl) (by simpa using h)]
  simp

theorem wrap_lt (n : Nat) (x : Int) : wrap n x < 2 ^ n := by
  have h : (0 : Int) < 2 ^ n := by positivity
  have h1 := Int.emod_lt_of_pos x h
  have h2 := Int.emod_nonneg x (ne_of_gt h)
  have h3 : ((2 ^ n : Nat) : Int) = (2 : Int) ^ n := by push_cast; rfl
  simp only [wrap]
  omega

theorem narrow_lt (sat sg : Bool) (n : Nat) (x : Int) : narrow sat sg n x < 2 ^ n := wrap_lt n _

end Machine
end Sys2Proof
end

