-- ==== Sys2Proof/Laws/Memory.lean ====
section
/-! SUPPORT. Memory: every operation keeps the canonical form, and what a read gives after a write. -/

namespace Sys2Proof.Machine

open Sys2Proof

/-! ### The canonical form -/

theorem Memory.wfFrom_weaken {a b : Nat} {m : List Host.Cell} (h : a ≤ b) (w : Memory.wfFrom b m = true) : Memory.wfFrom a m = true := by
  cases m with
  | nil => rfl
  | cons c r =>
    simp only [Memory.wfFrom, Bool.and_eq_true, decide_eq_true_eq] at w ⊢
    exact ⟨⟨Nat.le_trans h w.1.1, w.1.2⟩, w.2⟩

theorem Memory.wfFrom_write {lo : Nat} {m : List Host.Cell} (a : Nat) (v : Byte) (h : lo ≤ a) (w : Memory.wfFrom lo m = true) :
    Memory.wfFrom lo (Memory.write m a v) = true := by
  induction m generalizing lo with
  | nil =>
    simp only [Memory.write]
    split
    · rfl
    · rename_i e; simp [Memory.wfFrom, h]; exact e
  | cons c r ih =>
    obtain ⟨k, x⟩ := c
    simp only [Memory.wfFrom, Bool.and_eq_true, decide_eq_true_eq] at w
    obtain ⟨⟨hk, hx⟩, hr⟩ := w
    simp only [Memory.write]
    split
    · rename_i lt
      split
      · simp [Memory.wfFrom, hk, hr]; simpa using hx
      · rename_i e
        simp only [Memory.wfFrom, Bool.and_eq_true, decide_eq_true_eq]
        exact ⟨⟨h, by simpa using e⟩, ⟨lt, hx⟩, hr⟩
    · split
      · rename_i e
        split
        · exact Memory.wfFrom_weaken (by omega) hr
        · rename_i v0
          subst e
          simp only [Memory.wfFrom, Bool.and_eq_true, decide_eq_true_eq]
          exact ⟨⟨h, by simpa using v0⟩, hr⟩
      · simp only [Memory.wfFrom, Bool.and_eq_true, decide_eq_true_eq]
        exact ⟨⟨hk, hx⟩, ih (by omega) hr⟩

theorem Memory.wf_nil : Memory.wf [] = true := rfl

theorem Memory.wf_write {m : List Host.Cell} (a : Nat) (v : Byte) (w : Memory.wf m = true) : Memory.wf (Memory.write m a v) = true :=
  Memory.wfFrom_write a v (Nat.zero_le a) w

theorem Memory.wf_writeN {m : List Host.Cell} (n a v : Nat) (w : Memory.wf m = true) : Memory.wf (Memory.writeN m n a v) = true := by
  induction n generalizing m a v with
  | zero => exact w
  | succ n ih => exact ih _ _ (Memory.wf_write _ _ w)

theorem Memory.wf_putBytes {m : List Host.Cell} (a : Nat) (l : List Byte) (w : Memory.wf m = true) : Memory.wf (Memory.putBytes m a l) = true := by
  induction l generalizing m a with
  | nil => exact w
  | cons b r ih => exact ih _ (Memory.wf_write _ _ w)

theorem Memory.wfFrom_filter {lo : Nat} {m : List Host.Cell} (p : Host.Cell → Bool) (w : Memory.wfFrom lo m = true) :
    Memory.wfFrom lo (m.filter p) = true := by
  induction m generalizing lo with
  | nil => rfl
  | cons c r ih =>
    obtain ⟨k, x⟩ := c
    simp only [Memory.wfFrom, Bool.and_eq_true, decide_eq_true_eq] at w
    obtain ⟨⟨hk, hx⟩, hr⟩ := w
    simp only [List.filter]
    split
    · simp only [Memory.wfFrom, Bool.and_eq_true, decide_eq_true_eq]; exact ⟨⟨hk, hx⟩, ih hr⟩
    · exact Memory.wfFrom_weaken (by omega) (ih hr)

theorem Memory.wf_clear {m : List Host.Cell} (a n : Nat) (w : Memory.wf m = true) : Memory.wf (Memory.clear m a n) = true := Memory.wfFrom_filter _ w

theorem Memory.wf_foldWrite {α : Type} {m : List Host.Cell} (l : List α) (f : α → Nat) (g : α → Byte) (w : Memory.wf m = true) :
    Memory.wf (l.foldl (fun m c => Memory.write m (f c) (g c)) m) = true := by
  induction l generalizing m with
  | nil => exact w
  | cons c r ih => exact ih (Memory.wf_write _ _ w)

/-! ### Reads after writes -/

theorem Memory.read_eq_zero {lo a : Nat} {m : List Host.Cell} (w : Memory.wfFrom lo m = true) (h : a < lo) : Memory.read m a = 0 := by
  cases m with
  | nil => rfl
  | cons c r =>
    obtain ⟨k, x⟩ := c
    simp only [Memory.wfFrom, Bool.and_eq_true, decide_eq_true_eq] at w
    have : a < k := by omega
    simp [Memory.read, Nat.ne_of_gt this, this]

theorem Memory.read_write_self {m : List Host.Cell} (a : Nat) (v : Byte) (w : Memory.wf m = true) : Memory.read (Memory.write m a v) a = v := by
  have key : ∀ (lo : Nat) (m : List Host.Cell), Memory.wfFrom lo m = true → Memory.read (Memory.write m a v) a = v := by
    intro lo m
    induction m generalizing lo with
    | nil =>
      intro _
      simp only [Memory.write]
      split
      · rename_i e; simp [Memory.read, e]
      · simp [Memory.read]
    | cons c r ih =>
      obtain ⟨k, x⟩ := c
      intro w
      simp only [Memory.wfFrom, Bool.and_eq_true, decide_eq_true_eq] at w
      simp only [Memory.write]
      split
      · rename_i lt
        split
        · rename_i e; simp [Memory.read, Nat.ne_of_gt lt, lt, e]
        · simp [Memory.read]
      · split
        · rename_i e
          split
          · rename_i v0; subst e; simp only [v0]; exact Memory.read_eq_zero w.2 (by omega)
          · simp [Memory.read]
        · rename_i h1 h2
          have hne : ¬ k = a := fun e => h2 e.symm
          simp only [Memory.read, hne, h1, if_false]
          exact ih _ w.2
  exact key 0 m w

theorem Memory.read_write_ne {m : List Host.Cell} {a b : Nat} (v : Byte) (h : b ≠ a) (w : Memory.wf m = true) :
    Memory.read (Memory.write m a v) b = Memory.read m b := by
  have key : ∀ (lo : Nat) (m : List Host.Cell), Memory.wfFrom lo m = true → Memory.read (Memory.write m a v) b = Memory.read m b := by
    intro lo m
    induction m generalizing lo with
    | nil =>
      intro _
      simp only [Memory.write]
      split
      · rfl
      · simp only [Memory.read, if_neg (fun e => h (Eq.symm e))]
        split <;> rfl
    | cons c r ih =>
      obtain ⟨k, x⟩ := c
      intro w
      simp only [Memory.wfFrom, Bool.and_eq_true, decide_eq_true_eq] at w
      simp only [Memory.write]
      split
      · rename_i lt
        split
        · rfl
        · simp only [Memory.read, if_neg (fun e => h (Eq.symm e))]
          split
          · rename_i hb
            have h1 : ¬ k = b := by omega
            have h2 : b < k := by omega
            simp [h1, h2]
          · rfl
      · split
        · rename_i e
          subst e
          have hk : ¬ a = b := fun e => h e.symm
          split
          · simp only [Memory.read, hk, if_false]
            split
            · rename_i lt; exact Memory.read_eq_zero w.2 (by omega)
            · rfl
          · simp [Memory.read, hk]
        · simp only [Memory.read, ih _ w.2]
  exact key 0 m w

theorem Memory.read_writeN_ne {m : List Host.Cell} (n a v b : Nat) (h : b < a ∨ a + n ≤ b) (w : Memory.wf m = true) :
    Memory.read (Memory.writeN m n a v) b = Memory.read m b := by
  induction n generalizing m a v with
  | zero => rfl
  | succ n ih =>
    simp only [Memory.writeN]
    rw [ih _ _ (by omega) (Memory.wf_write _ _ w), Memory.read_write_ne _ (by omega) w]

theorem Memory.read_putBytes_ne {m : List Host.Cell} (a : Nat) (l : List Byte) (b : Nat) (h : b < a ∨ a + l.length ≤ b) (w : Memory.wf m = true) :
    Memory.read (Memory.putBytes m a l) b = Memory.read m b := by
  induction l generalizing m a with
  | nil => rfl
  | cons c r ih =>
    simp only [List.length_cons] at h
    simp only [Memory.putBytes]
    rw [ih _ (by omega) (Memory.wf_write _ _ w), Memory.read_write_ne _ (by omega) w]

theorem Memory.readN_lt (m : List Host.Cell) (n a : Nat) : Memory.readN m n a < 256 ^ n := by
  induction n generalizing a with
  | zero => simp [Memory.readN]
  | succ n ih =>
    have h1 := (Memory.read m a).isLt
    have h2 := ih (a + 1)
    simp only [Memory.readN, Nat.pow_succ]
    omega

theorem Memory.readN_congr {m m' : List Host.Cell} (n a : Nat) (h : ∀ b, a ≤ b → b < a + n → Memory.read m b = Memory.read m' b) :
    Memory.readN m n a = Memory.readN m' n a := by
  induction n generalizing a with
  | zero => rfl
  | succ n ih =>
    simp only [Memory.readN]
    rw [h a (Nat.le_refl a) (by omega), ih (a + 1) fun b h1 h2 => h b (by omega) (by omega)]

/-- A store reads back. -/
theorem Memory.readN_writeN {m : List Host.Cell} (n a v : Nat) (w : Memory.wf m = true) : Memory.readN (Memory.writeN m n a v) n a = v % 256 ^ n := by
  induction n generalizing m a v with
  | zero => simp [Memory.readN, Nat.mod_one]
  | succ n ih =>
    have hw := Memory.wf_write a (BitVec.ofNat 8 (v % 256)) w
    simp only [Memory.readN, Memory.writeN]
    rw [ih (a + 1) (v / 256) hw, Memory.read_writeN_ne n (a + 1) _ a (by omega) hw, Memory.read_write_self _ _ w, BitVec.toNat_ofNat]
    have h1 : 256 ^ (n + 1) = 256 * 256 ^ n := by rw [Nat.pow_succ, Nat.mul_comm]
    rw [h1, Nat.mod_mul]
    omega

/-! ### Full-empty bits -/

theorem febInsert_contains (l : List Nat) (g h : Nat) : febAt (febInsert l g) h = (febAt l h || h == g) := by
  induction l with
  | nil => simp [febInsert, febAt, beq_eq_decide]
  | cons k r ih =>
    simp only [febInsert]
    split
    · simp only [febAt, List.contains_cons]; rw [Bool.or_comm]
    · split
      · rename_i e; subst e
        simp only [febAt, List.contains_cons]
        cases h == g <;> simp
      · simp only [febAt, List.contains_cons] at ih ⊢
        rw [ih, Bool.or_assoc]

theorem febAt_set (l : List Nat) (g h : Nat) (b : Bool) : febAt (febSet l g b) h = if h = g then b else febAt l h := by
  cases b with
  | true => simp only [febSet, if_true, febInsert_contains]; split <;> rename_i e <;> simp [e]
  | false =>
    simp only [febSet, Bool.false_eq_true, if_false, febAt]
    split
    · rename_i e; subst e; simp
    · rename_i e; rw [Bool.eq_iff_iff]; simp [e]

end Sys2Proof.Machine
end

