-- ==== Sys2Proof/Laws/State.lean ====
section
/-! SUPPORT. What each update of the state leaves alone: one lemma per field per update. -/

namespace Sys2Proof.Machine

open Sys2Proof

/-! ### setTile -/

@[simp] theorem setTile_agenda (s : State) (t : Nat) (x : Tile) : (setTile s t x).agenda = s.agenda := rfl
@[simp] theorem setTile_cur (s : State) (t : Nat) (x : Tile) : (setTile s t x).cur = s.cur := rfl
@[simp] theorem setTile_fresh (s : State) (t : Nat) (x : Tile) : (setTile s t x).fresh = s.fresh := rfl
@[simp] theorem setTile_cycle (s : State) (t : Nat) (x : Tile) : (setTile s t x).cycle = s.cycle := rfl
@[simp] theorem setTile_dieErrs (s : State) (t : Nat) (x : Tile) : (setTile s t x).dieErrs = s.dieErrs := rfl
@[simp] theorem setTile_heldWrites (s : State) (t : Nat) (x : Tile) : (setTile s t x).heldWrites = s.heldWrites := rfl
@[simp] theorem setTile_jdirty (s : State) (t : Nat) (x : Tile) : (setTile s t x).jdirty = s.jdirty := rfl
@[simp] theorem setTile_lastPf (s : State) (t : Nat) (x : Tile) : (setTile s t x).lastPf = s.lastPf := rfl
@[simp] theorem setTile_linkHeld (s : State) (t : Nat) (x : Tile) : (setTile s t x).linkHeld = s.linkHeld := rfl
@[simp] theorem setTile_tick (s : State) (t : Nat) (x : Tile) : (setTile s t x).tick = s.tick := rfl
@[simp] theorem setTile_stage (s : State) (t : Nat) (x : Tile) : (setTile s t x).stage = s.stage := rfl
@[simp] theorem setTile_failed (s : State) (t : Nat) (x : Tile) : (setTile s t x).failed = s.failed := rfl
@[simp] theorem setTile_mem (s : State) (t : Nat) (x : Tile) : (setTile s t x).mem = s.mem := rfl
@[simp] theorem setTile_scratch (s : State) (t : Nat) (x : Tile) : (setTile s t x).scratch = s.scratch := rfl
@[simp] theorem setTile_feb (s : State) (t : Nat) (x : Tile) : (setTile s t x).feb = s.feb := rfl
@[simp] theorem setTile_badMem (s : State) (t : Nat) (x : Tile) : (setTile s t x).badMem = s.badMem := rfl
@[simp] theorem setTile_leases (s : State) (t : Nat) (x : Tile) : (setTile s t x).leases = s.leases := rfl
@[simp] theorem setTile_wires (s : State) (t : Nat) (x : Tile) : (setTile s t x).wires = s.wires := rfl
@[simp] theorem setTile_demands (s : State) (t : Nat) (x : Tile) : (setTile s t x).demands = s.demands := rfl
@[simp] theorem setTile_reqs (s : State) (t : Nat) (x : Tile) : (setTile s t x).reqs = s.reqs := rfl
@[simp] theorem setTile_nextReq (s : State) (t : Nat) (x : Tile) : (setTile s t x).nextReq = s.nextReq := rfl
@[simp] theorem setTile_shards (s : State) (t : Nat) (x : Tile) : (setTile s t x).shards = s.shards := rfl
@[simp] theorem setTile_mtlb (s : State) (t : Nat) (x : Tile) : (setTile s t x).mtlb = s.mtlb := rfl
@[simp] theorem setTile_lltlb (s : State) (t : Nat) (x : Tile) : (setTile s t x).lltlb = s.lltlb := rfl
@[simp] theorem setTile_fot (s : State) (t : Nat) (x : Tile) : (setTile s t x).fot = s.fot := rfl
@[simp] theorem setTile_fotChanges (s : State) (t : Nat) (x : Tile) : (setTile s t x).fotChanges = s.fotChanges := rfl
@[simp] theorem setTile_kslot (s : State) (t : Nat) (x : Tile) : (setTile s t x).kslot = s.kslot := rfl
@[simp] theorem setTile_ownbm (s : State) (t : Nat) (x : Tile) : (setTile s t x).ownbm = s.ownbm := rfl
@[simp] theorem setTile_bmpar (s : State) (t : Nat) (x : Tile) : (setTile s t x).bmpar = s.bmpar := rfl
@[simp] theorem setTile_rpb (s : State) (t : Nat) (x : Tile) : (setTile s t x).rpb = s.rpb := rfl
@[simp] theorem setTile_peerOut (s : State) (t : Nat) (x : Tile) : (setTile s t x).peerOut = s.peerOut := rfl
@[simp] theorem setTile_peerDemands (s : State) (t : Nat) (x : Tile) : (setTile s t x).peerDemands = s.peerDemands := rfl
@[simp] theorem setTile_reachq (s : State) (t : Nat) (x : Tile) : (setTile s t x).reachq = s.reachq := rfl
@[simp] theorem setTile_pfs (s : State) (t : Nat) (x : Tile) : (setTile s t x).pfs = s.pfs := rfl
@[simp] theorem setTile_psub (s : State) (t : Nat) (x : Tile) : (setTile s t x).psub = s.psub := rfl
@[simp] theorem setTile_psubCmd (s : State) (t : Nat) (x : Tile) : (setTile s t x).psubCmd = s.psubCmd := rfl
@[simp] theorem setTile_cmdWait (s : State) (t : Nat) (x : Tile) : (setTile s t x).cmdWait = s.cmdWait := rfl
@[simp] theorem setTile_journal (s : State) (t : Nat) (x : Tile) : (setTile s t x).journal = s.journal := rfl
@[simp] theorem setTile_jpend (s : State) (t : Nat) (x : Tile) : (setTile s t x).jpend = s.jpend := rfl
@[simp] theorem setTile_jlog2 (s : State) (t : Nat) (x : Tile) : (setTile s t x).jlog2 = s.jlog2 := rfl
@[simp] theorem setTile_jhead (s : State) (t : Nat) (x : Tile) : (setTile s t x).jhead = s.jhead := rfl
@[simp] theorem setTile_pf0log (s : State) (t : Nat) (x : Tile) : (setTile s t x).pf0log = s.pf0log := rfl
@[simp] theorem setTile_mirror (s : State) (t : Nat) (x : Tile) : (setTile s t x).mirror = s.mirror := rfl
@[simp] theorem setTile_staged (s : State) (t : Nat) (x : Tile) : (setTile s t x).staged = s.staged := rfl
@[simp] theorem setTile_firmware (s : State) (t : Nat) (x : Tile) : (setTile s t x).firmware = s.firmware := rfl
@[simp] theorem setTile_linkUp0 (s : State) (t : Nat) (x : Tile) : (setTile s t x).linkUp0 = s.linkUp0 := rfl
@[simp] theorem setTile_linkUp1 (s : State) (t : Nat) (x : Tile) : (setTile s t x).linkUp1 = s.linkUp1 := rfl
@[simp] theorem setTile_ide (s : State) (t : Nat) (x : Tile) : (setTile s t x).ide = s.ide := rfl
@[simp] theorem setTile_fmask (s : State) (t : Nat) (x : Tile) : (setTile s t x).fmask = s.fmask := rfl
@[simp] theorem setTile_mctr (s : State) (t : Nat) (x : Tile) : (setTile s t x).mctr = s.mctr := rfl
@[simp] theorem setTile_throttled (s : State) (t : Nat) (x : Tile) : (setTile s t x).throttled = s.throttled := rfl
@[simp] theorem setTile_powerLimit (s : State) (t : Nat) (x : Tile) : (setTile s t x).powerLimit = s.powerLimit := rfl
@[simp] theorem setTile_tempLimit (s : State) (t : Nat) (x : Tile) : (setTile s t x).tempLimit = s.tempLimit := rfl
@[simp] theorem setTile_move (s : State) (t : Nat) (x : Tile) : (setTile s t x).move = s.move := rfl

/-! ### modTile -/

@[simp] theorem modTile_agenda (s : State) (t : Nat) (g : Tile → Tile) : (modTile s t g).agenda = s.agenda := rfl
@[simp] theorem modTile_cur (s : State) (t : Nat) (g : Tile → Tile) : (modTile s t g).cur = s.cur := rfl
@[simp] theorem modTile_fresh (s : State) (t : Nat) (g : Tile → Tile) : (modTile s t g).fresh = s.fresh := rfl
@[simp] theorem modTile_cycle (s : State) (t : Nat) (g : Tile → Tile) : (modTile s t g).cycle = s.cycle := rfl
@[simp] theorem modTile_dieErrs (s : State) (t : Nat) (g : Tile → Tile) : (modTile s t g).dieErrs = s.dieErrs := rfl
@[simp] theorem modTile_heldWrites (s : State) (t : Nat) (g : Tile → Tile) : (modTile s t g).heldWrites = s.heldWrites := rfl
@[simp] theorem modTile_jdirty (s : State) (t : Nat) (g : Tile → Tile) : (modTile s t g).jdirty = s.jdirty := rfl
@[simp] theorem modTile_lastPf (s : State) (t : Nat) (g : Tile → Tile) : (modTile s t g).lastPf = s.lastPf := rfl
@[simp] theorem modTile_linkHeld (s : State) (t : Nat) (g : Tile → Tile) : (modTile s t g).linkHeld = s.linkHeld := rfl
@[simp] theorem modTile_tick (s : State) (t : Nat) (g : Tile → Tile) : (modTile s t g).tick = s.tick := rfl
@[simp] theorem modTile_stage (s : State) (t : Nat) (g : Tile → Tile) : (modTile s t g).stage = s.stage := rfl
@[simp] theorem modTile_failed (s : State) (t : Nat) (g : Tile → Tile) : (modTile s t g).failed = s.failed := rfl
@[simp] theorem modTile_mem (s : State) (t : Nat) (g : Tile → Tile) : (modTile s t g).mem = s.mem := rfl
@[simp] theorem modTile_scratch (s : State) (t : Nat) (g : Tile → Tile) : (modTile s t g).scratch = s.scratch := rfl
@[simp] theorem modTile_feb (s : State) (t : Nat) (g : Tile → Tile) : (modTile s t g).feb = s.feb := rfl
@[simp] theorem modTile_badMem (s : State) (t : Nat) (g : Tile → Tile) : (modTile s t g).badMem = s.badMem := rfl
@[simp] theorem modTile_leases (s : State) (t : Nat) (g : Tile → Tile) : (modTile s t g).leases = s.leases := rfl
@[simp] theorem modTile_wires (s : State) (t : Nat) (g : Tile → Tile) : (modTile s t g).wires = s.wires := rfl
@[simp] theorem modTile_demands (s : State) (t : Nat) (g : Tile → Tile) : (modTile s t g).demands = s.demands := rfl
@[simp] theorem modTile_reqs (s : State) (t : Nat) (g : Tile → Tile) : (modTile s t g).reqs = s.reqs := rfl
@[simp] theorem modTile_nextReq (s : State) (t : Nat) (g : Tile → Tile) : (modTile s t g).nextReq = s.nextReq := rfl
@[simp] theorem modTile_shards (s : State) (t : Nat) (g : Tile → Tile) : (modTile s t g).shards = s.shards := rfl
@[simp] theorem modTile_mtlb (s : State) (t : Nat) (g : Tile → Tile) : (modTile s t g).mtlb = s.mtlb := rfl
@[simp] theorem modTile_lltlb (s : State) (t : Nat) (g : Tile → Tile) : (modTile s t g).lltlb = s.lltlb := rfl
@[simp] theorem modTile_fot (s : State) (t : Nat) (g : Tile → Tile) : (modTile s t g).fot = s.fot := rfl
@[simp] theorem modTile_fotChanges (s : State) (t : Nat) (g : Tile → Tile) : (modTile s t g).fotChanges = s.fotChanges := rfl
@[simp] theorem modTile_kslot (s : State) (t : Nat) (g : Tile → Tile) : (modTile s t g).kslot = s.kslot := rfl
@[simp] theorem modTile_ownbm (s : State) (t : Nat) (g : Tile → Tile) : (modTile s t g).ownbm = s.ownbm := rfl
@[simp] theorem modTile_bmpar (s : State) (t : Nat) (g : Tile → Tile) : (modTile s t g).bmpar = s.bmpar := rfl
@[simp] theorem modTile_rpb (s : State) (t : Nat) (g : Tile → Tile) : (modTile s t g).rpb = s.rpb := rfl
@[simp] theorem modTile_peerOut (s : State) (t : Nat) (g : Tile → Tile) : (modTile s t g).peerOut = s.peerOut := rfl
@[simp] theorem modTile_peerDemands (s : State) (t : Nat) (g : Tile → Tile) : (modTile s t g).peerDemands = s.peerDemands := rfl
@[simp] theorem modTile_reachq (s : State) (t : Nat) (g : Tile → Tile) : (modTile s t g).reachq = s.reachq := rfl
@[simp] theorem modTile_pfs (s : State) (t : Nat) (g : Tile → Tile) : (modTile s t g).pfs = s.pfs := rfl
@[simp] theorem modTile_psub (s : State) (t : Nat) (g : Tile → Tile) : (modTile s t g).psub = s.psub := rfl
@[simp] theorem modTile_psubCmd (s : State) (t : Nat) (g : Tile → Tile) : (modTile s t g).psubCmd = s.psubCmd := rfl
@[simp] theorem modTile_cmdWait (s : State) (t : Nat) (g : Tile → Tile) : (modTile s t g).cmdWait = s.cmdWait := rfl
@[simp] theorem modTile_journal (s : State) (t : Nat) (g : Tile → Tile) : (modTile s t g).journal = s.journal := rfl
@[simp] theorem modTile_jpend (s : State) (t : Nat) (g : Tile → Tile) : (modTile s t g).jpend = s.jpend := rfl
@[simp] theorem modTile_jlog2 (s : State) (t : Nat) (g : Tile → Tile) : (modTile s t g).jlog2 = s.jlog2 := rfl
@[simp] theorem modTile_jhead (s : State) (t : Nat) (g : Tile → Tile) : (modTile s t g).jhead = s.jhead := rfl
@[simp] theorem modTile_pf0log (s : State) (t : Nat) (g : Tile → Tile) : (modTile s t g).pf0log = s.pf0log := rfl
@[simp] theorem modTile_mirror (s : State) (t : Nat) (g : Tile → Tile) : (modTile s t g).mirror = s.mirror := rfl
@[simp] theorem modTile_staged (s : State) (t : Nat) (g : Tile → Tile) : (modTile s t g).staged = s.staged := rfl
@[simp] theorem modTile_firmware (s : State) (t : Nat) (g : Tile → Tile) : (modTile s t g).firmware = s.firmware := rfl
@[simp] theorem modTile_linkUp0 (s : State) (t : Nat) (g : Tile → Tile) : (modTile s t g).linkUp0 = s.linkUp0 := rfl
@[simp] theorem modTile_linkUp1 (s : State) (t : Nat) (g : Tile → Tile) : (modTile s t g).linkUp1 = s.linkUp1 := rfl
@[simp] theorem modTile_ide (s : State) (t : Nat) (g : Tile → Tile) : (modTile s t g).ide = s.ide := rfl
@[simp] theorem modTile_fmask (s : State) (t : Nat) (g : Tile → Tile) : (modTile s t g).fmask = s.fmask := rfl
@[simp] theorem modTile_mctr (s : State) (t : Nat) (g : Tile → Tile) : (modTile s t g).mctr = s.mctr := rfl
@[simp] theorem modTile_throttled (s : State) (t : Nat) (g : Tile → Tile) : (modTile s t g).throttled = s.throttled := rfl
@[simp] theorem modTile_powerLimit (s : State) (t : Nat) (g : Tile → Tile) : (modTile s t g).powerLimit = s.powerLimit := rfl
@[simp] theorem modTile_tempLimit (s : State) (t : Nat) (g : Tile → Tile) : (modTile s t g).tempLimit = s.tempLimit := rfl
@[simp] theorem modTile_move (s : State) (t : Nat) (g : Tile → Tile) : (modTile s t g).move = s.move := rfl

/-! ### modPlane -/

@[simp] theorem modPlane_agenda (s : State) (t : Nat) (b : Bool) (g : Plane → Plane) : (modPlane s t b g).agenda = s.agenda := rfl
@[simp] theorem modPlane_cur (s : State) (t : Nat) (b : Bool) (g : Plane → Plane) : (modPlane s t b g).cur = s.cur := rfl
@[simp] theorem modPlane_fresh (s : State) (t : Nat) (b : Bool) (g : Plane → Plane) : (modPlane s t b g).fresh = s.fresh := rfl
@[simp] theorem modPlane_cycle (s : State) (t : Nat) (b : Bool) (g : Plane → Plane) : (modPlane s t b g).cycle = s.cycle := rfl
@[simp] theorem modPlane_dieErrs (s : State) (t : Nat) (b : Bool) (g : Plane → Plane) : (modPlane s t b g).dieErrs = s.dieErrs := rfl
@[simp] theorem modPlane_heldWrites (s : State) (t : Nat) (b : Bool) (g : Plane → Plane) : (modPlane s t b g).heldWrites = s.heldWrites := rfl
@[simp] theorem modPlane_jdirty (s : State) (t : Nat) (b : Bool) (g : Plane → Plane) : (modPlane s t b g).jdirty = s.jdirty := rfl
@[simp] theorem modPlane_lastPf (s : State) (t : Nat) (b : Bool) (g : Plane → Plane) : (modPlane s t b g).lastPf = s.lastPf := rfl
@[simp] theorem modPlane_linkHeld (s : State) (t : Nat) (b : Bool) (g : Plane → Plane) : (modPlane s t b g).linkHeld = s.linkHeld := rfl
@[simp] theorem modPlane_tick (s : State) (t : Nat) (b : Bool) (g : Plane → Plane) : (modPlane s t b g).tick = s.tick := rfl
@[simp] theorem modPlane_stage (s : State) (t : Nat) (b : Bool) (g : Plane → Plane) : (modPlane s t b g).stage = s.stage := rfl
@[simp] theorem modPlane_failed (s : State) (t : Nat) (b : Bool) (g : Plane → Plane) : (modPlane s t b g).failed = s.failed := rfl
@[simp] theorem modPlane_mem (s : State) (t : Nat) (b : Bool) (g : Plane → Plane) : (modPlane s t b g).mem = s.mem := rfl
@[simp] theorem modPlane_scratch (s : State) (t : Nat) (b : Bool) (g : Plane → Plane) : (modPlane s t b g).scratch = s.scratch := rfl
@[simp] theorem modPlane_feb (s : State) (t : Nat) (b : Bool) (g : Plane → Plane) : (modPlane s t b g).feb = s.feb := rfl
@[simp] theorem modPlane_badMem (s : State) (t : Nat) (b : Bool) (g : Plane → Plane) : (modPlane s t b g).badMem = s.badMem := rfl
@[simp] theorem modPlane_leases (s : State) (t : Nat) (b : Bool) (g : Plane → Plane) : (modPlane s t b g).leases = s.leases := rfl
@[simp] theorem modPlane_wires (s : State) (t : Nat) (b : Bool) (g : Plane → Plane) : (modPlane s t b g).wires = s.wires := rfl
@[simp] theorem modPlane_demands (s : State) (t : Nat) (b : Bool) (g : Plane → Plane) : (modPlane s t b g).demands = s.demands := rfl
@[simp] theorem modPlane_reqs (s : State) (t : Nat) (b : Bool) (g : Plane → Plane) : (modPlane s t b g).reqs = s.reqs := rfl
@[simp] theorem modPlane_nextReq (s : State) (t : Nat) (b : Bool) (g : Plane → Plane) : (modPlane s t b g).nextReq = s.nextReq := rfl
@[simp] theorem modPlane_shards (s : State) (t : Nat) (b : Bool) (g : Plane → Plane) : (modPlane s t b g).shards = s.shards := rfl
@[simp] theorem modPlane_mtlb (s : State) (t : Nat) (b : Bool) (g : Plane → Plane) : (modPlane s t b g).mtlb = s.mtlb := rfl
@[simp] theorem modPlane_lltlb (s : State) (t : Nat) (b : Bool) (g : Plane → Plane) : (modPlane s t b g).lltlb = s.lltlb := rfl
@[simp] theorem modPlane_fot (s : State) (t : Nat) (b : Bool) (g : Plane → Plane) : (modPlane s t b g).fot = s.fot := rfl
@[simp] theorem modPlane_fotChanges (s : State) (t : Nat) (b : Bool) (g : Plane → Plane) : (modPlane s t b g).fotChanges = s.fotChanges := rfl
@[simp] theorem modPlane_kslot (s : State) (t : Nat) (b : Bool) (g : Plane → Plane) : (modPlane s t b g).kslot = s.kslot := rfl
@[simp] theorem modPlane_ownbm (s : State) (t : Nat) (b : Bool) (g : Plane → Plane) : (modPlane s t b g).ownbm = s.ownbm := rfl
@[simp] theorem modPlane_bmpar (s : State) (t : Nat) (b : Bool) (g : Plane → Plane) : (modPlane s t b g).bmpar = s.bmpar := rfl
@[simp] theorem modPlane_rpb (s : State) (t : Nat) (b : Bool) (g : Plane → Plane) : (modPlane s t b g).rpb = s.rpb := rfl
@[simp] theorem modPlane_peerOut (s : State) (t : Nat) (b : Bool) (g : Plane → Plane) : (modPlane s t b g).peerOut = s.peerOut := rfl
@[simp] theorem modPlane_peerDemands (s : State) (t : Nat) (b : Bool) (g : Plane → Plane) : (modPlane s t b g).peerDemands = s.peerDemands := rfl
@[simp] theorem modPlane_reachq (s : State) (t : Nat) (b : Bool) (g : Plane → Plane) : (modPlane s t b g).reachq = s.reachq := rfl
@[simp] theorem modPlane_pfs (s : State) (t : Nat) (b : Bool) (g : Plane → Plane) : (modPlane s t b g).pfs = s.pfs := rfl
@[simp] theorem modPlane_psub (s : State) (t : Nat) (b : Bool) (g : Plane → Plane) : (modPlane s t b g).psub = s.psub := rfl
@[simp] theorem modPlane_psubCmd (s : State) (t : Nat) (b : Bool) (g : Plane → Plane) : (modPlane s t b g).psubCmd = s.psubCmd := rfl
@[simp] theorem modPlane_cmdWait (s : State) (t : Nat) (b : Bool) (g : Plane → Plane) : (modPlane s t b g).cmdWait = s.cmdWait := rfl
@[simp] theorem modPlane_journal (s : State) (t : Nat) (b : Bool) (g : Plane → Plane) : (modPlane s t b g).journal = s.journal := rfl
@[simp] theorem modPlane_jpend (s : State) (t : Nat) (b : Bool) (g : Plane → Plane) : (modPlane s t b g).jpend = s.jpend := rfl
@[simp] theorem modPlane_jlog2 (s : State) (t : Nat) (b : Bool) (g : Plane → Plane) : (modPlane s t b g).jlog2 = s.jlog2 := rfl
@[simp] theorem modPlane_jhead (s : State) (t : Nat) (b : Bool) (g : Plane → Plane) : (modPlane s t b g).jhead = s.jhead := rfl
@[simp] theorem modPlane_pf0log (s : State) (t : Nat) (b : Bool) (g : Plane → Plane) : (modPlane s t b g).pf0log = s.pf0log := rfl
@[simp] theorem modPlane_mirror (s : State) (t : Nat) (b : Bool) (g : Plane → Plane) : (modPlane s t b g).mirror = s.mirror := rfl
@[simp] theorem modPlane_staged (s : State) (t : Nat) (b : Bool) (g : Plane → Plane) : (modPlane s t b g).staged = s.staged := rfl
@[simp] theorem modPlane_firmware (s : State) (t : Nat) (b : Bool) (g : Plane → Plane) : (modPlane s t b g).firmware = s.firmware := rfl
@[simp] theorem modPlane_linkUp0 (s : State) (t : Nat) (b : Bool) (g : Plane → Plane) : (modPlane s t b g).linkUp0 = s.linkUp0 := rfl
@[simp] theorem modPlane_linkUp1 (s : State) (t : Nat) (b : Bool) (g : Plane → Plane) : (modPlane s t b g).linkUp1 = s.linkUp1 := rfl
@[simp] theorem modPlane_ide (s : State) (t : Nat) (b : Bool) (g : Plane → Plane) : (modPlane s t b g).ide = s.ide := rfl
@[simp] theorem modPlane_fmask (s : State) (t : Nat) (b : Bool) (g : Plane → Plane) : (modPlane s t b g).fmask = s.fmask := rfl
@[simp] theorem modPlane_mctr (s : State) (t : Nat) (b : Bool) (g : Plane → Plane) : (modPlane s t b g).mctr = s.mctr := rfl
@[simp] theorem modPlane_throttled (s : State) (t : Nat) (b : Bool) (g : Plane → Plane) : (modPlane s t b g).throttled = s.throttled := rfl
@[simp] theorem modPlane_powerLimit (s : State) (t : Nat) (b : Bool) (g : Plane → Plane) : (modPlane s t b g).powerLimit = s.powerLimit := rfl
@[simp] theorem modPlane_tempLimit (s : State) (t : Nat) (b : Bool) (g : Plane → Plane) : (modPlane s t b g).tempLimit = s.tempLimit := rfl
@[simp] theorem modPlane_move (s : State) (t : Nat) (b : Bool) (g : Plane → Plane) : (modPlane s t b g).move = s.move := rfl

/-! ### modActive -/

@[simp] theorem modActive_agenda (s : State) (t : Nat) (g : Plane → Plane) : (modActive s t g).agenda = s.agenda := rfl
@[simp] theorem modActive_cur (s : State) (t : Nat) (g : Plane → Plane) : (modActive s t g).cur = s.cur := rfl
@[simp] theorem modActive_fresh (s : State) (t : Nat) (g : Plane → Plane) : (modActive s t g).fresh = s.fresh := rfl
@[simp] theorem modActive_cycle (s : State) (t : Nat) (g : Plane → Plane) : (modActive s t g).cycle = s.cycle := rfl
@[simp] theorem modActive_dieErrs (s : State) (t : Nat) (g : Plane → Plane) : (modActive s t g).dieErrs = s.dieErrs := rfl
@[simp] theorem modActive_heldWrites (s : State) (t : Nat) (g : Plane → Plane) : (modActive s t g).heldWrites = s.heldWrites := rfl
@[simp] theorem modActive_jdirty (s : State) (t : Nat) (g : Plane → Plane) : (modActive s t g).jdirty = s.jdirty := rfl
@[simp] theorem modActive_lastPf (s : State) (t : Nat) (g : Plane → Plane) : (modActive s t g).lastPf = s.lastPf := rfl
@[simp] theorem modActive_linkHeld (s : State) (t : Nat) (g : Plane → Plane) : (modActive s t g).linkHeld = s.linkHeld := rfl
@[simp] theorem modActive_tick (s : State) (t : Nat) (g : Plane → Plane) : (modActive s t g).tick = s.tick := rfl
@[simp] theorem modActive_stage (s : State) (t : Nat) (g : Plane → Plane) : (modActive s t g).stage = s.stage := rfl
@[simp] theorem modActive_failed (s : State) (t : Nat) (g : Plane → Plane) : (modActive s t g).failed = s.failed := rfl
@[simp] theorem modActive_mem (s : State) (t : Nat) (g : Plane → Plane) : (modActive s t g).mem = s.mem := rfl
@[simp] theorem modActive_scratch (s : State) (t : Nat) (g : Plane → Plane) : (modActive s t g).scratch = s.scratch := rfl
@[simp] theorem modActive_feb (s : State) (t : Nat) (g : Plane → Plane) : (modActive s t g).feb = s.feb := rfl
@[simp] theorem modActive_badMem (s : State) (t : Nat) (g : Plane → Plane) : (modActive s t g).badMem = s.badMem := rfl
@[simp] theorem modActive_leases (s : State) (t : Nat) (g : Plane → Plane) : (modActive s t g).leases = s.leases := rfl
@[simp] theorem modActive_wires (s : State) (t : Nat) (g : Plane → Plane) : (modActive s t g).wires = s.wires := rfl
@[simp] theorem modActive_demands (s : State) (t : Nat) (g : Plane → Plane) : (modActive s t g).demands = s.demands := rfl
@[simp] theorem modActive_reqs (s : State) (t : Nat) (g : Plane → Plane) : (modActive s t g).reqs = s.reqs := rfl
@[simp] theorem modActive_nextReq (s : State) (t : Nat) (g : Plane → Plane) : (modActive s t g).nextReq = s.nextReq := rfl
@[simp] theorem modActive_shards (s : State) (t : Nat) (g : Plane → Plane) : (modActive s t g).shards = s.shards := rfl
@[simp] theorem modActive_mtlb (s : State) (t : Nat) (g : Plane → Plane) : (modActive s t g).mtlb = s.mtlb := rfl
@[simp] theorem modActive_lltlb (s : State) (t : Nat) (g : Plane → Plane) : (modActive s t g).lltlb = s.lltlb := rfl
@[simp] theorem modActive_fot (s : State) (t : Nat) (g : Plane → Plane) : (modActive s t g).fot = s.fot := rfl
@[simp] theorem modActive_fotChanges (s : State) (t : Nat) (g : Plane → Plane) : (modActive s t g).fotChanges = s.fotChanges := rfl
@[simp] theorem modActive_kslot (s : State) (t : Nat) (g : Plane → Plane) : (modActive s t g).kslot = s.kslot := rfl
@[simp] theorem modActive_ownbm (s : State) (t : Nat) (g : Plane → Plane) : (modActive s t g).ownbm = s.ownbm := rfl
@[simp] theorem modActive_bmpar (s : State) (t : Nat) (g : Plane → Plane) : (modActive s t g).bmpar = s.bmpar := rfl
@[simp] theorem modActive_rpb (s : State) (t : Nat) (g : Plane → Plane) : (modActive s t g).rpb = s.rpb := rfl
@[simp] theorem modActive_peerOut (s : State) (t : Nat) (g : Plane → Plane) : (modActive s t g).peerOut = s.peerOut := rfl
@[simp] theorem modActive_peerDemands (s : State) (t : Nat) (g : Plane → Plane) : (modActive s t g).peerDemands = s.peerDemands := rfl
@[simp] theorem modActive_reachq (s : State) (t : Nat) (g : Plane → Plane) : (modActive s t g).reachq = s.reachq := rfl
@[simp] theorem modActive_pfs (s : State) (t : Nat) (g : Plane → Plane) : (modActive s t g).pfs = s.pfs := rfl
@[simp] theorem modActive_psub (s : State) (t : Nat) (g : Plane → Plane) : (modActive s t g).psub = s.psub := rfl
@[simp] theorem modActive_psubCmd (s : State) (t : Nat) (g : Plane → Plane) : (modActive s t g).psubCmd = s.psubCmd := rfl
@[simp] theorem modActive_cmdWait (s : State) (t : Nat) (g : Plane → Plane) : (modActive s t g).cmdWait = s.cmdWait := rfl
@[simp] theorem modActive_journal (s : State) (t : Nat) (g : Plane → Plane) : (modActive s t g).journal = s.journal := rfl
@[simp] theorem modActive_jpend (s : State) (t : Nat) (g : Plane → Plane) : (modActive s t g).jpend = s.jpend := rfl
@[simp] theorem modActive_jlog2 (s : State) (t : Nat) (g : Plane → Plane) : (modActive s t g).jlog2 = s.jlog2 := rfl
@[simp] theorem modActive_jhead (s : State) (t : Nat) (g : Plane → Plane) : (modActive s t g).jhead = s.jhead := rfl
@[simp] theorem modActive_pf0log (s : State) (t : Nat) (g : Plane → Plane) : (modActive s t g).pf0log = s.pf0log := rfl
@[simp] theorem modActive_mirror (s : State) (t : Nat) (g : Plane → Plane) : (modActive s t g).mirror = s.mirror := rfl
@[simp] theorem modActive_staged (s : State) (t : Nat) (g : Plane → Plane) : (modActive s t g).staged = s.staged := rfl
@[simp] theorem modActive_firmware (s : State) (t : Nat) (g : Plane → Plane) : (modActive s t g).firmware = s.firmware := rfl
@[simp] theorem modActive_linkUp0 (s : State) (t : Nat) (g : Plane → Plane) : (modActive s t g).linkUp0 = s.linkUp0 := rfl
@[simp] theorem modActive_linkUp1 (s : State) (t : Nat) (g : Plane → Plane) : (modActive s t g).linkUp1 = s.linkUp1 := rfl
@[simp] theorem modActive_ide (s : State) (t : Nat) (g : Plane → Plane) : (modActive s t g).ide = s.ide := rfl
@[simp] theorem modActive_fmask (s : State) (t : Nat) (g : Plane → Plane) : (modActive s t g).fmask = s.fmask := rfl
@[simp] theorem modActive_mctr (s : State) (t : Nat) (g : Plane → Plane) : (modActive s t g).mctr = s.mctr := rfl
@[simp] theorem modActive_throttled (s : State) (t : Nat) (g : Plane → Plane) : (modActive s t g).throttled = s.throttled := rfl
@[simp] theorem modActive_powerLimit (s : State) (t : Nat) (g : Plane → Plane) : (modActive s t g).powerLimit = s.powerLimit := rfl
@[simp] theorem modActive_tempLimit (s : State) (t : Nat) (g : Plane → Plane) : (modActive s t g).tempLimit = s.tempLimit := rfl
@[simp] theorem modActive_move (s : State) (t : Nat) (g : Plane → Plane) : (modActive s t g).move = s.move := rfl

/-! ### modElem -/

@[simp] theorem modElem_agenda (s : State) (x : Site) (b : Bool) (g : Elem → Elem) : (modElem s x b g).agenda = s.agenda := rfl
@[simp] theorem modElem_cur (s : State) (x : Site) (b : Bool) (g : Elem → Elem) : (modElem s x b g).cur = s.cur := rfl
@[simp] theorem modElem_fresh (s : State) (x : Site) (b : Bool) (g : Elem → Elem) : (modElem s x b g).fresh = s.fresh := rfl
@[simp] theorem modElem_cycle (s : State) (x : Site) (b : Bool) (g : Elem → Elem) : (modElem s x b g).cycle = s.cycle := rfl
@[simp] theorem modElem_dieErrs (s : State) (x : Site) (b : Bool) (g : Elem → Elem) : (modElem s x b g).dieErrs = s.dieErrs := rfl
@[simp] theorem modElem_heldWrites (s : State) (x : Site) (b : Bool) (g : Elem → Elem) : (modElem s x b g).heldWrites = s.heldWrites := rfl
@[simp] theorem modElem_jdirty (s : State) (x : Site) (b : Bool) (g : Elem → Elem) : (modElem s x b g).jdirty = s.jdirty := rfl
@[simp] theorem modElem_lastPf (s : State) (x : Site) (b : Bool) (g : Elem → Elem) : (modElem s x b g).lastPf = s.lastPf := rfl
@[simp] theorem modElem_linkHeld (s : State) (x : Site) (b : Bool) (g : Elem → Elem) : (modElem s x b g).linkHeld = s.linkHeld := rfl
@[simp] theorem modElem_tick (s : State) (x : Site) (b : Bool) (g : Elem → Elem) : (modElem s x b g).tick = s.tick := rfl
@[simp] theorem modElem_stage (s : State) (x : Site) (b : Bool) (g : Elem → Elem) : (modElem s x b g).stage = s.stage := rfl
@[simp] theorem modElem_failed (s : State) (x : Site) (b : Bool) (g : Elem → Elem) : (modElem s x b g).failed = s.failed := rfl
@[simp] theorem modElem_mem (s : State) (x : Site) (b : Bool) (g : Elem → Elem) : (modElem s x b g).mem = s.mem := rfl
@[simp] theorem modElem_scratch (s : State) (x : Site) (b : Bool) (g : Elem → Elem) : (modElem s x b g).scratch = s.scratch := rfl
@[simp] theorem modElem_feb (s : State) (x : Site) (b : Bool) (g : Elem → Elem) : (modElem s x b g).feb = s.feb := rfl
@[simp] theorem modElem_badMem (s : State) (x : Site) (b : Bool) (g : Elem → Elem) : (modElem s x b g).badMem = s.badMem := rfl
@[simp] theorem modElem_leases (s : State) (x : Site) (b : Bool) (g : Elem → Elem) : (modElem s x b g).leases = s.leases := rfl
@[simp] theorem modElem_wires (s : State) (x : Site) (b : Bool) (g : Elem → Elem) : (modElem s x b g).wires = s.wires := rfl
@[simp] theorem modElem_demands (s : State) (x : Site) (b : Bool) (g : Elem → Elem) : (modElem s x b g).demands = s.demands := rfl
@[simp] theorem modElem_reqs (s : State) (x : Site) (b : Bool) (g : Elem → Elem) : (modElem s x b g).reqs = s.reqs := rfl
@[simp] theorem modElem_nextReq (s : State) (x : Site) (b : Bool) (g : Elem → Elem) : (modElem s x b g).nextReq = s.nextReq := rfl
@[simp] theorem modElem_shards (s : State) (x : Site) (b : Bool) (g : Elem → Elem) : (modElem s x b g).shards = s.shards := rfl
@[simp] theorem modElem_mtlb (s : State) (x : Site) (b : Bool) (g : Elem → Elem) : (modElem s x b g).mtlb = s.mtlb := rfl
@[simp] theorem modElem_lltlb (s : State) (x : Site) (b : Bool) (g : Elem → Elem) : (modElem s x b g).lltlb = s.lltlb := rfl
@[simp] theorem modElem_fot (s : State) (x : Site) (b : Bool) (g : Elem → Elem) : (modElem s x b g).fot = s.fot := rfl
@[simp] theorem modElem_fotChanges (s : State) (x : Site) (b : Bool) (g : Elem → Elem) : (modElem s x b g).fotChanges = s.fotChanges := rfl
@[simp] theorem modElem_kslot (s : State) (x : Site) (b : Bool) (g : Elem → Elem) : (modElem s x b g).kslot = s.kslot := rfl
@[simp] theorem modElem_ownbm (s : State) (x : Site) (b : Bool) (g : Elem → Elem) : (modElem s x b g).ownbm = s.ownbm := rfl
@[simp] theorem modElem_bmpar (s : State) (x : Site) (b : Bool) (g : Elem → Elem) : (modElem s x b g).bmpar = s.bmpar := rfl
@[simp] theorem modElem_rpb (s : State) (x : Site) (b : Bool) (g : Elem → Elem) : (modElem s x b g).rpb = s.rpb := rfl
@[simp] theorem modElem_peerOut (s : State) (x : Site) (b : Bool) (g : Elem → Elem) : (modElem s x b g).peerOut = s.peerOut := rfl
@[simp] theorem modElem_peerDemands (s : State) (x : Site) (b : Bool) (g : Elem → Elem) : (modElem s x b g).peerDemands = s.peerDemands := rfl
@[simp] theorem modElem_reachq (s : State) (x : Site) (b : Bool) (g : Elem → Elem) : (modElem s x b g).reachq = s.reachq := rfl
@[simp] theorem modElem_pfs (s : State) (x : Site) (b : Bool) (g : Elem → Elem) : (modElem s x b g).pfs = s.pfs := rfl
@[simp] theorem modElem_psub (s : State) (x : Site) (b : Bool) (g : Elem → Elem) : (modElem s x b g).psub = s.psub := rfl
@[simp] theorem modElem_psubCmd (s : State) (x : Site) (b : Bool) (g : Elem → Elem) : (modElem s x b g).psubCmd = s.psubCmd := rfl
@[simp] theorem modElem_cmdWait (s : State) (x : Site) (b : Bool) (g : Elem → Elem) : (modElem s x b g).cmdWait = s.cmdWait := rfl
@[simp] theorem modElem_journal (s : State) (x : Site) (b : Bool) (g : Elem → Elem) : (modElem s x b g).journal = s.journal := rfl
@[simp] theorem modElem_jpend (s : State) (x : Site) (b : Bool) (g : Elem → Elem) : (modElem s x b g).jpend = s.jpend := rfl
@[simp] theorem modElem_jlog2 (s : State) (x : Site) (b : Bool) (g : Elem → Elem) : (modElem s x b g).jlog2 = s.jlog2 := rfl
@[simp] theorem modElem_jhead (s : State) (x : Site) (b : Bool) (g : Elem → Elem) : (modElem s x b g).jhead = s.jhead := rfl
@[simp] theorem modElem_pf0log (s : State) (x : Site) (b : Bool) (g : Elem → Elem) : (modElem s x b g).pf0log = s.pf0log := rfl
@[simp] theorem modElem_mirror (s : State) (x : Site) (b : Bool) (g : Elem → Elem) : (modElem s x b g).mirror = s.mirror := rfl
@[simp] theorem modElem_staged (s : State) (x : Site) (b : Bool) (g : Elem → Elem) : (modElem s x b g).staged = s.staged := rfl
@[simp] theorem modElem_firmware (s : State) (x : Site) (b : Bool) (g : Elem → Elem) : (modElem s x b g).firmware = s.firmware := rfl
@[simp] theorem modElem_linkUp0 (s : State) (x : Site) (b : Bool) (g : Elem → Elem) : (modElem s x b g).linkUp0 = s.linkUp0 := rfl
@[simp] theorem modElem_linkUp1 (s : State) (x : Site) (b : Bool) (g : Elem → Elem) : (modElem s x b g).linkUp1 = s.linkUp1 := rfl
@[simp] theorem modElem_ide (s : State) (x : Site) (b : Bool) (g : Elem → Elem) : (modElem s x b g).ide = s.ide := rfl
@[simp] theorem modElem_fmask (s : State) (x : Site) (b : Bool) (g : Elem → Elem) : (modElem s x b g).fmask = s.fmask := rfl
@[simp] theorem modElem_mctr (s : State) (x : Site) (b : Bool) (g : Elem → Elem) : (modElem s x b g).mctr = s.mctr := rfl
@[simp] theorem modElem_throttled (s : State) (x : Site) (b : Bool) (g : Elem → Elem) : (modElem s x b g).throttled = s.throttled := rfl
@[simp] theorem modElem_powerLimit (s : State) (x : Site) (b : Bool) (g : Elem → Elem) : (modElem s x b g).powerLimit = s.powerLimit := rfl
@[simp] theorem modElem_tempLimit (s : State) (x : Site) (b : Bool) (g : Elem → Elem) : (modElem s x b g).tempLimit = s.tempLimit := rfl
@[simp] theorem modElem_move (s : State) (x : Site) (b : Bool) (g : Elem → Elem) : (modElem s x b g).move = s.move := rfl

/-! ### setLease -/

@[simp] theorem setLease_agenda (s : State) (l : Nat) (x : Lease) : (setLease s l x).agenda = s.agenda := rfl
@[simp] theorem setLease_cur (s : State) (l : Nat) (x : Lease) : (setLease s l x).cur = s.cur := rfl
@[simp] theorem setLease_fresh (s : State) (l : Nat) (x : Lease) : (setLease s l x).fresh = s.fresh := rfl
@[simp] theorem setLease_cycle (s : State) (l : Nat) (x : Lease) : (setLease s l x).cycle = s.cycle := rfl
@[simp] theorem setLease_dieErrs (s : State) (l : Nat) (x : Lease) : (setLease s l x).dieErrs = s.dieErrs := rfl
@[simp] theorem setLease_heldWrites (s : State) (l : Nat) (x : Lease) : (setLease s l x).heldWrites = s.heldWrites := rfl
@[simp] theorem setLease_jdirty (s : State) (l : Nat) (x : Lease) : (setLease s l x).jdirty = s.jdirty := rfl
@[simp] theorem setLease_lastPf (s : State) (l : Nat) (x : Lease) : (setLease s l x).lastPf = s.lastPf := rfl
@[simp] theorem setLease_linkHeld (s : State) (l : Nat) (x : Lease) : (setLease s l x).linkHeld = s.linkHeld := rfl
@[simp] theorem setLease_tick (s : State) (l : Nat) (x : Lease) : (setLease s l x).tick = s.tick := rfl
@[simp] theorem setLease_stage (s : State) (l : Nat) (x : Lease) : (setLease s l x).stage = s.stage := rfl
@[simp] theorem setLease_failed (s : State) (l : Nat) (x : Lease) : (setLease s l x).failed = s.failed := rfl
@[simp] theorem setLease_mem (s : State) (l : Nat) (x : Lease) : (setLease s l x).mem = s.mem := rfl
@[simp] theorem setLease_scratch (s : State) (l : Nat) (x : Lease) : (setLease s l x).scratch = s.scratch := rfl
@[simp] theorem setLease_feb (s : State) (l : Nat) (x : Lease) : (setLease s l x).feb = s.feb := rfl
@[simp] theorem setLease_badMem (s : State) (l : Nat) (x : Lease) : (setLease s l x).badMem = s.badMem := rfl
@[simp] theorem setLease_tiles (s : State) (l : Nat) (x : Lease) : (setLease s l x).tiles = s.tiles := rfl
@[simp] theorem setLease_wires (s : State) (l : Nat) (x : Lease) : (setLease s l x).wires = s.wires := rfl
@[simp] theorem setLease_demands (s : State) (l : Nat) (x : Lease) : (setLease s l x).demands = s.demands := rfl
@[simp] theorem setLease_reqs (s : State) (l : Nat) (x : Lease) : (setLease s l x).reqs = s.reqs := rfl
@[simp] theorem setLease_nextReq (s : State) (l : Nat) (x : Lease) : (setLease s l x).nextReq = s.nextReq := rfl
@[simp] theorem setLease_shards (s : State) (l : Nat) (x : Lease) : (setLease s l x).shards = s.shards := rfl
@[simp] theorem setLease_mtlb (s : State) (l : Nat) (x : Lease) : (setLease s l x).mtlb = s.mtlb := rfl
@[simp] theorem setLease_lltlb (s : State) (l : Nat) (x : Lease) : (setLease s l x).lltlb = s.lltlb := rfl
@[simp] theorem setLease_fot (s : State) (l : Nat) (x : Lease) : (setLease s l x).fot = s.fot := rfl
@[simp] theorem setLease_fotChanges (s : State) (l : Nat) (x : Lease) : (setLease s l x).fotChanges = s.fotChanges := rfl
@[simp] theorem setLease_kslot (s : State) (l : Nat) (x : Lease) : (setLease s l x).kslot = s.kslot := rfl
@[simp] theorem setLease_ownbm (s : State) (l : Nat) (x : Lease) : (setLease s l x).ownbm = s.ownbm := rfl
@[simp] theorem setLease_bmpar (s : State) (l : Nat) (x : Lease) : (setLease s l x).bmpar = s.bmpar := rfl
@[simp] theorem setLease_rpb (s : State) (l : Nat) (x : Lease) : (setLease s l x).rpb = s.rpb := rfl
@[simp] theorem setLease_peerOut (s : State) (l : Nat) (x : Lease) : (setLease s l x).peerOut = s.peerOut := rfl
@[simp] theorem setLease_peerDemands (s : State) (l : Nat) (x : Lease) : (setLease s l x).peerDemands = s.peerDemands := rfl
@[simp] theorem setLease_reachq (s : State) (l : Nat) (x : Lease) : (setLease s l x).reachq = s.reachq := rfl
@[simp] theorem setLease_pfs (s : State) (l : Nat) (x : Lease) : (setLease s l x).pfs = s.pfs := rfl
@[simp] theorem setLease_psub (s : State) (l : Nat) (x : Lease) : (setLease s l x).psub = s.psub := rfl
@[simp] theorem setLease_psubCmd (s : State) (l : Nat) (x : Lease) : (setLease s l x).psubCmd = s.psubCmd := rfl
@[simp] theorem setLease_cmdWait (s : State) (l : Nat) (x : Lease) : (setLease s l x).cmdWait = s.cmdWait := rfl
@[simp] theorem setLease_journal (s : State) (l : Nat) (x : Lease) : (setLease s l x).journal = s.journal := rfl
@[simp] theorem setLease_jpend (s : State) (l : Nat) (x : Lease) : (setLease s l x).jpend = s.jpend := rfl
@[simp] theorem setLease_jlog2 (s : State) (l : Nat) (x : Lease) : (setLease s l x).jlog2 = s.jlog2 := rfl
@[simp] theorem setLease_jhead (s : State) (l : Nat) (x : Lease) : (setLease s l x).jhead = s.jhead := rfl
@[simp] theorem setLease_pf0log (s : State) (l : Nat) (x : Lease) : (setLease s l x).pf0log = s.pf0log := rfl
@[simp] theorem setLease_mirror (s : State) (l : Nat) (x : Lease) : (setLease s l x).mirror = s.mirror := rfl
@[simp] theorem setLease_staged (s : State) (l : Nat) (x : Lease) : (setLease s l x).staged = s.staged := rfl
@[simp] theorem setLease_firmware (s : State) (l : Nat) (x : Lease) : (setLease s l x).firmware = s.firmware := rfl
@[simp] theorem setLease_linkUp0 (s : State) (l : Nat) (x : Lease) : (setLease s l x).linkUp0 = s.linkUp0 := rfl
@[simp] theorem setLease_linkUp1 (s : State) (l : Nat) (x : Lease) : (setLease s l x).linkUp1 = s.linkUp1 := rfl
@[simp] theorem setLease_ide (s : State) (l : Nat) (x : Lease) : (setLease s l x).ide = s.ide := rfl
@[simp] theorem setLease_fmask (s : State) (l : Nat) (x : Lease) : (setLease s l x).fmask = s.fmask := rfl
@[simp] theorem setLease_mctr (s : State) (l : Nat) (x : Lease) : (setLease s l x).mctr = s.mctr := rfl
@[simp] theorem setLease_throttled (s : State) (l : Nat) (x : Lease) : (setLease s l x).throttled = s.throttled := rfl
@[simp] theorem setLease_powerLimit (s : State) (l : Nat) (x : Lease) : (setLease s l x).powerLimit = s.powerLimit := rfl
@[simp] theorem setLease_tempLimit (s : State) (l : Nat) (x : Lease) : (setLease s l x).tempLimit = s.tempLimit := rfl
@[simp] theorem setLease_move (s : State) (l : Nat) (x : Lease) : (setLease s l x).move = s.move := rfl

/-! ### modLease -/

@[simp] theorem modLease_agenda (s : State) (l : Nat) (g : Lease → Lease) : (modLease s l g).agenda = s.agenda := rfl
@[simp] theorem modLease_cur (s : State) (l : Nat) (g : Lease → Lease) : (modLease s l g).cur = s.cur := rfl
@[simp] theorem modLease_fresh (s : State) (l : Nat) (g : Lease → Lease) : (modLease s l g).fresh = s.fresh := rfl
@[simp] theorem modLease_cycle (s : State) (l : Nat) (g : Lease → Lease) : (modLease s l g).cycle = s.cycle := rfl
@[simp] theorem modLease_dieErrs (s : State) (l : Nat) (g : Lease → Lease) : (modLease s l g).dieErrs = s.dieErrs := rfl
@[simp] theorem modLease_heldWrites (s : State) (l : Nat) (g : Lease → Lease) : (modLease s l g).heldWrites = s.heldWrites := rfl
@[simp] theorem modLease_jdirty (s : State) (l : Nat) (g : Lease → Lease) : (modLease s l g).jdirty = s.jdirty := rfl
@[simp] theorem modLease_lastPf (s : State) (l : Nat) (g : Lease → Lease) : (modLease s l g).lastPf = s.lastPf := rfl
@[simp] theorem modLease_linkHeld (s : State) (l : Nat) (g : Lease → Lease) : (modLease s l g).linkHeld = s.linkHeld := rfl
@[simp] theorem modLease_tick (s : State) (l : Nat) (g : Lease → Lease) : (modLease s l g).tick = s.tick := rfl
@[simp] theorem modLease_stage (s : State) (l : Nat) (g : Lease → Lease) : (modLease s l g).stage = s.stage := rfl
@[simp] theorem modLease_failed (s : State) (l : Nat) (g : Lease → Lease) : (modLease s l g).failed = s.failed := rfl
@[simp] theorem modLease_mem (s : State) (l : Nat) (g : Lease → Lease) : (modLease s l g).mem = s.mem := rfl
@[simp] theorem modLease_scratch (s : State) (l : Nat) (g : Lease → Lease) : (modLease s l g).scratch = s.scratch := rfl
@[simp] theorem modLease_feb (s : State) (l : Nat) (g : Lease → Lease) : (modLease s l g).feb = s.feb := rfl
@[simp] theorem modLease_badMem (s : State) (l : Nat) (g : Lease → Lease) : (modLease s l g).badMem = s.badMem := rfl
@[simp] theorem modLease_tiles (s : State) (l : Nat) (g : Lease → Lease) : (modLease s l g).tiles = s.tiles := rfl
@[simp] theorem modLease_wires (s : State) (l : Nat) (g : Lease → Lease) : (modLease s l g).wires = s.wires := rfl
@[simp] theorem modLease_demands (s : State) (l : Nat) (g : Lease → Lease) : (modLease s l g).demands = s.demands := rfl
@[simp] theorem modLease_reqs (s : State) (l : Nat) (g : Lease → Lease) : (modLease s l g).reqs = s.reqs := rfl
@[simp] theorem modLease_nextReq (s : State) (l : Nat) (g : Lease → Lease) : (modLease s l g).nextReq = s.nextReq := rfl
@[simp] theorem modLease_shards (s : State) (l : Nat) (g : Lease → Lease) : (modLease s l g).shards = s.shards := rfl
@[simp] theorem modLease_mtlb (s : State) (l : Nat) (g : Lease → Lease) : (modLease s l g).mtlb = s.mtlb := rfl
@[simp] theorem modLease_lltlb (s : State) (l : Nat) (g : Lease → Lease) : (modLease s l g).lltlb = s.lltlb := rfl
@[simp] theorem modLease_fot (s : State) (l : Nat) (g : Lease → Lease) : (modLease s l g).fot = s.fot := rfl
@[simp] theorem modLease_fotChanges (s : State) (l : Nat) (g : Lease → Lease) : (modLease s l g).fotChanges = s.fotChanges := rfl
@[simp] theorem modLease_kslot (s : State) (l : Nat) (g : Lease → Lease) : (modLease s l g).kslot = s.kslot := rfl
@[simp] theorem modLease_ownbm (s : State) (l : Nat) (g : Lease → Lease) : (modLease s l g).ownbm = s.ownbm := rfl
@[simp] theorem modLease_bmpar (s : State) (l : Nat) (g : Lease → Lease) : (modLease s l g).bmpar = s.bmpar := rfl
@[simp] theorem modLease_rpb (s : State) (l : Nat) (g : Lease → Lease) : (modLease s l g).rpb = s.rpb := rfl
@[simp] theorem modLease_peerOut (s : State) (l : Nat) (g : Lease → Lease) : (modLease s l g).peerOut = s.peerOut := rfl
@[simp] theorem modLease_peerDemands (s : State) (l : Nat) (g : Lease → Lease) : (modLease s l g).peerDemands = s.peerDemands := rfl
@[simp] theorem modLease_reachq (s : State) (l : Nat) (g : Lease → Lease) : (modLease s l g).reachq = s.reachq := rfl
@[simp] theorem modLease_pfs (s : State) (l : Nat) (g : Lease → Lease) : (modLease s l g).pfs = s.pfs := rfl
@[simp] theorem modLease_psub (s : State) (l : Nat) (g : Lease → Lease) : (modLease s l g).psub = s.psub := rfl
@[simp] theorem modLease_psubCmd (s : State) (l : Nat) (g : Lease → Lease) : (modLease s l g).psubCmd = s.psubCmd := rfl
@[simp] theorem modLease_cmdWait (s : State) (l : Nat) (g : Lease → Lease) : (modLease s l g).cmdWait = s.cmdWait := rfl
@[simp] theorem modLease_journal (s : State) (l : Nat) (g : Lease → Lease) : (modLease s l g).journal = s.journal := rfl
@[simp] theorem modLease_jpend (s : State) (l : Nat) (g : Lease → Lease) : (modLease s l g).jpend = s.jpend := rfl
@[simp] theorem modLease_jlog2 (s : State) (l : Nat) (g : Lease → Lease) : (modLease s l g).jlog2 = s.jlog2 := rfl
@[simp] theorem modLease_jhead (s : State) (l : Nat) (g : Lease → Lease) : (modLease s l g).jhead = s.jhead := rfl
@[simp] theorem modLease_pf0log (s : State) (l : Nat) (g : Lease → Lease) : (modLease s l g).pf0log = s.pf0log := rfl
@[simp] theorem modLease_mirror (s : State) (l : Nat) (g : Lease → Lease) : (modLease s l g).mirror = s.mirror := rfl
@[simp] theorem modLease_staged (s : State) (l : Nat) (g : Lease → Lease) : (modLease s l g).staged = s.staged := rfl
@[simp] theorem modLease_firmware (s : State) (l : Nat) (g : Lease → Lease) : (modLease s l g).firmware = s.firmware := rfl
@[simp] theorem modLease_linkUp0 (s : State) (l : Nat) (g : Lease → Lease) : (modLease s l g).linkUp0 = s.linkUp0 := rfl
@[simp] theorem modLease_linkUp1 (s : State) (l : Nat) (g : Lease → Lease) : (modLease s l g).linkUp1 = s.linkUp1 := rfl
@[simp] theorem modLease_ide (s : State) (l : Nat) (g : Lease → Lease) : (modLease s l g).ide = s.ide := rfl
@[simp] theorem modLease_fmask (s : State) (l : Nat) (g : Lease → Lease) : (modLease s l g).fmask = s.fmask := rfl
@[simp] theorem modLease_mctr (s : State) (l : Nat) (g : Lease → Lease) : (modLease s l g).mctr = s.mctr := rfl
@[simp] theorem modLease_throttled (s : State) (l : Nat) (g : Lease → Lease) : (modLease s l g).throttled = s.throttled := rfl
@[simp] theorem modLease_powerLimit (s : State) (l : Nat) (g : Lease → Lease) : (modLease s l g).powerLimit = s.powerLimit := rfl
@[simp] theorem modLease_tempLimit (s : State) (l : Nat) (g : Lease → Lease) : (modLease s l g).tempLimit = s.tempLimit := rfl
@[simp] theorem modLease_move (s : State) (l : Nat) (g : Lease → Lease) : (modLease s l g).move = s.move := rfl

/-! ### Reading back -/

@[simp] theorem tileAt_setTile (s : State) (t : Nat) (x : Tile) : tileAt (setTile s t x) t = x := by simp [tileAt, setTile]
theorem tileAt_setTile_ne (s : State) {u t : Nat} (x : Tile) (h : u ≠ t) : tileAt (setTile s t x) u = tileAt s u := by
  simp [tileAt, setTile, Tab.get_put_ne _ _ _ h]
@[simp] theorem tileAt_modTile (s : State) (t : Nat) (g : Tile → Tile) : tileAt (modTile s t g) t = g (tileAt s t) := by simp [modTile]
theorem tileAt_modTile_ne (s : State) {u t : Nat} (g : Tile → Tile) (h : u ≠ t) : tileAt (modTile s t g) u = tileAt s u := by
  simp [modTile, tileAt_setTile_ne _ _ h]
theorem tileAt_modPlane_ne (s : State) {u t : Nat} (b : Bool) (g : Plane → Plane) (h : u ≠ t) : tileAt (modPlane s t b g) u = tileAt s u :=
  tileAt_modTile_ne s _ h
theorem tileAt_modElem_ne (s : State) {u : Nat} {x : Site} (b : Bool) (g : Elem → Elem) (h : u ≠ x.tile) : tileAt (modElem s x b g) u = tileAt s u :=
  tileAt_modTile_ne s _ h
@[simp] theorem leaseAt_setLease (s : State) (l : Nat) (x : Lease) : leaseAt (setLease s l x) l = x := by simp [leaseAt, setLease]
theorem leaseAt_setLease_ne (s : State) {k l : Nat} (x : Lease) (h : k ≠ l) : leaseAt (setLease s l x) k = leaseAt s k := by
  simp [leaseAt, setLease, Tab.get_put_ne _ _ _ h]
@[simp] theorem leaseAt_modLease (s : State) (l : Nat) (g : Lease → Lease) : leaseAt (modLease s l g) l = g (leaseAt s l) := by simp [modLease]
theorem leaseAt_modLease_ne (s : State) {k l : Nat} (g : Lease → Lease) (h : k ≠ l) : leaseAt (modLease s l g) k = leaseAt s k := by
  simp [modLease, leaseAt_setLease_ne _ _ h]
@[simp] theorem tileAt_setLease (s : State) (t l : Nat) (x : Lease) : tileAt (setLease s l x) t = tileAt s t := rfl
@[simp] theorem tileAt_modLease (s : State) (t l : Nat) (g : Lease → Lease) : tileAt (modLease s l g) t = tileAt s t := rfl
@[simp] theorem leaseAt_setTile (s : State) (t l : Nat) (x : Tile) : leaseAt (setTile s t x) l = leaseAt s l := rfl
@[simp] theorem leaseAt_modTile (s : State) (t l : Nat) (g : Tile → Tile) : leaseAt (modTile s t g) l = leaseAt s l := rfl
@[simp] theorem leaseAt_modPlane (s : State) (t l : Nat) (b : Bool) (g : Plane → Plane) : leaseAt (modPlane s t b g) l = leaseAt s l := rfl
@[simp] theorem leaseAt_modElem (s : State) (x : Site) (l : Nat) (b : Bool) (g : Elem → Elem) : leaseAt (modElem s x b g) l = leaseAt s l := rfl

/-! ### Planes of a tile -/

@[simp] theorem planeOf_withPlane (x : Tile) (b : Bool) (p : Plane) : planeOf (withPlane x b p) b = p := by cases b <;> rfl
@[simp] theorem planeOf_withPlane_not (x : Tile) (b : Bool) (p : Plane) : planeOf (withPlane x b p) (!b) = planeOf x (!b) := by cases b <;> rfl
theorem planeOf_withPlane_ne (x : Tile) {a b : Bool} (p : Plane) (h : a ≠ b) : planeOf (withPlane x b p) a = planeOf x a := by
  cases a <;> cases b <;> first | rfl | exact absurd rfl h
@[simp] theorem tileAt_modPlane (s : State) (t : Nat) (b : Bool) (g : Plane → Plane) :
    tileAt (modPlane s t b g) t = withPlane (tileAt s t) b (g (planeOf (tileAt s t) b)) := by simp [modPlane]
@[simp] theorem planeOf_modPlane (s : State) (t : Nat) (b : Bool) (g : Plane → Plane) :
    planeOf (tileAt (modPlane s t b g) t) b = g (planeOf (tileAt s t) b) := by simp

@[simp] theorem withPlane_planeB (x : Tile) (b : Bool) (p : Plane) : (withPlane x b p).planeB = x.planeB := by cases b <;> rfl
@[simp] theorem withPlane_spill (x : Tile) (b : Bool) (p : Plane) : (withPlane x b p).spill = x.spill := by cases b <;> rfl
@[simp] theorem withPlane_tlease (x : Tile) (b : Bool) (p : Plane) : (withPlane x b p).tlease = x.tlease := by cases b <;> rfl
@[simp] theorem withPlane_tten (x : Tile) (b : Bool) (p : Plane) : (withPlane x b p).tten = x.tten := by cases b <;> rfl
@[simp] theorem withPlane_tlxy (x : Tile) (b : Bool) (p : Plane) : (withPlane x b p).tlxy = x.tlxy := by cases b <;> rfl
@[simp] theorem withPlane_lorg (x : Tile) (b : Bool) (p : Plane) : (withPlane x b p).lorg = x.lorg := by cases b <;> rfl
@[simp] theorem withPlane_lext (x : Tile) (b : Bool) (p : Plane) : (withPlane x b p).lext = x.lext := by cases b <;> rfl
@[simp] theorem withPlane_bankg (x : Tile) (b : Bool) (p : Plane) : (withPlane x b p).bankg = x.bankg := by cases b <;> rfl
@[simp] theorem withPlane_landb (x : Tile) (b : Bool) (p : Plane) : (withPlane x b p).landb = x.landb := by cases b <;> rfl
@[simp] theorem withPlane_swf (x : Tile) (b : Bool) (p : Plane) : (withPlane x b p).swf = x.swf := by cases b <;> rfl
@[simp] theorem withPlane_bpm (x : Tile) (b : Bool) (p : Plane) : (withPlane x b p).bpm = x.bpm := by cases b <;> rfl
@[simp] theorem withPlane_bidle (x : Tile) (b : Bool) (p : Plane) : (withPlane x b p).bidle = x.bidle := by cases b <;> rfl
@[simp] theorem withPlane_touched (x : Tile) (b : Bool) (p : Plane) : (withPlane x b p).touched = x.touched := by cases b <;> rfl
@[simp] theorem withPlane_wakes (x : Tile) (b : Bool) (p : Plane) : (withPlane x b p).wakes = x.wakes := by cases b <;> rfl
@[simp] theorem withPlane_scrub (x : Tile) (b : Bool) (p : Plane) : (withPlane x b p).scrub = x.scrub := by cases b <;> rfl
@[simp] theorem withPlane_drain (x : Tile) (b : Bool) (p : Plane) : (withPlane x b p).drain = x.drain := by cases b <;> rfl
@[simp] theorem withPlane_actc (x : Tile) (b : Bool) (p : Plane) : (withPlane x b p).actc = x.actc := by cases b <;> rfl
@[simp] theorem withPlane_stc (x : Tile) (b : Bool) (p : Plane) : (withPlane x b p).stc = x.stc := by cases b <;> rfl
@[simp] theorem withPlane_delta (x : Tile) (b : Bool) (p : Plane) : (withPlane x b p).delta = x.delta := by cases b <;> rfl
@[simp] theorem withPlane_fwd (x : Tile) (b : Bool) (p : Plane) : (withPlane x b p).fwd = x.fwd := by cases b <;> rfl
@[simp] theorem withPlane_ptab (x : Tile) (b : Bool) (p : Plane) : (withPlane x b p).ptab = x.ptab := by cases b <;> rfl
@[simp] theorem withPlane_qbusy (x : Tile) (b : Bool) (p : Plane) : (withPlane x b p).qbusy = x.qbusy := by cases b <;> rfl
@[simp] theorem withPlane_halted (x : Tile) (b : Bool) (p : Plane) : (withPlane x b p).halted = x.halted := by cases b <;> rfl
@[simp] theorem withPlane_frozen (x : Tile) (b : Bool) (p : Plane) : (withPlane x b p).frozen = x.frozen := by cases b <;> rfl
@[simp] theorem withPlane_moving (x : Tile) (b : Bool) (p : Plane) : (withPlane x b p).moving = x.moving := by cases b <;> rfl
@[simp] theorem withPlane_rebound (x : Tile) (b : Bool) (p : Plane) : (withPlane x b p).rebound = x.rebound := by cases b <;> rfl
@[simp] theorem withPlane_hold (x : Tile) (b : Bool) (p : Plane) : (withPlane x b p).hold = x.hold := by cases b <;> rfl
@[simp] theorem withPlane_capture (x : Tile) (b : Bool) (p : Plane) : (withPlane x b p).capture = x.capture := by cases b <;> rfl
@[simp] theorem withPlane_idle (x : Tile) (b : Bool) (p : Plane) : (withPlane x b p).idle = x.idle := by cases b <;> rfl

/-! ### Blocks and elements of a plane -/

@[simp] theorem withBlock_pst (p : Plane) (e : Nat) (b : Block) : (withBlock p e b).pst = p.pst := by unfold withBlock; split <;> rfl
@[simp] theorem withBlock_late (p : Plane) (e : Nat) (b : Block) : (withBlock p e b).late = p.late := by unfold withBlock; split <;> rfl
@[simp] theorem withBlock_cext (p : Plane) (e : Nat) (b : Block) : (withBlock p e b).cext = p.cext := by unfold withBlock; split <;> rfl
@[simp] theorem withBlock_rorg (p : Plane) (e : Nat) (b : Block) : (withBlock p e b).rorg = p.rorg := by unfold withBlock; split <;> rfl
@[simp] theorem withBlock_segg (p : Plane) (e : Nat) (b : Block) : (withBlock p e b).segg = p.segg := by unfold withBlock; split <;> rfl
@[simp] theorem withBlock_rdsp (p : Plane) (e : Nat) (b : Block) : (withBlock p e b).rdsp = p.rdsp := by unfold withBlock; split <;> rfl
@[simp] theorem withBlock_mepoch (p : Plane) (e : Nat) (b : Block) : (withBlock p e b).mepoch = p.mepoch := by unfold withBlock; split <;> rfl
@[simp] theorem withBlock_rdva (p : Plane) (e : Nat) (b : Block) : (withBlock p e b).rdva = p.rdva := by unfold withBlock; split <;> rfl
@[simp] theorem withBlock_route (p : Plane) (e : Nat) (b : Block) : (withBlock p e b).route = p.route := by unfold withBlock; split <;> rfl
@[simp] theorem withBlock_salloc (p : Plane) (e : Nat) (b : Block) : (withBlock p e b).salloc = p.salloc := by unfold withBlock; split <;> rfl
@[simp] theorem withBlock_reduce (p : Plane) (e : Nat) (b : Block) : (withBlock p e b).reduce = p.reduce := by unfold withBlock; split <;> rfl
@[simp] theorem withBlock_lbuf (p : Plane) (e : Nat) (b : Block) : (withBlock p e b).lbuf = p.lbuf := by unfold withBlock; split <;> rfl
@[simp] theorem withBlock_px8 (p : Plane) (e : Nat) (b : Block) : (withBlock p e b).px8 = p.px8 := by unfold withBlock; split <;> rfl
@[simp] theorem withBlock_dcnt (p : Plane) (e : Nat) (b : Block) : (withBlock p e b).dcnt = p.dcnt := by unfold withBlock; split <;> rfl
@[simp] theorem withBlock_acc0 (p : Plane) (e : Nat) (b : Block) : (withBlock p e b).acc0 = p.acc0 := by unfold withBlock; split <;> rfl
@[simp] theorem withBlock_acc1 (p : Plane) (e : Nat) (b : Block) : (withBlock p e b).acc1 = p.acc1 := by unfold withBlock; split <;> rfl
@[simp] theorem withBlock_rings (p : Plane) (e : Nat) (b : Block) : (withBlock p e b).rings = p.rings := by unfold withBlock; split <;> rfl
@[simp] theorem withBlock_wins (p : Plane) (e : Nat) (b : Block) : (withBlock p e b).wins = p.wins := by unfold withBlock; split <;> rfl
@[simp] theorem withBlock_banks (p : Plane) (e : Nat) (b : Block) : (withBlock p e b).banks = p.banks := by unfold withBlock; split <;> rfl
@[simp] theorem withBlock_graph (p : Plane) (e : Nat) (b : Block) : (withBlock p e b).graph = p.graph := by unfold withBlock; split <;> rfl
@[simp] theorem withBlock_node (p : Plane) (e : Nat) (b : Block) : (withBlock p e b).node = p.node := by unfold withBlock; split <;> rfl
@[simp] theorem withBlock_rid (p : Plane) (e : Nat) (b : Block) : (withBlock p e b).rid = p.rid := by unfold withBlock; split <;> rfl
@[simp] theorem withBlock_whole (p : Plane) (e : Nat) (b : Block) : (withBlock p e b).whole = p.whole := by unfold withBlock; split <;> rfl
@[simp] theorem withBlock_inSeg (p : Plane) (e : Nat) (b : Block) : (withBlock p e b).inSeg = p.inSeg := by unfold withBlock; split <;> rfl
@[simp] theorem withBlock_eots (p : Plane) (e : Nat) (b : Block) : (withBlock p e b).eots = p.eots := by unfold withBlock; split <;> rfl
@[simp] theorem withBlock_poisoned (p : Plane) (e : Nat) (b : Block) : (withBlock p e b).poisoned = p.poisoned := by unfold withBlock; split <;> rfl
@[simp] theorem withBlock_gated (p : Plane) (e : Nat) (b : Block) : (withBlock p e b).gated = p.gated := by unfold withBlock; split <;> rfl
@[simp] theorem modElemIn_pst (p : Plane) (e i : Nat) (g : Elem → Elem) : (modElemIn p e i g).pst = p.pst := by unfold modElemIn; split <;> simp
@[simp] theorem modElemIn_late (p : Plane) (e i : Nat) (g : Elem → Elem) : (modElemIn p e i g).late = p.late := by unfold modElemIn; split <;> simp
@[simp] theorem modElemIn_cext (p : Plane) (e i : Nat) (g : Elem → Elem) : (modElemIn p e i g).cext = p.cext := by unfold modElemIn; split <;> simp
@[simp] theorem modElemIn_rorg (p : Plane) (e i : Nat) (g : Elem → Elem) : (modElemIn p e i g).rorg = p.rorg := by unfold modElemIn; split <;> simp
@[simp] theorem modElemIn_segg (p : Plane) (e i : Nat) (g : Elem → Elem) : (modElemIn p e i g).segg = p.segg := by unfold modElemIn; split <;> simp
@[simp] theorem modElemIn_rdsp (p : Plane) (e i : Nat) (g : Elem → Elem) : (modElemIn p e i g).rdsp = p.rdsp := by unfold modElemIn; split <;> simp
@[simp] theorem modElemIn_mepoch (p : Plane) (e i : Nat) (g : Elem → Elem) : (modElemIn p e i g).mepoch = p.mepoch := by unfold modElemIn; split <;> simp
@[simp] theorem modElemIn_rdva (p : Plane) (e i : Nat) (g : Elem → Elem) : (modElemIn p e i g).rdva = p.rdva := by unfold modElemIn; split <;> simp
@[simp] theorem modElemIn_route (p : Plane) (e i : Nat) (g : Elem → Elem) : (modElemIn p e i g).route = p.route := by unfold modElemIn; split <;> simp
@[simp] theorem modElemIn_salloc (p : Plane) (e i : Nat) (g : Elem → Elem) : (modElemIn p e i g).salloc = p.salloc := by unfold modElemIn; split <;> simp
@[simp] theorem modElemIn_reduce (p : Plane) (e i : Nat) (g : Elem → Elem) : (modElemIn p e i g).reduce = p.reduce := by unfold modElemIn; split <;> simp
@[simp] theorem modElemIn_lbuf (p : Plane) (e i : Nat) (g : Elem → Elem) : (modElemIn p e i g).lbuf = p.lbuf := by unfold modElemIn; split <;> simp
@[simp] theorem modElemIn_px8 (p : Plane) (e i : Nat) (g : Elem → Elem) : (modElemIn p e i g).px8 = p.px8 := by unfold modElemIn; split <;> simp
@[simp] theorem modElemIn_dcnt (p : Plane) (e i : Nat) (g : Elem → Elem) : (modElemIn p e i g).dcnt = p.dcnt := by unfold modElemIn; split <;> simp
@[simp] theorem modElemIn_acc0 (p : Plane) (e i : Nat) (g : Elem → Elem) : (modElemIn p e i g).acc0 = p.acc0 := by unfold modElemIn; split <;> simp
@[simp] theorem modElemIn_acc1 (p : Plane) (e i : Nat) (g : Elem → Elem) : (modElemIn p e i g).acc1 = p.acc1 := by unfold modElemIn; split <;> simp
@[simp] theorem modElemIn_rings (p : Plane) (e i : Nat) (g : Elem → Elem) : (modElemIn p e i g).rings = p.rings := by unfold modElemIn; split <;> simp
@[simp] theorem modElemIn_wins (p : Plane) (e i : Nat) (g : Elem → Elem) : (modElemIn p e i g).wins = p.wins := by unfold modElemIn; split <;> simp
@[simp] theorem modElemIn_banks (p : Plane) (e i : Nat) (g : Elem → Elem) : (modElemIn p e i g).banks = p.banks := by unfold modElemIn; split <;> simp
@[simp] theorem modElemIn_graph (p : Plane) (e i : Nat) (g : Elem → Elem) : (modElemIn p e i g).graph = p.graph := by unfold modElemIn; split <;> simp
@[simp] theorem modElemIn_node (p : Plane) (e i : Nat) (g : Elem → Elem) : (modElemIn p e i g).node = p.node := by unfold modElemIn; split <;> simp
@[simp] theorem modElemIn_rid (p : Plane) (e i : Nat) (g : Elem → Elem) : (modElemIn p e i g).rid = p.rid := by unfold modElemIn; split <;> simp
@[simp] theorem modElemIn_whole (p : Plane) (e i : Nat) (g : Elem → Elem) : (modElemIn p e i g).whole = p.whole := by unfold modElemIn; split <;> simp
@[simp] theorem modElemIn_inSeg (p : Plane) (e i : Nat) (g : Elem → Elem) : (modElemIn p e i g).inSeg = p.inSeg := by unfold modElemIn; split <;> simp
@[simp] theorem modElemIn_eots (p : Plane) (e i : Nat) (g : Elem → Elem) : (modElemIn p e i g).eots = p.eots := by unfold modElemIn; split <;> simp
@[simp] theorem modElemIn_poisoned (p : Plane) (e i : Nat) (g : Elem → Elem) : (modElemIn p e i g).poisoned = p.poisoned := by unfold modElemIn; split <;> simp
@[simp] theorem modElemIn_gated (p : Plane) (e i : Nat) (g : Elem → Elem) : (modElemIn p e i g).gated = p.gated := by unfold modElemIn; split <;> simp

@[simp] theorem blockOf_withBlock (p : Plane) (e : Nat) (b : Block) (h : e < 3) : blockOf (withBlock p e b) e = some b := by
  match e, h with
  | 0, _ => rfl
  | 1, _ => rfl
  | 2, _ => rfl
theorem blockOf_withBlock_ne (p : Plane) {d e : Nat} (b : Block) (h : d ≠ e) : blockOf (withBlock p e b) d = blockOf p d := by
  unfold withBlock
  split <;> unfold blockOf <;> split <;> first | rfl | exact absurd rfl h
theorem blockOf_lt {p : Plane} {e : Nat} {b : Block} (h : blockOf p e = some b) : e < 3 := by
  match e with
  | 0 => decide
  | 1 => decide
  | 2 => decide
  | n + 3 => simp [blockOf] at h
/-- An element after its own change. -/
theorem elemIn_modElemIn (p : Plane) (e i : Nat) (g : Elem → Elem) : elemIn (modElemIn p e i g) e i = (elemIn p e i).map g := by
  unfold elemIn modElemIn
  cases h : blockOf p e with
  | none => simp [h]
  | some b => simp [blockOf_withBlock _ _ _ (blockOf_lt h), modAt_get]
/-- The other elements stay. -/
theorem elemIn_modElemIn_ne (p : Plane) {e i d j : Nat} (g : Elem → Elem) (h : d ≠ e ∨ j ≠ i) : elemIn (modElemIn p e i g) d j = elemIn p d j := by
  unfold elemIn modElemIn
  cases hb : blockOf p e with
  | none => rfl
  | some b =>
    by_cases hd : d = e
    · subst hd
      simp [blockOf_withBlock _ _ _ (blockOf_lt hb), hb, modAt_get_ne _ _ (h.resolve_left (fun k => k rfl))]
    · simp [blockOf_withBlock_ne _ _ hd]
/-- An element of the state after its own change. -/
theorem elemIn_modElem (s : State) (x : Site) (b : Bool) (g : Elem → Elem) :
    elemIn (planeOf (tileAt (modElem s x b g) x.tile) b) x.eng x.slot = (elemIn (planeOf (tileAt s x.tile) b) x.eng x.slot).map g := by
  unfold modElem
  rw [planeOf_modPlane, elemIn_modElemIn]

@[simp] theorem setOpq_word (e : Elem) (o : Opnd) (q : List Token) : (setOpq e o q).word = e.word := by cases o <;> rfl
@[simp] theorem setOpq_late (e : Elem) (o : Opnd) (q : List Token) : (setOpq e o q).late = e.late := by cases o <;> rfl
@[simp] theorem setOpq_k0 (e : Elem) (o : Opnd) (q : List Token) : (setOpq e o q).k0 = e.k0 := by cases o <;> rfl
@[simp] theorem setOpq_k1 (e : Elem) (o : Opnd) (q : List Token) : (setOpq e o q).k1 = e.k1 := by cases o <;> rfl
@[simp] theorem setOpq_s (e : Elem) (o : Opnd) (q : List Token) : (setOpq e o q).s = e.s := by cases o <;> rfl
@[simp] theorem setOpq_sInit (e : Elem) (o : Opnd) (q : List Token) : (setOpq e o q).sInit = e.sInit := by cases o <;> rfl
@[simp] theorem setOpq_nf (e : Elem) (o : Opnd) (q : List Token) : (setOpq e o q).nf = e.nf := by cases o <;> rfl
@[simp] theorem setOpq_lfsr (e : Elem) (o : Opnd) (q : List Token) : (setOpq e o q).lfsr = e.lfsr := by cases o <;> rfl
@[simp] theorem setOpq_fflg (e : Elem) (o : Opnd) (q : List Token) : (setOpq e o q).fflg = e.fflg := by cases o <;> rfl
@[simp] theorem setOpq_dk0 (e : Elem) (o : Opnd) (q : List Token) : (setOpq e o q).dk0 = e.dk0 := by cases o <;> rfl
@[simp] theorem setOpq_dk1 (e : Elem) (o : Opnd) (q : List Token) : (setOpq e o q).dk1 = e.dk1 := by cases o <;> rfl
@[simp] theorem setOpq_dk2 (e : Elem) (o : Opnd) (q : List Token) : (setOpq e o q).dk2 = e.dk2 := by cases o <;> rfl
@[simp] theorem setOpq_rbkt (e : Elem) (o : Opnd) (q : List Token) : (setOpq e o q).rbkt = e.rbkt := by cases o <;> rfl
@[simp] theorem setOpq_rslots (e : Elem) (o : Opnd) (q : List Token) : (setOpq e o q).rslots = e.rslots := by cases o <;> rfl
@[simp] theorem setOpq_rrate (e : Elem) (o : Opnd) (q : List Token) : (setOpq e o q).rrate = e.rrate := by cases o <;> rfl
@[simp] theorem setOpq_rqp (e : Elem) (o : Opnd) (q : List Token) : (setOpq e o q).rqp = e.rqp := by cases o <;> rfl
@[simp] theorem setOpq_outs (e : Elem) (o : Opnd) (q : List Token) : (setOpq e o q).outs = e.outs := by cases o <;> rfl
@[simp] theorem setOpq_awst (e : Elem) (o : Opnd) (q : List Token) : (setOpq e o q).awst = e.awst := by cases o <;> rfl
@[simp] theorem setOpq_due (e : Elem) (o : Opnd) (q : List Token) : (setOpq e o q).due = e.due := by cases o <;> rfl
@[simp] theorem setOpq_sw (e : Elem) (o : Opnd) (q : List Token) : (setOpq e o q).sw = e.sw := by cases o <;> rfl
@[simp] theorem setOpq_wait (e : Elem) (o : Opnd) (q : List Token) : (setOpq e o q).wait = e.wait := by cases o <;> rfl
@[simp] theorem setOpq_bar (e : Elem) (o : Opnd) (q : List Token) : (setOpq e o q).bar = e.bar := by cases o <;> rfl
@[simp] theorem setOpq_snaps (e : Elem) (o : Opnd) (q : List Token) : (setOpq e o q).snaps = e.snaps := by cases o <;> rfl
@[simp] theorem setOpq_xm (e : Elem) (o : Opnd) (q : List Token) : (setOpq e o q).xm = e.xm := by cases o <;> rfl
@[simp] theorem setDk_word (e : Elem) (k v : Nat) : (setDk e k v).word = e.word := by unfold setDk; split <;> rfl
@[simp] theorem setDk_late (e : Elem) (k v : Nat) : (setDk e k v).late = e.late := by unfold setDk; split <;> rfl
@[simp] theorem setDk_k0 (e : Elem) (k v : Nat) : (setDk e k v).k0 = e.k0 := by unfold setDk; split <;> rfl
@[simp] theorem setDk_k1 (e : Elem) (k v : Nat) : (setDk e k v).k1 = e.k1 := by unfold setDk; split <;> rfl
@[simp] theorem setDk_s (e : Elem) (k v : Nat) : (setDk e k v).s = e.s := by unfold setDk; split <;> rfl
@[simp] theorem setDk_sInit (e : Elem) (k v : Nat) : (setDk e k v).sInit = e.sInit := by unfold setDk; split <;> rfl
@[simp] theorem setDk_nf (e : Elem) (k v : Nat) : (setDk e k v).nf = e.nf := by unfold setDk; split <;> rfl
@[simp] theorem setDk_lfsr (e : Elem) (k v : Nat) : (setDk e k v).lfsr = e.lfsr := by unfold setDk; split <;> rfl
@[simp] theorem setDk_fflg (e : Elem) (k v : Nat) : (setDk e k v).fflg = e.fflg := by unfold setDk; split <;> rfl
@[simp] theorem setDk_qa (e : Elem) (k v : Nat) : (setDk e k v).qa = e.qa := by unfold setDk; split <;> rfl
@[simp] theorem setDk_qb (e : Elem) (k v : Nat) : (setDk e k v).qb = e.qb := by unfold setDk; split <;> rfl
@[simp] theorem setDk_qc (e : Elem) (k v : Nat) : (setDk e k v).qc = e.qc := by unfold setDk; split <;> rfl
@[simp] theorem setDk_qp (e : Elem) (k v : Nat) : (setDk e k v).qp = e.qp := by unfold setDk; split <;> rfl
@[simp] theorem setDk_rbkt (e : Elem) (k v : Nat) : (setDk e k v).rbkt = e.rbkt := by unfold setDk; split <;> rfl
@[simp] theorem setDk_rslots (e : Elem) (k v : Nat) : (setDk e k v).rslots = e.rslots := by unfold setDk; split <;> rfl
@[simp] theorem setDk_rrate (e : Elem) (k v : Nat) : (setDk e k v).rrate = e.rrate := by unfold setDk; split <;> rfl
@[simp] theorem setDk_rqp (e : Elem) (k v : Nat) : (setDk e k v).rqp = e.rqp := by unfold setDk; split <;> rfl
@[simp] theorem setDk_outs (e : Elem) (k v : Nat) : (setDk e k v).outs = e.outs := by unfold setDk; split <;> rfl
@[simp] theorem setDk_awst (e : Elem) (k v : Nat) : (setDk e k v).awst = e.awst := by unfold setDk; split <;> rfl
@[simp] theorem setDk_due (e : Elem) (k v : Nat) : (setDk e k v).due = e.due := by unfold setDk; split <;> rfl
@[simp] theorem setDk_sw (e : Elem) (k v : Nat) : (setDk e k v).sw = e.sw := by unfold setDk; split <;> rfl
@[simp] theorem setDk_wait (e : Elem) (k v : Nat) : (setDk e k v).wait = e.wait := by unfold setDk; split <;> rfl
@[simp] theorem setDk_bar (e : Elem) (k v : Nat) : (setDk e k v).bar = e.bar := by unfold setDk; split <;> rfl
@[simp] theorem setDk_snaps (e : Elem) (k v : Nat) : (setDk e k v).snaps = e.snaps := by unfold setDk; split <;> rfl
@[simp] theorem setDk_xm (e : Elem) (k v : Nat) : (setDk e k v).xm = e.xm := by unfold setDk; split <;> rfl
@[simp] theorem opqOf_setOpq (e : Elem) (o : Opnd) (q : List Token) : opqOf (setOpq e o q) o = q := by cases o <;> rfl
theorem opqOf_setOpq_ne (e : Elem) {m n : Opnd} (q : List Token) (h : m ≠ n) : opqOf (setOpq e n q) m = opqOf e m := by cases m <;> cases n <;> first | rfl | exact absurd rfl h

end Sys2Proof.Machine
end

