-- ==== Sys2Proof/Laws/Fire.lean ====
section
/-! SUPPORT. What a turn of an element comes to, once the rules that hold for every instruction let it fire. -/

namespace Sys2Proof.Machine

open Sys2Proof Sys2Proof.Safety

theorem HasTurn.fire {i : Instr} {f : Fields} {s : State} {c : Ctx} (act : State → Ctx → Res) (h : HasTurn i f s c) :
    fire i f act s = .next (settle s c (act s c)) := by
  obtain ⟨h1, h2, h3, h4⟩ := h
  simp [Machine.fire, h1, h2, h3, h4]

/-- The context of an element, part by part. -/
theorem ctxAt_spec {s : State} {x : Site} {i : Instr} {f : Fields} {c : Ctx} (h : ctxAt s x i f = some c) :
    c.x = x ∧ c.i = i ∧ c.f = f ∧ c.t = tileAt s x.tile ∧ c.b = (tileAt s x.tile).planeB ∧ c.p = activePlane (tileAt s x.tile) ∧
    elemIn (activePlane (tileAt s x.tile)) x.eng x.slot = some c.e ∧ c.lid = (tileAt s x.tile).tlease.toNat ∧
    c.l = leaseAt s (tileAt s x.tile).tlease.toNat ∧ c.ops = WellFormed.tokenOperands i := by
  simp only [ctxAt] at h
  cases he : elemIn (activePlane (tileAt s x.tile)) x.eng x.slot with
  | none => simp [he] at h
  | some e =>
    simp only [he, Option.some.injEq] at h
    subst h
    simp

theorem ctxAt_f {s : State} {x : Site} {i : Instr} {f : Fields} {c : Ctx} (h : ctxAt s x i f = some c) : c.f = f := (ctxAt_spec h).2.2.1
theorem ctxAt_i {s : State} {x : Site} {i : Instr} {f : Fields} {c : Ctx} (h : ctxAt s x i f = some c) : c.i = i := (ctxAt_spec h).2.1
theorem ctxAt_x {s : State} {x : Site} {i : Instr} {f : Fields} {c : Ctx} (h : ctxAt s x i f = some c) : c.x = x := (ctxAt_spec h).1

/-- The head of a token operand. -/
theorem ctxAt_head {s : State} {x : Site} {i : Instr} {f : Fields} {c : Ctx} (h : ctxAt s x i f = some c) (o : Opnd) (ho : o ∈ WellFormed.tokenOperands i) :
    c.head o = headOf (activePlane (tileAt s x.tile)) x.eng x.slot c.e o := by
  simp only [ctxAt] at h
  cases he : elemIn (activePlane (tileAt s x.tile)) x.eng x.slot with
  | none => simp [he] at h
  | some e =>
    simp only [he, Option.some.injEq] at h
    subst h
    cases o <;> simp [Ctx.head, ho]

theorem HasTurn.f {i : Instr} {f : Fields} {s : State} {c : Ctx} (h : HasTurn i f s c) : c.f = f := ctxAt_f h.1
theorem HasTurn.i {i : Instr} {f : Fields} {s : State} {c : Ctx} (h : HasTurn i f s c) : c.i = i := ctxAt_i h.1

/-- The common firing rules of an element that may execute. -/
theorem MayExecute.stdWith {c : Ctx} (needs : Ctx → List (Nat × Target)) (g : State → Ctx → Res) (s : State) (h : MayExecute c)
    (hd : HoldsDemands c (needs c)) : stdWith needs g s c = g s c := by
  obtain ⟨hh, hdue, hp, hs⟩ := h
  unfold Machine.stdWith
  by_cases e : c.ops = []
  · simp only [e, List.isEmpty_nil, if_true, hdue e, Bool.not_true, Bool.false_eq_true, if_false]
    rw [if_neg]
    simpa [HoldsDemands] using hd
  · have hne : c.ops.isEmpty = false := by simpa using e
    obtain ⟨o, r, ho⟩ : ∃ o r, c.ops = o :: r := List.exists_cons_of_ne_nil e
    have h1 : (c.ops.map c.head).all (·.isNone) = false := by
      obtain ⟨t, ht, _⟩ := hh o (by simp [ho])
      simp [ho, ht]
    have h2 : (c.ops.map c.head).any (fun h => match h with | some t => isCtl t | none => false) = false := by
      simp only [List.any_eq_false, List.mem_map]
      rintro x ⟨o, ho, rfl⟩
      obtain ⟨t, ht, hc⟩ := hh o ho
      simp [ht, hc]
    have h3 : (c.ops.map c.head).any (·.isNone) = false := by
      simp only [List.any_eq_false, List.mem_map]
      rintro x ⟨o, ho, rfl⟩
      obtain ⟨t, ht, _⟩ := hh o ho
      simp [ht]
    have h4 : hasDemands c.p c.x c.e (needs c) = true := hd
    simp only [hne, h1, h3, hp, hs, h4, Bool.not_true, Bool.false_eq_true, if_false]
    rw [if_neg (by rw [Bool.not_eq_true]; exact h2)]

theorem Fires.std {i : Instr} {f : Fields} {s : State} {c : Ctx} (g : State → Ctx → Res) (h : Fires i f s c) :
    fire i f (std g) s = .next (settle s c (g s c)) := by
  rw [HasTurn.fire _ h.1, Machine.std, MayExecute.stdWith Ctx.outs g s h.2.1 h.2.2]

/-- A decision to fire without floating flags, every demand held, is carried out. -/
theorem settle_done {s : State} {c : Ctx} {e : Eff} (hd : HoldsDemands c e.needs) (hf : e.fls = []) : settle s c (.done e) = commit s c e := by
  have h : hasDemands c.p c.x c.e e.needs = true := hd
  simp [settle, h, hf, enabledLane]

/-- The same with flags of which none is enabled. -/
theorem settle_flags {s : State} {c : Ctx} {e : Eff} (hd : HoldsDemands c e.needs) (hf : NoException c e.fls) : settle s c (.done e) = commit s c e := by
  have h : hasDemands c.p c.x c.e e.needs = true := hd
  have h2 : enabledLane c.l.rcd.fpen e.fls = none := hf
  simp [settle, h, h2]

theorem needs_emitAll (c : Ctx) (w : Word) (e : Eff) (h : e.emits = emitAll c w) (r : e.reserve = []) : e.needs = c.outs := by
  simp [Eff.needs, h, r, emitAll, Function.comp_def]

/-- An instruction that computes one word. -/
theorem Fires.pureFire {i : Instr} {f : Fields} {s : State} {c : Ctx} (ws : Bool) (g : Ctx → Word) (h : Fires i f s c) :
    pureFire i f ws g s = .next (firedWord s c (g c) ws) := by
  unfold Machine.pureFire
  rw [Fires.std _ h]
  unfold result firedWord
  rw [settle_done _ rfl]
  rw [needs_emitAll c (g c) _ rfl rfl]
  exact h.2.2

end Sys2Proof.Machine
end

