-- ==== Sys2Proof/Laws/PerInstr.lean ====
section
/-! SUPPORT. Per instruction: the opcode of a well-formed instruction leads back to it. -/

namespace Sys2Proof.Laws.Encoding

open Sys2Proof

/-- The opcode fits its eight bits, and the opcode with the fields chooses the instruction again. -/
def Statement (i : Instr) : Prop :=
  ∀ opc f, WellFormed.opcOf i = some opc → WellFormed.instrFields i = some f → WellFormed.wellFormed i = true → opc < 256 ∧ instrOf opc f = some i

/-- What a well-formed instruction tells of its form. -/
theorem form_of_wellFormed {i : Instr} (h : WellFormed.wellFormed i = true) :
    ∃ g, WellFormed.form i = some g ∧ g.mdOk = true ∧ g.imm = none := by
  have key : ∀ e, WellFormed.wellFormedOn e i = true → ∃ g, WellFormed.form i = some g ∧ g.mdOk = true ∧ g.imm = none := by
    intro e he
    unfold WellFormed.wellFormedOn WellFormed.wordFlaw at he
    cases hg : WellFormed.form i with
    | none => simp [hg] at he
    | some g =>
      cases hf : WellFormed.instrFields i with
      | none => simp [hg, hf] at he
      | some f =>
        refine ⟨g, rfl, ?_⟩
        simp only [hg, hf, Option.isNone_iff_eq_none] at he
        cases hm : g.mdOk with
        | false =>
          simp only [hm, Bool.not_false, if_true] at he
          split_ifs at he
        | true =>
          cases hi : g.imm with
          | none => exact ⟨rfl, rfl⟩
          | some x =>
            simp only [hm, hi] at he
            split_ifs at he
  unfold WellFormed.wellFormed at h
  simp only [Bool.or_eq_true] at h
  rcases h with (h | h) | h <;> exact key _ h

theorem other {i : Instr} (opc : Nat) (f : Fields) (h1 : WellFormed.opcOf i = some opc) (h2 : WellFormed.instrFields i = some f) (hl : opc < 256)
    (hd : instrOf opc f = some i) : Statement i := by
  intro opc' f' e1 e2 _
  rw [h1] at e1; rw [h2] at e2
  cases e1; cases e2
  exact ⟨hl, hd⟩

theorem event {i : Instr} (h : WellFormed.opcOf i = none) : Statement i := by
  intro opc f e
  rw [h] at e; cases e

theorem opOf_imm (f : Fields) (n : Nat) (h : WellFormed.bankpImm f n = none) : f.imm.extractLsb' 0 2 = BitVec.ofNat 2 n := by
  simp only [WellFormed.bankpImm, WellFormed.resIf] at h
  have e : f.imm.toNat = n := by
    by_contra hne
    simp [hne] at h
  apply BitVec.eq_of_toNat_eq
  simp [BitVec.extractLsb'_toNat, e]

theorem chosen {i : Instr} (opc : Nat) (f : Fields) (h1 : WellFormed.opcOf i = some opc) (h2 : WellFormed.instrFields i = some f) (hl : opc < 256)
    (hd : ∀ g, WellFormed.form i = some g → g.mdOk = true → g.imm = none → instrOf opc f = some i) : Statement i := by
  intro opc' f' e1 e2 hw
  rw [h1] at e1; rw [h2] at e2
  cases e1; cases e2
  obtain ⟨g, hg, hm, hi⟩ := form_of_wellFormed hw
  exact ⟨hl, hd g hg hm hi⟩

theorem mov (f : Fields) : Statement (.mov f) := other 0x01 f rfl rfl (by decide) rfl
theorem fan (f : Fields) : Statement (.fan f) := other 0x02 f rfl rfl (by decide) rfl
theorem steer (f : Fields) : Statement (.steer f) := other 0x03 f rfl rfl (by decide) rfl
theorem merge (f : Fields) : Statement (.merge f) := chosen 0x04 f rfl rfl (by decide) fun g hg hm _ => by
  have h : f.md.getLsbD 5 = false := by
    cases hg
    cases hk : f.md.getLsbD 5 with
    | false => rfl
    | true => exact absurd hm (by simp only [WellFormed.bit, hk]; simp)
  simp only [instrOf, h]
  rfl

theorem mergep (f : Fields) : Statement (.mergep f) := chosen 0x04 f rfl rfl (by decide) fun g hg hm _ => by
  have h : f.md.getLsbD 5 = true := by
    cases hg
    cases hk : f.md.getLsbD 5 with
    | true => rfl
    | false => exact absurd hm (by simp only [WellFormed.bit, hk]; simp)
  simp only [instrOf, h]
  rfl

theorem gate (f : Fields) : Statement (.gate f) := other 0x05 f rfl rfl (by decide) rfl
theorem drop (f : Fields) : Statement (.drop f) := other 0x06 f rfl rfl (by decide) rfl
theorem carry (f : Fields) : Statement (.carry f) := chosen 0x07 f rfl rfl (by decide) fun g hg hm _ => by
  have h : f.md.getLsbD 5 = false := by
    cases hg
    cases hk : f.md.getLsbD 5 with
    | false => rfl
    | true => exact absurd hm (by simp only [WellFormed.bit, hk]; simp)
  simp only [instrOf, h]
  rfl

theorem invar (f : Fields) : Statement (.invar f) := chosen 0x07 f rfl rfl (by decide) fun g hg hm _ => by
  have h : f.md.getLsbD 5 = true := by
    cases hg
    cases hk : f.md.getLsbD 5 with
    | true => rfl
    | false => exact absurd hm (by simp only [WellFormed.bit, hk]; simp)
  simp only [instrOf, h]
  rfl

theorem count (f : Fields) : Statement (.count f) := chosen 0x08 f rfl rfl (by decide) fun g hg hm _ => by
  have h : f.md.getLsbD 5 = false := by
    cases hg
    cases hk : f.md.getLsbD 5 with
    | false => rfl
    | true => exact absurd hm (by simp only [WellFormed.bit, hk]; simp)
  simp only [instrOf, h]
  rfl

theorem rpt (f : Fields) : Statement (.rpt f) := chosen 0x08 f rfl rfl (by decide) fun g hg hm _ => by
  have h : f.md.getLsbD 5 = true := by
    cases hg
    cases hk : f.md.getLsbD 5 with
    | true => rfl
    | false => exact absurd hm (by simp only [WellFormed.bit, hk]; simp)
  simp only [instrOf, h]
  rfl

theorem emitc (f : Fields) : Statement (.emitc f) := chosen 0x09 f rfl rfl (by decide) fun g hg hm _ => by
  have h : f.md.getLsbD 5 = false := by
    cases hg
    cases hk : f.md.getLsbD 5 with
    | false => rfl
    | true => exact absurd hm (by simp only [WellFormed.bit, hk]; simp)
  simp only [instrOf, h]
  rfl

theorem testc (f : Fields) : Statement (.testc f) := chosen 0x09 f rfl rfl (by decide) fun g hg hm _ => by
  have h : f.md.getLsbD 5 = true := by
    cases hg
    cases hk : f.md.getLsbD 5 with
    | true => rfl
    | false => exact absurd hm (by simp only [WellFormed.bit, hk]; simp)
  simp only [instrOf, h]
  rfl

theorem mark (f : Fields) : Statement (.mark f) := chosen 0x0a f rfl rfl (by decide) fun g hg hm _ => by
  have h : f.md.getLsbD 5 = false := by
    cases hg
    cases hk : f.md.getLsbD 5 with
    | false => rfl
    | true => exact absurd hm (by simp only [WellFormed.bit, hk]; simp)
  simp only [instrOf, h]
  rfl

theorem strip (f : Fields) : Statement (.strip f) := chosen 0x0a f rfl rfl (by decide) fun g hg hm _ => by
  have h : f.md.getLsbD 5 = true := by
    cases hg
    cases hk : f.md.getLsbD 5 with
    | true => rfl
    | false => exact absurd hm (by simp only [WellFormed.bit, hk]; simp)
  simp only [instrOf, h]
  rfl

theorem bub (f : Fields) : Statement (.bub f) := other 0x0b f rfl rfl (by decide) rfl
theorem seqt (f : Fields) : Statement (.seqt f) := chosen 0x0c f rfl rfl (by decide) fun g hg hm _ => by
  have h : f.md.getLsbD 5 = false := by
    cases hg
    cases hk : f.md.getLsbD 5 with
    | false => rfl
    | true => exact absurd hm (by simp only [WellFormed.bit, hk]; simp)
  simp only [instrOf, h]
  rfl

theorem reord (f : Fields) : Statement (.reord f) := chosen 0x0c f rfl rfl (by decide) fun g hg hm _ => by
  have h : f.md.getLsbD 5 = true := by
    cases hg
    cases hk : f.md.getLsbD 5 with
    | true => rfl
    | false => exact absurd hm (by simp only [WellFormed.bit, hk]; simp)
  simp only [instrOf, h]
  rfl

theorem intx (f : Fields) : Statement (.intx f) := chosen 0x0d f rfl rfl (by decide) fun g hg hm _ => by
  have h : f.md.getLsbD 5 = false := by
    cases hg
    cases hk : f.md.getLsbD 5 with
    | false => rfl
    | true => exact absurd hm (by simp only [WellFormed.bit, hk]; simp)
  simp only [instrOf, h]
  rfl

theorem union (f : Fields) : Statement (.union f) := chosen 0x0d f rfl rfl (by decide) fun g hg hm _ => by
  have h : f.md.getLsbD 5 = true := by
    cases hg
    cases hk : f.md.getLsbD 5 with
    | true => rfl
    | false => exact absurd hm (by simp only [WellFormed.bit, hk]; simp)
  simp only [instrOf, h]
  rfl

theorem route (f : Fields) : Statement (.route f) := other 0x0e f rfl rfl (by decide) rfl
theorem add (f : Fields) : Statement (.add f) := other 0x10 f rfl rfl (by decide) rfl
theorem sub (f : Fields) : Statement (.sub f) := other 0x11 f rfl rfl (by decide) rfl
theorem mul (f : Fields) : Statement (.mul f) := other 0x12 f rfl rfl (by decide) rfl
theorem mulh (f : Fields) : Statement (.mulh f) := other 0x13 f rfl rfl (by decide) rfl
theorem mad (f : Fields) : Statement (.mad f) := other 0x14 f rfl rfl (by decide) rfl
theorem min (f : Fields) : Statement (.min f) := other 0x15 f rfl rfl (by decide) rfl
theorem max (f : Fields) : Statement (.max f) := other 0x16 f rfl rfl (by decide) rfl
theorem abs (f : Fields) : Statement (.abs f) := other 0x17 f rfl rfl (by decide) rfl
theorem neg (f : Fields) : Statement (.neg f) := other 0x18 f rfl rfl (by decide) rfl
theorem clamp (f : Fields) : Statement (.clamp f) := other 0x19 f rfl rfl (by decide) rfl
theorem and (f : Fields) : Statement (.and f) := other 0x20 f rfl rfl (by decide) rfl
theorem or (f : Fields) : Statement (.or f) := other 0x21 f rfl rfl (by decide) rfl
theorem xor (f : Fields) : Statement (.xor f) := other 0x22 f rfl rfl (by decide) rfl
theorem andn (f : Fields) : Statement (.andn f) := other 0x23 f rfl rfl (by decide) rfl
theorem not (f : Fields) : Statement (.not f) := other 0x24 f rfl rfl (by decide) rfl
theorem shl (f : Fields) : Statement (.shl f) := other 0x25 f rfl rfl (by decide) rfl
theorem shr (f : Fields) : Statement (.shr f) := other 0x26 f rfl rfl (by decide) rfl
theorem sar (f : Fields) : Statement (.sar f) := other 0x27 f rfl rfl (by decide) rfl
theorem rot (f : Fields) : Statement (.rot f) := other 0x28 f rfl rfl (by decide) rfl
theorem clz (f : Fields) : Statement (.clz f) := other 0x29 f rfl rfl (by decide) rfl
theorem popc (f : Fields) : Statement (.popc f) := other 0x2a f rfl rfl (by decide) rfl
theorem brev (f : Fields) : Statement (.brev f) := other 0x2b f rfl rfl (by decide) rfl
theorem ext (f : Fields) : Statement (.ext f) := other 0x2c f rfl rfl (by decide) rfl
theorem ins (f : Fields) : Statement (.ins f) := other 0x2d f rfl rfl (by decide) rfl
theorem cmp (f : Fields) : Statement (.cmp f) := other 0x30 f rfl rfl (by decide) rfl
theorem sel (f : Fields) : Statement (.sel f) := other 0x31 f rfl rfl (by decide) rfl
theorem addr (f : Fields) : Statement (.addr f) := other 0x32 f rfl rfl (by decide) rfl
theorem wid (f : Fields) : Statement (.wid f) := other 0x33 f rfl rfl (by decide) rfl
theorem lxy (f : Fields) : Statement (.lxy f) := other 0x34 f rfl rfl (by decide) rfl
theorem hash (f : Fields) : Statement (.hash f) := other 0x35 f rfl rfl (by decide) rfl
theorem fadd (f : Fields) : Statement (.fadd f) := other 0x40 f rfl rfl (by decide) rfl
theorem fsub (f : Fields) : Statement (.fsub f) := other 0x41 f rfl rfl (by decide) rfl
theorem fmul (f : Fields) : Statement (.fmul f) := other 0x42 f rfl rfl (by decide) rfl
theorem ffma (f : Fields) : Statement (.ffma f) := other 0x43 f rfl rfl (by decide) rfl
theorem fmin (f : Fields) : Statement (.fmin f) := other 0x44 f rfl rfl (by decide) rfl
theorem fmax (f : Fields) : Statement (.fmax f) := other 0x45 f rfl rfl (by decide) rfl
theorem fabs (f : Fields) : Statement (.fabs f) := other 0x46 f rfl rfl (by decide) rfl
theorem fneg (f : Fields) : Statement (.fneg f) := other 0x47 f rfl rfl (by decide) rfl
theorem fcmp (f : Fields) : Statement (.fcmp f) := other 0x48 f rfl rfl (by decide) rfl
theorem fscale (f : Fields) : Statement (.fscale f) := other 0x49 f rfl rfl (by decide) rfl
theorem fclass (f : Fields) : Statement (.fclass f) := other 0x4a f rfl rfl (by decide) rfl
theorem fexp2 (f : Fields) : Statement (.fexp2 f) := other 0x50 f rfl rfl (by decide) rfl
theorem flog2 (f : Fields) : Statement (.flog2 f) := other 0x51 f rfl rfl (by decide) rfl
theorem frcp (f : Fields) : Statement (.frcp f) := other 0x52 f rfl rfl (by decide) rfl
theorem frsq (f : Fields) : Statement (.frsq f) := other 0x53 f rfl rfl (by decide) rfl
theorem fsqrt (f : Fields) : Statement (.fsqrt f) := other 0x54 f rfl rfl (by decide) rfl
theorem cvt (f : Fields) : Statement (.cvt f) := other 0x60 f rfl rfl (by decide) rfl
theorem cvtsr (f : Fields) : Statement (.cvtsr f) := other 0x61 f rfl rfl (by decide) rfl
theorem pkpx (f : Fields) : Statement (.pkpx f) := other 0x62 f rfl rfl (by decide) rfl
theorem mxq (f : Fields) : Statement (.mxq f) := other 0x63 f rfl rfl (by decide) rfl
theorem mxdq (f : Fields) : Statement (.mxdq f) := other 0x64 f rfl rfl (by decide) rfl
theorem amaxv (f : Fields) : Statement (.amaxv f) := other 0x65 f rfl rfl (by decide) rfl
theorem lred (f : Fields) : Statement (.lred f) := other 0x70 f rfl rfl (by decide) rfl
theorem lscan (f : Fields) : Statement (.lscan f) := other 0x71 f rfl rfl (by decide) rfl
theorem lshuf (f : Fields) : Statement (.lshuf f) := other 0x72 f rfl rfl (by decide) rfl
theorem lbcast (f : Fields) : Statement (.lbcast f) := other 0x73 f rfl rfl (by decide) rfl
theorem lrot (f : Fields) : Statement (.lrot f) := other 0x74 f rfl rfl (by decide) rfl
theorem dot (f : Fields) : Statement (.dot f) := other 0x75 f rfl rfl (by decide) rfl
theorem aclr (f : Fields) : Statement (.aclr f) := other 0x80 f rfl rfl (by decide) rfl
theorem mma (f : Fields) : Statement (.mma f) := chosen 0x81 f rfl rfl (by decide) fun g hg hm _ => by
  have h : f.md.getLsbD 4 = false := by
    cases hg
    cases hk : f.md.getLsbD 4 with
    | false => rfl
    | true => exact absurd hm (by simp only [WellFormed.bit, hk]; simp)
  simp only [instrOf, h]
  rfl

theorem mmaRing (f : Fields) : Statement (.mmaRing f) := chosen 0x81 f rfl rfl (by decide) fun g hg hm _ => by
  have h : f.md.getLsbD 4 = true := by
    cases hg
    cases hk : f.md.getLsbD 4 with
    | true => rfl
    | false => exact absurd hm (by simp only [WellFormed.bit, hk]; simp)
  simp only [instrOf, h]
  rfl

theorem aaddv (f : Fields) : Statement (.aaddv f) := other 0x82 f rfl rfl (by decide) rfl
theorem aresc (f : Fields) : Statement (.aresc f) := other 0x83 f rfl rfl (by decide) rfl
theorem resolve (f : Fields) : Statement (.resolve f) := other 0x84 f rfl rfl (by decide) rfl
theorem acmp (f : Fields) : Statement (.acmp f) := other 0x85 f rfl rfl (by decide) rfl
theorem acmpq (f : Fields) : Statement (.acmpq f) := other 0x86 f rfl rfl (by decide) rfl
theorem aimg (f : Fields) : Statement (.aimg f) := other 0x87 f rfl rfl (by decide) rfl
theorem aldi (f : Fields) : Statement (.aldi f) := other 0x88 f rfl rfl (by decide) rfl
theorem astat (f : Fields) : Statement (.astat f) := other 0x89 f rfl rfl (by decide) rfl
theorem aredl (f : Fields) : Statement (.aredl f) := other 0x8a f rfl rfl (by decide) rfl
theorem rroot (f : Fields) : Statement (.rroot f) := other 0x8b f rfl rfl (by decide) rfl
theorem xsort (f : Fields) : Statement (.xsort f) := other 0x90 f rfl rfl (by decide) rfl
theorem xmerge (f : Fields) : Statement (.xmerge f) := other 0x91 f rfl rfl (by decide) rfl
theorem ldt (f : Fields) : Statement (.ldt f) := other 0xa0 f rfl rfl (by decide) rfl
theorem stt (f : Fields) : Statement (.stt f) := other 0xa1 f rfl rfl (by decide) rfl
theorem lds (f : Fields) : Statement (.lds f) := other 0xa2 f rfl rfl (by decide) rfl
theorem sts (f : Fields) : Statement (.sts f) := other 0xa3 f rfl rfl (by decide) rfl
theorem ldsi (f : Fields) : Statement (.ldsi f) := other 0xa4 f rfl rfl (by decide) rfl
theorem stsi (f : Fields) : Statement (.stsi f) := other 0xa5 f rfl rfl (by decide) rfl
theorem feset (f : Fields) : Statement (.feset f) := other 0xa6 f rfl rfl (by decide) rfl
theorem feclr (f : Fields) : Statement (.feclr f) := other 0xa7 f rfl rfl (by decide) rfl
theorem prefw (f : Fields) : Statement (.prefw f) := other 0xa8 f rfl rfl (by decide) rfl
theorem aadd (f : Fields) : Statement (.aadd f) := other 0xb0 f rfl rfl (by decide) rfl
theorem afadd (f : Fields) : Statement (.afadd f) := other 0xb1 f rfl rfl (by decide) rfl
theorem amin (f : Fields) : Statement (.amin f) := other 0xb2 f rfl rfl (by decide) rfl
theorem amax (f : Fields) : Statement (.amax f) := other 0xb3 f rfl rfl (by decide) rfl
theorem aand (f : Fields) : Statement (.aand f) := other 0xb4 f rfl rfl (by decide) rfl
theorem aor (f : Fields) : Statement (.aor f) := other 0xb5 f rfl rfl (by decide) rfl
theorem axor (f : Fields) : Statement (.axor f) := other 0xb6 f rfl rfl (by decide) rfl
theorem axch (f : Fields) : Statement (.axch f) := other 0xb7 f rfl rfl (by decide) rfl
theorem acas (f : Fields) : Statement (.acas f) := other 0xb8 f rfl rfl (by decide) rfl
theorem aincb (f : Fields) : Statement (.aincb f) := other 0xb9 f rfl rfl (by decide) rfl
theorem fence (f : Fields) : Statement (.fence f) := other 0xba f rfl rfl (by decide) rfl
theorem copy (f : Fields) : Statement (.copy f) := other 0xc0 f rfl rfl (by decide) rfl
theorem gath (f : Fields) : Statement (.gath f) := other 0xc1 f rfl rfl (by decide) rfl
theorem scat (f : Fields) : Statement (.scat f) := other 0xc2 f rfl rfl (by decide) rfl
theorem scata (f : Fields) : Statement (.scata f) := other 0xc3 f rfl rfl (by decide) rfl
theorem coll (f : Fields) : Statement (.coll f) := other 0xc4 f rfl rfl (by decide) rfl
theorem waitj (f : Fields) : Statement (.waitj f) := other 0xc5 f rfl rfl (by decide) rfl
theorem jstat (f : Fields) : Statement (.jstat f) := other 0xc6 f rfl rfl (by decide) rfl
theorem win (f : Fields) : Statement (.win f) := other 0xc7 f rfl rfl (by decide) rfl
theorem winadv (f : Fields) : Statement (.winadv f) := other 0xc8 f rfl rfl (by decide) rfl
theorem rpush (f : Fields) : Statement (.rpush f) := other 0xd0 f rfl rfl (by decide) rfl
theorem rpop (f : Fields) : Statement (.rpop f) := chosen 0xd1 f rfl rfl (by decide) fun g hg hm _ => by
  have h : f.md.getLsbD 0 = false := by
    cases hg
    cases hk : f.md.getLsbD 0 with
    | false => rfl
    | true => exact absurd hm (by simp only [WellFormed.bit, hk]; simp)
  simp only [instrOf, h]
  rfl

theorem rpopDisc (f : Fields) : Statement (.rpopDisc f) := chosen 0xd1 f rfl rfl (by decide) fun g hg hm _ => by
  have h : f.md.getLsbD 0 = true := by
    cases hg
    cases hk : f.md.getLsbD 0 with
    | true => rfl
    | false => exact absurd hm (by simp only [WellFormed.bit, hk]; simp)
  simp only [instrOf, h]
  rfl

theorem rstat (f : Fields) : Statement (.rstat f) := chosen 0xd2 f rfl rfl (by decide) fun g hg hm _ => by
  have h : f.md.getLsbD 0 = false := by
    cases hg
    cases hk : f.md.getLsbD 0 with
    | false => rfl
    | true => exact absurd hm (by simp only [WellFormed.bit, hk]; simp)
  simp only [instrOf, h]
  rfl

theorem rstatSet (f : Fields) : Statement (.rstatSet f) := chosen 0xd2 f rfl rfl (by decide) fun g hg hm _ => by
  have h : f.md.getLsbD 0 = true := by
    cases hg
    cases hk : f.md.getLsbD 0 with
    | true => rfl
    | false => exact absurd hm (by simp only [WellFormed.bit, hk]; simp)
  simp only [instrOf, h]
  rfl

theorem postc (f : Fields) : Statement (.postc f) := other 0xd3 f rfl rfl (by decide) rfl
theorem grow (f : Fields) : Statement (.grow f) := other 0xd4 f rfl rfl (by decide) rfl
theorem enq (f : Fields) : Statement (.enq f) := other 0xd5 f rfl rfl (by decide) rfl
theorem deq (f : Fields) : Statement (.deq f) := other 0xd6 f rfl rfl (by decide) rfl
theorem qstat (f : Fields) : Statement (.qstat f) := other 0xd7 f rfl rfl (by decide) rfl
theorem fork (f : Fields) : Statement (.fork f) := other 0xe0 f rfl rfl (by decide) rfl
theorem rdv (f : Fields) : Statement (.rdv f) := other 0xe1 f rfl rfl (by decide) rfl
theorem bar (f : Fields) : Statement (.bar f) := other 0xe2 f rfl rfl (by decide) rfl
theorem sig (f : Fields) : Statement (.sig f) := other 0xe3 f rfl rfl (by decide) rfl
theorem snap (f : Fields) : Statement (.snap f) := other 0xe4 f rfl rfl (by decide) rfl
theorem plane (f : Fields) : Statement (.plane f) := other 0xe5 f rfl rfl (by decide) rfl
theorem await (f : Fields) : Statement (.await f) := other 0xe6 f rfl rfl (by decide) rfl
theorem ndone (f : Fields) : Statement (.ndone f) := other 0xe7 f rfl rfl (by decide) rfl
theorem nfail (f : Fields) : Statement (.nfail f) := other 0xe8 f rfl rfl (by decide) rfl
theorem bwph (f : Fields) : Statement (.bwph f) := other 0xe9 f rfl rfl (by decide) rfl
theorem bankpWake (f : Fields) : Statement (.bankpWake f) := chosen 0xea f rfl rfl (by decide) fun g hg _ hi => by
  cases hg
  simp [instrOf, instrOf.bankp, opOf_imm f _ hi]

theorem bankpDiscard (f : Fields) : Statement (.bankpDiscard f) := chosen 0xea f rfl rfl (by decide) fun g hg _ hi => by
  cases hg
  simp [instrOf, instrOf.bankp, opOf_imm f _ hi]

theorem bankpRelease (f : Fields) : Statement (.bankpRelease f) := chosen 0xea f rfl rfl (by decide) fun g hg _ hi => by
  cases hg
  simp [instrOf, instrOf.bankp, opOf_imm f _ hi]

theorem bankpStatus (f : Fields) : Statement (.bankpStatus f) := chosen 0xea f rfl rfl (by decide) fun g hg _ hi => by
  cases hg
  simp [instrOf, instrOf.bankp, opOf_imm f _ hi]

theorem trap (f : Fields) : Statement (.trap f) := other 0xf0 f rfl rfl (by decide) rfl
theorem brk (f : Fields) : Statement (.brk f) := other 0xf1 f rfl rfl (by decide) rfl
theorem asrt (f : Fields) : Statement (.asrt f) := other 0xf2 f rfl rfl (by decide) rfl
theorem halt (f : Fields) : Statement (.halt f) := other 0xf3 f rfl rfl (by decide) rfl
theorem rdid (f : Fields) : Statement (.rdid f) := other 0xf4 f rfl rfl (by decide) rfl
theorem rdctr (f : Fields) : Statement (.rdctr f) := other 0xf5 f rfl rfl (by decide) rfl
theorem trigr (f : Fields) : Statement (.trigr f) := other 0xf6 f rfl rfl (by decide) rfl
theorem alignedControlForward (x : Site) : Statement (.alignedControlForward x) := event rfl
theorem poisonPropagate (x : Site) : Statement (.poisonPropagate x) := event rfl
theorem switchConsume (x : Site) : Statement (.switchConsume x) := event rfl
theorem snapAlign (x : Site) : Statement (.snapAlign x) := event rfl
theorem tokenArrival (t p c : Nat) : Statement (.tokenArrival t p c) := event rfl
theorem demandArrival (t p c : Nat) : Statement (.demandArrival t p c) := event rfl
theorem reductionJoin (t p c : Nat) : Statement (.reductionJoin t p c) := event rfl
theorem reachTokenEntry (p c : Nat) (pay : Word) (sb : BitVec 2) : Statement (.reachTokenEntry p c pay sb) := event rfl
theorem meshPacketArrival (k : Nat) : Statement (.meshPacketArrival k) := event rfl
theorem px8UnpackBlock (t p c : Nat) : Statement (.px8UnpackBlock t p c) := event rfl
theorem readoutWord (t : Nat) (acc : Bool) : Statement (.readoutWord t acc) := event rfl
theorem sortChunkWord (t : Nat) (acc : Bool) : Statement (.sortChunkWord t acc) := event rfl
theorem bankAccess (k i : Nat) : Statement (.bankAccess k i) := event rfl
theorem feLoadRelease (k : Nat) : Statement (.feLoadRelease k) := event rfl
theorem feWatchdog (k : Nat) : Statement (.feWatchdog k) := event rfl
theorem translate (k : Nat) : Statement (.translate k) := event rfl
theorem walk (k : Nat) : Statement (.walk k) := event rfl
theorem hbmRequestServe (k i : Nat) : Statement (.hbmRequestServe k i) := event rfl
theorem replyDelivery (k : Nat) : Statement (.replyDelivery k) := event rfl
theorem landbDeliver (t : Nat) : Statement (.landbDeliver t) := event rfl
theorem jobAccept (l : Nat) : Statement (.jobAccept l) := event rfl
theorem jobStart (l j : Nat) : Statement (.jobStart l j) := event rfl
theorem jobComplete (l j : Nat) : Statement (.jobComplete l j) := event rfl
theorem collStart (l g : Nat) : Statement (.collStart l g) := event rfl
theorem ringDeliveryLand (k : Nat) : Statement (.ringDeliveryLand k) := event rfl
theorem windowFeed (t w : Nat) : Statement (.windowFeed t w) := event rfl
theorem enqArrival (l : Nat) : Statement (.enqArrival l) := event rfl
theorem contDequeue (l sh : Nat) : Statement (.contDequeue l sh) := event rfl
theorem barrierArrival (l : Nat) : Statement (.barrierArrival l) := event rfl
theorem barRelease (x : Site) : Statement (.barRelease x) := event rfl
theorem awaitResume (x : Site) : Statement (.awaitResume x) := event rfl
theorem snapCapture (t i : Nat) : Statement (.snapCapture t i) := event rfl
theorem snapCaptureWritten (t i : Nat) : Statement (.snapCaptureWritten t i) := event rfl
theorem snapTimeout (l i : Nat) : Statement (.snapTimeout l i) := event rfl
theorem segmentComplete (t : Nat) : Statement (.segmentComplete t) := event rfl
theorem switchDelivery (t : Nat) : Statement (.switchDelivery t) := event rfl
theorem castling (t : Nat) : Statement (.castling t) := event rfl
theorem checkPass (l g n : Nat) : Statement (.checkPass l g n) := event rfl
theorem copyPassPattern (l r : Nat) : Statement (.copyPassPattern l r) := event rfl
theorem patternArrived (t : Nat) : Statement (.patternArrived t) := event rfl
theorem dispatch (l : Nat) : Statement (.dispatch l) := event rfl
theorem trackArm (l g n : Nat) : Statement (.trackArm l g n) := event rfl
theorem edgeToken (l : Nat) : Statement (.edgeToken l) := event rfl
theorem nodeRetry (l g n : Nat) : Statement (.nodeRetry l g n) := event rfl
theorem stopRecordsWrite (l : Nat) : Statement (.stopRecordsWrite l) := event rfl
theorem policyApply (l : Nat) : Statement (.policyApply l) := event rfl
theorem mgmtAnswer (l g n : Nat) (ok : Bool) : Statement (.mgmtAnswer l g n ok) := event rfl
theorem quiescenceSample (l : Nat) : Statement (.quiescenceSample l) := event rfl
theorem qbndExpiry (l : Nat) : Statement (.qbndExpiry l) := event rfl
theorem freezeScanDone (l r : Nat) : Statement (.freezeScanDone l r) := event rfl
theorem haltTimeout (l : Nat) : Statement (.haltTimeout l) := event rfl
theorem removalComplete (l : Nat) : Statement (.removalComplete l) := event rfl
theorem moveDrained : Statement .moveDrained := event rfl
theorem moveDrainTimeout : Statement .moveDrainTimeout := event rfl
theorem moveCopyDone : Statement .moveCopyDone := event rfl
theorem bankDrowse (t b : Nat) : Statement (.bankDrowse t b) := event rfl
theorem bankSbcLimit (t : Nat) : Statement (.bankSbcLimit t) := event rfl
theorem bankWakeDone (t b : Nat) : Statement (.bankWakeDone t b) := event rfl
theorem bankGrantScrubDone (t b : Nat) : Statement (.bankGrantScrubDone t b) := event rfl
theorem bankDrained (t : Nat) : Statement (.bankDrained t) := event rfl
theorem bankDrainTimeout (t : Nat) : Statement (.bankDrainTimeout t) := event rfl
theorem patrolScrub (t b : Nat) : Statement (.patrolScrub t b) := event rfl
theorem tileUncorrectable (t d : Nat) : Statement (.tileUncorrectable t d) := event rfl
theorem sharedUncorrectable (i k : Nat) : Statement (.sharedUncorrectable i k) := event rfl
theorem lstlDeltaSend (t : Nat) : Statement (.lstlDeltaSend t) := event rfl
theorem arbiterCommandRead (pf r : Nat) : Statement (.arbiterCommandRead pf r) := event rfl
theorem psubTake : Statement .psubTake := event rfl
theorem psubForeignWrite (v : Word) : Statement (.psubForeignWrite v) := event rfl
theorem completionWrite (pf : Nat) : Statement (.completionWrite pf) := event rfl
theorem noticeMerge (pf : Nat) (n : Notice) : Statement (.noticeMerge pf n) := event rfl
theorem rtailDoorbell (pf r v : Nat) : Statement (.rtailDoorbell pf r v) := event rfl
theorem registerWrite (pf : Nat) (r : HostReg) (v : Nat) : Statement (.registerWrite pf r v) := event rfl
theorem glaunch (c : Cmd) : Statement (.glaunch c) := event rfl
theorem gcancel (c : Cmd) : Statement (.gcancel c) := event rfl
theorem resumeCone (c : Cmd) : Statement (.resumeCone c) := event rfl
theorem nodedone (c : Cmd) : Statement (.nodedone c) := event rfl
theorem continueNode (c : Cmd) : Statement (.continueNode c) := event rfl
theorem pfresolve (c : Cmd) : Statement (.pfresolve c) := event rfl
theorem pfdecline (c : Cmd) : Statement (.pfdecline c) := event rfl
theorem tlbinv (c : Cmd) : Statement (.tlbinv c) := event rfl
theorem harvest (c : Cmd) : Statement (.harvest c) := event rfl
theorem evictq (c : Cmd) : Statement (.evictq c) := event rfl
theorem qcreate (c : Cmd) : Statement (.qcreate c) := event rfl
theorem qdestroy (c : Cmd) : Statement (.qdestroy c) := event rfl
theorem qswap (c : Cmd) : Statement (.qswap c) := event rfl
theorem qload (c : Cmd) : Statement (.qload c) := event rfl
theorem jstatus (c : Cmd) : Statement (.jstatus c) := event rfl
theorem bind (c : Cmd) : Statement (.bind c) := event rfl
theorem rebind (c : Cmd) : Statement (.rebind c) := event rfl
theorem move (c : Cmd) : Statement (.move c) := event rfl
theorem preempt (c : Cmd) : Statement (.preempt c) := event rfl
theorem resume (c : Cmd) : Statement (.resume c) := event rfl
theorem remove (c : Cmd) : Statement (.remove c) := event rfl
theorem allow (c : Cmd) : Statement (.allow c) := event rfl
theorem fotset (c : Cmd) : Statement (.fotset c) := event rfl
theorem frameDrainedScrub (sk fr : Nat) : Statement (.frameDrainedScrub sk fr) := event rfl
theorem pfreset (c : Cmd) : Statement (.pfreset c) := event rfl
theorem pfFlr (pf : Nat) : Statement (.pfFlr pf) := event rfl
theorem portLinkDown (p : Nat) : Statement (.portLinkDown p) := event rfl
theorem portLinkUp (p : Nat) : Statement (.portLinkUp p) := event rfl
theorem lockInterface (pf : Nat) : Statement (.lockInterface pf) := event rfl
theorem startInterface (pf : Nat) : Statement (.startInterface pf) := event rfl
theorem stopInterface (pf : Nat) : Statement (.stopInterface pf) := event rfl
theorem getDeviceInterfaceReport (pf : Nat) : Statement (.getDeviceInterfaceReport pf) := event rfl
theorem keySet (pf : Nat) (key : Word) : Statement (.keySet pf key) := event rfl
theorem keyClear (pf : Nat) : Statement (.keyClear pf) := event rfl
theorem spdmMessage (pf i : Nat) : Statement (.spdmMessage pf i) := event rfl
theorem ideKm (p i : Nat) : Statement (.ideKm p i) := event rfl
theorem pldmFirmwareUpdate (i : Nat) (img : List Byte) : Statement (.pldmFirmwareUpdate i img) := event rfl
theorem moduleReset : Statement .moduleReset := event rfl
theorem dieJoin (d : Nat) (ok : Bool) : Statement (.dieJoin d ok) := event rfl
theorem throttleEnter (d : Nat) : Statement (.throttleEnter d) := event rfl
theorem mctrRefresh (temps : List Nat) (power amps : Nat) : Statement (.mctrRefresh temps power amps) := event rfl
theorem rangeRequestIssue (x : Site) : Statement (.rangeRequestIssue x) := event rfl
theorem hostMemoryRequest (k : Nat) (a : HostAccess) : Statement (.hostMemoryRequest k a) := event rfl
theorem throttleExit (d : Nat) : Statement (.throttleExit d) := event rfl

end Sys2Proof.Laws.Encoding
end

