-- ==== Sys2Proof/Laws/Results.lean ====
section
/-! SUPPORT. Lanes of results: the range of a lane as a number, narrowing, and the lanes of the word that an arithmetic instruction computes. -/

namespace Sys2Proof.Machine

open Sys2Proof Sys2Proof.Safety

theorem tyBits_pos (t : Ty) : 0 < tyBits t := by cases t <;> decide

theorem sx_range {n v : Nat} (hn : 0 < n) (h : v < 2 ^ n) : -(2 ^ (n - 1) : Int) ≤ sx n v ∧ sx n v < 2 ^ (n - 1) := by
  obtain ⟨m, rfl⟩ : ∃ m, n = m + 1 := ⟨n - 1, by omega⟩
  simp only [sx, Nat.add_sub_cancel, pow_succ] at *
  have : ((2 ^ m : Nat) : Int) = (2 : Int) ^ m := by push_cast; rfl
  split <;> constructor <;> omega

theorem rd_wrap {sg : Bool} {n : Nat} (hn : 0 < n) (x : Int) (lo : (if sg then -2 ^ (n - 1) else 0) ≤ x) (hi : x < if sg then 2 ^ (n - 1) else 2 ^ n) :
    rd sg n (wrap n x) = x := by
  obtain ⟨m, rfl⟩ : ∃ m, n = m + 1 := ⟨n - 1, by omega⟩
  have e : ((2 ^ m : Nat) : Int) = (2 : Int) ^ m := by push_cast; rfl
  have hp : (0 : Int) < 2 ^ m := by positivity
  cases sg <;> simp only [rd, sx, wrap, Nat.add_sub_cancel, pow_succ, if_true, if_false, Bool.false_eq_true] at *
  · rw [Int.emod_eq_of_lt lo hi]; omega
  · by_cases h : 0 ≤ x
    · rw [Int.emod_eq_of_lt h (by omega)]
      rw [if_pos (by omega)]; omega
    · have : x % (2 ^ m * 2) = x + 2 ^ m * 2 := by
        rw [← Int.add_emod_right, Int.emod_eq_of_lt (by omega) (by omega)]
      rw [this]
      rw [if_neg (by omega)]
      omega

theorem rd_range {sg : Bool} {n v : Nat} (hn : 0 < n) (h : v < 2 ^ n) :
    (if sg then -2 ^ (n - 1) else (0 : Int)) ≤ rd sg n v ∧ rd sg n v < if sg then (2 : Int) ^ (n - 1) else 2 ^ n := by
  have e : ((2 ^ n : Nat) : Int) = (2 : Int) ^ n := by push_cast; rfl
  cases sg
  · simp only [rd, Bool.false_eq_true, if_false]; omega
  · simpa [rd] using sx_range hn h

theorem narrowed_narrow (f : Fields) (sat : Bool) (x : Int) : Narrowed f sat x (narrow sat (tySigned f.typ) (tyBits f.typ) x % 2 ^ tyBits f.typ) := by
  have hn := tyBits_pos f.typ
  rw [Nat.mod_eq_of_lt (narrow_lt _ _ _ _)]
  refine ⟨narrow_lt _ _ _ _, ?_⟩
  cases sat
  · simp only [Bool.false_eq_true, if_false, narrow, wrap]
    exact Int.toNat_of_nonneg (Int.emod_nonneg _ (by positivity))
  · simp only [if_true, num, narrow]
    have hp : (0 : Int) < 2 ^ (tyBits f.typ - 1) := by positivity
    have hp2 : (0 : Int) < 2 ^ (tyBits f.typ) := by positivity
    have key : clampTo (tySigned f.typ) (tyBits f.typ) x = max (if tySigned f.typ then -2 ^ (tyBits f.typ - 1) else 0)
        (min (if tySigned f.typ then 2 ^ (tyBits f.typ - 1) - 1 else 2 ^ tyBits f.typ - 1) x) := by
      cases tySigned f.typ <;> simp only [clampTo, if_true, if_false, Bool.false_eq_true] <;> split <;> (try split) <;> omega
    rw [← key, rd_wrap hn]
    · cases tySigned f.typ <;> simp only [clampTo, if_true, if_false, Bool.false_eq_true] <;> split <;> (try split) <;> omega
    · cases tySigned f.typ <;> simp only [clampTo, if_true, if_false, Bool.false_eq_true] <;> split <;> (try split) <;> omega

theorem Fires.f {i : Instr} {f : Fields} {s : State} {c : Ctx} (h : Fires i f s c) : c.f = f := HasTurn.f h.1

/-- A lane-wise statement from a computed word. -/
theorem lanesAre_of {mk : Fields → Instr} {ws : Fields → Bool} {P : Fields → Ctx → Nat → Nat → Prop} (g : Fields → Ctx → Word)
    (he : ∀ f s, exec (mk f) s = pureFire (mk f) f (ws f) (g f) s)
    (hP : ∀ f c j, c.f = f → j < 512 / tyBits f.typ → P f c j (lane (tyBits f.typ) (g f c) j)) : LanesAre mk ws P := by
  intro f s c h
  exact ⟨g f c, by rw [he, Fires.pureFire _ _ h], fun j hj => hP f c j (Fires.f h) hj⟩

theorem arith2_lane {f : Fields} {c : Ctx} (hf : c.f = f) (sat : Bool) (g : Int → Int → Int) {j : Nat} (hj : j < 512 / tyBits f.typ) :
    lane (tyBits f.typ) (arith2 c sat g) j = narrow sat (tySigned f.typ) (tyBits f.typ) (g (num f (la f c j)) (num f (lbi f c j))) % 2 ^ tyBits f.typ := by
  subst hf
  simp only [arith2, Ctx.n, Ctx.md]
  rw [lane_map2 _ _ _ _ _ hj]
  rfl

theorem num_lane_range (f : Fields) (w : Word) (j : Nat) :
    (if tySigned f.typ then -2 ^ (tyBits f.typ - 1) else (0 : Int)) ≤ num f (lane (tyBits f.typ) w j) ∧
    num f (lane (tyBits f.typ) w j) < if tySigned f.typ then (2 : Int) ^ (tyBits f.typ - 1) else 2 ^ tyBits f.typ := by
  unfold num
  exact rd_range (tyBits_pos f.typ) (lane_lt _ _ _)

theorem num_narrow_of_range (f : Fields) (x : Int) (h : (if tySigned f.typ then -2 ^ (tyBits f.typ - 1) else (0 : Int)) ≤ x ∧
    x < if tySigned f.typ then (2 : Int) ^ (tyBits f.typ - 1) else 2 ^ tyBits f.typ) :
    num f (wrap (tyBits f.typ) x % 2 ^ tyBits f.typ) = x := by
  rw [Nat.mod_eq_of_lt (wrap_lt _ _)]
  exact rd_wrap (tyBits_pos f.typ) x h.1 h.2

end Sys2Proof.Machine
end

