-- ==== Sys2Proof/Tests/Slice0.lean ====
section
/-! SUPPORT. Tests of the model on fixed values: refused words, words written out from the encoding tables, and for the statements with
hypotheses a state that meets them. Expected results are the spec's figures, or worked out by hand from its tables. -/

namespace Sys2Proof.Tests

open Sys2Proof Sys2Proof.Machine Sys2Proof.Safety

-- one theorem at a time: each is evaluated by the kernel, and many at once take a thread each
set_option Elab.async false

/-! ### Words that the checks refuse -/

/-- Fields of a plain word: TYP N32, A, B and C tokens, no predicate, OUT one to operand A of slot 5. -/
def f0 : Fields :=
  { typ := .n32, md := 0, a := .tok, b := .tok, c := .tok, prd := .always, out := .one, imm := 0, t1 := .elem 0 .a, t0 := .elem 5 .a }

theorem test_wellFormed_accepts : WellFormed.wellFormed (.add f0) = true := by decide

/-- LDT stands on the stream and vector engines (Table 2.13), MMA on the matrix engine. -/
theorem test_flaw_engine : WellFormed.wordFlaw 2 (.ldt { f0 with typ := .x, c := .tok, imm := 0x90 }) = some .opcEngine := by decide
/-- ADD takes no floating type (R112). -/
theorem test_flaw_typ : WellFormed.wordFlaw 0 (.add { f0 with typ := .fp32 }) = some .typ := by decide
/-- MOV defines no MOD bit. -/
theorem test_flaw_mod : WellFormed.wordFlaw 0 (.mov { f0 with md := 1 }) = some .mod := by decide
/-- ADD takes no operand C, whose source must then be 0b00 (R46). -/
theorem test_flaw_src : WellFormed.wordFlaw 0 (.add { f0 with c := .k1 }) = some .src := by decide
/-- MOV has an output (R236). -/
theorem test_flaw_out : WellFormed.wordFlaw 0 (.mov { f0 with out := .none, t0 := .elem 0 .a }) = some .prdOut := by decide
/-- PRD 0b11 is reserved (Table 2.9). -/
theorem test_flaw_prd : WellFormed.wordFlaw 0 (.mov { f0 with prd := .rsv }) = some .prdOut := by decide
/-- IMM16 is zero without IMB (R111). -/
theorem test_flaw_reserved : WellFormed.wordFlaw 0 (.add { f0 with imm := 1 }) = some .reservedBits := by decide
/-- An unused T1 is zero (R47). -/
theorem test_flaw_t1 : WellFormed.wordFlaw 0 (.mov { f0 with t1 := .elem 1 .a }) = some .reservedBits := by decide
/-- There is no port 7 (R48). -/
theorem test_flaw_target : WellFormed.wordFlaw 0 (.mov { f0 with t0 := .port 7 0 0 }) = some .target := by decide
/-- EMITC emits no SNAP (R53). -/
theorem test_flaw_ctrl : WellFormed.wordFlaw 0 (.emitc { f0 with typ := .x, imm := 8 }) = some .ctrlConst := by decide

/-! ### Words of the spec's worked cases, one per family -/

/-- R45: FMUL.BF16 a, K0. -/
theorem test_word_fmul : decode 0x42A0041000000014 = .ok (.fmul { f0 with typ := .bf16, b := .k0 }) := by decide
/-- R123. -/
theorem test_word_addr : decode 0x3281041000400250 = .ok (.addr { f0 with typ := .n64, md := 4, b := .k0, imm := 4, t0 := .port 1 2 0 }) := by decide
/-- R141: FFMA.FP32 under RZ. -/
theorem test_word_ffma : decode 0x439201100000001D = .ok (.ffma { f0 with typ := .fp32, md := 8, c := .k0, t0 := .elem 7 .b }) := by decide
/-- Section 3.4: two words that differ in T0 alone. -/
theorem test_word_fadd : decode 0x40A0041000000240 = .ok (.fadd { f0 with typ := .bf16, b := .k0, t0 := .port 1 0 0 }) := by decide
/-- Section 7: RESOLVE.BF16 of row 31. -/
theorem test_word_resolve : decode 0x84A8001001F00240 = .ok (.resolve { f0 with typ := .bf16, md := 32, imm := 31, t0 := .port 1 0 0 }) := by decide
/-- Section 8: ROUTE. -/
theorem test_word_route :
    decode 0x0E70042000703240 = .ok (.route { f0 with b := .k0, out := .two, imm := 7, t1 := .elem 3 .a, t0 := .port 1 0 0 }) := by decide
/-- Program 17: COUNT.N64. -/
theorem test_word_count : decode 0x0880001000800028 = .ok (.count { f0 with typ := .n64, imm := 8, t0 := .elem 10 .a }) := by decide
/-- Program 17: INTX.N32. -/
theorem test_word_intx : decode 0x0D70001000000038 = .ok (.intx { f0 with t0 := .elem 14 .a }) := by decide
/-- Program 17: FAN with a third target in IMM16. -/
theorem test_word_fan :
    decode 0x0200002044C1003C = .ok (.fan { f0 with typ := .x, out := .two, imm := 0x44C, t1 := .elem 16 .a, t0 := .elem 15 .a }) := by decide
/-- Program 17: LSHUF.N16 a, S. -/
theorem test_word_lshuf : decode 0x72600C1000000044 = .ok (.lshuf { f0 with typ := .n16, b := .s, t0 := .elem 17 .a }) := by decide
/-- Program 17: STS.FP32. -/
theorem test_word_sts : decode 0xA390001000000058 = .ok (.sts { f0 with typ := .fp32, t0 := .elem 22 .a }) := by decide
/-- Program 18: WID.N64. -/
theorem test_word_wid : decode 0x3380001000A00004 = .ok (.wid { f0 with typ := .n64, imm := 10, t0 := .elem 1 .a }) := by decide
/-- Program 18: FEXP2.BF16. -/
theorem test_word_fexp2 :
    decode 0x50A0002000008240 = .ok (.fexp2 { f0 with typ := .bf16, out := .two, t1 := .elem 8 .a, t0 := .port 1 0 0 }) := by decide
/-- Program 18: LSCAN.BF16. -/
theorem test_word_lscan : decode 0x71A4001000000005 = .ok (.lscan { f0 with typ := .bf16, md := 16, t0 := .elem 1 .b }) := by decide
/-- Section 9: RPUSH onto ring 3. -/
theorem test_word_rpush : decode 0xD000001000300380 = .ok (.rpush { f0 with typ := .x, imm := 3, t0 := .port 6 0 0 }) := by decide
/-- Section 11: LDT of TID 9 by S. -/
theorem test_word_ldt : decode 0xA000300009000000 = .ok (.ldt { f0 with typ := .x, a := .s, out := .none, imm := 0x90, t0 := .elem 0 .a }) := by decide
/-- Section 11: AXCH. -/
theorem test_word_axch : decode 0xB771C41000000248 = .ok (.axch { f0 with md := 7, b := .k0, t0 := .port 1 1 0 }) := by decide
/-- Section 14: BAR 5 and RDV. -/
theorem test_word_bar : decode 0xE201041000500248 = .ok (.bar { f0 with typ := .x, md := 4, b := .k0, imm := 5, t0 := .port 1 1 0 }) := by decide
theorem test_word_rdv : decode 0xE100001000000240 = .ok (.rdv { f0 with typ := .x, t0 := .port 1 0 0 }) := by decide
/-- Section 16: TRIGR 2 and RDCTR.TRG of LSTL[fe-wait]. -/
theorem test_word_trigr : decode 0xF600301000200240 = .ok (.trigr { f0 with typ := .x, a := .s, imm := 2, t0 := .port 1 0 0 }) := by decide
theorem test_word_rdctr : decode 0xF500401100400240 = .ok (.rdctr { f0 with typ := .x, md := 1, imm := 0x1004, t0 := .port 1 0 0 }) := by decide
/-- R54: a reserved opcode is refused, and so is an opcode beyond the table. -/
theorem test_word_reserved : decode 0x1A30000000000000 = .error .opcReserved ∧ decode 0xFF00000000000000 = .error .opcReserved := by decide

/-! ### States in which instructions take their turn -/

/-- A tile that lease 0 of tenant 1 runs, with a block on the vector engine of plane A. -/
def tileWith (l : List Elem) : Tile :=
  { tten := 1, pa := { pst := .active, inSeg := true, blk1 := some { ents := [0], elems := l }, rid := 1 } }

/-- Lease 0, running. -/
def lease0 : Lease := { v := true, lstate := .active, rcd := { tenid := 1 } }

/-- The element at slot 0 of the vector engine of tile 0, about to have its turn; slot 5 stands empty-handed. -/
def stateOf (t : Tile) : State := { State.reset with tiles := [(0, t)], leases := [(0, lease0)], cur := ⟨0, 1, 0⟩ }

def stateWith (e : Elem) : State := stateOf (tileWith [e, {}, {}, {}, {}, {}])

/-- A data token. -/
def dt (v : Nat) : Token := ⟨BitVec.ofNat 512 v, 0⟩

/-- An element with a data token at each operand, and an entry firing to make. -/
def elem0 : Elem := { qa := [dt 3], qb := [dt 5], qc := [dt 1], qp := [dt 1], due := true }

/-- Whether the element at `s.cur` has its turn in the sense of `HasTurn`, with `P` of its context. -/
def wit (i : Instr) (f : Fields) (s : State) (P : Ctx → Bool) : Bool :=
  match ctxAt s s.cur i f with
  | none => false
  | some c => mayFire s c && (deadSnaps c).isEmpty && !(c.t.hold && asksReply i) && P c

theorem hasTurn_of_wit {i : Instr} {f : Fields} {s : State} {P : Ctx → Bool} (h : wit i f s P = true) : ∃ c, HasTurn i f s c ∧ P c = true := by
  unfold wit at h
  cases hc : ctxAt s s.cur i f with
  | none => simp [hc] at h
  | some c =>
    simp only [hc, Bool.and_eq_true, Bool.not_eq_true'] at h
    obtain ⟨⟨⟨h1, h2⟩, h3⟩, h4⟩ := h
    exact ⟨c, ⟨hc, h1, by simpa using h2, h3⟩, h4⟩

/-- `AllData`, computed. -/
def allData (c : Ctx) : Bool := c.ops.all fun o => match c.head o with | some t => !isCtl t | none => false

/-- `MayExecute`, computed. -/
def mayExec (c : Ctx) : Bool := allData c && (!c.ops.isEmpty || c.e.due) && !predOff c && !c.sbClash

/-- `HoldsDemands` of the targets of the firing. -/
def held (c : Ctx) : Bool := hasDemands c.p c.x c.e c.outs

/-- `Fires`, computed. -/
def fires (i : Instr) (f : Fields) (s : State) (P : Ctx → Bool) : Bool := wit i f s fun c => mayExec c && held c && P c

theorem fires_of_fires {i : Instr} {f : Fields} {s : State} {P : Ctx → Bool} (h : fires i f s P = true) : ∃ c, Fires i f s c ∧ P c = true := by
  obtain ⟨c, hc, h⟩ := hasTurn_of_wit h
  simp only [Bool.and_eq_true, mayExec, allData, Bool.not_eq_true', List.all_eq_true] at h
  obtain ⟨⟨⟨⟨⟨h4, h5⟩, h6⟩, h7⟩, h8⟩, h9⟩ := h
  refine ⟨c, ⟨hc, ⟨fun o ho => ?_, fun he => ?_, h6, h7⟩, h8⟩, h9⟩
  · have := h4 o ho
    cases hh : c.head o with
    | none => simp [hh] at this
    | some t => exact ⟨t, rfl, by simpa [hh] using this⟩
  · simpa [he] using h5

/-! ### Firing -/

theorem test_fires_plain : ∀ mk ∈ plainInstrs, fires (mk f0) f0 (stateWith elem0) (fun _ => true) = true := by decide +kernel

theorem witness_FiringRules :
    (wit (.add ({ f0 with  prd := .onOne } : Fields)) ({ f0 with  prd := .onOne } : Fields) (stateWith { elem0 with  qp := [dt 0] }) (fun c => c.ops != [] && allData c && predOff c)) = true ∧
    (wit (.add f0) f0 (stateWith { elem0 with  qb := [⟨5, 0b10⟩] }) (fun c => c.ops != [] && allData c && !predOff c && c.sbClash && held c)) = true ∧
    (wit (.add f0) f0 (stateWith { elem0 with  dk0 := 0 }) (fun c => c.ops != [] && allData c && !predOff c && !held c)) = true ∧
    (wit (.add ({ f0 with  a := .k0, b := .s } : Fields)) ({ f0 with  a := .k0, b := .s } : Fields) (stateWith { elem0 with  dk0 := 0 }) (fun c => c.ops == [] && c.e.due && !held c)) = true ∧
    (wit (.add f0) f0 (stateWith { elem0 with  qb := [] }) (fun c => c.ha.isSome && c.hb.isNone)) = true ∧
    (wit (.add f0) f0 (stateWith { elem0 with  qa := [], qb := [] }) (fun c => c.ops != [] && c.ha.isNone && c.hb.isNone)) = true ∧
    (wit (.add ({ f0 with  a := .k0, b := .s } : Fields)) ({ f0 with  a := .k0, b := .s } : Fields) (stateWith { elem0 with  due := false }) (fun c => c.ops == [] && !c.e.due)) = true ∧
    (wit (.add f0) f0 (stateWith { elem0 with  qa := [ctl kSOT 0] }) (fun c => c.ops.any (fun o => match c.head o with | some t => isCtl t | none => false))) = true := by decide +kernel

theorem witness_StepRunsTheTurn :
    ((match decode 0x42A0041000000014 with | .ok i => WellFormed.wellFormedOn 1 i | .error _ => false) && fetchWord (stateWith { elem0 with word := 0x42A0041000000014 }) ⟨0, 1, 0⟩ == some 0x42A0041000000014) = true := by decide +kernel

theorem witness_NothingStops :
    ((WellFormed.instrFields (.add f0)).isSome && (fetchWord (stateWith elem0) ⟨0, 1, 0⟩).isSome && (WellFormed.instrFields (.snapTimeout 0 0)).isNone) = true := by decide +kernel

theorem witness_StepKeepsMemoriesCanonical :
    (memoriesCanonical { State.reset with mem := [(5, 1), (7, 255)], scratch := [(0, 2)], feb := [0, 3] } && !memoriesCanonical { State.reset with mem := [(5, 0)] }) = true := by decide +kernel

theorem witness_MemoryReadsWhatWasWritten :
    (Memory.wf [(5, 1), (7, 255)]) = true := by decide +kernel

theorem witness_Demands :
    ((elemIn (tileWith [elem0, {}, {}, {}, {}, {}]).pa 1 5).isSome && neighbour 0 0 == none && neighbour 0 1 == some 1 && neighbour 16383 1 == none && neighbour 16383 0 == some 16127) = true ∧
    (feedOf { (tileWith [elem0]).pa with route := [(9, 0xD000)] } 1 0 .a == some 9 && feedOf { (tileWith [elem0]).pa with route := [(9, 0xD000)] } 1 0 .b == none) = true ∧
    (producerOf { ents := [0], elems := [{ word := 0x42A0041000000004 }, {}] } 1 .a == some (0, 0)) = true := by decide +kernel

theorem witness_TrapEntry :
    (lease0.v && lease0.lstate != .removing && { lease0 with lstate := .removing }.lstate == .removing && (leaseAt State.reset 0).v == false) = true := by decide +kernel

/-! ### Arithmetic -/

theorem witness_IntegerBits :
    (fires (.clz f0) f0 (stateWith { elem0 with  qa := [dt 0] }) (fun c => lane 32 (c.va 32) 0 == 0)) = true ∧
    (fires (.clz f0) f0 (stateWith elem0) (fun c => lane 32 (c.va 32) 0 != 0)) = true ∧
    ((let f : Fields := ({ f0 with  imm := 0x001F } : Fields); let s : State := stateWith elem0; let i : Instr := .ext f; fires i f s fun _ => posOf f + lenOf f == 32)) = true ∧
    ((let f : Fields := ({ f0 with  imm := 0x1F00 } : Fields); let s : State := stateWith elem0; let i : Instr := .ins f; fires i f s fun _ => posOf f + lenOf f == 32)) = true := by decide +kernel

theorem witness_CompareSelectAddressHash :
    ((let f : Fields := ({ f0 with  md := 5 } : Fields); let s : State := stateWith elem0; let i : Instr := .cmp f; fires i f s fun _ => f.md.toNat % 16 < 6)) = true ∧
    ((let f : Fields := ({ f0 with  typ := .n64, md := 4 } : Fields); let s : State := stateWith elem0; let i : Instr := .addr f; fires i f s fun _ => f.md.getLsbD 2 && f.typ == .n64)) = true ∧
    ((let f : Fields := ({ f0 with  typ := .n64 } : Fields); let s : State := stateWith elem0; let i : Instr := .hash f; fires i f s fun _ => tyBits f.typ == 64)) = true ∧
    ((let f : Fields := f0; let s : State := stateWith elem0; let i : Instr := .hash f; fires i f s fun _ => tyBits f.typ == 32)) = true := by decide +kernel

/-- A node record for node 0 of graph 0, with ICNT 2 in its launch field (Table 14.3). -/
def leaseIcnt : Lease := { lease0 with graphs := [(0, { nodes := [{ launch := BitVec.ofNat 128 0x20000 }] })] }

theorem witness_MovesWorkIdsAndPlace :
    ((let f : Fields := ({ f0 with  typ := .n64, imm := 10 } : Fields); let s : State := { stateWith { elem0 with  nf := 1 } with leases := [(0, leaseIcnt)] }; let i : Instr := .wid f; fires i f s fun c => f.imm.toNat % 16 ≤ 10 && c.e.nf.toNat < launchIcnt ((nodeAt c.l c.p.graph c.p.node).getD {}).launch)) = true ∧
    (fires (.wid ({ f0 with  typ := .n64, imm := 10 } : Fields)) ({ f0 with  typ := .n64, imm := 10 } : Fields) ({ stateWith { elem0 with  nf := 2 } with leases := [(0, leaseIcnt)] }) (fun c => launchIcnt ((nodeAt c.l c.p.graph c.p.node).getD {}).launch ≤ c.e.nf.toNat)) = true ∧
    ((let f : Fields := ({ f0 with  typ := .n16 } : Fields); let s : State := stateWith elem0; let i : Instr := .lxy f; fires i f s fun _ => 16 ≤ tyBits f.typ)) = true ∧
    ((let f : Fields := ({ f0 with  out := .two, imm := 0x418 } : Fields); let s : State := stateWith elem0; let i : Instr := .fan f; fires i f s fun _ => f.out == .two && f.imm.getLsbD 10)) = true ∧
    ((let f : Fields := ({ f0 with  out := .steer } : Fields); let s : State := stateWith elem0; let i : Instr := .steer f; fires i f s fun c => f.out == .steer && c.pv)) = true ∧
    ((let f : Fields := ({ f0 with  out := .steer } : Fields); let s : State := stateWith { elem0 with  qp := [dt 0] }; let i : Instr := .steer f; fires i f s fun c => f.out == .steer && !c.pv)) = true := by decide +kernel

theorem witness_FloatCompareAndClass :
    ((let f : Fields := ({ f0 with  typ := .fp32, md := 7 } : Fields); let s : State := stateWith elem0; let i : Instr := .fcmp f; fires i f s fun _ => f.md.toNat % 16 < 8)) = true ∧
    ((let f : Fields := ({ f0 with  typ := .bf16 } : Fields); let s : State := stateWith elem0; let i : Instr := .fclass f; fires i f s fun _ => 9 ≤ tyBits f.typ)) = true ∧
    (unpack fFp32 0x7FC00001 == .nan && unpack fFp32 0xFFFFFFFF == .nan && unpack fBf16 0x3F80 != .nan && fpCmp (unpack fFp16 0x8400) (unpack fFp16 0) == some .lt && fpCmp (unpack fFp16 0) (unpack fFp16 0x8400) == some .gt) = true := by decide +kernel

theorem witness_FloatArithmetic :
    (fires (.fadd ({ f0 with  typ := .fp32 } : Fields)) ({ f0 with  typ := .fp32 } : Fields) (stateWith { elem0 with  qa := [dt 0x7F800000], qb := [dt 0xFF800000] }) (fun c => enabledLane c.l.rcd.fpen [(0, flNV)] == none)) = true ∧
    (fires (.fadd ({ f0 with  typ := .fp32 } : Fields)) ({ f0 with  typ := .fp32 } : Fields) ({ stateWith { elem0 with  qa := [dt 0x7F800000], qb := [dt 0xFF800000] } with leases := [(0, { lease0 with rcd := { tenid := 1, fpen := 0x1F } })] }) (fun c => enabledLane c.l.rcd.fpen [(0, flNV)] == some 0)) = true := by decide +kernel

theorem witness_ConversionsSelectLanes :
    ((let f : Fields := ({ f0 with  typ := .bf16, imm := 0x19 } : Fields); let s : State := stateWith elem0; let i : Instr := .cvt f; fires i f s fun _ => stypOf f == .fp32)) = true ∧
    ((let f : Fields := ({ f0 with  typ := .fp32, imm := 0x2A } : Fields); let s : State := stateWith elem0; let i : Instr := .cvt f; fires i f s fun _ => 512 / tyBits f.typ < 512 / tyBits (stypOf f))) = true ∧
    ((let f : Fields := ({ f0 with  typ := .bf16, md := 1, imm := 0x9 } : Fields); let s : State := stateWith elem0; let i : Instr := .cvtsr f; fires i f s fun _ => f.md.getLsbD 0)) = true ∧
    ((let f : Fields := ({ f0 with  typ := .bf16, imm := 0x9 } : Fields); let s : State := stateWith elem0; let i : Instr := .cvtsr f; fires i f s fun _ => !f.md.getLsbD 0)) = true := by decide +kernel

theorem witness_ConversionFollowsTheTable :
    (isFloat .n32 == false && isFloat .fp32 && unpack fFp32 0x7FC00000 == .nan && unpack fFp32 0x7F800000 == .inf false && (match unpack fFp32 0x3F800000 with | .fin _ _ _ => true | _ => false)) = true := by decide +kernel

theorem witness_MxBlocks :
    ((let f : Fields := ({ f0 with  typ := .fp32, out := .two, imm := 0x51 } : Fields); let s : State := stateWith elem0; let i : Instr := .mxq f; fires i f s fun _ => mxLane (f.imm.toNat % 8) * (32 * (f.imm.toNat / 128 % 4 + 1)) ≤ 512 && f.prd != .rsv)) = true ∧
    (fires (.mxdq ({ f0 with  typ := .bf16, imm := 1 } : Fields)) ({ f0 with  typ := .bf16, imm := 1 } : Fields) (stateWith { elem0 with  qb := [dt 0xFF] }) (fun c => lane 8 (c.vb 16) 0 == 255)) = true := by decide +kernel

theorem witness_Px8Packing :
    ((let f : Fields := ({ f0 with  typ := .e4m3 } : Fields); let s : State := stateWith elem0; let i : Instr := .pkpx f; wit i f s fun c => (c.head .a).isSome && hasDemands c.p c.x c.e [(0, f.t0), (0, f.t0)])) = true ∧
    ((let f : Fields := ({ f0 with  typ := .e4m3 } : Fields); let s : State := stateWith { elem0 with  dk0 := 1 }; let i : Instr := .pkpx f; wit i f s fun c => (c.head .a).isSome && !hasDemands c.p c.x c.e [(0, f.t0), (0, f.t0)])) = true ∧
    ((let f : Fields := ({ f0 with  typ := .e4m3 } : Fields); let s : State := stateWith { elem0 with  qa := [ctl kSOT 0], s := BitVec.ofNat 512 (3 * 2 ^ 496) }; let i : Instr := .pkpx f; wit i f s fun c => (match c.head .a with | some t => isCtl t | none => false) && c.e.s.toNat / 2 ^ 496 % 32 != 0 && hasDemands c.p c.x c.e [(0, f.t0)])) = true ∧
    ((let f : Fields := ({ f0 with  typ := .e4m3 } : Fields); let s : State := stateWith { elem0 with  qa := [ctl kSOT 0] }; let i : Instr := .pkpx f; wit i f s fun c => (match c.head .a with | some t => isCtl t | none => false) && c.e.s.toNat / 2 ^ 496 % 32 == 0)) = true := by decide +kernel

theorem witness_LaneReductions :
    ((let f : Fields := ({ f0 with  typ := .bf16, md := 1 } : Fields); let s : State := stateWith elem0; let i : Instr := .dot f; fires i f s fun _ => f.md.getLsbD 0)) = true ∧
    ((let f : Fields := ({ f0 with  typ := .bf16, md := 6 } : Fields); let s : State := stateWith elem0; let i : Instr := .lred f; fires i f s fun _ => isFloat f.typ && f.md.toNat % 8 == 6)) = true ∧
    ((let f : Fields := ({ f0 with  typ := .i32, md := 5 } : Fields); let s : State := stateWith elem0; let i : Instr := .lred f; fires i f s fun _ => !isFloat f.typ && f.md.toNat % 8 == 5)) = true ∧
    ((let f : Fields := ({ f0 with  typ := .bf16, md := 1 } : Fields); let s : State := stateWith elem0; let i : Instr := .amaxv f; fires i f s fun _ => f.md.getLsbD 0)) = true ∧
    ((let f : Fields := ({ f0 with  typ := .n16, md := 0x12 } : Fields); let s : State := stateWith elem0; let i : Instr := .lscan f; fires i f s fun c => !isFloat f.typ && f.md.toNat % 8 < 3 && f.md.getLsbD 4 && c.sb != 0b10 && c.sb != 0b11)) = true ∧
    ((let f : Fields := ({ f0 with  typ := .n16, md := 0x12 } : Fields); let s : State := stateWith { elem0 with  qa := [⟨3, 0b10⟩] }; let i : Instr := .lscan f; fires i f s fun c => f.md.getLsbD 4 && c.sb == 0b10)) = true ∧
    ((let f : Fields := ({ f0 with  typ := .bf16, md := 0x10 } : Fields); let s : State := stateWith { elem0 with  qa := [⟨3, 0b11⟩] }; let i : Instr := .lscan f; fires i f s fun c => isFloat f.typ && f.md.toNat % 8 < 3 && f.md.getLsbD 4 && c.sb == 0b11)) = true := by decide +kernel

/-! ### Dataflow -/

theorem witness_Merging :
    (wit (.merge f0) f0 (stateWith elem0) (fun c => rowish (dt 3) && sFld c 0 2 == 0 && sFld c 2 1 == 0)) = true ∧
    (wit (.merge f0) f0 (stateWith { elem0 with  qa := [⟨3, 0b11⟩] }) (fun c => c.ha == some ⟨3, 0b11⟩ && sFld c 0 2 == 0 && sFld c 3 1 == 0)) = true ∧
    (wit (.merge f0) f0 (stateWith { elem0 with  qa := [⟨3, 0b11⟩], s := 9 }) (fun c => c.ha == some ⟨3, 0b11⟩ && sFld c 0 2 == 1 && sFld c 3 1 == 1)) = true ∧
    (wit (.merge f0) f0 (stateWith { elem0 with  qa := [bubble true], s := 0 }) (fun c => c.ha == some (bubble true) && endsStream (bubble true))) = true ∧
    (wit (.merge f0) f0 (stateWith { elem0 with  s := 2 }) (fun c => c.hb.isSome && sFld c 0 2 == 2)) = true ∧
    (wit (.merge f0) f0 (stateWith { elem0 with  qa := [ctl kSOT 0], qb := [⟨5, 0b10⟩] }) (fun c => c.hb.isSome && sFld c 0 2 == 0 && sFld c 3 1 == 0 && !rowish (ctl kSOT 0))) = true ∧
    (wit (.merge f0) f0 (stateWith { elem0 with  qa := [ctl kSOT 0], s := 1 }) (fun c => sFld c 0 2 == 1)) = true ∧
    (wit (.merge f0) f0 (stateWith { elem0 with  qb := [ctl kSOT 0], s := 2 }) (fun c => sFld c 0 2 == 2)) = true ∧
    (wit (.merge f0) f0 (stateWith { elem0 with  qa := [ctl kSOT 0], qb := [ctl kEOT 0] }) (fun c => sFld c 0 2 == 0)) = true ∧
    (wit (.mergep f0) f0 (stateWith { elem0 with  qp := [ctl kSOT 0] }) (fun c => c.hp == some (ctl kSOT 0))) = true ∧
    (wit (.mergep f0) f0 (stateWith { elem0 with  qp := [dt 0], qa := [ctl kSOT 0] }) (fun c => c.hp == some (dt 0) && c.hb == some (dt 5))) = true ∧
    (wit (.mergep f0) f0 (stateWith { elem0 with  qa := [ctl kSOT 0] }) (fun c => c.hp == some (dt 1) && c.ha == some (ctl kSOT 0))) = true := by decide +kernel

theorem witness_RowInstructions :
    (wit (.gate f0) f0 (stateWith { elem0 with  s := 1, qa := [⟨3, 0b10⟩], qp := [] }) (fun c => c.ha.isSome && sFld c 0 1 == 1)) = true ∧
    (wit (.gate ({ f0 with  imm := 1 } : Fields)) ({ f0 with  imm := 1 } : Fields) (stateWith { elem0 with  s := 1, qa := [⟨3, 0b10⟩], qp := [] }) (fun c => c.ha.isSome && sFld c 0 1 == 1)) = true ∧
    (wit (.gate f0) f0 (stateWith elem0) (fun c => sFld c 0 1 == 0 && c.hp == some (dt 1))) = true ∧
    (wit (.gate f0) f0 (stateWith { elem0 with  qp := [dt 0], qa := [⟨3, 0b11⟩] }) (fun c => sFld c 0 1 == 0 && c.hp == some (dt 0))) = true ∧
    (wit (.gate f0) f0 (stateWith { elem0 with  qp := [] }) (fun c => c.ops.contains .a && c.hp == none)) = true ∧
    (wit (.gate f0) f0 (stateWith { elem0 with  s := 1, qa := [ctl kSOT 0] }) (fun c => sFld c 0 1 == 1)) = true ∧
    (wit (.gate f0) f0 (stateWith { elem0 with  qa := [ctl kSOT 0] }) (fun c => sFld c 0 1 == 0)) = true ∧
    (wit (.drop ({ f0 with  out := .none } : Fields)) ({ f0 with  out := .none } : Fields) (stateWith { elem0 with  qa := [ctl kSWITCH 0] }) (fun c => c.ha.isSome)) = true ∧
    (wit (.drop ({ f0 with  imm := 1 } : Fields)) ({ f0 with  imm := 1 } : Fields) (stateWith { elem0 with  qa := [⟨3, 0b11⟩] }) (fun c => c.ha.isSome)) = true ∧
    ((let f : Fields := f0; let s : State := stateWith elem0; let i : Instr := .mark f; fires i f s fun c => f.out != .steer && c.pv && c.sb != 0b11)) = true ∧
    (wit (.strip ({ f0 with  out := .two } : Fields)) ({ f0 with  out := .two } : Fields) (stateWith { elem0 with  qa := [⟨3, 0b10⟩], s := 4 }) (fun c => c.ha.isSome)) = true ∧
    (wit (.strip ({ f0 with  out := .two } : Fields)) ({ f0 with  out := .two } : Fields) (stateWith { elem0 with  qa := [bubble true], s := 4 }) (fun c => c.ha.isSome)) = true := by decide +kernel

theorem witness_LoopsAndGenerators :
    (wit (.carry f0) f0 (stateWith elem0) (fun c => sFld c 0 1 == 0 && c.ha == some (dt 3))) = true ∧
    (wit (.carry ({ f0 with  a := .k0 } : Fields)) ({ f0 with  a := .k0 } : Fields) (stateWith { elem0 with  k0 := 7 }) (fun c => sFld c 0 1 == 0 && c.e.due)) = true ∧
    (wit (.carry f0) f0 (stateWith { elem0 with  s := 1 }) (fun c => sFld c 0 1 == 1 && c.hp == some (dt 1) && c.hb == some (dt 5))) = true ∧
    (wit (.carry f0) f0 (stateWith { elem0 with  s := 1, qb := [ctl kEOT 0] }) (fun c => c.hb == some (ctl kEOT 0))) = true ∧
    (wit (.carry f0) f0 (stateWith { elem0 with  s := 1, qp := [dt 0] }) (fun c => c.hp == some (dt 0))) = true ∧
    (wit (.carry f0) f0 (stateWith { elem0 with  s := 1, qp := [ctl kEOT 0] }) (fun c => c.hp == some (ctl kEOT 0))) = true ∧
    (wit (.invar f0) f0 (stateWith elem0) (fun c => c.hp == some (dt 1) && c.ha == some (dt 3))) = true ∧
    (wit (.invar f0) f0 (stateWith { elem0 with  qp := [dt 0] }) (fun c => c.hp == some (dt 0))) = true ∧
    (wit (.invar f0) f0 (stateWith { elem0 with  qa := [ctl kEOT 0] }) (fun c => c.hp == some (dt 1))) = true ∧
    ((let f : Fields := ({ f0 with  imm := 8 } : Fields); let s : State := stateWith { elem0 with  dk0 := 0 }; let i : Instr := .count f; wit i f s fun c => allData c && !hasDemands c.p c.x c.e (targetsOf c.i c.f))) = true ∧
    ((let f : Fields := ({ f0 with  typ := .n64, imm := 8 } : Fields); let s : State := stateWith { elem0 with  qa := [dt (2 ^ 32)] }; let i : Instr := .count f; wit i f s fun c => allData c && hasDemands c.p c.x c.e (targetsOf c.i c.f))) = true ∧
    ((let f : Fields := ({ f0 with  imm := 8 } : Fields); let s : State := stateWith { elem0 with  qa := [⟨0, 0b11⟩] }; let i : Instr := .count f; wit i f s fun c => allData c && hasDemands c.p c.x c.e (targetsOf c.i c.f))) = true ∧
    (wit (.count ({ f0 with  imm := 0xFFFF } : Fields)) ({ f0 with  imm := 0xFFFF } : Fields) (stateWith { elem0 with  s := 2 }) (fun c => sFld c 0 32 == 2)) = true ∧
    (wit (.rpt f0) f0 (stateWith { elem0 with  s := 1 }) (fun c => sFld c 0 32 == 1)) = true ∧
    ((let f : Fields := ({ f0 with  typ := .x, imm := 0x301 } : Fields); let s : State := stateWith elem0; let i : Instr := .emitc f; fires i f s fun _ => f.imm.toNat % 256 != kPOISON)) = true ∧
    ((let f : Fields := ({ f0 with  typ := .x, imm := 7 } : Fields); let s : State := stateWith elem0; let i : Instr := .emitc f; fires i f s fun _ => f.imm.toNat % 256 == kPOISON)) = true ∧
    (wit (.testc ({ f0 with  typ := .x, imm := 2, out := .two } : Fields)) ({ f0 with  typ := .x, imm := 2, out := .two } : Fields) (stateWith { elem0 with  qa := [ctl kEOT 0] }) (fun c => !predOff c && !isSwitch (ctl kEOT 0))) = true ∧
    (wit (.testc ({ f0 with  typ := .x, imm := 2 } : Fields)) ({ f0 with  typ := .x, imm := 2 } : Fields) (stateWith { elem0 with  qa := [⟨3, 0b10⟩] }) (fun c => !predOff c)) = true := by decide +kernel

/-- The same tile with operand A of slot 0 fed by channel 1 of port E (key 9), two slots deep, holding `l`. -/
def fedTile (e : Elem) (l : List Token) : Tile :=
  { tten := 1, pa := { (tileWith [e, {}, {}, {}, {}, {}]).pa with route := [(9, 0xD000)], salloc := [(9, 2)], lbuf := [(9, l)] } }

theorem witness_TagsAndRouting :
    (fires (.seqt ({ f0 with  typ := .x, imm := 1 } : Fields)) ({ f0 with  typ := .x, imm := 1 } : Fields) (stateWith { elem0 with  s := 6 }) (fun c => sFld c 0 32 == 6)) = true ∧
    (wit (.reord ({ f0 with  typ := .x, imm := 16 } : Fields)) ({ f0 with  typ := .x, imm := 16 } : Fields) (stateOf (fedTile { elem0 with s := 4 } [dt 5, dt 4])) (fun c => feedOf c.p c.x.eng c.x.slot .a == some 9 && (chanWindow c.p 9)[1]? == some (dt 4))) = true ∧
    (wit (.reord ({ f0 with  typ := .x, imm := 0 } : Fields)) ({ f0 with  typ := .x, imm := 0 } : Fields) (stateOf (fedTile { elem0 with s := 7 } [dt 5, dt 4])) (fun c => (chanWindow c.p 9).all (fun t => !isCtl t && lane 32 t.pay 0 != 7) && (c.p.salloc.get 9 0).toNat ≤ ((chanWindow c.p 9).filter isData).length)) = true ∧
    (wit (.reord ({ f0 with  typ := .x, imm := 0 } : Fields)) ({ f0 with  typ := .x, imm := 0 } : Fields) (stateOf (fedTile { elem0 with s := 7 } [dt 5])) (fun c => (chanWindow c.p 9) != [] && ((chanWindow c.p 9).filter isData).length < (c.p.salloc.get 9 0).toNat)) = true := by decide +kernel

/-! ### Routing, intersection, accumulators -/

theorem witness_TagsAndRouting_2 :
    (wit (.route ({ f0 with  b := .k0, t0 := .port 1 0 0 } : Fields)) ({ f0 with  b := .k0, t0 := .port 1 0 0 } : Fields) (stateWith { elem0 with  s := 11 }) (fun c => c.ha == some (dt 3) && sFld c 3 1 == 1)) = true ∧
    (wit (.route ({ f0 with  b := .k0, t0 := .port 1 0 0 } : Fields)) ({ f0 with  b := .k0, t0 := .port 1 0 0 } : Fields) (stateWith { elem0 with  s := 11, qa := [ctl kSOT 0] }) (fun c => sFld c 3 1 == 1)) = true ∧
    (wit (.route ({ f0 with  b := .k0, t0 := .port 1 0 0 } : Fields)) ({ f0 with  b := .k0, t0 := .port 1 0 0 } : Fields) (stateWith { elem0 with  s := 3, qa := [ctl kSOT 0] }) (fun c => sFld c 3 1 == 0)) = true ∧
    ((let f : Fields := ({ f0 with  imm := 4, t0 := .port 1 0 0 } : Fields); let s : State := stateWith elem0; let i : Instr := .route f; wit i f s fun c => sFld c 3 1 == 0 && f.b == .tok && c.hb == some (dt 5) && f.imm.toNat % 8 + 1 ≤ 5)) = true ∧
    ((let f : Fields := ({ f0 with  imm := 5, t0 := .port 1 0 0 } : Fields); let s : State := stateWith { elem0 with  qa := [⟨3, 0b10⟩] }; let i : Instr := .route f; wit i f s fun c => sFld c 3 1 == 0 && f.out == .one && c.hb == some (dt 5))) = true ∧
    ((let f : Fields := ({ f0 with  b := .k0, imm := 1, out := .two, t1 := .elem 3 .a, t0 := .port 1 0 0 } : Fields); let s : State := stateOf (let t := tileWith [{ elem0 with k0 := 1 }, {}, {}, {}]; { t with pa := { t.pa with dcnt := [(8, 3), (9, 5)] } }); let i : Instr := .route f; wit i f s fun c => sFld c 3 1 == 0 && f.out == .two && f.b != .tok)) = true := by decide +kernel

theorem witness_Intersection :
    ((let f : Fields := f0; let s : State := stateWith { elem0 with  qb := [⟨3 + 7 * 2 ^ 32, 0b10⟩] }; let i : Instr := .intx f; wit i f s fun c => !(xRead c.e.s).da && !(xRead c.e.s).db)) = true ∧
    (wit (.intx f0) f0 (stateWith elem0) (fun c => c.ha == some (dt 3) && c.hb == some (dt 5))) = true ∧
    ((let f : Fields := f0; let s : State := stateWith { elem0 with  s := xWrite ⟨9, true, false, true, false, false⟩ }; let i : Instr := .union f; wit i f s fun c => (xRead c.e.s).db && !(xRead c.e.s).da && c.ha == some (dt 3))) = true ∧
    ((let f : Fields := f0; let s : State := stateWith { elem0 with  s := xWrite ⟨0, false, true, false, true, false⟩ }; let i : Instr := .union f; wit i f s fun c => (xRead c.e.s).da && !(xRead c.e.s).db && c.hb == some (dt 5))) = true ∧
    (wit (.intx f0) f0 (stateWith { elem0 with  qa := [bubble true] }) (fun _ => isBubble (bubble true))) = true ∧
    ((let f : Fields := f0; let s : State := stateWith { elem0 with  qb := [bubble false], s := xWrite ⟨0, false, true, false, true, false⟩ }; let i : Instr := .intx f; wit i f s fun c => (xRead c.e.s).da && !(xRead c.e.s).db)) = true ∧
    (wit (.intx f0) f0 (stateWith { elem0 with  qa := [ctl kSOT 0] }) (fun c => isCtl (ctl kSOT 0) && !isBubble (ctl kSOT 0) && c.hb == some (dt 5))) = true ∧
    ((let f : Fields := f0; let s : State := stateWith { elem0 with  s := xWrite ⟨9, true, true, true, true, true⟩ }; let i : Instr := .intx f; wit i f s fun c => (xRead c.e.s).da && (xRead c.e.s).db && (xRead c.e.s).pv)) = true ∧
    ((let f : Fields := f0; let s : State := stateWith { elem0 with  s := xWrite ⟨9, false, true, true, true, false⟩ }; let i : Instr := .intx f; wit i f s fun c => (xRead c.e.s).da && (xRead c.e.s).db && !(xRead c.e.s).pv)) = true := by decide +kernel

theorem witness_AccumulatorCells :
    (({ sw := 5, aset := true, anc := 510 } : Cell).aset && ancOf { sw := 5, aset := true, anc := 510 } == 510 && (cellV { sw := 2 ^ 46, aset := true }).natAbs == 2 ^ 46 && ancOf { sw := 0, anc := 505 } == 505) = true := by decide +kernel

/-- An element on the matrix engine of the same tile. -/
def stateMat (e : Elem) (a : AccSet) : State :=
  let t := tileWith []
  { stateOf { t with pa := { t.pa with blk1 := none, blk2 := some { ents := [0], elems := [e, {}, {}, {}, {}, {}] }, acc0 := a } } with cur := ⟨0, 2, 0⟩ }
/-- A set with one cell. -/
def set1 : AccSet := { cells := [(33, { sw := 7, aset := true })], scnt := 3 }
theorem witness_cellsOk : cellsOk set1 ∧ cellsOk {} := ⟨⟨by decide, by decide⟩, by decide, by decide⟩

theorem witness_AccumulatorUpdates :
    (fires (.aclr ({ f0 with  typ := .x } : Fields)) ({ f0 with  typ := .x } : Fields) (stateMat elem0 set1) (fun c => (setOf c).rdo.kind == 0)) = true ∧
    (fires (.mma ({ f0 with  typ := .mx, md := 1 } : Fields)) ({ f0 with  typ := .mx, md := 1 } : Fields) (stateMat elem0 set1) (fun c => (setOf c).rdo.kind == 0 && c.p.acc0.rdo.kind != 4 && c.p.acc1.rdo.kind != 4)) = true ∧
    ((let f : Fields := ({ f0 with  typ := .fp32, imm := 0x1F } : Fields); let s : State := stateMat elem0 set1; let i : Instr := .aaddv f; fires i f s fun c => (setOf c).rdo.kind == 0 && f.typ == .fp32)) = true ∧
    (fires (.aresc ({ f0 with  typ := .i16 } : Fields)) ({ f0 with  typ := .i16 } : Fields) (stateMat elem0 set1) (fun c => (setOf c).rdo.kind == 0)) = true ∧
    (wit (.aclr ({ f0 with  typ := .x } : Fields)) ({ f0 with  typ := .x } : Fields) (stateMat elem0 { set1 with rdo := ⟨1, 2, 0⟩ }) (fun c => mayExec c && held c && (setOf c).rdo.kind != 0)) = true := by decide +kernel

theorem witness_AccumulatorCompares :
    (fires (.acmp ({ f0 with  typ := .fp32, imm := 31 } : Fields)) ({ f0 with  typ := .fp32, imm := 31 } : Fields) (stateMat elem0 set1) (fun c => (setOf c).rdo.kind == 0)) = true ∧
    (fires (.acmpq ({ f0 with  typ := .fp32, imm := 1 } : Fields)) ({ f0 with  typ := .fp32, imm := 1 } : Fields) (stateMat elem0 set1) (fun c => (setOf c).rdo.kind == 0)) = true ∧
    (fires (.astat ({ f0 with  typ := .x } : Fields)) ({ f0 with  typ := .x } : Fields) (stateMat elem0 set1) (fun c => (setOf c).rdo.kind == 0)) = true := by decide +kernel

theorem witness_AccumulatorImages :
    (!badImage (cellImage { sw := 7, aset := true }) && badImage (cellImage { sw := 7 }) && !badImage 0) = true ∧
    (wit (.aldi ({ f0 with  typ := .x } : Fields)) ({ f0 with  typ := .x } : Fields) (stateMat { elem0 with qa := [dt 64] } set1) (fun c => mayExec c && (setOf c).rdo.kind == 0 && c.e.nf.toNat % 9 == 0 && (c.va 512).toNat / 64 != 0)) = true ∧
    ((let f : Fields := ({ f0 with  typ := .x, imm := 31 * 32 } : Fields); let s : State := stateMat { elem0 with nf := 8 } set1; let i : Instr := .aldi f; wit i f s fun c => mayExec c && c.e.nf.toNat % 9 == 8 && row0 f + nrow f == 32 && badImage (lane 128 (c.va 512) 0))) = true ∧
    (wit (.aldi ({ f0 with  typ := .x, imm := 31 * 32 } : Fields)) ({ f0 with  typ := .x, imm := 31 * 32 } : Fields) (stateMat { elem0 with nf := 8, qa := [dt (cellImage { sw := 9, aset := true })] } set1) (fun c => mayExec c && held c && !badImage (lane 128 (c.va 512) 0) && !badImage (lane 128 (c.va 512) 3))) = true := by decide +kernel

theorem witness_Readouts :
    (wit (.resolve ({ f0 with  typ := .bf16 } : Fields)) ({ f0 with  typ := .bf16 } : Fields) (stateMat elem0 set1) (fun c => mayExec c && (setOf c).rdo.kind == 0)) = true ∧
    (wit (.aimg ({ f0 with  typ := .x } : Fields)) ({ f0 with  typ := .x } : Fields) (stateMat elem0 set1) (fun c => mayExec c && (setOf c).rdo.kind == 0)) = true ∧
    (wit (.aredl ({ f0 with  typ := .x } : Fields)) ({ f0 with  typ := .x } : Fields) (stateMat elem0 set1) (fun c => mayExec c && (setOf c).rdo.kind == 0)) = true := by decide +kernel

/-! ### Readouts, sort, rings -/

theorem witness_Readouts_2 :
    ((match readoutOwner (stateMat { elem0 with word := 0x84A8401002100000 } { set1 with rdo := ⟨1, 0, 0⟩ }) 0 false with | some c => hasDemands c.p c.x c.e (targetsOf c.i c.f) && c.f.md.getLsbD 0 && enabledLane c.l.rcd.fpen (readoutAt c 1 0 set1).fls == none | none => false) && tileRuns (stateMat elem0 set1) 0) = true ∧
    ((match readoutOwner (stateMat { elem0 with word := 0x84A8401002100000, dk0 := 0 } { set1 with rdo := ⟨1, 0, 1⟩ }) 0 false with | some c => !hasDemands c.p c.x c.e (targetsOf c.i c.f) | none => false)) = true ∧
    (cellNan { nans := true } && !cellNan {} && ({ infp := true } : Cell).infp && ({ aset := true } : Cell).aset) = true ∧
    ((let f : Fields := ({ f0 with  typ := .fp32 } : Fields); let s : State := stateMat elem0 {}; let i : Instr := .rroot f; fires i f s fun _ => tyBits f.typ == 32)) = true := by decide +kernel

theorem witness_SortMode :
    (wit (.xsort ({ f0 with  typ := .n32 } : Fields)) ({ f0 with  typ := .n32 } : Fields) (stateMat elem0 {}) (fun c => c.ha == some (dt 3) && (setOf c).rdo.kind == 0)) = true ∧
    (wit (.xsort ({ f0 with  typ := .n32 } : Fields)) ({ f0 with  typ := .n32 } : Fields) (stateMat { elem0 with qa := [⟨3, 0b11⟩] } { rdo := ⟨4, 0, 0⟩, sort := { keys := [(9, 0)], runs := [(0, 16)] } }) (fun c => (setOf c).rdo.kind == 4 && (setOf c).rdo.slot == c.x.slot && (setOf c).sort.words == [])) = true ∧
    (wit (.xsort ({ f0 with  typ := .n32 } : Fields)) ({ f0 with  typ := .n32 } : Fields) (stateMat elem0 { rdo := ⟨1, 0, 0⟩ }) (fun c => (setOf c).rdo.kind != 0)) = true ∧
    (wit (.xsort ({ f0 with  typ := .n32 } : Fields)) ({ f0 with  typ := .n32 } : Fields) (stateMat { elem0 with qa := [ctl kSOT 0] } {}) (fun _ => isCtl (ctl kSOT 0))) = true ∧
    (wit (.xsort ({ f0 with  typ := .n32 } : Fields)) ({ f0 with  typ := .n32 } : Fields) (stateMat { elem0 with qa := [ctl kSOT 0] } { rdo := ⟨4, 0, 0⟩, sort := { keys := [(9, 0)], runs := [(0, 16)] } }) (fun c => held c && (setOf c).rdo.kind == 4)) = true ∧
    ((match readoutOwner (stateMat { elem0 with word := 0x9070001000000014 } { rdo := ⟨4, 0, 0⟩, sort := { words := [(0, dt 1)] } }) 0 false with | some c => hasDemands c.p c.x c.e [(0, c.f.t0)] && (targetsOf c.i c.f).find? (fun (m : Nat × Target) => m.1 == 0) == some (0, c.f.t0) && tileRuns (stateMat elem0 {}) 0 | none => false)) = true ∧
    ((match readoutOwner (stateMat { elem0 with word := 0x9070001000000014, dk0 := 0 } { rdo := ⟨4, 0, 0⟩, sort := { words := [(0, dt 1), (0, dt 2)] } }) 0 false with | some c => !hasDemands c.p c.x c.e [(0, c.f.t0)] | none => false)) = true ∧
    (wit (.xmerge ({ f0 with  typ := .n32 } : Fields)) ({ f0 with  typ := .n32 } : Fields) (stateMat { elem0 with xm := { da := true, db := true, xa := true, xb := true } } {}) (fun c => c.e.xm.da && c.e.xm.db && c.e.xm.pend == [])) = true ∧
    (wit (.xmerge ({ f0 with  typ := .n32 } : Fields)) ({ f0 with  typ := .n32 } : Fields) (stateMat { elem0 with xm := { da := true, db := true, xa := true, pend := [4, 5] } } {}) (fun c => c.e.xm.da && c.e.xm.db && c.e.xm.pend != [])) = true ∧
    (wit (.xmerge ({ f0 with  typ := .n32 } : Fields)) ({ f0 with  typ := .n32 } : Fields) (stateMat { elem0 with xm := { pend := [1, 2, 3, 4, 5, 6, 7, 8] } } {}) (fun c => 8 ≤ c.e.xm.pend.length && !c.e.xm.da)) = true ∧
    (wit (.xmerge ({ f0 with  typ := .n32 } : Fields)) ({ f0 with  typ := .n32 } : Fields) (stateMat elem0 {}) (fun c => c.e.xm.bufA == [] && !c.e.xm.da && c.ha == some (dt 3) && c.hb == some (dt 5))) = true ∧
    (wit (.xmerge ({ f0 with  typ := .n32 } : Fields)) ({ f0 with  typ := .n32 } : Fields) (stateMat { elem0 with qa := [] } {}) (fun c => c.e.xm.bufB == [] && !c.e.xm.db && c.ha == none && c.hb == some (dt 5))) = true ∧
    (wit (.xmerge ({ f0 with  typ := .n32 } : Fields)) ({ f0 with  typ := .n32 } : Fields) (stateMat { elem0 with qa := [ctl kSOT 0] } {}) (fun c => xmIdle c.e.xm && c.ha == some (ctl kSOT 0) && c.hb == some (dt 5))) = true ∧
    (wit (.xmerge ({ f0 with  typ := .n32 } : Fields)) ({ f0 with  typ := .n32 } : Fields) (stateMat { elem0 with qb := [ctl kSOT 0] } {}) (fun c => xmIdle c.e.xm && c.hb == some (ctl kSOT 0) && c.ha == some (dt 3))) = true ∧
    (wit (.xmerge ({ f0 with  typ := .n32 } : Fields)) ({ f0 with  typ := .n32 } : Fields) (stateMat { elem0 with qb := [ctl kSOT 0], xm := { bufA := [3] } } {}) (fun c => !xmIdle c.e.xm && c.e.xm.bufB == [] && c.e.xm.bufA != [])) = true := by decide +kernel

/-- A tile whose banks all serve, with ring 0 as given. -/
def ringTile (e : Elem) (r : Ring) : Tile :=
  { tten := 1, bankg := 0xFFFF, bpm := (List.range 16).map fun b => (b, .active),
    pa := { (tileWith [e, {}, {}, {}, {}, {}]).pa with rings := [(0, r)] } }
/-- A ring of four entries of two words at the foot of bank 1, with one full entry. -/
def ring0 : Ring := { v := true, esz := 1, nent := 3, base := 0x10000, tail := 1, cnt := 1 }
theorem witness_BanksServe (c : Ctx) (h : c.t = ringTile elem0 ring0) : BanksServe c [0x10000, 0xFFFC0] := by
  intro o ho
  simp only [List.mem_cons, List.not_mem_nil, or_false] at ho
  rcases ho with rfl | rfl <;> rw [h] <;> exact ⟨by decide, by decide, fun d hd => by cases hd⟩

/-- The matrix engine over two rings of such a tile. -/
def stateRings (e : Elem) (a b : Ring) : State :=
  let t := ringTile elem0 {}
  { stateOf { t with pa := { t.pa with blk1 := none, blk2 := some { ents := [0], elems := [e, {}, {}, {}, {}, {}] }, rings := [(0, a), (1, b)] } } with cur := ⟨0, 2, 0⟩ }

/-- A request of the element at slot 0. -/
def req0 (op : ReqOp) (d : Dest) (ph : Phase) (l : List Piece) : Req := { lease := 0, ten := 1, who := ⟨0, 1, 0⟩, plane := false, op := op, rest := l, all := l, dest := d, phase := ph }

theorem witness_Rings :
    (ringFull { ring0 with cnt := 4 } && ringFull { ring0 with cnt := 3, wpos := 1 } && !ringFull { ring0 with cnt := 3 } && ringLand { ring0 with resv := [(1, false)] } 1 == { ring0 with cnt := 2 } && ringLand { ring0 with resv := [(1, false), (2, false)] } 2 == { ring0 with resv := [(1, false), (2, true)] }) = true ∧
    (wit (.rpush ({ f0 with  typ := .x } : Fields)) ({ f0 with  typ := .x } : Fields) (stateOf (ringTile elem0 { ring0 with v := false })) (fun c => mayExec c && !ringSetDue c.p 0 && !(ringAt c.p 0).v)) = true ∧
    (wit (.rpush ({ f0 with  typ := .x } : Fields)) ({ f0 with  typ := .x } : Fields) (stateOf (ringTile elem0 { ring0 with cnt := 4 })) (fun c => mayExec c && !ringSetDue c.p 0 && ringFull (ringAt c.p 0))) = true ∧
    (wit (.rpush ({ f0 with  typ := .x } : Fields)) ({ f0 with  typ := .x } : Fields) (stateOf (ringTile elem0 { ring0 with wpos := 1 })) (fun c => mayExec c && !ringSetDue c.p 0 && !ringFull (ringAt c.p 0) && held c)) = true ∧
    (fires (.rpop ({ f0 with  typ := .x } : Fields)) ({ f0 with  typ := .x } : Fields) (stateOf (ringTile elem0 { ring0 with cnt := 0 })) (fun c => !ringSetDue c.p 0 && (ringAt c.p 0).cnt == 0)) = true ∧
    (fires (.rpop ({ f0 with  typ := .x } : Fields)) ({ f0 with  typ := .x } : Fields) (stateOf (ringTile elem0 { ring0 with rpos := 1 })) (fun c => !ringSetDue c.p 0 && (ringAt c.p 0).cnt != 0)) = true ∧
    (fires (.rpop ({ f0 with  typ := .x } : Fields)) ({ f0 with  typ := .x } : Fields) (stateOf (ringTile elem0 { ring0 with v := false })) (fun c => !(ringAt c.p 0).v)) = true ∧
    (fires (.rpopDisc ({ f0 with  typ := .x } : Fields)) ({ f0 with  typ := .x } : Fields) (stateOf (ringTile elem0 { ring0 with rpos := 1 })) (fun c => (ringAt c.p 0).cnt != 0 && (ringAt c.p 0).rpos != 0)) = true ∧
    (fires (.rpopDisc ({ f0 with  typ := .x } : Fields)) ({ f0 with  typ := .x } : Fields) (stateOf (ringTile elem0 { ring0 with cnt := 0 })) (fun c => (ringAt c.p 0).cnt == 0)) = true ∧
    (fires (.rpopDisc ({ f0 with  typ := .x } : Fields)) ({ f0 with  typ := .x } : Fields) (stateOf (ringTile elem0 ring0)) (fun c => (ringAt c.p 0).cnt != 0 && (ringAt c.p 0).rpos == 0)) = true ∧
    (fires (.rstat ({ f0 with  typ := .x } : Fields)) ({ f0 with  typ := .x } : Fields) (stateOf (ringTile elem0 ring0)) (fun c => !ringSetDue c.p 0)) = true ∧
    (fires (.rstatSet ({ f0 with  typ := .x } : Fields)) ({ f0 with  typ := .x } : Fields) (stateOf (ringTile elem0 ring0)) (fun c => !ringSetDue c.p 0 && (ringAt c.p 0).cnt != 0)) = true ∧
    (fires (.rstatSet ({ f0 with  typ := .x, a := .s } : Fields)) ({ f0 with  typ := .x, a := .s } : Fields) (stateOf (ringTile { elem0 with s := BitVec.ofNat 512 ((0x9870 * 2 ^ 16 + 0x0F40) * 2 ^ 96) } {})) (fun c => c.ops == [] && !(ringAt c.p 0).v)) = true ∧
    (fires (.mmaRing ({ f0 with  typ := .bf16, imm := 0x41 } : Fields)) ({ f0 with  typ := .bf16, imm := 0x41 } : Fields) (stateRings elem0 { ring0 with cnt := 0 } ring0) (fun c => !ringSetDue c.p 0 && !ringSetDue c.p 1 && (ringAt c.p 0).v && (ringAt c.p 1).v && (ringAt c.p 0).cnt == 0)) = true ∧
    (fires (.mmaRing ({ f0 with  typ := .bf16, imm := 0x41 } : Fields)) ({ f0 with  typ := .bf16, imm := 0x41 } : Fields) (stateRings elem0 ring0 { ring0 with base := 0x20000 }) (fun c => (setOf c).rdo.kind == 0 && (ringAt c.p 0).cnt != 0 && (ringAt c.p 1).cnt != 0 && (ringAt c.p 0).rpos == 0 && bankReady c.t 1 && bankReady c.t 2)) = true ∧
    ((match ({ stateOf (ringTile elem0 { ring0 with resv := [(1, false)] }) with reqs := [(4, { req0 (.read false false 0) (.ring 0 1 1) .done [] with got := 77 })] }).reqs.find 4 with | some r => decide (r.dest = Dest.ring 0 1 1 ∧ r.phase = Phase.done) && bankReady (ringTile elem0 ring0) (bankOf (ringOff ring0 1 1)) && ringOff ring0 1 1 % 16 == 0 | none => false)) = true := by decide +kernel

/-! ### Scratch memory -/

/-- `InLease`, computed. -/
def InLeaseB (c : Ctx) (a : Nat) : Bool := decide (a < 2 ^ 34) && decide (a / 2 ^ 20 < leaseW c.l.rcd * leaseH c.l.rcd)

/-- Lease 0 with tensor 2 of four N32 elements. -/
def leaseTid : Lease := { lease0 with tids := [(2, { fmt := 3, base := 0x1000, exts := [4], strs := [4] })] }

def reqRd : Req := req0 (.read false false 0) (.targets [0] 0) .home [{ sp := .scr, addr := 8, len := 4, pos := 0 }]

theorem witness_ScratchRequests :
    (fires (.lds ({ f0 with  imm := 1 } : Fields)) ({ f0 with  imm := 1 } : Fields) (stateWith { elem0 with  qa := [dt 0x10008] }) (fun c => InLeaseB c 0x1000C && (c.aa + 4) % 4 == 0 && c.e.outs.toNat < 16)) = true ∧
    (fires (.lds ({ f0 with  imm := 1 } : Fields)) ({ f0 with  imm := 1 } : Fields) (stateWith { elem0 with  qa := [dt 0xFFFFC] }) (fun c => !InLeaseB c 0x100000)) = true ∧
    (fires (.sts ({ f0 with  imm := 0xFFFF } : Fields)) ({ f0 with  imm := 0xFFFF } : Fields) (stateWith { elem0 with  qa := [dt 6] }) (fun c => InLeaseB c 2)) = true ∧
    (fires (.sts ({ f0 with  imm := 0xFFFF } : Fields)) ({ f0 with  imm := 0xFFFF } : Fields) (stateWith { elem0 with  qa := [dt 0] }) (fun c => !InLeaseB c (2 ^ 64 - 4))) = true ∧
    (fires (.sts f0) f0 (stateWith { elem0 with  qa := [dt 8], outs := 16 }) (fun c => InLeaseB c 8 && c.e.outs.toNat == 16)) = true ∧
    (fires (.ldsi f0) f0 (stateWith { elem0 with  qa := [dt 0xFFFF0], qb := [⟨ofLanes 32 [0, 3, 1, 2, 0, 0, 0, 0, 0, 0, 0, 0, 0, 0, 0, 3], 0⟩] }) (fun c => InLeaseB c 0xFFFFC)) = true ∧
    (fires (.stsi f0) f0 (stateWith { elem0 with  qa := [dt 0xFFFF0], qb := [⟨ofLanes 32 [0, 4, 1], 0⟩] }) (fun c => !InLeaseB c 0x100000 && InLeaseB c 0xFFFF0)) = true ∧
    (fires (.feset ({ f0 with  typ := .x } : Fields)) ({ f0 with  typ := .x } : Fields) (stateWith { elem0 with  qa := [dt (0xFFFF0 + 2 ^ 64)] }) (fun c => lane 64 (c.va 64) 1 == 1 && InLeaseB c 0xFFFF0)) = true ∧
    (fires (.feclr ({ f0 with  typ := .x } : Fields)) ({ f0 with  typ := .x } : Fields) (stateWith { elem0 with  qa := [dt (0xFFFF0 + 2 * 2 ^ 64)] }) (fun c => lane 64 (c.va 64) 0 % 2 ^ 20 + 32 > 2 ^ 20)) = true ∧
    (fires (.feclr ({ f0 with  typ := .x } : Fields)) ({ f0 with  typ := .x } : Fields) (stateWith { elem0 with  qa := [dt (8 + 2 ^ 64)] }) (fun c => lane 64 (c.va 64) 0 % 16 == 8)) = true ∧
    (fires (.prefw ({ f0 with  typ := .x } : Fields)) ({ f0 with  typ := .x } : Fields) (stateWith { elem0 with  qa := [dt (2 ^ 20 * 2 ^ 64)] }) (fun c => lane 64 (c.va 64) 1 == 2 ^ 20)) = true ∧
    (fires (.prefw ({ f0 with  typ := .x } : Fields)) ({ f0 with  typ := .x } : Fields) (stateWith { elem0 with  qa := [dt (1 + 2 ^ 20 * 2 ^ 64)] }) (fun c => lane 64 (c.va 64) 0 == 1)) = true ∧
    ((let f : Fields := ({ f0 with  md := 3 } : Fields); let s : State := stateWith { elem0 with  qa := [dt 8] }; let i : Instr := .aadd f; fires i f s fun c => !f.md.getLsbD 5 && InLeaseB c c.aa)) = true ∧
    ((let f : Fields := ({ f0 with  typ := .n64 } : Fields); let s : State := stateWith { elem0 with  qa := [dt 12] }; let i : Instr := .acas f; fires i f s fun c => !f.md.getLsbD 5 && c.aa % 8 == 4)) = true ∧
    ((let f : Fields := ({ f0 with  md := 32, imm := 0x20 } : Fields); let s : State := { stateWith { elem0 with  qa := [dt 3] } with leases := [(0, leaseTid)] }; let i : Instr := .amax f; fires i f s fun c => f.md.getLsbD 5 && (tidFor c 2).fmt == 3 && tidCount (tidFor c 2) == 4)) = true ∧
    (fires (.amax ({ f0 with  md := 32, imm := 0x20 } : Fields)) ({ f0 with  md := 32, imm := 0x20 } : Fields) ({ stateWith { elem0 with  qa := [dt 4] } with leases := [(0, leaseTid)] }) (fun c => (tidFor c 2).fmt == 3 && tidCount (tidFor c 2) ≤ c.aa)) = true ∧
    (fires (.amax ({ f0 with  md := 32, typ := .n64, imm := 0x20 } : Fields)) ({ f0 with  md := 32, typ := .n64, imm := 0x20 } : Fields) ({ stateWith { elem0 with  qa := [dt 3] } with leases := [(0, leaseTid)] }) (fun c => (tidFor c 2).fmt != 4)) = true ∧
    ((let f : Fields := ({ f0 with  typ := .x, md := 3 } : Fields); let s : State := { stateWith elem0 with reqs := [(0, reqRd)], nextReq := 1 }; let i : Instr := .fence f; wit i f s fun c => c.ha == some (dt 3) && !reqWrites reqRd && (fenceDue s 0 3).isEmpty)) = true ∧
    ((let f : Fields := ({ f0 with  typ := .x, md := 2 } : Fields); let s : State := { stateWith elem0 with reqs := [(0, { reqRd with phase := .faulted })], nextReq := 1 }; let i : Instr := .fence f; wit i f s fun c => c.ha == some (dt 3) && reqRd.counted && !(fenceDue s 0 2).isEmpty && !mayPass s (fenceDue s 0 2))) = true ∧
    ((let f : Fields := ({ f0 with  typ := .x, md := 14 } : Fields); let s : State := { stateWith elem0 with reqs := [(0, reqRd)], nextReq := 1 }; let i : Instr := .fence f; wit i f s fun c => c.ha == some (dt 3) && !(fenceDue s 0 2).isEmpty && mayPass s (fenceDue s 0 2))) = true := by decide +kernel

/-- A granted tile with one request at bank 0. -/
def bankState (op : ReqOp) (feb : List Nat) (mem : List Host.Cell) : State :=
  { stateOf (ringTile elem0 {}) with feb := feb, scratch := mem, reqs := [(3, req0 op (.targets [0] 0) .home [{ sp := .scr, addr := 8, len := 4, pos := 0 }])] }

/-- The same with the load already waiting for its granule. -/
def waitState (feb : List Nat) (n : BitVec 24) : State :=
  { bankState .wake feb [(9, 7)] with
    reqs := [(3, { req0 (.read true true 0) (.targets [0] 0) .home [{ sp := .scr, addr := 8, len := 4, pos := 0 }] with waitFe := true, fewait := n })] }

theorem witness_BankService :
    ((scrPlace (bankState .wake [] []) 0 8).1 == 0 && (scrPlace (bankState .wake [] []) 0 8).2 == 8 && !granted (tileWith []) 0 && granted (ringTile elem0 {}) 0 && bankReady (ringTile elem0 {}) 0) = true ∧
    ((match (bankState (.write 7) [] []).reqs.find 3 with | some r => scrTurn (bankState (.write 7) [] []) 3 r 0 0 && (releaseDue (bankState (.write 7) [] []) 3 r 0).isEmpty && (match pickGranule r.rest 0 with | some (p, rest) => p.addr == 8 && rest == [] | none => false) | none => false)) = true ∧
    (memoriesCanonical (bankState (.feb false) [0] [(8, 1)])) = true ∧
    (memoriesCanonical (bankState (.atomic 0xB9 32 false 7 0 0 0) [] [(8, 7)])) = true ∧
    (memoriesCanonical (bankState (.atomic 0xB8 32 false 9 6 0 0) [] [(8, 7)])) = true ∧
    (memoriesCanonical (bankState (.read true true 0) [0] [(9, 7)]) && !feAhead (bankState (.read true true 0) [0] [(9, 7)]) 3 (req0 (.read true true 0) (.targets [0] 0) .home [{ sp := .scr, addr := 8, len := 4, pos := 0 }]) 0 0) = true ∧
    (memoriesCanonical (bankState (.read true false 0) [] [(9, 7)])) = true ∧
    ((match (waitState [0] 5).reqs.find 3 with | some r => r.waitFe && !feAhead (waitState [0] 5) 3 r 0 0 | none => false)) = true ∧
    ((match (waitState [] 0xFFFFFF).reqs.find 3 with | some r => r.waitFe && 2 ^ 24 ≤ r.fewait.toNat + 1 | none => false) && (0xFFFFFE : BitVec 24).toNat + 1 < 2 ^ 24) = true := by decide +kernel

/-! ### Memory service -/

/-- Lease 0 with tables at 0x1000: the first gigabyte maps to itself, writable; its HBM frame 0 and key are tenant 1's. -/
def leasePt : Lease := { leaseTid with rcd := { tenid := 1, ptbr := 0x1000 } }
def pageTables : List Host.Cell := Memory.writeN (Memory.writeN [] 8 0x1000 (2 ^ 63 + 0x2000)) 8 0x2000 (2 ^ 63 + 2 ^ 62 + 2 ^ 57)
def memState (mem : List Host.Cell) (r : Req) : State :=
  { stateOf (ringTile elem0 {}) with leases := [(0, leasePt)], mem := mem, fot := [(0, 1)], kslot := [(1, 5)], reqs := [(3, r)] }
def vaPiece : Piece := { sp := .va, addr := 0x1234, len := 4, pos := 0 }
def paPiece : Piece := { sp := .pa, addr := 0x1234, len := 4, pos := 0 }
def hostPiece : Piece := { sp := .pa, addr := 2 ^ 50 + 0x1234, len := 4, pos := 0 }
def reqAt (op : ReqOp) (d : Dest) (ph : Phase) (l : List Piece) : Req := req0 op d ph l

/-- A landing buffer entry for operand A of slot 0. -/
def land0 : Land := ⟨dt 4, false, 1, 0, some .a, 3⟩

theorem witness_MemoryService :
    (tileBound (ringTile elem0 {}) && (ringTile elem0 {}).moving == false && !tileBound {} && (ringTile elem0 {}).tlease.toNat != 1) = true ∧
    (0x1234 / 2 ^ lvlShift 2 == 0 && 0x1234 / 2 ^ lvlShift 0 == 0 && 0x1234 / 2 ^ 16 != 1) = true ∧
    (untranslated (req0 (.write 7) .none .issued [vaPiece]) == some vaPiece && tlbHits { lease := 0, ten := 1, level := 2, vpn := 0, pa := 0, w := true, okind := 0, d := true } 0 1 0x1234) = true ∧
    ((walkLease (memState pageTables (req0 (.write 7) .none .issued [vaPiece])) 0 0x1234 true).2 == .leaf 2 0 0 true true) = true ∧
    ((walkLease (memState pageTables (req0 (.write 7) .none .issued [vaPiece])) 0 (2 ^ 48) true).2 == .fail cPteInvalid 0 && (walkLease (memState [] (req0 (.write 7) .none .issued [vaPiece])) 0 0x1234 true).2 == .absent) = true ∧
    ((let s := memState [] (req0 (.write 0x99) .none .issued [paPiece]); let r := req0 (.write 0x99) .none .issued [paPiece]; memoriesCanonical s && orderHolds s 3 r paPiece && (releaseDue s 3 r 0).isEmpty && !standsBack s r paPiece && soTurn r paPiece && laneTurn r paPiece && channelCause s 1 0x1234 == none && paClass 0x1234 == 0)) = true ∧
    (channelCause (memState [] (req0 .wake .none .done [])) 2 0x1234 == some cFrameOwner && channelCause { memState [] (req0 .wake .none .done []) with kslot := [] } 1 0x1234 == some cKeyAbsent && channelCause State.reset 5 (2 ^ 50) == none && channelCause State.reset 63 0 == some cKeyAbsent) = true ∧
    (paClass (2 ^ 50 + 0x1234) == 1 && portUp (memState [] (req0 .wake .none .done [])) 1 && !portUp { State.reset with linkUp0 := false } 16 && channelCause (memState [] (req0 .wake .none .done [])) 1 (2 ^ 50 + 0x1234) == none) = true ∧
    ((let s := memState [] (req0 .wake (.targets [0] 0) .done []); let r := req0 .wake (.targets [0] 0) .done []; !replyBehind s 3 r && !stored (leaseAt s 0) && r.err.isNone)) = true ∧
    ((let p := (fedTile elem0 []).pa; feedOf p 1 0 .a == some 9 && !(p.px8.get 9 {}).bad && !landedBefore (fedTile elem0 []) 1 0 .a && !mayLand p 1 && !suspended p 1 && (p.lbuf.get 9 []).length < (p.salloc.get 9 0).toNat)) = true ∧
    (((fedTile elem0 [dt 1, dt 2]).pa.salloc.get 9 0).toNat ≤ ((fedTile elem0 [dt 1, dt 2]).pa.lbuf.get 9 []).length) = true ∧
    (blockShut (leaseAt (stateOf (fedTile elem0 [])) 0) (fedTile elem0 []).pa 1 == false) = true := by decide +kernel

/-- An element that K0 sends to operand A of slot 5 of its own tile and engine. -/
def elemLd : Elem := { elem0 with s := ofLanes 64 [0, 4], k0 := BitVec.ofNat 64 (2 ^ 9 + 5 * 4), rbkt := 1024 }
def tenState (e : Elem) : State := { memState [] (req0 .wake .none .done []) with tiles := [(0, ringTile e {})], reqs := [] }

/-- Such a tile with an AWAIT in its block and every landing entry taken. -/
def landState (e : Elem) : State :=
  let t := ringTile e {}
  let b : Block := (t.pa.blk1.getD {})
  let p := { t.pa with blk1 := some { b with elems := [e, { word := 0xE600000000000000 }, {}, {}, {}, {}] } }
  { tenState e with tiles := [(0, { t with pa := p, landb := List.replicate 16 land0 })] }

/-- A window that feeds ring 0 of the plane. -/
def feedState : State :=
  let t := ringTile elem0 { ring0 with esz := 0 }
  { tenState elem0 with tiles := [(0, { t with pa := { t.pa with wins := [(0, { v := true, tid := 2, low := 0, feed := 0, stop := 16 })] } })] }

theorem witness_TensorRanges :
    ((match readParam (ofLanes 64 [0, 4, 2, 3]) { fmt := 3, exts := [5], strs := [4] } false false with | .ok p => p.rows == 2 | _ => false) && (match readParam (ofLanes 64 [0, 4, 2, 3]) { fmt := 3, exts := [4], strs := [4] } false false with | .error c => c == cTensorRange | _ => false) && (match readParam (ofLanes 64 [0, 0, 2, 3]) { fmt := 3, exts := [4], strs := [4] } false false with | .error c => c == cSpbInvalid | _ => false)) = true ∧
    ((let f : Fields := ({ f0 with  typ := .x, a := .s, out := .none, imm := 0x20 } : Fields); let s : State := tenState elemLd; let i : Instr := .ldt f; wit i f s fun c => c.ops == [] && c.e.due && !c.e.rqp.act && (match readParam c.e.s (tidFor c 2) false false with | .ok _ => true | _ => false))) = true ∧
    ((let f : Fields := ({ f0 with  typ := .x, a := .s, out := .none, imm := 0x20 } : Fields); let s : State := tenState { elemLd with s := ofLanes 64 [1, 4] }; let i : Instr := .ldt f; wit i f s fun c => c.ops == [] && (match readParam c.e.s (tidFor c 2) false false with | .error x => x == cTensorRange | _ => false))) = true ∧
    (wit (.ldt ({ f0 with  typ := .x, md := 1, out := .none, imm := 0x20 } : Fields)) ({ f0 with  typ := .x, md := 1, out := .none, imm := 0x20 } : Fields) (tenState { elemLd with qa := [⟨ofLanes 64 [0, 4, 2], 0b11⟩], qb := [⟨ofLanes 64 [2 + 1 * 2 ^ 32, 0], 0b11⟩] }) (fun c => allData c && (match readParam (c.va 64) (tidFor c 2) true false with | .ok p => p.rows == 2 | _ => false) && (match c.hb with | some b => indexRows b.pay != [] | none => false))) = true ∧
    ((match fieldsAt (activePlane (ringTile { elemLd with word := 0xA000300002000000, rqp := { act := true, count := 4, rowlen := 4, stride := 4, esb := 0b11 } } {})) 1 0 with | some (.ldt f, _) => f.imm == 0x20 | _ => false)) = true ∧
    (!decide ((elem0).rbkt ≥ 1024) && decide (elemLd.rbkt ≥ 1024)) = true ∧
    ((let f : Fields := ({ f0 with  typ := .x, a := .s, out := .none, imm := 0x20 } : Fields); let s : State := landState elemLd; let i : Instr := .stt f; wit i f s fun c => landFull s (noteReq c ⟨0, 0⟩) && !landFull (tenState elemLd) (noteReq c ⟨0, 0⟩) && (match c.hb with | some b => isData b | none => false) && !c.e.rqp.act && c.e.outs.toNat < 16 && decide (1024 ≤ c.e.rbkt))) = true ∧
    ((let s := landState { elemLd with word := 0xA000300002000000, rqp := { act := true, count := 4, rowlen := 4, stride := 4, esb := 0b11 } }; match fieldsAt (activePlane (tileAt s 0)) 1 0 with | some (i, f) => (match ctxAt s ⟨0, 1, 0⟩ i f with | some c => i == .ldt f && landFull s (noteReq c ⟨0, 0⟩) && tileRuns s 0 && !c.t.hold | none => false) | none => false)) = true ∧
    ((let f : Fields := ({ f0 with  typ := .x, a := .s, out := .none, imm := 0x20 } : Fields); let s : State := tenState elemLd; let i : Instr := .stt f; wit i f s fun c => (match c.hb with | some b => isData b | none => false) && !c.e.rqp.act && (match readParam c.e.s (tidFor c 2) false true with | .ok _ => true | _ => false) && c.e.outs.toNat < 16)) = true ∧
    ((let f : Fields := ({ f0 with  typ := .x, imm := 0x28 } : Fields); let s : State := tenState { elem0 with qa := [⟨ofLanes 64 [1, 3], 0⟩] }; let i : Instr := .win f; fires i f s fun c => f.imm.getLsbD 3 && (tidFor c 2).fmt < 10)) = true ∧
    (fires (.win ({ f0 with  typ := .x, imm := 0x28 } : Fields)) ({ f0 with  typ := .x, imm := 0x28 } : Fields) (tenState { elem0 with qa := [⟨ofLanes 64 [2 ^ 39, 2 ^ 39], 0⟩] }) (fun c => 2 ^ 40 ≤ lane 64 (c.va 512) 0 + lane 64 (c.va 512) 1)) = true ∧
    (fires (.win ({ f0 with  typ := .x, imm := 0x20 } : Fields)) ({ f0 with  typ := .x, imm := 0x20 } : Fields) (tenState { elem0 with qa := [⟨ofLanes 64 [1, 3], 0⟩] }) (fun c => !ringSetDue c.p 0 && !(ringAt c.p 0).v)) = true ∧
    ((let f : Fields := ({ f0 with  typ := .x } : Fields); let s : State := stateWith { elem0 with  qa := [dt 4] }; let i : Instr := .winadv f; fires i f s fun _ => f.imm.toNat % 8 == 0)) = true ∧
    ((let v := winAt (activePlane (tileAt feedState 0)) 0; v.v && !v.nofeed && v.feed < v.stop) && !ringFull (ringAt (activePlane (tileAt feedState 0)) 0) && tileRuns feedState 0 && bwphPwh (tileBwph feedState 0) != 2) = true := by decide +kernel

/-! ### Jobs and queues -/

/-- A COPY of four words from scratch 0 to scratch 64 (Table 11.14). -/
def card0 : Word := BitVec.ofNat 512 (64 * 2 ^ 432 + 4 * 2 ^ 392 + 4 * 2 ^ 232 + 3 * 2 ^ 230)
def cardMsg0 : CardMsg := { kind := .copy, card := card0, who := some ⟨0, 1, 0⟩, plane := false, graph := 0, node := 0 }
def job0 : Job := { serial := 5, kind := .copy, card := card0, who := some ⟨0, 1, 0⟩, plane := false, graph := 0, node := 0 }
/-- Such a tile whose element at slot 0 is COPY, under a lease. -/
def jobState (l : Lease) : State :=
  { stateOf (ringTile { elem0 with word := 0xC800001000000014, rbkt := 1024 } {}) with leases := [(0, l)] }

/-- Over page tables. -/
def paged (s : State) : State := { s with mem := pageTables, fot := [(0, 1)], kslot := [(1, 5)] }
/-- Graph 0 of one node. -/
def nodeLease (n : Node) : Lease := { leasePt with graphs := [(0, { gstate := 1, nnode := 1, nodes := [n] })], actg := [0] }

/-- A broadcast of a group of two. -/
def coll0 (rank : Nat) : Job := { job0 with serial := 6, kind := .coll, card := BitVec.ofNat 512 (1 * 2 ^ 204 + rank * 2 ^ 198) }

theorem witness_Jobs :
    (fires (.copy ({ f0 with  typ := .x } : Fields)) ({ f0 with  typ := .x } : Fields) ({ stateWith { elem0 with  qa := [⟨card0, 0⟩] } with leases := [(0, { lease0 with cards := [cardMsg0] })] }) (fun c => c.l.cards.any fun x => decide (x.who = some c.x))) = true ∧
    (fires (.gath ({ f0 with  typ := .x } : Fields)) ({ f0 with  typ := .x } : Fields) (stateWith { elem0 with  qa := [⟨card0, 0⟩] }) (fun c => c.l.cards == [])) = true ∧
    (overlaps (true, 0, 1) (true, 15, 17) && !overlaps (true, 0, 16) (true, 16, 17) && !overlaps (true, 0, 16) (false, 0, 16)) = true ∧
    (cardBad .copy 0 && !cardBad .copy card0) = true ∧
    ((match (checkCard (jobState { lease0 with jobt := [(0, { job0 with wfoot := [(true, 64, 80)] })] }) 0 cardMsg0).2 with | .ok j => j.edges == [5] | _ => false)) = true ∧
    (!cDring job0.card && (Tab.find lease0.jobt 255).isNone) = true ∧
    ((let s := jobState { lease0 with cards := [cardMsg0] }; match fieldsAt (planeOf (tileAt s 0) false) 1 0 with | some (i, f) => (match ctxAt s ⟨0, 1, 0⟩ i f with | some c => !c.b && mayFire s c && held c | none => false) | none => false)) = true ∧
    ((let s := jobState { lease0 with cards := [{ cardMsg0 with card := 0 }] }; match (checkCard s 0 { cardMsg0 with card := 0 }).2 with | .bad cc _ => cc == cJobCard | _ => false)) = true ∧
    (mayIssue lease0 && (match nodeAt (nodeLease { kind := 1, state := .ready }) 0 0 with | some nd => decide (nd.state = .ready) | none => false)) = true ∧
    (lease0.lstate != .removing && !job0.running && job0.kind != .coll && job0.edges == []) = true ∧
    (cGsize (coll0 0).card + 1 == 2 && openEdges lease0 (coll0 1) == 0) = true ∧
    (job0.buf == [] && job0.next < jobReads job0 && (pxJob job0).isNone && 0 < jobRows .copy card0 && jobRowLen .copy card0 0 == 4) = true ∧
    (!cDring card0) = true ∧
    (jobDone (jobState lease0) 0 { job0 with running := true, next := 1000 } && !stored lease0) = true ∧
    (fires (.waitj ({ f0 with  typ := .x } : Fields)) ({ f0 with  typ := .x } : Fields) ({ stateWith { elem0 with  qa := [dt (5 * 256)] } with leases := [(0, { lease0 with jobt := [(0, job0)] })] }) (fun c => (jobOfHandle c.l c.aa).isSome)) = true ∧
    (fires (.waitj ({ f0 with  typ := .x } : Fields)) ({ f0 with  typ := .x } : Fields) ({ stateWith { elem0 with  qa := [dt (4 * 256)] } with leases := [(0, { lease0 with jobt := [(0, job0)] })] }) (fun c => (jobOfHandle c.l c.aa).isNone)) = true ∧
    (fires (.jstat ({ f0 with  typ := .x } : Fields)) ({ f0 with  typ := .x } : Fields) ({ stateWith { elem0 with  qb := [dt (5 * 256)] } with leases := [(0, { lease0 with jobt := [(0, job0)] })] }) (fun c => (jobOfHandle c.l c.ab).isSome)) = true := by decide +kernel

def growState (n : Node) (e : Elem) : State := { stateWith e with leases := [(0, nodeLease n)] }

def queue0 (n : Nat) : MsgQueue := { v := true, gen := 1, cap := 2, count := n }
/-- A tile with the messages `l` of queue 0 in its slice, and a message on its way to that queue. -/
def enqState (nb : Bool) (l : List Nat) : State :=
  { stateOf (ringTile { elem0 with word := 0xC100001000000014 } {}) with
    scratch := l.zipIdx.foldl (fun m v => Memory.writeN m 64 (64 * v.2) v.1) []
    leases := [(0, { lease0 with queues := [(0, queue0 l.length)], enqs := [⟨⟨0, 1, 0⟩, false, BitVec.ofNat 64 (2 ^ 48), 9, nb, false, none⟩] })] }

/-- A continuation record for iteration 0 of node 0 of graph 0. -/
def contState (n : Node) (l : List Region) : State :=
  { stateWith elem0 with leases := [(0, { nodeLease n with regions := l })], shards := [(2, [0])] }

theorem witness_Queues :
    ((let f : Fields := ({ f0 with  typ := .x } : Fields); let s : State := stateWith { elem0 with  qa := [⟨ofLanes 64 [7 * 2 ^ 32, 0, 1 * 2 ^ 21], 0⟩] }; let i : Instr := .postc f; fires i f s fun c => (s.shards.get (c.lid * 64 + 1) []).length < 256)) = true ∧
    ((let f : Fields := ({ f0 with  typ := .x } : Fields); let s : State := { stateWith elem0 with shards := [(0, List.replicate 256 0)] }; let i : Instr := .postc f; fires i f s fun _ => 256 ≤ (s.shards.get 0 []).length)) = true ∧
    (fires (.grow ({ f0 with  typ := .x } : Fields)) ({ f0 with  typ := .x } : Fields) (growState { state := .running, closed := true } elem0) (fun c => (match nodeAt c.l c.p.graph c.p.node with | some nd => nd.closed | none => false))) = true ∧
    (fires (.grow ({ f0 with  typ := .x } : Fields)) ({ f0 with  typ := .x } : Fields) (growState { state := .armed } elem0) (fun c => (match nodeAt c.l c.p.graph c.p.node with | some nd => !nd.closed && decide (nd.state ≠ .running) | none => false))) = true ∧
    (fires (.grow ({ f0 with  typ := .x } : Fields)) ({ f0 with  typ := .x } : Fields) (growState { state := .running, gcur := 0xFFFFFFFF } elem0) (fun c => (match nodeAt c.l c.p.graph c.p.node with | some nd => decide (growLimit nd.launch < nd.gcur.toNat + 3) | none => false))) = true ∧
    (fires (.grow ({ f0 with  typ := .x } : Fields)) ({ f0 with  typ := .x } : Fields) (growState { state := .running, launch := 2 ^ 8 * 31, gcur := 1 } { elem0 with qa := [dt 0] }) (fun c => (match nodeAt c.l c.p.graph c.p.node with | some nd => decide (nd.gcur.toNat ≤ growLimit nd.launch) | none => false))) = true ∧
    (fires (.enq ({ f0 with  typ := .x } : Fields)) ({ f0 with  typ := .x } : Fields) (stateWith { elem0 with outs := 16 }) (fun c => 16 ≤ c.e.outs.toNat)) = true ∧
    (fires (.enq ({ f0 with  typ := .x, md := 1 } : Fields)) ({ f0 with  typ := .x, md := 1 } : Fields) (stateWith { elem0 with  qa := [dt (2 ^ 48)] }) (fun c => c.l.enqs == [])) = true ∧
    (queueOf (leaseAt (enqState false []) 0) (2 ^ 48) == some (queue0 0) && queueOf (leaseAt (enqState false []) 0) (2 ^ 49) == none && queueOf (leaseAt (enqState false []) 0) (2 ^ 48 + 1024) == none && !stored (leaseAt (enqState false []) 0) && decide (bankCase (tileAt (enqState false [1]) 0) 64 = .ready)) = true ∧
    ((queue0 2).cap ≤ (queue0 2).count) = true ∧
    (decide (bankCase { ringTile elem0 {} with bankg := 0 } 0 = .ungranted) && decide (bankCase { ringTile elem0 {} with bpm := [] } 0 = .asleep)) = true ∧
    (fires (.deq ({ f0 with  typ := .x } : Fields)) ({ f0 with  typ := .x } : Fields) ({ stateWith { elem0 with  qb := [dt 0] } with leases := (enqState false []).leases }) (fun c => (queueOf c.l c.ab).isNone)) = true ∧
    ((let f : Fields := ({ f0 with  typ := .x, out := .two, t1 := .elem 4 .a } : Fields); let s : State := { enqState false [4, 6] with tiles := [(0, ringTile { elem0 with qb := [dt (2 ^ 48)] } {})] }; let i : Instr := .deq f; fires i f s fun c => (match queueOf c.l c.ab with | some q => q.ring.isNone && queueMsgs s c.lid q == [4, 6] && decide (bankCase (tileAt s 0) (queueOff q 0) = .ready) | none => false))) = true ∧
    ((let f : Fields := ({ f0 with  typ := .x } : Fields); let s : State := { stateWith { elem0 with  qb := [dt (2 ^ 48)] } with leases := (enqState false []).leases }; let i : Instr := .deq f; fires i f s fun c => (queueOf c.l c.ab).isSome && !f.md.getLsbD 0)) = true ∧
    ((let f : Fields := ({ f0 with  typ := .x, md := 1, out := .two, t1 := .elem 4 .a } : Fields); let s : State := { stateWith { elem0 with  qb := [dt (2 ^ 48)] } with leases := (enqState false []).leases }; let i : Instr := .deq f; fires i f s fun c => (queueOf c.l c.ab).isSome && f.md.getLsbD 0)) = true ∧
    (fires (.qstat ({ f0 with  typ := .x } : Fields)) ({ f0 with  typ := .x } : Fields) ({ stateWith { elem0 with  qb := [dt (2 ^ 48)] } with leases := (enqState false [4]).leases }) (fun c => (queueOf c.l c.ab).isSome)) = true ∧
    (fires (.qstat ({ f0 with  typ := .x } : Fields)) ({ f0 with  typ := .x } : Fields) ({ stateWith { elem0 with  qb := [dt (2 ^ 48 + 1)] } with leases := (enqState false [4]).leases }) (fun c => (queueOf c.l c.ab).isNone)) = true ∧
    ((leaseAt (contState {} []) 0).v && mayIssue (leaseAt (contState {} []) 0) && (nodeAt (leaseAt (contState {} []) 0) 0 0).isSome && (nodeAt lease0 0 0).isNone) = true ∧
    (isCont { kind := 8 } && isConfig { kind := 8 } && !isCont { kind := 0 } && (idleRegion { lease0 with regions := [{ rid := 1, graph := 0, node := 0, ox := 0, oy := 0, w := 1, h := 1 }] } 0 0).isSome) = true ∧
    (({ kind := 8, state := .running, closed := true } : Node).closed) = true := by decide +kernel

/-! ### Bank power -/

def grantState (e : Elem) : State := stateOf (ringTile e {})

def drain0 (rel : Bool) (n : Nat) : Drain := ⟨⟨0, 1, 0⟩, false, rel, 1, 0, 0, n⟩

/-- BWPH of a lease with RTH 1 and SBC 0. -/
def drowseState (idle : Nat) : State :=
  { stateOf { ringTile elem0 {} with bidle := [(2, BitVec.ofNat 20 idle)] } with leases := [(0, { lease0 with rcd := { tenid := 1, bwph := 2 ^ 12 } })] }

def wakeState (m : Bpm) (n : Nat) (sc : BitVec 16) : State :=
  { stateOf { ringTile elem0 {} with bpm := [(1, m)], wakes := [(1, n)], scrub := sc } with scratch := [(0x10000, 7), (0x20000, 8)], feb := [0x1000, 0x2000] }

def drainState (rel : Bool) (n : Nat) (l : Tab Req) : State := { stateOf { ringTile { elem0 with word := 0xBA00001000010014 } {} with drain := some (drain0 rel n) } with reqs := l }
def busyReq : Req := req0 .wake .none .home [{ sp := .scr, addr := 8, len := 4, pos := 0 }]

theorem witness_BankPower :
    ((let f : Fields := ({ f0 with  typ := .x, imm := 4 } : Fields); let s : State := stateWith { elem0 with  qa := [dt (3 * 2 ^ 28)] }; let i : Instr := .bwph f; fires i f s fun _ => f.imm.getLsbD 2)) = true ∧
    ((let f : Fields := ({ f0 with  typ := .x, imm := 2 } : Fields); let s : State := stateWith { elem0 with  qa := [dt (3 * 2 ^ 28 + 5 * 2 ^ 12 + 3 * 2 ^ 10)] }; let i : Instr := .bwph f; fires i f s fun _ => !f.imm.getLsbD 2 && !f.imm.getLsbD 0 && f.imm.getLsbD 1)) = true ∧
    (fires (.bankpStatus ({ f0 with  typ := .x, imm := 3 } : Fields)) ({ f0 with  typ := .x, imm := 3 } : Fields) (stateWith { elem0 with  qa := [dt 1] }) (fun c => c.aa.testBit 0 && !c.t.bankg.getLsbD 0 && c.e.outs.toNat < 16)) = true ∧
    (fires (.bankpWake ({ f0 with  typ := .x } : Fields)) ({ f0 with  typ := .x } : Fields) (grantState { elem0 with qa := [dt 0x10000] }) (fun c => c.aa % 65536 == 0)) = true ∧
    (fires (.bankpWake ({ f0 with  typ := .x } : Fields)) ({ f0 with  typ := .x } : Fields) (grantState { elem0 with qa := [dt 0x8001] }) (fun c => (List.range 16).all fun b => !c.aa.testBit b || c.t.bankg.getLsbD b)) = true ∧
    (fires (.bankpDiscard ({ f0 with  typ := .x, imm := 1 } : Fields)) ({ f0 with  typ := .x, imm := 1 } : Fields) (grantState { elem0 with qa := [dt 0x8001] }) (fun c => c.t.drain == none)) = true ∧
    (fires (.bankpRelease ({ f0 with  typ := .x, imm := 2 } : Fields)) ({ f0 with  typ := .x, imm := 2 } : Fields) (stateOf (let t := ringTile { elem0 with qa := [dt 1] } {}; { t with pa := { t.pa with banks := 1 } })) (fun c => c.t.pa.pst != .empty && c.t.pa.banks.getLsbD 0)) = true ∧
    (fires (.bankpRelease ({ f0 with  typ := .x, imm := 2 } : Fields)) ({ f0 with  typ := .x, imm := 2 } : Fields) (stateOf { ringTile { elem0 with qa := [dt 1] } {} with drain := some (drain0 false 0) }) (fun c => c.t.drain != none && !c.t.pa.banks.getLsbD 0)) = true ∧
    (fires (.bankpStatus ({ f0 with  typ := .x, imm := 3 } : Fields)) ({ f0 with  typ := .x, imm := 3 } : Fields) (grantState { elem0 with qa := [dt 1] }) (fun c => c.t.bankg.getLsbD 0)) = true ∧
    (bankReady (ringTile elem0 {}) 2 && (tileBwph (drowseState 16) 0).toNat / 2 ^ 12 % 2 ^ 16 == 1 && 4 < ((List.range 16).filter fun b => bankReady (ringTile elem0 {}) b).length) = true ∧
    (bankMode { (ringTile elem0 {}) with bpm := [(1, .discard), (2, .retain)] } 1 == .discard && bankMode (tileWith []) 1 == .off) = true ∧
    (memoriesCanonical (wakeState .discard 0 0)) = true ∧
    (bankBusy (drainState false 0 [(0, busyReq)]) 0 1 0 && !bankBusy (drainState false 0 []) 0 0 0) = true := by decide +kernel

/-! ### Segments -/

/-- Plane A of tile 0 with region 1 of node 0 over it, and a configuration whose elements do as `l` says on the stream engine. -/
def segTile (l : List Elem) (seg : Bool) : Tile := { tten := 1, pa := { pst := .active, inSeg := seg, rid := 1, dcnt := [(8, 1)], blk0 := some { ents := [], elems := l } } }
def region0 (g : Option Nat) : Region := { rid := 1, graph := 0, node := 0, ox := 0, oy := 0, w := 1, h := 1, seg := g, left := [0] }
def segState (l : List Elem) (seg : Bool) (g : Option Nat) : State :=
  { paged (stateOf (segTile l seg)) with leases := [(0, { nodeLease { state := .running, gcur := 2, giss := 1 } with regions := [region0 g] })], cur := ⟨0, 0, 0⟩ }
/-- FORK with port E as its target, and RDV. -/
def forkElem : Elem := { word := 0xE000001000000240, due := true }
def rdvElem : Elem := { elem0 with word := 0xE100001000000240, due := false }

/-- A lease that gates for a pre-emption, its segment issued and FORK still to come. -/
def gateState : State :=
  let s := segState [forkElem] false (some 0)
  { s with leases := [(0, { leaseAt s 0 with lstate := .gating })] }

/-- The same when the block has arrived: its segment is complete, and an EOT is owed. -/
def endState (e : List (BitVec 32)) : State :=
  let s := segState [rdvElem] true (some 0)
  { s with tiles := [(0, { segTile [rdvElem] true with pa := { (segTile [rdvElem] true).pa with rdva := 1, eots := e } })] }

theorem witness_Segments :
    (forkDue (segState [forkElem] false (some 0)) 0 == some (region0 (some 0), 0) && isFork forkElem) = true ∧
    ((match ctxAt (segState [forkElem] true (some 0)) ⟨0, 0, 0⟩ (.fork { f0 with typ := .x, t0 := .port 1 0 0 }) { f0 with typ := .x, t0 := .port 1 0 0 } with | some c => c.e.due && c.p.inSeg && !suspended c.p 0 && c.t.capture.isNone && !throttledAt (segState [forkElem] true (some 0)) 0 && tileRuns (segState [forkElem] true (some 0)) 0 | none => false)) = true ∧
    ((forkDue gateState 0).isNone && (match ctxAt gateState ⟨0, 0, 0⟩ (.fork { f0 with typ := .x, t0 := .port 1 0 0 }) { f0 with typ := .x, t0 := .port 1 0 0 } with | some c => c.e.due && !c.p.inSeg && tileRuns gateState 0 | none => false)) = true ∧
    (wit (.rdv ({ f0 with  typ := .x, t0 := .port 1 0 0 } : Fields)) ({ f0 with  typ := .x, t0 := .port 1 0 0 } : Fields) (segState [{ rdvElem with qa := [⟨1, 0b11⟩] }] true (some 0)) (fun c => c.ha == some ⟨1, 0b11⟩)) = true ∧
    (wit (.rdv ({ f0 with  typ := .x, t0 := .port 1 0 0 } : Fields)) ({ f0 with  typ := .x, t0 := .port 1 0 0 } : Fields) (segState [rdvElem] true (some 0)) (fun c => c.ha == some (dt 3))) = true ∧
    (tileRuns (segState [rdvElem] true (some 0)) 0 && ((segTile [rdvElem] true).pa.rdva.getLsbD 0 == false) && (streamRdv (segTile [rdvElem] true).pa).isSome) = true ∧
    ((activePlane (tileAt (endState [4]) 0)).rdva.getLsbD 0 && (activePlane (tileAt (endState [4]) 0)).eots == [4] && (match (tileAt (endState []) 0).landb with | [] => true | _ => false)) = true ∧
    ((regionAt (leaseAt (segState [] true (some 0)) 0) 1).isSome && ((region0 (some 0)).left.filter (· != 0)) == []) = true := by decide +kernel

/-- A tile with a COMPLETE shadow plane for region 2 and a switched element in its active one. -/
def castState (sw : Bool) : State :=
  { paged (stateOf { tten := 1, pa := { pst := .active, rid := 1, blk0 := some { elems := [{ word := 0x0100001000000240, sw := sw }] } }, pb := { pst := .complete, rid := 2 } }) with
    leases := [(0, { nodeLease { state := .running, gcur := 2, giss := 1 } with regions := [{ region0 none with next := some 2 }, { region0 (some 1) with rid := 2, pred := some 1, left := [] }] })] }

theorem witness_Castling :
    (castleReady (castState true) 0 && !castleReady (castState false) 0 && (match regionAt (leaseAt (castState true) 0) 2 with | some r => !r.stopped | none => false)) = true := by decide +kernel

/-! ### Castling and control tokens -/

/-- A tile whose plane ends while its shadow loads, with an element of constants. -/
def switchState : State :=
  let l : Elem := { word := 0x0100041000000240, due := false }
  { stateOf { tten := 1, swf := 0, pa := { pst := .active, rid := 1, dcnt := [(8, 1)], blk0 := some { elems := [l] } }, pb := { pst := .complete, rid := 2 } } with
    leases := [(0, { nodeLease { state := .running, gcur := 1, giss := 1 } with regions := [{ region0 none with next := some 2 }] })] }

theorem witness_Castling_2 :
    (tileRuns switchState 0 && (if linkEnds (activePlane (tileAt switchState 0)) then switchEverywhere (tileAt switchState 0) (activePlane (tileAt switchState 0)) else lastDone switchState 0)) = true := by decide +kernel

/-- ADD of two tokens at the element's turn for control tokens, `a` and `b` at its heads. -/
def ctlState (a b : List Token) : State := stateWith { elem0 with word := 0x2070001000000014, qa := a, qb := b }
/-- What such a turn sends when it takes `take` and puts `tok` on its targets. -/
def ctlSends (s : State) (take : List Opnd) (tok : Token) (new : Bool) : State :=
  match siteCtx s ⟨0, 1, 0⟩ with
  | some c => commit s c { emits := (ctlTargets c).map (fun m => (m.1, m.2, tok)), take := take, nf := false, poison := if new then 1 else 0, hold := true }
  | none => s

theorem witness_ControlTokens :
    ((match siteCtx (stateWith { elem0 with word := 0x2070001000000014, qa := [ctl kSOT 0], qb := [ctl kSOT 0] }) ⟨0, 1, 0⟩ with | some c => ctlCan (stateWith elem0) c && c.p.inSeg && ctlOps c == c.ops && c.ops != [] && !toConsumer c && !answersBehind (stateWith elem0) c && !c.e.rqp.act && (ctlS c).isNone && (deadSnaps c).isEmpty && hasDemands c.p c.x c.e (ctlTargets c) | none => false)) = true ∧
    (codeOf (ctl kSOT 0) != codeOf (ctl kEOT 0)) = true ∧
    (dataHead (some (dt 3)) && !dataHead (some (ctl kEOT 0))) = true ∧
    (isPoison (poisonTok 3 0)) = true ∧
    (isSwitch (ctl kSWITCH 0)) = true ∧
    (isSnap (ctl kSNAP 7)) = true := by decide +kernel

/-! ### Synchronization -/

def barState (b : BarSt) (n : Nat) : State := { stateWith { elem0 with word := 0xE201001000500014, bar := b, qb := [dt n] } with reqs := [] }
def barF : Fields := { f0 with typ := .x, md := 4, imm := 5 }
def barF3 : Fields := { f0 with typ := .x, md := 12, imm := 5 }

def arrive (b : Bar) (n : BitVec 16) : State :=
  { barState .travelling 2 with leases := [(0, { lease0 with bars := [(5, b)], barMsgs := [⟨⟨0, 1, 0⟩, false, 5, n, false, 7⟩] })] }

def snapLease (l : Tab Snap) : Lease := { lease0 with rcd := { tenid := 1, snpto := 1 }, snps := l }
def snap0 : Snap := { id := 5, rid := 1, left := [0] }

def capState (cap : Option Nat) (passed : Bool) (l : List Nat) (got : Bool := false) : State :=
  let t := tileWith [{ elem0 with word := 0x2070001000000014, snaps := if passed then [5] else [] }]
  { paged (stateOf { t with capture := cap }) with leases := [(0, { snapLease [(0, { snap0 with left := l, got := if got then [(0, [])] else [] })] with regions := [region0 none] })] }

def awaitState (l : Lease) : State :=
  { stateWith { elem0 with word := 0xE800001000000014, awst := { v := true, val := BitVec.ofNat 64 (5 * 256) } } with leases := [(0, l)] }

theorem witness_Synchronization :
    (fires (.bar barF) barF (barState .none 0x10000) (fun c => decide (c.e.bar = .none) && c.ab % 65536 == 0)) = true ∧
    ((let f : Fields := barF3; let s : State := { barState .none 2 with reqs := [(0, { reqRd with phase := .faulted })], nextReq := 1 }; let i : Instr := .bar f; fires i f s fun c => decide (c.e.bar = .none) && !mayPass s (fenceDue s 0 2))) = true ∧
    ((let f : Fields := barF; let s : State := barState .none 0xFFFF; let i : Instr := .sig f; fires i f s fun c => decide (c.e.bar = .none) && mayPass s (fenceDue s 0 2))) = true ∧
    (fires (.bar barF) barF (barState .closed 2) (fun c => decide (c.e.bar = .closed))) = true ∧
    ((let f : Fields := barF; let s : State := barState .released 2; let i : Instr := .bar f; fires i f s fun c => decide (c.e.bar = .released) && c.ha == some (dt 3) && mayPass s (readsDue s 0))) = true ∧
    ((let f : Fields := barF3; let s : State := { barState .released 2 with reqs := [(0, { reqRd with phase := .faulted })], nextReq := 1 }; let i : Instr := .bar f; fires i f s fun c => decide (c.e.bar = .released) && !mayPass s (readsDue s 0))) = true ∧
    (fires (.sig barF) barF (barState .released 2) (fun c => decide (c.e.bar = .released))) = true ∧
    (!stored (leaseAt (arrive {} 2) 0) && (leaseAt (arrive {} 2) 0).barMsgs.length == 1) = true ∧
    ((boundTiles (barState .waiting 2) 0).contains 0 && (match instrAt { word := 0xE201001000500014 } with | some (.bar f) => f.imm.toNat % 256 == 5 | _ => false)) = true ∧
    ((elemIn (activePlane (tileAt (barState .closed 2) 0)) 1 0).isSome) = true ∧
    (fires (.snap ({ f0 with  typ := .x } : Fields)) ({ f0 with  typ := .x } : Fields) (stateWith elem0) (fun c => c.l.rcd.snpto == 0)) = true ∧
    (fires (.snap ({ f0 with  typ := .x } : Fields)) ({ f0 with  typ := .x } : Fields) ({ stateWith elem0 with leases := [(0, snapLease ((List.range 4).map fun k => (k, { snap0 with id := BitVec.ofNat 32 (k + 10) })))] }) (fun c => c.l.rcd.snpto != 0 && c.ab == 5 && c.l.snps.all (fun v => v.2.id != 5) && 4 ≤ c.l.snps.length)) = true ∧
    (fires (.snap ({ f0 with  typ := .x } : Fields)) ({ f0 with  typ := .x } : Fields) ({ stateWith elem0 with leases := [(0, snapLease [(0, snap0)])] }) (fun c => c.l.snps.any fun v => v.2.id == 5)) = true ∧
    (fires (.snap ({ f0 with  typ := .x } : Fields)) ({ f0 with  typ := .x } : Fields) ({ stateWith elem0 with leases := [(0, { snapLease [] with regions := [region0 none] })] }) (fun c => c.l.snps == [] && c.l.rcd.snpto != 0)) = true ∧
    (tileRuns (capState none true [0]) 0 && (activePlane (tileAt (capState none true [0]) 0)).rid == 1 && allPassed (activePlane (tileAt (capState none true [0]) 0)) 5 && !allPassed (activePlane (tileAt (capState none false [0]) 0)) 5) = true ∧
    (([0, 1].filter (· != 0)) == [1] && (match (leaseAt (capState (some 0) true [0, 1] true) 0).snps.find 0 with | some v => captures v 0 | none => false)) = true ∧
    (1024 * (leaseAt (capState none true [0]) 0).rcd.snpto.toNat == 1024) = true ∧
    ((let f : Fields := ({ f0 with  typ := .x, md := 1 } : Fields); let s : State := stateWith elem0; let i : Instr := .plane f; fires i f s fun c => f.md.getLsbD 0 && (shadowPlane c.t).pst != .complete)) = true ∧
    ((let f : Fields := ({ f0 with  typ := .x } : Fields); let s : State := stateWith elem0; let i : Instr := .plane f; fires i f s fun _ => !f.md.getLsbD 0)) = true ∧
    ((let f : Fields := ({ f0 with  typ := .x, md := 1 } : Fields); let s : State := stateWith { elem0 with  qb := [dt 0] }; let i : Instr := .await f; fires i f s fun c => f.md.getLsbD 0 && c.ab == 0 && hasDemands c.p c.x c.e (targetsOf c.i c.f))) = true ∧
    (fires (.await ({ f0 with  typ := .x } : Fields)) ({ f0 with  typ := .x } : Fields) ({ stateWith { elem0 with  qb := [dt (5 * 256)] } with leases := [(0, { lease0 with jobt := [(0, job0)] })] }) (fun c => (jobOfHandle c.l c.ab).isSome)) = true ∧
    ((match elemIn (activePlane (tileAt (awaitState lease0) 0)) 1 0 with | some e => e.awst.v && awaitMet lease0 e && !awaitMet { lease0 with jobt := [(0, job0)] } e | none => false) && !landbReady (tileAt (awaitState lease0) 0) false 1 && (fieldsAt (activePlane (tileAt (awaitState lease0) 0)) 1 0).isSome) = true ∧
    (fires (.ndone ({ f0 with  typ := .x } : Fields)) ({ f0 with  typ := .x } : Fields) ({ paged (stateWith elem0) with leases := [(0, nodeLease { state := .running, giss := 3, gcur := 9 })] }) (fun c => (nodeAt c.l c.p.graph c.p.node).isSome)) = true ∧
    (fires (.nfail ({ f0 with  typ := .x } : Fields)) ({ f0 with  typ := .x } : Fields) ({ paged (stateWith elem0) with leases := [(0, nodeLease { state := .running, giss := 3, gcur := 9 })] }) (fun c => (nodeAt c.l c.p.graph c.p.node).isSome)) = true := by decide +kernel

/-! ### Traps and reads -/

def deltaState (l : Tab Nat) : State := stateOf { tileWith [] with delta := l }

theorem witness_TrapsAndReads :
    (wit (.trap ({ f0 with  typ := .x, imm := 9 } : Fields)) ({ f0 with  typ := .x, imm := 9 } : Fields) (stateWith elem0) (fun c => mayExec c)) = true ∧
    (wit (.halt ({ f0 with  typ := .x, imm := 9 } : Fields)) ({ f0 with  typ := .x, imm := 9 } : Fields) (stateWith elem0) (fun c => mayExec c)) = true ∧
    (fires (.brk ({ f0 with  typ := .x } : Fields)) ({ f0 with  typ := .x } : Fields) (stateWith elem0) (fun c => c.va 512 == 3)) = true ∧
    (wit (.asrt ({ f0 with  typ := .x } : Fields)) ({ f0 with  typ := .x } : Fields) (stateWith elem0) (fun c => mayExec c && (c.va 512).getLsbD 0)) = true ∧
    (wit (.asrt ({ f0 with  typ := .x, imm := 7 } : Fields)) ({ f0 with  typ := .x, imm := 7 } : Fields) (stateWith { elem0 with  qa := [dt 2] }) (fun c => mayExec c && !(c.va 512).getLsbD 0)) = true ∧
    (fires (.rdid ({ f0 with  typ := .x } : Fields)) ({ f0 with  typ := .x } : Fields) (stateWith elem0) (fun c => c.t.tten == 1)) = true ∧
    ((let f : Fields := ({ f0 with  typ := .x, imm := 0x6000 } : Fields); let s : State := stateWith { elem0 with  nf := 4 }; let i : Instr := .rdctr f; fires i f s fun _ => f.imm.toNat / 4096 == 6)) = true ∧
    ((let f : Fields := ({ f0 with  typ := .x, imm := 0x5012 } : Fields); let s : State := { stateWith elem0 with tiles := [(0, { tileWith [elem0, {}, {}, {}, {}, {}] with stc := [(18, 8)], actc := [(1, 6)] })] }; let i : Instr := .rdctr f; fires i f s fun c => f.imm.toNat / 4096 == 5 && c.x.eng == 1)) = true ∧
    ((let f : Fields := ({ f0 with  typ := .x, imm := 5 } : Fields); let s : State := stateWith { elem0 with  nf := 4 }; let i : Instr := .rdctr f; fires i f s fun _ => f.imm.toNat / 4096 == 0)) = true ∧
    ((let s : State := { stateWith elem0 with leases := [(0, { lease0 with evc := [(5, 9)] })], reqs := [(3, req0 (.ctr 5) (.targets [0] 0) .mesh [])] }; s.reqs.all fun m => m.1 == 3)) = true ∧
    ((let f : Fields := ({ f0 with  typ := .x, imm := 2 } : Fields); let s : State := stateWith { elem0 with  qa := [⟨ofLanes 64 [1, 0x1010 + 2 ^ 17], 0⟩] }; let i : Instr := .trigr f; fires i f s fun _ => f.imm.toNat % 16 == 2)) = true ∧
    ((let f : Fields := ({ f0 with  typ := .x, imm := 2 } : Fields); let s : State := stateWith { elem0 with  qa := [⟨ofLanes 64 [0, 0x100F + 2 ^ 17], 0⟩] }; let i : Instr := .trigr f; fires i f s fun _ => f.imm.toNat % 16 == 2)) = true ∧
    ((tileAt (deltaState [(15, 7)]) 0).delta == [(15, 7)]) = true := by decide +kernel

/-! ### Link traffic -/

/-- Tile 0 of lease 0 with a route for input channel 1 of port 1. -/
def linkTile (v : BitVec 16) : Tile := { tten := 1, pa := { pst := .active, rid := 1, route := [(9, v)], salloc := [(9, 2)] } }
def wire0 (w : Token) : Wire := ⟨0, 1, 1, w, some 0⟩
def linkState (x : Tile) (w : Wire) : State := { stateOf x with wires := [w] }

/-- A tile whose input channel 9 forwards to output channel 24. -/
def demandState (x : Tile) (rid : Nat) : State := { stateOf x with demands := [⟨0, 3, 0, 0, rid, 0, 0⟩] }

/-- The same with a join of two forwarding routes on output channel 16. -/
def joinTile (a b : List Token) : Tile :=
  { tten := 1, pa := { pst := .active, rid := 1, route := [(9, 0x8010), (17, 0x8010)], reduce := [16], dcnt := [(16, 1)], lbuf := [(fwdJoinKey 16 9, a), (fwdJoinKey 16 17, b)] } }
def ends : Word := ofLanes 64 [2 ^ 63 - 1, 3]

def reachState (l : Lease) : State := { State.reset with rpb := [(8, 0x80)], leases := [(0, l)] }

/-- The unpack stage of input channel 9 with `n` bits of a carrier pending. -/
def pxState (u : Px8) (l : List Token) : State := stateOf { tten := 1, pa := { pst := .active, rid := 1, salloc := [(9, 2)], px8 := [(9, u)], lbuf := [(9, l)] } }
/-- A CONST block of zeros: CT 3, BASE 0, LEN 17 (R93, Table 4.5). -/
def pxIn : Px8 := { carrier := true, bits := 0xC088, nbits := 512, sbs := [(512, 0)] }
def pxEmpty : Px8 := { carrier := true }

theorem witness_LinkTraffic :
    (((linkState (linkTile 0xC000) (wire0 (dt 7))).wires.find? fun w => w.tile == 0 && w.port == 1 && w.ch == 1) == some (wire0 (dt 7)) && !applicable (linkTile 0xC000) 9) = true ∧
    ((0x8018 : BitVec 16).toNat % 64 == 24 && (linkTile 0x8018).pa.reduce == []) = true ∧
    (({ (linkTile 0x8018) with pa := { (linkTile 0x8018).pa with reduce := [24] } }).pa.reduce.contains 24) = true ∧
    (!(0 : BitVec 16).getLsbD 15 && (linkTile 0).fwd == []) = true ∧
    ((tileAt { State.reset with leases := [(3, lease0)] } 0).tten == 0 && (leaseAt { State.reset with leases := [(3, lease0)] } 3).v && !(leaseAt State.reset 3).v) = true ∧
    (((demandState (linkTile 0x8018) 1).demands.find? fun d => d.tile == 0 && d.port == 3 && d.ch == 0) == some ⟨0, 3, 0, 0, 1, 0, 0⟩ && forwardFrom (linkTile 0x8018).pa 24 == some 9 && forwardFrom (linkTile 0xC000).pa 24 == none && !targetsChannel (linkTile 0xC000).pa 24) = true ∧
    ((let x : Tile := { linkTile 0x8018 with pa := { (linkTile 0x8018).pa with reduce := [24] } }; x.pa.reduce.contains 24)) = true ∧
    ((let x : Tile := { linkTile 0xC000 with pa := { (linkTile 0xC000).pa with blk0 := some { elems := [{ word := 0xE000001000000240 }] } } }; targetsChannel x.pa 8 && !targetsChannel x.pa 24)) = true ∧
    (8 / 8 < 4 && neighbour 0 1 == some 1) = true ∧
    ((joinTile [dt 1] [dt 2]).pa.gated == [] && joinSources (joinTile [dt 1] [dt 2]).pa 16 == [(fwdJoinKey 16 9, some 9), (fwdJoinKey 16 17, some 17)]) = true ∧
    ((joinTile [dt 1] [⟨1, 2⟩]).pa.dcnt.get 16 0 == 1 && isCtl (ctl kEOT 0)) = true ∧
    (((reachState lease0).rpb.get 8 0).getLsbD 7 && (leaseAt (reachState lease0) 0).v && (leaseAt (reachState lease0) 0).lstate != .gating && (tileAt (reachState lease0) (Config.reachAt 1 0 / 64)).hold == false && (leaseAt (reachState { lease0 with lstate := .gating }) 0).lstate == .gating && !(State.reset.rpb.get 8 0).getLsbD 7) = true ∧
    (tileRuns (pxState pxIn []) 0 && 0 < pxNext pxIn && pxNext pxIn == 272 && (pxDecode false (0xC088 % 2 ^ pxNext pxIn)).isSome && pxIn.sbs.all fun m => m.2 == 0) = true ∧
    ((activePlane (tileAt (pxState pxEmpty [dt 9]) 0)).lbuf.get 9 [] == [dt 9] && pxEmpty.nbits < 16) = true ∧
    (isCtl (⟨low (kSOT + 256), sbCtl⟩ : Token) && codeOf (⟨low (kSOT + 256), sbCtl⟩ : Token) == kSOT && (⟨low (kSOT + 256), sbCtl⟩ : Token).pay.getLsbD 8 && codeOf (ctl kEOT 0) == kEOT) = true := by decide +kernel

/-! ### Loading -/

/-- The image of a configuration of one tile with an empty pattern (R32 to R36, Table 2.1), and its digest. -/
def imgWith (d : List Byte) : List Byte :=
  toBytes 4 0x31494D4E ++ toBytes 2 1 ++ toBytes 2 0 ++ toBytes 4 192 ++ toBytes 2 1 ++ toBytes 2 1 ++
    (toBytes 4 128 ++ toBytes 4 1) ++ (toBytes 4 160 ++ toBytes 4 1) ++ toBytes 32 0 ++ (toBytes 4 176 ++ toBytes 4 1) ++ toBytes 8 0 ++ toBytes 4 0 ++ toBytes 12 0 ++ d ++
    (toBytes 16 (2 ^ 128 - 1) ++ toBytes 4 0 ++ toBytes 2 1 ++ toBytes 10 0) ++ (toBytes 4 0 ++ toBytes 2 1 ++ toBytes 2 1 ++ toBytes 8 0) ++ toBytes 16 0
def img0 : List Byte := imgWith (shaBytes (sha256 (imgWith (toBytes 32 0))))
/-- One level of width 1, two segments. -/
def launch0 : BitVec 128 := BitVec.ofNat 128 (2 ^ 125 + 2 ^ 122 + 2 ^ 115 + 2 ^ 48 + 2 ^ 16)
def loadNode (st : NodeState) : Node := { state := st, cfgp := 0x10000, launch := launch0, gcur := 1 }
/-- Lease 0 of one tile, with the node at the head of RDYQ. -/
def loadLease (n : Node) : Lease := { nodeLease n with rcd := { tenid := 1, ptbr := 0x1000, lext := 0 }, rdyq := [(0, 0)] }
def loadState (m : List Byte) (l : Lease) : State := { paged (stateOf { tten := 1, pa := {} }) with mem := Memory.putBytes pageTables 0x10000 m, leases := [(0, l)] }

def checked0 : Checked := ⟨0, 0, img0, patHashes img0⟩

/-- A region of the image whose pattern is due. -/
def copyState (h : List (BitVec 256)) : State :=
  let r : Region := { region0 none with va := 0x10000, img := img0, hashes := h, nextPat := some 0 }
  { loadState img0 { loadLease (loadNode .armed) with rdyq := [], regions := [r] } with tiles := [(0, { tten := 1, pa := { pst := .loading, rid := 1 } })] }

def arrivedState : State := { copyState [] with tiles := [(0, { tten := 1, pa := { pst := .loading, rid := 1, whole := true }, pb := { pst := .loading, rid := 2, whole := true } })] }

def otherState (n : Node) : State := loadState [] { loadLease n with rdyq := [] }

/-- A node WAITING for its last in-edge, a track from a region of a node that has issued all its segments. -/
def trackState : State :=
  let a : Node := { loadNode .running with giss := 1, gcur := 1, efirst := 0, nout := 1 }
  let b : Node := { loadNode .waiting with pend := 1 }
  let x : Graph := { gstate := 1, nnode := 2, nedge := 1, nodes := [a, b], edges := [BitVec.ofNat 64 (1 + 2 ^ 18)] }
  { loadState img0 { loadLease a with rdyq := [], graphs := [(0, x)], regions := [region0 none], checked := [⟨0, 1, img0, patHashes img0⟩] } with tiles := [(0, { tten := 1, pa := { pst := .active, rid := 1 } })] }

def tokState (n : Node) : State := otherState n |> fun s => { s with leases := [(0, { leaseAt s 0 with etoks := [(0, 0, false)] })] }

theorem witness_Loading :
    (launchBad launch0 == false && (checkHeader img0).isNone && (match checkImage img0 false with | (none, none) => true | _ => false) && mayIssue (loadLease (loadNode .ready)) && dispatchWants (loadLease (loadNode .ready)) == some (0, 0)) = true ∧
    (launchBad 0 && dispatchWants { loadLease (loadNode .ready) with rdyq := [] } == none && (trackRegion { loadLease (loadNode .ready) with rdyq := [] } 0 0).isNone) = true ∧
    ((match readImage (loadState [] (loadLease (loadNode .ready))) 0 0x10000 with | (_, .error (some f)) => f.reason == 1 | _ => false)) = true ∧
    ((match readImage (loadState (imgWith (toBytes 32 0)) (loadLease (loadNode .ready))) 0 0x10000 with | (_, .ok (.ok m)) => (match checkImage m false with | (some f, _) => f.reason == 3 | _ => false) | _ => false)) = true ∧
    ((match readImage { loadState img0 (loadLease (loadNode .ready)) with mem := [] } 0 0x10000 with | (_, .ok .wait) => true | _ => false)) = true ∧
    ((match readImage { loadState img0 (loadLease (loadNode .ready)) with fot := [] } 0 0x10000 with | (_, .ok (.fail _)) => true | _ => false)) = true ∧
    (decide ((loadNode .waiting).state = .waiting) && decide ((loadNode .ready).state ≠ .waiting)) = true ∧
    (mayArm (loadState img0 (loadLease (loadNode .ready))) 0 && !mayArm (loadState img0 { loadLease (loadNode .ready) with hline := true }) 0 && (match placeNode (loadState img0 { loadLease (loadNode .ready) with checked := [checked0] }) 0 0 0 img0 none with | .at_ ox oy _ _ => ox == 0 && oy == 0 | _ => false)) = true ∧
    ((match placeNode (loadState img0 { loadLease (loadNode .ready) with checked := [checked0], regions := [{ region0 none with node := 1 }] }) 0 0 0 img0 none with | .waits => true | _ => false) && (match placeNode (loadState img0 { loadLease (loadNode .ready) with checked := [checked0], rcd := { tenid := 1, ptbr := 0x1000 } }) 0 0 0 (img0.set 12 2) none with | .never r _ => r == 0x1B | _ => false)) = true ∧
    ((match regionAt (leaseAt (copyState []) 0) 1 with | some r => (match (patsOf r.img)[0]? with | some p => patPlaces (leaseAt (copyState []) 0).rcd r p == [(0, 0, 0)] && !portalHolds r.img p 1 (tileAt (copyState []) 0) && (planeFor (tileAt (copyState []) 0) 1).isSome && (match loaderParts (copyState []) 0 r.va (patParts r.img p) with | (_, .ok b) => patHashes img0 == [sha256 b] && ((patsOf r.img)[1]?).isNone | _ => false) | none => false) | none => false)) = true ∧
    ((match regionAt (leaseAt (copyState []) 0) 1 with | some r => (match (patsOf r.img)[0]? with | some p => (match loaderParts { copyState [] with fot := [] } 0 r.va (patParts r.img p) with | (_, .fail _) => true | _ => false) | none => false) | none => false)) = true ∧
    (leaseRuns (leaseAt arrivedState 0) && (tileAt arrivedState 0).moving == false) = true ∧
    (nodeKind { loadNode .ready with kind := 3 } == 3 && nodeKind { loadNode .ready with kind := 2 } == 2 && nodeKind { loadNode .ready with kind := 4 } == 4 && (leaseAt (otherState (loadNode .ready)) 0).graphs.find 0 != none) = true ∧
    ((List.range 64).any fun k => trigOk (otherState { loadNode .ready with kind := 4, kparam := BitVec.ofNat 192 k }) 0 { loadNode .ready with kind := 4, kparam := BitVec.ofNat 192 k }) = true ∧
    ((trackRegion (leaseAt trackState 0) 0 1).isSome) = true ∧
    (mayArm trackState 0 && (match placeNode trackState 0 0 1 img0 (some 1) with | .at_ ox oy _ _ => ox == 0 && oy == 0 | _ => false)) = true ∧
    ((nodeAt (leaseAt (tokState { loadNode .waiting with pend := 2 }) 0) 0 0).isSome) = true := by decide +kernel

/-! ### Graph commands -/

/-- A command of tenant 1 for lease `lid`, graph `g` and node `n`, with more fields at bytes 22 on. -/
def cmdOf (kind lid g n hi : Nat) : Cmd := { pf := 1, ring := 2, seq := 5, e := BitVec.ofNat 512 (kind + 0x77 * 2 ^ 64 + lid * 2 ^ 128 + g * 2 ^ 144 + n * 2 ^ 160 + hi * 2 ^ 176) }
def recordNo : Nat := 2 ^ 32 + 0x10000 * 2 ^ 64 + launch0.toNat * 2 ^ 128
/-- A graph of one node at 0x21000 that its table at 0x20000 names. -/
def graphMem (st nn : Nat) : List Host.Cell :=
  Memory.putBytes (Memory.putBytes pageTables 0x20000 (toBytes 8 0x21000 ++ toBytes 4 nn ++ toBytes 4 0 ++ toBytes 8 0 ++ toBytes 8 st)) 0x21000 (toBytes 128 recordNo)
def graphState (st nn : Nat) (l : Lease) : State := { loadState [] { l with rcd := { l.rcd with grtab := 0x20000 } } with mem := graphMem st nn }
def idle : Lease := { leasePt with actg := [] }

/-- The graph after its node has faulted and its policy is done. -/
def faultNode : Node := { loadNode .faulted with polDone := true, policy := 1, nreg := 1 }
def faultState : State := graphState 3 1 { nodeLease faultNode with graphs := [(0, { gstate := 3, nnode := 1, nodesVa := 0x21000, nodes := [faultNode] })], actg := [] }

def streamState : State :=
  let x : Graph := { gstate := 1, nnode := 2, nedge := 1, nodes := [{ loadNode .running with nout := 1 }, faultNode], edges := [BitVec.ofNat 64 (1 + 2 ^ 16)] }
  { trackState with leases := [(0, { loadLease (loadNode .running) with graphs := [(0, x)] })] }

def hostNode (st : NodeState) : Node := { state := st, kind := 2 }

def mgmtState (ok : Bool) : State := otherState { hostNode (if ok then .armed else .ready) with kind := 3 } |> fun s => { s with leases := [(0, { leaseAt s 0 with mgmtReqs := [(0, 0)] })] }

def retryNode : Node := { loadNode .faulted with polDone := true, rbudg := 2, rtry := 1 }

theorem witness_GraphCommands :
    (!(leaseAt State.reset 0).v && cmdLease (cmdOf 1 0 0 0 0) != mgmtKey && (leaseAt State.reset 0).lstate != .removing) = true ∧
    ((leaseAt (graphState 0 1 idle) 0).actg == [] && (match fetchGraph (graphState 0 1 idle) 0 0x20000 32 with | (u, .ok v) => fld v 64 32 == 1 && fld v 192 8 == 0 && (match fetchAll 0 (fld v 0 64) 128 (List.range 1) u with | (_, .ok r) => r == [recordNo] && graphFlaw false r { nodesVa := 0x21000, nnode := 1, nedge := 0, edgesVa := 0, nodes := r.map nodeOfRecord, edges := [] } == none | _ => false) | _ => false)) = true ∧
    ((match fetchGraph (graphState 1 1 idle) 0 0x20000 32 with | (_, .ok v) => fld v 192 8 != 0 | _ => false) && (match fetchGraph (graphState 0 0 idle) 0 0x20000 32 with | (_, .ok v) => fld v 64 32 == 0 | _ => false) && (match fetchGraph { graphState 0 1 idle with fot := [] } 0 0x20000 32 with | (_, .error _) => true | _ => false) && (leaseAt (graphState 0 1 { idle with actg := [0] }) 0).actg.contains 0) = true ∧
    (graphFlaw false [7] { nodesVa := 0, nnode := 1, nedge := 0, edgesVa := 0, nodes := [nodeOfRecord 7], edges := [] } == some (0, false)) = true ∧
    ((match (leaseAt (graphState 0 1 (nodeLease (loadNode .running))) 0).graphs.find 0 with | some x => x.gstate == 1 | none => false) && ((leaseAt (graphState 0 1 idle) 0).graphs.find 0).isNone) = true ∧
    ((match (leaseAt faultState 0).graphs.find 0 with | some x => coneOf x 0 == [0] && x.gstate == 3 && nodeOver faultNode && (match fetchAll 0 x.nodesVa.toNat 128 [0] faultState with | (_, .ok r) => r == [recordNo] | _ => false) | none => false)) = true ∧
    ((match (leaseAt trackState 0).graphs.find 0 with | some x => !nodeOver (loadNode .running) && (edgeList x).length == 1 | none => false)) = true ∧
    ((match (leaseAt streamState 0).graphs.find 0 with | some x => (edgeList x).any (fun e => edgeKind e.2.2 == 1 && (coneOf x 1).contains (edgeDst e.2.2) && !(coneOf x 1).contains e.1) | none => false)) = true ∧
    ((nodeAt (leaseAt (otherState (hostNode .armed)) 0) 0 0).isSome && cmdField (cmdOf 10 0 0 0 1) 22 1 == 1 && nodeKind (hostNode .armed) == 2) = true ∧
    ((leaseAt (stateOf {}) 0).lstate == .active && (leaseAt { stateOf {} with leases := [(0, { lease0 with lstate := .preempted })] } 0).lstate == .preempted) = true ∧
    ((leaseAt (mgmtState true) 0).mgmtReqs.contains (0, 0) && !(leaseAt (otherState (hostNode .armed)) 0).mgmtReqs.contains (0, 0)) = true ∧
    ((match (leaseAt (otherState retryNode) 0).graphs.find 0 with | some x => x.gstate == 1 | none => false) && retryNode.policy.toNat % 4 == 0 && (leaseAt (otherState retryNode) 0).regions == []) = true ∧
    ((State.reset.journal.all fun e => e.state != 4) && !(leaseAt (otherState (loadNode .running)) 0).faults.contains (0, 0)) = true := by decide +kernel

/-! ### Stops -/

/-- Lease 0 with its status area at 0x30000 and its save area at 0x40000, over a region of one tile. -/
def stopLease (n : Node) : Lease :=
  { nodeLease n with rcd := { tenid := 1, ptbr := 0x1000, stbase := 0x30000, saveb := 0x40000, grtab := 0x20000, qbnd := 1 }, regions := [region0 none] }
def stopState (l : Lease) : State := { paged (stateOf { tten := 1, pa := { pst := .active, rid := 1, blk1 := some { elems := [elem0] } } }) with leases := [(0, l)] }
def rec0 (k : Nat) : StopRec := { kind := k, cause := 0x50009, graph := 0, node := 0, tile := 0, eng := 1, slot := 0 }
def stopped0 : Lease := { stopLease (loadNode .running) with hline := true, stopOpen := true, recs := [rec0 1] }

def quietState (st : Lstate) (q : Nat) : State :=
  { stopState { stopLease (loadNode .running) with lstate := st, quiet := q, pending := [cmdOf 7 0 0 0 0] } with tiles := [(0, { tten := 1, idle := true, pa := { pst := .active, rid := 1 } })] }

def scanState : State := stopState { stopLease (loadNode .running) with lstate := .gating, scan := true, pending := [cmdOf 7 0 0 0 0] }
/-- A save area whose entry 5 is free and holds 1 MiB. -/
def saveArea : List Host.Cell := Memory.putBytes pageTables (0x40000 + 16 * 5) (toBytes 8 0x50000 ++ toBytes 8 0x100000)

def preState (l : Lease) : State := stopState { l with pending := [] }
def pcmd : Cmd := cmdOf 7 0 0 0 0

def savedState (v : Saved) : State := preState { stopLease (loadNode .running) with lstate := .preempted, saved := some v, regions := [] }

def faultRec : Pfrec := { tag := 9, va := 0x1234, tid := 0, write := false, element := 0, rid := 1 }
def pfCmd : Cmd := cmdOf 12 0 0 0 (9 * 2 ^ 16)
def pfState (f : Pfrec) : State :=
  { stopState { stopLease (loadNode .running) with pfrecs := [f], regions := [{ region0 none with frozen := true }] } with reqs := [(0, { req0 (.read false false 0) .none .faulted [vaPiece] with who := ⟨0, 1, 0⟩ })] }

theorem witness_Stops :
    (recordsDue stopped0 && !copyingNow (stopState stopped0) 0 && !recordsDue (stopLease (loadNode .running)) && stopped0.lstate != .removing) = true ∧
    (recordsDue { stopLease (loadNode .running) with recs := [rec0 3] } && !{ stopLease (loadNode .running) with recs := [rec0 3] }.stopOpen) = true ∧
    (recordsDue { stopped0 with rcd := { stopped0.rcd with ptbr := 0 } } && (leaseAt (writeRec 0 (stopState { stopped0 with rcd := { stopped0.rcd with ptbr := 0 } }) (rec0 1)) 0).lstate == .removing) = true ∧
    (!(leaseAt State.reset 0).v && (stopLease (loadNode .running)).v) = true ∧
    (!recordsDue { stopLease (loadNode .running) with haltReq := true } && recordsDue stopped0) = true ∧
    ((stopLease (loadNode .running)).lstate != .removing && !(stopLease (loadNode .running)).haltReq) = true ∧
    ((nodeAt (stopLease { loadNode .faulted with policy := 2 }) 0 0).isSome && (2 : BitVec 8).toNat % 4 == 2) = true ∧
    ({ stopLease (loadNode .running) with hline := true }.recs == [] && stopped0.recs != []) = true ∧
    (boundTiles (quietState .gating 1) 0 == [0] && !tileBusy (quietState .gating 1) 0 0 && (leaseAt (quietState .free 0) 0).lstate == .free) = true ∧
    (!(leaseAt (quietState .gating 0) 0).scan && 1024 * (leaseAt (quietState .gating 0) 0).rcd.qbnd.toNat == 1024) = true ∧
    (recordsDue (leaseAt scanState 0) == false && !inFlight scanState 0) = true ∧
    ((regionAt (stopLease (loadNode .running)) 1).isSome && (freeEntry 0 100 ((List.range 251).map (· + 5)) { scanState with mem := saveArea }).2 == some 5 && (freeEntry 0 100 ((List.range 251).map (· + 5)) scanState).2.isNone) = true ∧
    ((stopLease (loadNode .running)).lstate == .active && !(stopLease (loadNode .running)).hline && { stopped0 with broken := true, recs := [], stopOpen := false }.broken) = true ∧
    ((leaseAt (savedState { inPlace := true }) 0).lstate == .preempted && (match reloadAll 0 {} [] (savedState {}) with | (_, some []) => true | _ => false)) = true ∧
    ((leaseAt State.reset 0).lstate == .free && (stopLease (loadNode .running)).lstate != .free) = true ∧
    ((leaseAt (stopState { stopped0 with lstate := .removing }) 0).lstate == .removing) = true ∧
    (memoriesCanonical { stopState stopped0 with scratch := [(5, 7), (0x100001, 9)] }) = true ∧
    (openPfrec (leaseAt (pfState faultRec) 0) pfCmd == some faultRec && (openPfrec (stopLease (loadNode .running)) pfCmd).isNone && (openPfrec (leaseAt (pfState { faultRec with loader := true }) 0) pfCmd).isSome) = true ∧
    ((tileAt (stateOf (ringTile elem0 {})) 0).tten != 0 && bankMode (ringTile elem0 {}) 0 == .active && (tileAt State.reset 0).tten == 0) = true ∧
    ((State.reset.leases.filter fun m => m.2.v) == []) = true := by decide +kernel

/-! ### Binding and moves -/

/-- A bind record of lease 0 and tenant 1 over tile 0 (Table 13.2), and host memory that holds it at 0x100. -/
def bindNo (ten : Nat) : Nat := 128 + ten * 2 ^ 8 + 2 ^ 64 + 2 ^ 80 + 3 * 2 ^ 192 + 2 ^ 640
def bindMem (v : Nat) : List Host.Cell := Memory.putBytes [] (hostPa 0x100) (toBytes 128 v)
def bindState (v : Nat) : State := { State.reset with stage := 0xFFFFFFF3, mem := bindMem v }
def bcmd : Cmd := cmdOf 0x01 0 0 0 (0x100 * 2 ^ 16)

def scrubState (t : BitVec 16) : State := { stateOf { tten := 1, scrub := t } with leases := [(0, { lease0 with scrubbing := true, lstate := .free, pending := [bcmd] })] }

/-- The lease as bound by the record, with tile 0 its own. -/
def rebindState (v : Nat) (st : Lstate) (w : Nat) (x : Tile) : State :=
  { bindState v with leases := [(0, { lease0 with rcd := bindRecOf (bindNo 1), lstate := st, bankWait := w })], tiles := [(0, { x with tten := 1 })] }
def busyTile : Tile := { bankg := 4, bpm := [(2, .active)] }
def busyRebind (w : Nat) : State := { rebindState (bindNo 1) .preempted w busyTile with nextReq := 1, reqs := [(0, req0 .wake .none .home [{ sp := .scr, addr := 2 * 65536, len := 4, pos := 0 }])] }

/-- FOTSET of frame 3 of stack 2 to tenant 7. -/
def fotCmd : Cmd := cmdOf 0x42 0 0 (2 + 7 * 2 ^ 8) 3
def fotState (l : List Host.Cell) : State := { State.reset with fot := [(2 * 32768 + 3, 63)], fotChanges := [⟨2, 3, 7, fotCmd⟩], mem := l }
def frame3 : Nat := 2 * 2 ^ 36 + 3 * 2 ^ 21

/-- MOVE of a plan of two entries at host address 0x200: a region, and a lease whole. -/
def mvCmd : Cmd := cmdOf 0x41 0 0 0 (0x200 * 2 ^ 16 + 2 * 2 ^ 80)
def planNo0 : Nat := 0 + 0 * 2 ^ 16 + 64 * 2 ^ 48
def planNo1 : Nat := 3 + 2 ^ 8 + 128 * 2 ^ 48
def planMem : List Host.Cell := Memory.putBytes (Memory.putBytes pageTables (hostPa 0x200) (toBytes 16 planNo0)) (hostPa 0x210) (toBytes 16 planNo1)
def mvLease : Lease := { stopLease (loadNode .running) with rcd := { (stopLease (loadNode .running)).rcd with lext := 0xFC0 / 64 * 64 + 0 } }
def planState : State := { stopState mvLease with mem := planMem, stage := 0xFFFFFFF3 }

/-- The move of a region in progress. -/
def ent0 : PlanE := { idx := 0, lease := 0, whole := false, rorg := 0, cut := 0, norg := 1, bad := false }
def run0 (n : Nat) (copy : Bool) : MoveRun := { cmd := mvCmd, plan := hostPa 0x200, rest := [], cur := some ent0, rid := 1, copying := copy, since := 1, cycles := n }
def movingState (m : MoveRun) (st : Lstate) : State :=
  { planState with move := some m, leases := [(0, { mvLease with lstate := st, regions := [{ region0 (some 0) with held := true }] })], tiles := [(0, { tten := 1, idle := true, pa := { pst := .active, rid := 1 } }), (1, { tten := 1, lorg := 0 })] }

theorem witness_BindingAndMoves :
    (recordAt (bindState (bindNo 1)) bcmd == bindNo 1 && !bindBad 0 (bindNo 1) && !grantBad (bindState (bindNo 1)) (bindRecOf (bindNo 1)) && !tileTaken (bindState (bindNo 1)) 0 0 && !shareBad (bindState (bindNo 1)) 0 (bindRecOf (bindNo 1)) && !needBad (bindState (bindNo 1)) (bindRecOf (bindNo 1)) [0] && leaseTiles (bindRecOf (bindNo 1)) == [0]) = true ∧
    (bindBad 0 (bindNo 0) && tileTaken { bindState (bindNo 1) with stage := 0 } 0 0 && needBad (bindState (bindNo 1 + 2 ^ 672)) (bindRecOf (bindNo 1 + 2 ^ 672)) [0] && shareBad { bindState (bindNo 1 + 2 ^ 96) with leases := [(1, { lease0 with rcd := { hbmsh := 255 } }), (2, { lease0 with rcd := { hbmsh := 1 } })] } 0 (bindRecOf (bindNo 1 + 2 ^ 96))) = true ∧
    (scrubGoes (scrubState 2) 0 && !scrubGoes (scrubState 0) 0) = true ∧
    (rebindBad (bindRecOf (bindNo 1)) (bindRecOf (bindNo 2)) false && (slotFlaw (rebindState (bindNo 1) .active 0 {}) 0 (bindRecOf (bindNo 1)) []).isNone && (slotFlaw (rebindState (bindNo 1 + 2 ^ 32) .preempted 0 {}) 0 (bindRecOf (bindNo 1 + 2 ^ 32)) [1]).isNone) = true ∧
    (rebindBusy (busyRebind 0) 0 (bindRecOf (bindNo 1)) && !rebindBusy (rebindState (bindNo 1) .preempted 0 busyTile) 0 (bindRecOf (bindNo 1))) = true ∧
    (cmdField fotCmd 20 1 == 2 && cmdField fotCmd 22 2 == 3 && cmdField fotCmd 21 1 == 7 && (fotState []).fotChanges.any fun f => f.stack == 2 && f.frame == 3) = true ∧
    (memoriesCanonical (fotState [(frame3 - 1, 5), (frame3, 6), (frame3 + 2 ^ 21, 7)]) && fotOf (fotState []) 2 3 == 63 && State.reset.fotChanges == []) = true ∧
    (planState.move.isNone && (readPlan planState (hostPa 0x200) 2).length == 2 && cmdField mvCmd 24 8 == 0x200 && cmdField mvCmd 32 4 == 2 && (planEntry planState (hostPa 0x200) 1).whole && !(planEntry planState (hostPa 0x200) 0).bad) = true ∧
    ((match entryFails planState (planEntry planState (hostPa 0x200) 1) with | .error st => st == stNotActive | _ => false) && (match entryFails planState { planEntry planState (hostPa 0x200) 1 with bad := true } with | .error st => st == stBadField | _ => false)) = true ∧
    (slabDrained (movingState (run0 0 false) .moving) (run0 0 false) ent0 && slabTiles (leaseAt (movingState (run0 0 false) .moving) 0) ent0 1 == [0]) = true ∧
    ((leaseAt (movingState (run0 1024 false) .moving) 0).rcd.qbnd == 1 && (leaseAt (movingState (run0 0 false) .gating) 0).lstate != .moving) = true ∧
    (!slabBanksBusy (movingState (run0 5 true) .moving) [0] 1 && !slabBanksBusy { movingState (run0 5 true) .moving with reqs := [(1, req0 .wake .none .home [{ sp := .scr, addr := 8, len := 4, pos := 0 }])] } [0] 1 && slabBanksBusy { movingState (run0 5 true) .moving with reqs := [(0, req0 .wake .none .home [{ sp := .scr, addr := 8, len := 4, pos := 0 }])] } [0] 1) = true ∧
    ([1].contains 1 && (sx 9 (0x1FF : Nat) == -1)) = true := by decide +kernel

/-! ### Tenant commands -/

/-- A command with VA, LENGTH and a result buffer (Table 22.3), on a lease with page tables. -/
def rangeCmd (kind : Nat) : Cmd := cmdOf kind 0 0 0 (0x1000000 * 2 ^ 16 + 0x20000 * 2 ^ 80 + 0x60000 * 2 ^ 144)
/-- Its first gigabyte is one leaf whose D is set. -/
def dirty : List Host.Cell := Memory.writeN (Memory.writeN [] 8 0x1000 (2 ^ 63 + 0x2000)) 8 0x2000 (2 ^ 63 + 2 ^ 62 + 2 ^ 57 + 2 ^ 58)
def tenantState (l : Lease) : State :=
  { paged (stateOf {}) with mem := dirty, leases := [(0, l)], mtlb := [(0, [⟨0, 1, 2, 0, 0, true, 0, true⟩, ⟨1, 1, 2, 0, 0, true, 0, true⟩])] }
def markLease : Lease := { leasePt with marks := [(5, ⟨3, 1, 0x1000000, 0x1020000⟩)] }

/-- Queue 0 of the lease, and a command on it. -/
def qState (q : MsgQueue) : State :=
  { tenantState { leasePt with queues := [(0, q)] } with mem := graphMem 0 1, scratch := Memory.writeN (Memory.writeN [] 64 0 7) 64 64 8, tiles := [(0, ringTile elem0 {})] }
def qCmd (kind : Nat) : Cmd := cmdOf kind 0 0 0 (0x70000 * 2 ^ 16)
def q0 : MsgQueue := { v := true, gen := 3, home := 0, cap := 4, count := 2 }

def jent (st : Nat) : JEntry := { seq := 0x70000, ten := 1, kind := 1, state := st, lease := 0, digest := 0, tacc := 0, tfin := 0 }

theorem witness_TenantCommands :
    (!(leaseAt State.reset 0).v && cmdLease (rangeCmd 8) == 0) = true ∧
    (hasMark (tenantState markLease) (rangeCmd 8) && !hasMark (tenantState leasePt) (rangeCmd 8) && !rangeBusy (tenantState markLease) 0 ⟨3, 1, 0x1000000, 0x1020000⟩ true) = true ∧
    (rangeBusy { tenantState markLease with reqs := [(0, req0 (.write 7) .none .issued [{ sp := .pa, addr := 0x1000000, len := 4, pos := 0 }])] } 0 ⟨3, 1, 0x1000000, 0x1020000⟩ false == false && rangeBusy { tenantState markLease with reqs := [(0, req0 (.write 7) .none .issued [{ sp := .pa, addr := 0x1000000, len := 4, pos := 0, va := 0x101FFFC }])] } 0 ⟨3, 1, 0x1000000, 0x1020000⟩ true) = true ∧
    ((leafOf (tenantState leasePt) 0 0x1000000).2.isSome && (leafOf (tenantState leasePt) 0 (2 ^ 48)).2.isNone && (harvestPages 0 0x1020000 4 0x1000000 (tenantState leasePt)).2 == [true] && (match vaWrite (harvestPages 0 0x1020000 4 0x1000000 (tenantState leasePt)).1 0 0x60000 (bitBytes [true]) with | (_, .ok ()) => true | _ => false) && (match vaWrite (tenantState leasePt) 0 (2 ^ 48) [1] with | (_, .error _) => true | _ => false)) = true ∧
    ((evictPages 0 0x1020000 (leaseNeeds (tenantState leasePt) 0) 4 64 0x1000000 (tenantState leasePt)).2 == [0]) = true ∧
    (((leaseAt (qState q0) 0).queues.get 0 {}).v && !((leaseAt (tenantState leasePt) 0).queues.get 0 {}).v && cmdField (qCmd 13) 20 2 == 0 && (65535 : BitVec 16).toNat == 65535) = true ∧
    ((match vaWrite (qState q0) 0 (0x70000 + 64) (((queueMsgs (qState q0) 0 q0).map fun m => toBytes 64 m.toNat).flatten) with | (u, .ok ()) => (match vaWrite u 0 0x70000 (ringHeader q0 0) with | (_, .ok ()) => true | _ => false) | _ => false) && (match vaWrite { qState q0 with fot := [] } 0 (0x70000 + 64) [1] with | (_, .error _) => true | _ => false)) = true ∧
    ((match ringHeadTail (qState { q0 with ring := some 0x70000 }) 0 0x70000 with | (u, .ok (h, t)) => h == 0 && t == 0 && (match ringMessages 0 0x70000 4 0 0 u with | (_, .ok l) => l == [] | _ => false) | _ => false) && (match ringHeadTail { qState q0 with fot := [] } 0 0x70000 with | (_, .error _) => true | _ => false)) = true ∧
    ((({ State.reset with journal := [jent 3] } : State).journal.find? fun e => e.seq == 0x70000 && e.ten == 1).isSome && State.reset.journal == []) = true := by decide +kernel

/-! ### Host interface -/

/-- PF 1 with ring 0 of 16 entries at host address 0x400 and a queue of 16 at 0x800; one command stands in the ring. -/
def pf1 : Pf := { rbase := [(0, 0x400)], rctl := [(0, 0x80000004)], rtail := [(0, 1)], qbase := 0x800, qctl := 0x80000004, mask := 0xFFFE, maxLen := 0x100000 }
def ringMem (c : Cmd) : List Host.Cell := Memory.putBytes [] (hostPa 0x400) (toBytes 64 c.e.toNat)
def hostState (p : Pf) (c : Cmd) : State := { stateOf {} with stage := 0xFFFFFFF3, pfs := [(1, p)], mem := ringMem c }
def ringCmd (c : Cmd) : Cmd := { c with ring := 0, seq := 1 }

def subState (c : Cmd) (w : List Cmd) : State := { State.reset with psubCmd := some c, psub := c.e, cmdWait := w }

def ent1 (n : Nat) : CEntry := { tag := 5, res := 6, status := 7, outc := true, ring := 3, after := n }
def nfull : List Notice := List.replicate 64 ⟨0x83, 1, 2⟩

theorem witness_HostInterface :
    (pfLive (hostState pf1 (cmdOf 5 0 0 0 0)) 1 && portUp (hostState pf1 (cmdOf 5 0 0 0 0)) 1 && queueRoom pf1 && journalRoom (hostState pf1 (cmdOf 5 0 0 0 0)) && (refusal (hostState pf1 (cmdOf 5 0 0 0 0)) (ringCmd (cmdOf 5 0 0 0 0))).isNone && refusal (hostState { pf1 with mask := 0 } (cmdOf 5 0 0 0 0)) (ringCmd (cmdOf 5 0 0 0 0)) == some stRejKind && !pfLive State.reset 1) = true ∧
    (refusal (hostState pf1 (cmdOf 5 0 0 0 1)) (cmdOf 5 0 0 0 1) == some stRejField && refusal (hostState pf1 (cmdOf 5 1 0 0 0)) (cmdOf 5 1 0 0 0) == some stRejLease && refusal (hostState { pf1 with maxLen := 0x100 } (cmdOf 5 0 0 0 0)) (rangeCmd 8) == some stRejField && refusal (hostState { pf1 with maxLen := 0x100 } (cmdOf 5 0 0 0 0)) (cmdOf 8 0 0 0 (0x101 * 2 ^ 80)) == some stRejBound && refusal (hostState { pf1 with tdreq := true } (cmdOf 5 0 0 0 0)) (cmdOf 5 0 0 0 0) == some stAborted && kindOk State.reset { cmdOf 0x44 0 0 0 0 with pf := 0 } && !kindOk State.reset { cmdOf 3 0 0 0 0 with pf := 0 }) = true ∧
    (State.reset.jhead.toNat + 1 < 2 ^ 64) = true ∧
    ((cmdInstr (cmdOf 5 0 0 0 0)).isSome && !hasMark (subState (cmdOf 5 0 0 0 0) [cmdOf 8 0 0 0 0]) (cmdOf 8 0 0 0 0) && State.reset.psubCmd.isNone) = true ∧
    (queueRoom { pf1 with cwait := [ent1 0] } && !queueRoom { pf1 with qtail := 16 } && (hostState { pf1 with cwait := [ent1 1], nbuf := [⟨0x83, 1, 2⟩] } (cmdOf 5 0 0 0 0)).linkUp0) = true ∧
    (nfull.length == 64 && ([] : List Notice).length < 64) = true ∧
    (pfLive (hostState pf1 (cmdOf 5 0 0 0 0)) 1 && (2 ^ 32 - 1 + 1) % 2 ^ 32 == 0) = true ∧
    (decide ((pfAt (hostState { pf1 with tdi := .run } (cmdOf 5 0 0 0 0)) 1).tdi = .run) && decide (pf1.tdi ≠ .locked)) = true ∧
    (State.reset.psubCmd.isNone && (hostState pf1 (cmdOf 5 0 0 0 0)).cmdWait == []) = true := by decide +kernel

/-! ### Platform -/

def allowCmd : Cmd := cmdOf 0x46 0 0 3 (0xFFFE * 2 ^ 16 + 0x1000 * 2 ^ 80 + (7 + 2 ^ 16 + 9 * 2 ^ 32) * 2 ^ 144)

def joinState (v : BitVec 32) (f : BitVec 8) : State := { State.reset with stage := v, failed := f }

theorem witness_Platform :
    (cmdField allowCmd 20 1 == 3 && cmdField allowCmd 24 8 == 0xFFFE && cmdField allowCmd 32 8 == 0x1000 && cmdField allowCmd 40 2 == 7 && cmdField allowCmd 42 1 == 1 && cmdField allowCmd 44 4 == 9) = true ∧
    ({ pf1 with keyed := true }.keyed && decide (pf1.tdi = .unlocked) && !pf1.keyed) = true ∧
    (pfLive (hostState pf1 (cmdOf 5 0 0 0 0)) 1 && journalRoom (hostState pf1 (cmdOf 5 0 0 0 0)) && { hostState pf1 (cmdOf 5 0 0 0 0) with fot := [(3, 1)] }.fot.any (fun m => m.2.toNat == 1) && (hostState pf1 (cmdOf 5 0 0 0 0)).fot == []) = true ∧
    (State.reset.staged == [] && ({ State.reset with staged := [(2, [1, 2])] } : State).staged == [(2, ([1, 2] : List Byte))]) = true ∧
    ((joinState 2 0).stage.toNat % 16 == 2 && (List.range 8).all (fun k => k == 7 || (0x7F2 : BitVec 32).getLsbD (4 + k)) && (joinState 0x12 0).stage.getLsbD 4) = true ∧
    (!State.reset.throttled.contains 3 && { State.reset with throttled := [3] }.throttled.contains 3) = true := by decide +kernel

/-! ### Others -/

theorem witness_DecodeEncode :
    (WellFormed.wellFormed (.add f0) && encode (.add f0) == some 0x2070001000000014 || encode (.add f0) != none) = true := by decide +kernel

theorem witness_WordsHaveOneMeaning :
    ((match decode 0x42A0041000000014 with | .ok _ => true | .error _ => false) && (match decode 0xFF00000000000000 with | .ok _ => false | .error _ => true)) = true := by decide +kernel

theorem witness_FiringFrame :
    ((ctxAt (stateWith elem0) ⟨0, 1, 0⟩ (.add f0) f0).isSome) = true := by decide +kernel

theorem witness_IntegerArithmetic :
    (plainInstrs.length > 60 && fires (.mulh f0) f0 (stateWith elem0) (fun _ => true)) = true := by decide +kernel

theorem witness_RoundingIsCorrect :
    ((roundDy fBf16 .rn false false ⟨5, 0⟩ 0).fl &&& flOF == 0) = true := by decide +kernel

theorem witness_Px8RoundTrip :
    ((List.replicate 64 200).length == 64 && (List.replicate 64 200).all fun b => b < 256) = true := by decide +kernel

theorem witness_StochasticSource :
    ((1 * 0x9E3779B1 + ((3 * 512) ||| (1 * 128) ||| 2)) % 2 ^ 32 != 0) = true := by decide +kernel

/-! ### Where clauses meet -/

def two : List Piece := [{ sp := .scr, addr := 12, len := 4, pos := 0 }, { sp := .scr, addr := 16, len := 4, pos := 4 }]

/-- A load under F of a granule that is full and one that is not. -/
def halfState (feb : List Nat) : State := { bankState .wake feb [(12, 5), (16, 6)] with reqs := [(3, req0 (.read true true 0) (.targets [0] 0) .home two)] }

theorem witness_BankService_2 :
    ((two.map fun p => p.len) == [4, 4]) = true ∧
    (memoriesCanonical (halfState [0]) && (halfState [0]).feb == [0]) = true ∧
    (granted { ringTile elem0 {} with bankg := 0 } 0 == false) = true := by decide +kernel

def hitEntry (w d : Bool) : TlbE := { lease := 0, ten := 1, level := 2, vpn := 0, pa := 2 ^ 30, w := w, okind := 0, d := d }
def hitState (m : List TlbE) : State := { memState pageTables (req0 (.write 7) .none .issued [vaPiece]) with lltlb := [(0, m)] }

theorem witness_MemoryService_2 :
    (mustWalk (hitState [hitEntry true true]) (req0 (.write 7) .none .issued [vaPiece]) vaPiece == false && mustWalk (hitState [hitEntry true false]) (req0 (.write 7) .none .issued [vaPiece]) vaPiece && dieOfReq (hitState []) (req0 (.write 7) .none .issued [vaPiece]) == 0) = true ∧
    (paClass (2 ^ 50 + 0x1000) == 1 && paClass 0x1000 == 0) = true ∧
    (jobReply (jobState { lease0 with jobt := [(0, { job0 with running := true, left := 1 })] }) (req0 (.read false false 0) (.job 0 0) .done []) 0 0 != State.reset) = true ∧
    ((replyTok (req0 (.px8 0 0 0 0 false) .none .done []) 0 4) == poisonTok 2 4 && (replyTok { req0 (.px8 0 0 0 0 false) .none .done [] with raw := 1, got := 6 } 1 4) == ⟨6, 1⟩ && (replyTok { req0 .wake .none .done [] with err := some 3 } 1 4) == poisonTok 0x0A 4) = true := by decide +kernel

theorem witness_Jobs_2 :
    ((let j := { job0 with running := true }; jobRowLen .copy card0 0 == 4 && 0 < jobReads j && (jobRead j 0).row == 0 && (jobRead j 0).lo == 0)) = true := by decide +kernel

theorem witness_Stops_2 :
    (reqRegion (stateOf {}) (req0 .wake .none .done []) == 0) = true ∧
    (inFlight { scanState with reqs := [(0, { busyReq with who := ⟨0, 1, 0⟩ })] } 0) = true := by decide +kernel

def mvEnt (cut : Nat) : PlanE := { ent0 with norg := 64, cut := cut }
def run1 (cut : Nat) (second : Bool) : MoveRun := { run0 5 true with cur := some (mvEnt cut), second := second }

theorem witness_BindingAndMoves_2 :
    (!slabBanksBusy (movingState (run1 1 false) .moving) [0] 1 && (match moveFlaw (movingState (run1 1 false) .moving) (mvEnt 1) 1 with | .ok _ => true | .error _ => false)) = true ∧
    ((match moveFlaw (movingState (run1 0 false) .moving) (mvEnt 0) 1 with | .ok _ => true | .error _ => false)) = true := by decide +kernel

theorem witness_TenantCommands_2 :
    ((leafOf (tenantState leasePt) 0 (2 ^ 48)).2.isNone) = true ∧
    (queueMsgs (qState q0) 0 q0 == [7, 8] && (queueMsgs (qState q0) 0 q0)[1]? == some (scrWord (qState q0) 0 64)) = true := by decide +kernel

theorem witness_HostInterface_2 :
    ((let s := { State.reset with stage := 3, journal := [{ jent 1 with seq := 1 }], jhead := 256 }; !journalRoom s && journalSize s == 256 && (journalAdd s 1 5 1 0 9).jpend.length == 1 && (journalAdd s 1 5 1 0 9).jhead == 256)) = true ∧
    (((journalBytes { jent 3 with seq := 258, ten := 4, lease := 6 }).take 12).map (·.toNat) == [2, 1, 0, 0, 0, 0, 0, 0, 4, 1, 3, 6] && (journalBytes (jent 3)).length == 64) = true := by decide +kernel

/-- An entry that has changed, in a machine without HBM. -/
def journalBare : State := { State.reset with stage := 3, journal := [{ jent 3 with seq := 258 }], jdirty := [258] }
/-- The frames of the entry's place are TENID 0's, with a key. -/
def journalAt (a : Nat) : State :=
  { journalBare with
    fot := Tab.put (Tab.put [] (paStack a * 32768 + paFrame a) 0) (paStack (a + 63) * 32768 + paFrame (a + 63)) 0
    kslot := Tab.put (Tab.put [] (paStack a * 64 + 0) 1) (paStack (a + 63) * 64 + 0) 1 }
theorem journalAt_held (a : Nat) : runCause (journalAt a) 0 a 64 = none := by
  have get (i j : Nat) : ((Tab.put (Tab.put ([] : Tab (BitVec 6)) i 0) j 0).get i 63).toNat = 0 ∧ ((Tab.put (Tab.put ([] : Tab (BitVec 6)) i 0) j 0).get j 63).toNat = 0 := by
    by_cases h : i = j
    · simp [h]
    · simp [Tab.get_put_ne _ _ _ h]
  have find (k l : Nat) : ((Tab.put (Tab.put ([] : Tab Word) k 1) l 1).find k).isSome = true ∧ ((Tab.put (Tab.put ([] : Tab Word) k 1) l 1).find l).isSome = true := by
    by_cases h : k = l
    · simp [h]
    · simp [Tab.find_put_ne _ _ h]
  have first : channelCause (journalAt a) 0 a = none := by
    simp only [channelCause, fotOf, keyHeld, journalAt, (get _ _).1, (find _ _).1]; simp [journalBare, State.reset]
  have last : channelCause (journalAt a) 0 (a + 64 - 1) = none := by
    show channelCause (journalAt a) 0 (a + 63) = none
    simp only [channelCause, fotOf, keyHeld, journalAt, (get _ _).2, (find _ _).2]; simp [journalBare, State.reset]
  simp only [runCause, first, last]; rfl

theorem witness_HostInterface_journal : ∃ s e, memoriesCanonical s = true ∧ e ∈ s.journal ∧ e.seq ∈ s.jdirty ∧ journalHeld s e.seq = true ∧
    ∀ d ∈ s.journal, d.seq ∈ s.jdirty → d.seq % journalSize s = e.seq % journalSize s → d = e := by
  refine ⟨journalAt (journalPa journalBare 258), { jent 3 with seq := 258 }, ?_, .head _, .head _, ?_, fun d hd _ _ => List.mem_singleton.1 hd⟩
  · simp only [memoriesCanonical, journalAt]; decide +kernel
  · have h : journalPa (journalAt (journalPa journalBare 258)) 258 = journalPa journalBare 258 := by simp only [journalPa, journalSize, journalAt]; rfl
    show (runCause _ 0 (journalPa (journalAt _) 258) 64).isNone = true
    rw [h, journalAt_held]; rfl
def linkDown (s : State) : State := { s with linkUp0 := false }

theorem witness_StepRunsTheTurn_2 :
    (Sys2Proof.Machine.cmdOf (.bind bcmd) == some bcmd && !(linkDown (bindState (bindNo 1))).linkUp0) = true := by decide +kernel

theorem witness_BindingAndMoves_3 :
    (!(linkDown (bindState (bindNo 1))).linkUp0 && (leaseAt (bindState (bindNo 1)) 0).lstate == .free && (linkDown planState).move.isNone) = true := by decide +kernel

theorem witness_TrapEntry_2 :
    ({ lease0 with hline := true, stopOpen := true, stopid := 4 }.hline && { lease0 with hline := true, stopid := 4 }.stopOpen == false) = true := by decide +kernel

theorem witness_LoopsAndGenerators_2 :
    ((let f : Fields := f0; let s : State := stateWith { elem0 with  qa := [], due := true }; let i : Instr := .carry f; wit i f s fun c => sFld c 0 1 == 0 && f.a == .tok && c.ha.isNone && c.hb == some (dt 5))) = true := by decide +kernel

theorem witness_AccumulatorUpdates_2 :
    (fires (.acmp ({ f0 with  typ := .fp32 } : Fields)) ({ f0 with  typ := .fp32 } : Fields) (stateMat elem0 set1) (fun c => (setOf c).rdo.kind == 0)) = true ∧
    (fires (.acmpq ({ f0 with  typ := .fp32 } : Fields)) ({ f0 with  typ := .fp32 } : Fields) (stateMat elem0 set1) (fun c => (setOf c).rdo.kind == 0)) = true ∧
    (fires (.astat ({ f0 with  typ := .x } : Fields)) ({ f0 with  typ := .x } : Fields) (stateMat elem0 set1) (fun c => (setOf c).rdo.kind == 0)) = true := by decide +kernel

theorem witness_AccumulatorCompares_2 :
    ((let w : Cell := { sw := BitVec.ofInt 48 (2 ^ 46), cw := BitVec.ofInt 48 (2 ^ 46), aset := true }; acmpqCell w (.fin false 1 0) == 2 && acmpCell w (.inf true) == 1 && cellNan w == false)) = true := by decide +kernel

theorem witness_Rings_2 :
    (wit (.rpush ({ f0 with  typ := .x } : Fields)) ({ f0 with  typ := .x } : Fields) (stateOf (ringTile { elem0 with outs := 16 } ring0)) (fun c => mayExec c && (ringAt c.p 0).v && !ringFull (ringAt c.p 0) && 16 ≤ c.e.outs.toNat)) = true ∧
    (wit (.rpop ({ f0 with  typ := .x } : Fields)) ({ f0 with  typ := .x } : Fields) (stateOf (ringTile { elem0 with outs := 16 } ring0)) (fun c => mayExec c && (ringAt c.p 0).v && (ringAt c.p 0).cnt != 0 && 16 ≤ c.e.outs.toNat)) = true := by decide +kernel

def haltedBy (s : State) : State := { s with leases := [(0, { leaseAt s 0 with hline := true })] }

theorem witness_Castling_3 :
    (castleReady (castState true) 0 && !castleReady { castState true with leases := (castState true).leases.map fun m => (m.1, { m.2 with lstate := .gating }) } 0) = true := by decide +kernel

theorem witness_TrapsAndReads_2 :
    ((req0 (.ctr 5) (.targets [0] 0) .mesh []).who == (req0 (.ctr 4) (.targets [0] 0) .mesh []).who) = true := by decide +kernel

theorem witness_Stops_3 :
    ((match (stopLease (loadNode .running)).regions with | r :: _ => ({ r with stopped := true } : Region).stopped | [] => false)) = true ∧
    (inFlight { scanState with reqs := [(0, busyReq)] } 0 && 64 + 3200 ≤ 3264) = true ∧
    (stopped0.stopOpen && !skidOver { stopState stopped0 with reqs := [(0, busyReq)] } 0 && recordsDue stopped0) = true ∧
    ((tileAt (stopState stopped0) 0).tten == 1 && decide ((activePlane (tileAt (stateOf { tten := 1 }) 0)).pst = .empty)) = true ∧
    (State.reset.bmpar.get 3 false == parityOf (State.reset.ownbm.get 3 0) && ({ State.reset with bmpar := [(3, true)] } : State).bmpar.get 3 false != parityOf (State.reset.ownbm.get 3 0)) = true := by decide +kernel

theorem witness_GraphCommands_2 :
    (!({ nodeLease (loadNode .running) with v := false } : Lease).v && !isTenant mgmtKey) = true := by decide +kernel

theorem witness_HostInterface_3 :
    ((ringTurnOf (hostState { pf1 with lastRing := 0, rctl := [(0, 0x80000004), (2, 0x80000004)], rtail := [(0, 1), (2, 1)] } (cmdOf 5 0 0 0 0)) 1) == some 2 && pfTurn (hostState { pf1 with lastRing := 2, rctl := [(0, 0x80000004), (2, 0x80000004)], rtail := [(0, 1), (2, 1)] } (cmdOf 5 0 0 0 0)) == some 1) = true ∧
    ((msixHalf pf1 3).getLsbD 32 && !(msixHalf { pf1 with msix := [(3, 5)] } 3).getLsbD 32) = true ∧
    (!({ State.reset with linkUp0 := false } : State).linkUp0 && agentWaits { State.reset with reqs := [(0, { req0 .wake .none .home [hostPiece] with marks := [4] })] } (2 ^ 50 + 0x1238) && !agentWaits { State.reset with reqs := [(0, { req0 .wake .none .home [hostPiece] with marks := [3] })] } (2 ^ 50 + 0x1238)) = true ∧
    (decide ((State.reset.leases.filter fun m => m.2.v) = []) && (hostState pf1 (cmdOf 5 0 0 0 0)).leases.any (fun m => m.2.v && decide (m.2.rcd.tenid.toNat = 1))) = true := by decide +kernel

theorem witness_Platform_2 :
    ((pfAt (hostState { pf1 with flr := some (true, []), flrCmds := [cmdOf 0x47 0 0 1 0] } (cmdOf 5 0 0 0 0)) 1).flrCmds == [cmdOf 0x47 0 0 1 0]) = true := by decide +kernel

theorem witness_LinkTraffic_2 :
    (!tileRuns (haltedBy (linkState (linkTile 0x8000) (wire0 (dt 3)))) 0 && (leaseAt (haltedBy (linkState (linkTile 0x8000) (wire0 (dt 3)))) 0).hline) = true := by decide +kernel

theorem witness_Jobs_3 :
    (cardHeld (jobState { lease0 with cards := [cardMsg0] }) cardMsg0 == false && cardHeld { jobState lease0 with tiles := [(0, { hold := true })] } cardMsg0 && !cardHeld { jobState lease0 with tiles := [(0, { hold := true })] } { cardMsg0 with kind := .scat }) = true := by decide +kernel

theorem witness_TenantCommands_3 :
    (!granted {} 0 && granted { ringTile elem0 {} with bankg := 0xFFFF } 2) = true := by decide +kernel

end Sys2Proof.Tests
end

section
/-! SUPPORT. Lane-wise instructions: what a lane of the result is for a function of one, two and three words, and for a shift (R106, R117). -/

namespace Sys2Proof.Machine

open Sys2Proof Sys2Proof.Safety

theorem la_lt (f : Fields) (c : Ctx) (j : Nat) : la f c j < 2 ^ tyBits f.typ := lane_lt _ _ _
theorem lb_lt (f : Fields) (c : Ctx) (j : Nat) : lb f c j < 2 ^ tyBits f.typ := lane_lt _ _ _
theorem lbi_lt (f : Fields) (c : Ctx) (j : Nat) : lbi f c j < 2 ^ tyBits f.typ := lane_lt _ _ _

/-- A lane function of A. -/
theorem lanesAre_map1 {mk : Fields → Instr} {ws : Fields → Bool} {P : Fields → Ctx → Nat → Nat → Prop} (g : Fields → Ctx → Nat → Nat)
    (he : ∀ f s, exec (mk f) s = pureFire (mk f) f (ws f) (fun c => map1 c.n (g f c) (c.va c.n)) s)
    (hP : ∀ c j, P c.f c j (g c.f c (la c.f c j) % 2 ^ tyBits c.f.typ)) : LanesAre mk ws P := by
  refine lanesAre_of (fun f c => map1 c.n (g f c) (c.va c.n)) he fun f c j hf hj => ?_
  subst hf
  rw [Ctx.n, lane_map1 _ _ _ _ hj]
  exact hP c j

/-- A lane function of A and a second word. -/
theorem lanesAre_map2 {mk : Fields → Instr} {ws : Fields → Bool} {P : Fields → Ctx → Nat → Nat → Prop} (g : Fields → Ctx → Nat → Nat → Nat)
    (b : Ctx → Word) (he : ∀ f s, exec (mk f) s = pureFire (mk f) f (ws f) (fun c => map2 c.n (g f c) (c.va c.n) (b c)) s)
    (hP : ∀ c j, P c.f c j (g c.f c (la c.f c j) (lane (tyBits c.f.typ) (b c) j) % 2 ^ tyBits c.f.typ)) : LanesAre mk ws P := by
  refine lanesAre_of (fun f c => map2 c.n (g f c) (c.va c.n) (b c)) he fun f c j hf hj => ?_
  subst hf
  rw [Ctx.n, lane_map2 _ _ _ _ _ hj]
  exact hP c j

/-- A lane function of A, B and a third word. -/
theorem lanesAre_map3 {mk : Fields → Instr} {ws : Fields → Bool} {P : Fields → Ctx → Nat → Nat → Prop}
    (g : Fields → Ctx → Nat → Nat → Nat → Nat) (d : Ctx → Word)
    (he : ∀ f s, exec (mk f) s = pureFire (mk f) f (ws f) (fun c => map3 c.n (g f c) (c.va c.n) (c.vb c.n) (d c)) s)
    (hP : ∀ c j, P c.f c j (g c.f c (la c.f c j) (lb c.f c j) (lane (tyBits c.f.typ) (d c) j) % 2 ^ tyBits c.f.typ)) : LanesAre mk ws P := by
  refine lanesAre_of (fun f c => map3 c.n (g f c) (c.va c.n) (c.vb c.n) (d c)) he fun f c j hf hj => ?_
  subst hf
  rw [Ctx.n, lane_map3 _ _ _ _ _ _ hj]
  exact hP c j

/-- Exact arithmetic on A, narrowed under R111. -/
theorem lanesAre_arith1 {mk : Fields → Instr} (g : Int → Int)
    (he : ∀ f s, exec (mk f) s = pureFire (mk f) f (wsOf f) (fun c => arith1 c (c.md 2) g) s) :
    LanesAre mk wsOf fun f c j v => Narrowed f (f.md.getLsbD 2) (g (num f (la f c j))) v :=
  lanesAre_map1 (fun _ c a => narrow (c.md 2) (tySigned c.f.typ) c.n (g (rd (tySigned c.f.typ) c.n a))) he fun c _ => narrowed_narrow c.f _ _

/-- Exact arithmetic on A and B, narrowed under R111. -/
theorem lanesAre_arith2 {mk : Fields → Instr} (sat : Fields → Bool) (g : Nat → Int → Int → Int)
    (he : ∀ f s, exec (mk f) s = pureFire (mk f) f (wsOf f) (fun c => arith2 c (sat c.f) (g c.n)) s) :
    LanesAre mk wsOf fun f c j v => Narrowed f (sat f) (g (tyBits f.typ) (num f (la f c j)) (num f (lbi f c j))) v := by
  refine lanesAre_of (fun _ c => arith2 c (sat c.f) (g c.n)) he fun f c j hf hj => ?_
  rw [arith2_lane hf _ _ hj, Ctx.n, hf]
  exact narrowed_narrow f _ _

/-- A choice between A and B is in the range of a lane, so narrowing leaves it. -/
theorem lanesAre_choice2 {mk : Fields → Instr} (g : Int → Int → Int) (hg : ∀ x y, g x y = x ∨ g x y = y)
    (he : ∀ f s, exec (mk f) s = pureFire (mk f) f (wsOf f) (fun c => arith2 c false g) s) :
    LanesAre mk wsOf fun f c j v => num f v = g (num f (la f c j)) (num f (lbi f c j)) := by
  refine lanesAre_of (fun _ c => arith2 c false g) he fun f c j hf hj => ?_
  rw [arith2_lane hf _ _ hj]
  refine num_narrow_of_range f (g (num f (la f c j)) (num f (lbi f c j))) ?_
  rcases hg (num f (la f c j)) (num f (lbi f c j)) with h | h
  · rw [h]; exact num_lane_range f _ j
  · rw [h]; exact num_lane_range f _ j

/-- The count by which lane j is shifted: IMM16[7:0] under IMB, lane j of B otherwise (R117). -/
def shiftCount (f : Fields) (c : Ctx) (j : Nat) : Nat := if f.md.getLsbD 0 then f.imm.toNat % 256 else lb f c j

/-- A lane function of A and the count. -/
theorem lanesAre_shift2 {mk : Fields → Instr} {P : Fields → Ctx → Nat → Nat → Prop} (g : Nat → Nat → Nat → Nat)
    (he : ∀ f s, exec (mk f) s = pureFire (mk f) f (wsOf f) (fun c => shift2 c (g c.n)) s)
    (hP : ∀ c j, P c.f c j (g (tyBits c.f.typ) (la c.f c j) (shiftCount c.f c j) % 2 ^ tyBits c.f.typ)) : LanesAre mk wsOf P := by
  refine lanesAre_of (fun _ c => shift2 c (g c.n)) he fun f c j hf hj => ?_
  subst hf
  have h := hP c j
  by_cases hm : c.f.md.getLsbD 0 = true
  · rw [shiftCount, if_pos hm] at h
    rw [shift2, if_pos (show c.md 0 = true from hm), Ctx.n, lane_map1 _ _ _ _ hj]
    exact h
  · rw [shiftCount, if_neg hm] at h
    rw [shift2, if_neg (show ¬ c.md 0 = true from hm), Ctx.n, lane_map2 _ _ _ _ _ hj]
    exact h

/-- Every firing of an instruction combines A and B, or the immediate under IMB, bit by bit (R116). -/
def BitsAre (mk : Fields → Instr) (g : Bool → Bool → Bool) : Prop :=
  ∀ f s c, Fires (mk f) f s c → ∃ w, exec (mk f) s = .next (firedWord s c w (wsOf f)) ∧
    ∀ k < 512, w.getLsbD k = g ((c.va (tyBits f.typ)).getLsbD k) ((c.vbi (tyBits f.typ) (f.md.getLsbD 0)).getLsbD k)

theorem bitsAre_of {mk : Fields → Instr} {g : Bool → Bool → Bool} (W : Word → Word → Word)
    (he : ∀ f s, exec (mk f) s = pureFire (mk f) f (wsOf f) (fun c => W (c.va c.n) (c.vbi c.n (c.md 0))) s)
    (hW : ∀ (a b : Word) k, k < 512 → (W a b).getLsbD k = g (a.getLsbD k) (b.getLsbD k)) : BitsAre mk g := by
  intro f s c h
  obtain rfl := Fires.f h
  exact ⟨W (c.va c.n) (c.vbi c.n (c.md 0)), by rw [he, Fires.pureFire _ _ h], hW _ _⟩

end Sys2Proof.Machine
end

section
/-! SUPPORT. Shifts, rotation, counts, reversal, bit fields and hashing of one lane, as the numbers and bits they stand for (R117 to R120, R129). -/

namespace Sys2Proof.Machine

open Sys2Proof Sys2Proof.Safety

/-! ### Shifts and rotation -/

theorem shl_lane (n a k : Nat) : (if k ≥ n then 0 else a * 2 ^ k) % 2 ^ n = a * 2 ^ k % 2 ^ n := by
  split
  case isTrue h =>
    rw [Nat.zero_mod, Nat.mod_eq_zero_of_dvd (Dvd.dvd.mul_left (Nat.pow_dvd_pow 2 h) a)]
  case isFalse => rfl

theorem shr_lane {n a : Nat} (ha : a < 2 ^ n) (k : Nat) : (if k ≥ n then 0 else a / 2 ^ k) % 2 ^ n = a / 2 ^ k := by
  split
  case isTrue h =>
    rw [Nat.zero_mod, Nat.div_eq_of_lt (Nat.lt_of_lt_of_le ha (Nat.pow_le_pow_right (by decide) h))]
  case isFalse => exact Nat.mod_eq_of_lt (Nat.lt_of_le_of_lt (Nat.div_le_self _ _) ha)

/-- From n bits on, a shift to the right leaves copies of the sign. -/
theorem sx_div_of_le {n k a : Nat} (hn : 0 < n) (ha : a < 2 ^ n) (h : n ≤ k) : sx n a / 2 ^ k = if sx n a < 0 then -1 else 0 := by
  obtain ⟨hlo, hhi⟩ := sx_range hn ha
  have hp : (2 : Int) ^ (n - 1) ≤ 2 ^ k := pow_le_pow_right₀ (by decide) (by omega)
  split
  case isTrue hneg =>
    have h1 : sx n a / 2 ^ k < 0 := Int.ediv_neg_of_neg_of_pos hneg (by positivity)
    have h2 : -1 ≤ sx n a / 2 ^ k := (Int.le_ediv_iff_mul_le (by positivity)).2 (by omega)
    omega
  case isFalse hneg => exact Int.ediv_eq_zero_of_lt (by omega) (by omega)

/-- A shift to the right stays in the range of a lane. -/
theorem sx_div_range {n a : Nat} (hn : 0 < n) (ha : a < 2 ^ n) (k : Nat) :
    -(2 ^ (n - 1) : Int) ≤ sx n a / 2 ^ k ∧ sx n a / 2 ^ k < 2 ^ (n - 1) := by
  obtain ⟨hlo, hhi⟩ := sx_range hn ha
  have hk : (1 : Int) ≤ 2 ^ k := one_le_pow₀ (by decide)
  constructor
  · exact (Int.le_ediv_iff_mul_le (by positivity)).2 (by nlinarith)
  · exact Int.ediv_lt_of_lt_mul (by positivity) (by nlinarith)

theorem wrap_neg_one (n : Nat) : wrap n (-1) = 2 ^ n - 1 := by
  have hp : (0 : Int) < 2 ^ n := by positivity
  have e : ((2 ^ n : Nat) : Int) = 2 ^ n := by push_cast; rfl
  rw [wrap, ← Int.add_emod_right, Int.emod_eq_of_lt (by omega) (by omega)]
  omega

theorem wrap_zero (n : Nat) : wrap n 0 = 0 := by simp [wrap]

theorem sar_lane {n a : Nat} (hn : 0 < n) (ha : a < 2 ^ n) (k : Nat) :
    sx n ((if k ≥ n then (if sx n a < 0 then 2 ^ n - 1 else 0) else wrap n (sx n a / 2 ^ k)) % 2 ^ n) = sx n a / 2 ^ k := by
  have hw : (if k ≥ n then (if sx n a < 0 then 2 ^ n - 1 else 0) else wrap n (sx n a / 2 ^ k)) = wrap n (sx n a / 2 ^ k) := by
    split
    case isTrue h =>
      rw [sx_div_of_le hn ha h]
      split
      · exact (wrap_neg_one n).symm
      · exact (wrap_zero n).symm
    case isFalse => rfl
  obtain ⟨hlo, hhi⟩ := sx_div_range hn ha k
  rw [hw, Nat.mod_eq_of_lt (wrap_lt _ _)]
  exact rd_wrap (sg := true) hn _ (by simpa using hlo) (by simpa using hhi)

theorem highBits_lt {n a r : Nat} (ha : a < 2 ^ n) (hr : r ≤ n) : a / 2 ^ (n - r) < 2 ^ r :=
  Nat.div_lt_of_lt_mul (by rwa [← Nat.pow_add, Nat.sub_add_cancel hr])

/-- A rotation to the left by r < n puts the low n - r bits above the high r bits. -/
theorem rot_lane_split {n a r : Nat} (ha : a < 2 ^ n) (hr : r < n) :
    (a * 2 ^ r % 2 ^ n + a / 2 ^ (n - r)) % 2 ^ n = 2 ^ r * (a % 2 ^ (n - r)) + a / 2 ^ (n - r) := by
  have hn : 2 ^ n = 2 ^ r * 2 ^ (n - r) := by rw [← Nat.pow_add]; congr 1; omega
  have hhi := highBits_lt ha hr.le
  have hlo : a % 2 ^ (n - r) + 1 ≤ 2 ^ (n - r) := Nat.mod_lt _ (Nat.two_pow_pos _)
  have hmul : 2 ^ r * (a % 2 ^ (n - r) + 1) ≤ 2 ^ r * 2 ^ (n - r) := Nat.mul_le_mul_left _ hlo
  rw [Nat.mul_comm a, hn, Nat.mul_mod_mul_left, Nat.mod_eq_of_lt]
  rw [Nat.mul_add] at hmul
  omega

theorem rot_lane {n a : Nat} (ha : a < 2 ^ n) (k : Nat) {i : Nat} (hi : i < n) :
    ((a * 2 ^ (k % n) % 2 ^ n + a / 2 ^ (n - k % n)) % 2 ^ n).testBit ((i + k) % n) = a.testBit i := by
  have hr : k % n < n := Nat.mod_lt _ (by omega)
  rw [rot_lane_split ha hr, Nat.add_mod, Nat.mod_eq_of_lt hi]
  generalize k % n = r at hr
  rw [Nat.testBit_two_pow_mul_add _ (highBits_lt ha hr.le)]
  by_cases h : i + r < n
  · rw [Nat.mod_eq_of_lt h, if_neg (by omega), Nat.add_sub_cancel, Nat.testBit_mod_two_pow]
    simp [show i < n - r by omega]
  · rw [Nat.mod_eq_sub_mod (by omega), Nat.mod_eq_of_lt (by omega), if_pos (by omega), Nat.testBit_div_two_pow]
    congr 1
    omega

/-! ### Counts and reversal -/

theorem bitLen_le {n a : Nat} (ha : a < 2 ^ n) : bitLen a ≤ n := by
  unfold bitLen
  split
  case isTrue => exact Nat.zero_le _
  case isFalse h => exact (Nat.log2_lt h).2 ha

theorem bitLen_bounds {a : Nat} (h : a ≠ 0) : 2 ^ (bitLen a - 1) ≤ a ∧ a < 2 ^ bitLen a := by
  simp only [bitLen, if_neg h, Nat.add_sub_cancel]
  exact ⟨Nat.log2_self_le h, Nat.lt_log2_self⟩

theorem clz_lane {n a : Nat} (ha : a < 2 ^ n) :
    (a = 0 → (n - bitLen a) % 2 ^ n = n) ∧
    (a ≠ 0 → 2 ^ (n - 1 - (n - bitLen a) % 2 ^ n) ≤ a ∧ a < 2 ^ (n - (n - bitLen a) % 2 ^ n)) := by
  have hb := bitLen_le ha
  rw [Nat.mod_eq_of_lt (Nat.lt_of_le_of_lt (Nat.sub_le _ _) Nat.lt_two_pow_self)]
  constructor
  · rintro rfl
    rfl
  · intro h
    rw [show n - 1 - (n - bitLen a) = bitLen a - 1 by omega, Nat.sub_sub_self hb]
    exact bitLen_bounds h

theorem popCount_eq_length (n v : Nat) : popCount n v = ((List.range n).filter v.testBit).length := by
  induction n generalizing v with
  | zero => rfl
  | succ n ih =>
    have hs : (v.testBit ∘ Nat.succ) = (v / 2).testBit := by funext i; simp [Nat.testBit_succ]
    rw [popCount, ih, List.range_succ_eq_map, List.filter_cons, List.filter_map, hs, Nat.testBit_zero]
    rcases Nat.mod_two_eq_zero_or_one v with h | h
    · simp [h]
    · simp [h, Nat.add_comm]

theorem popc_lane (n a : Nat) : popCount n a % 2 ^ n = ((List.range n).filter a.testBit).length := by
  rw [popCount_eq_length, Nat.mod_eq_of_lt]
  refine Nat.lt_of_le_of_lt (List.length_filter_le _ _) ?_
  simpa using Nat.lt_two_pow_self

theorem bitRev_lt (n v : Nat) : bitRev n v < 2 ^ n := by
  induction n generalizing v with
  | zero => simp [bitRev]
  | succ n ih =>
    have h := ih (v / 2)
    have h2 : v % 2 * 2 ^ n ≤ 1 * 2 ^ n := Nat.mul_le_mul_right _ (by omega)
    rw [bitRev, Nat.pow_succ]
    omega

theorem bitRev_testBit (n v : Nat) {i : Nat} (hi : i < n) : (bitRev n v).testBit i = v.testBit (n - 1 - i) := by
  induction n generalizing v i with
  | zero => omega
  | succ n ih =>
    rw [bitRev, Nat.mul_comm, Nat.testBit_two_pow_mul_add _ (bitRev_lt n _)]
    split
    case isTrue h =>
      rw [ih _ h, Nat.testBit_div_two]
      congr 1
      omega
    case isFalse h =>
      obtain rfl : i = n := by omega
      simp [Nat.testBit_zero]

theorem brev_lane (n a : Nat) {i : Nat} (hi : i < n) : (bitRev n a % 2 ^ n).testBit i = a.testBit (n - 1 - i) := by
  rw [Nat.mod_eq_of_lt (bitRev_lt n a), bitRev_testBit n a hi]

/-! ### Bit fields -/

theorem fld_lt (v lo len : Nat) : fld v lo len < 2 ^ len := Nat.mod_lt _ (Nat.two_pow_pos _)

theorem ext_lane (f : Fields) (a : Nat) {len : Nat} (hpos : 0 < len) (hlen : len ≤ tyBits f.typ) (lo : Nat) :
    num f ((if tySigned f.typ then wrap (tyBits f.typ) (sx len (fld a lo len)) else fld a lo len) % 2 ^ tyBits f.typ) =
      rd (tySigned f.typ) len (fld a lo len) := by
  have hv := fld_lt a lo len
  cases hs : tySigned f.typ with
  | true =>
    obtain ⟨hl, hh⟩ := sx_range hpos hv
    have hp : (2 : Int) ^ (len - 1) ≤ 2 ^ (tyBits f.typ - 1) := pow_le_pow_right₀ (by decide) (by omega)
    simp only [if_true]
    refine num_narrow_of_range f _ ?_
    simp only [hs, if_true]
    exact ⟨by omega, by omega⟩
  | false =>
    have hp : 2 ^ len ≤ 2 ^ tyBits f.typ := Nat.pow_le_pow_right (by decide) hlen
    simp [num, rd, hs, Nat.mod_eq_of_lt (Nat.lt_of_lt_of_le hv hp)]

/-- The three parts of a number with a field replaced: what stands above the field, the new field, and what stands below. -/
theorem setFld_split (v lo len x : Nat) : setFld v lo len x = 2 ^ lo * (2 ^ len * (v / 2 ^ lo / 2 ^ len) + x % 2 ^ len) + v % 2 ^ lo := by
  have h1 := Nat.div_add_mod v (2 ^ lo)
  have h2 := Nat.div_add_mod (v / 2 ^ lo) (2 ^ len)
  have h3 : v = 2 ^ lo * (2 ^ len * (v / 2 ^ lo / 2 ^ len)) + 2 ^ lo * (v / 2 ^ lo % 2 ^ len) + v % 2 ^ lo := by
    rw [← Nat.mul_add, h2, h1]
  rw [setFld, fld, Nat.mul_comm _ (2 ^ lo), Nat.mul_comm _ (2 ^ lo), Nat.mul_add]
  omega

theorem setFld_testBit (v lo len x i : Nat) :
    (setFld v lo len x).testBit i = if lo ≤ i ∧ i < lo + len then x.testBit (i - lo) else v.testBit i := by
  rw [setFld_split, Nat.testBit_two_pow_mul_add _ (Nat.mod_lt _ (Nat.two_pow_pos _)),
    Nat.testBit_two_pow_mul_add _ (Nat.mod_lt _ (Nat.two_pow_pos _))]
  by_cases h1 : i < lo
  · simp [h1, Nat.testBit_mod_two_pow]
  · by_cases h2 : i - lo < len
    · simp [h1, h2, Nat.testBit_mod_two_pow, show lo ≤ i ∧ i < lo + len by omega]
    · simp only [h1, h2, if_false, Nat.testBit_div_two_pow, if_neg (show ¬ (lo ≤ i ∧ i < lo + len) by omega)]
      congr 1
      omega

theorem ins_lane (n a b lo len : Nat) {i : Nat} (hi : i < n) :
    (setFld a lo len b % 2 ^ n).testBit i = if lo ≤ i ∧ i < lo + len then b.testBit (i - lo) else a.testBit i := by
  rw [Nat.testBit_mod_two_pow, setFld_testBit]
  simp [hi]

/-! ### Addresses and hashing -/

/-- Under SCR the tile index of A is kept and the offset wraps within its slice (R123). -/
theorem scratchAddr_lane (a off : Nat) :
    (a / 2 ^ 20 % 2 ^ 14 * 2 ^ 20 + (a + off % 2 ^ 64) % 2 ^ 20) % 2 ^ 64 % 2 ^ 20 = (a + off) % 2 ^ 20 ∧
    (a / 2 ^ 20 % 2 ^ 14 * 2 ^ 20 + (a + off % 2 ^ 64) % 2 ^ 20) % 2 ^ 64 / 2 ^ 20 = a / 2 ^ 20 % 2 ^ 14 := by omega

theorem toNat_xorShift {w : Nat} (h : BitVec w) (k : Nat) : (h ^^^ h >>> k).toNat = Nat.xor h.toNat (h.toNat / 2 ^ k) := by
  rw [BitVec.toNat_xor, BitVec.toNat_ushiftRight, Nat.shiftRight_eq_div_pow]
  rfl

theorem toNat_xorShift_mul {w m : Nat} (h : BitVec w) (k : Nat) {b : BitVec w} (hb : b.toNat = m) :
    ((h ^^^ h >>> k) * b).toNat = Nat.xor h.toNat (h.toNat / 2 ^ k) * m % 2 ^ w := by
  rw [BitVec.toNat_mul, toNat_xorShift, hb]

theorem toNat_xor_ofNat {w a b : Nat} (ha : a < 2 ^ w) (hb : b < 2 ^ w) : (BitVec.ofNat w a ^^^ BitVec.ofNat w b).toNat = Nat.xor a b := by
  rw [BitVec.toNat_xor, BitVec.toNat_ofNat, BitVec.toNat_ofNat, Nat.mod_eq_of_lt ha, Nat.mod_eq_of_lt hb]
  rfl

/-- The mixing of HASH on 64-bit lanes (R129). -/
def mix64 (h : BitVec 64) : BitVec 64 :=
  let h := (h ^^^ h >>> 32) * 0xD6E8FEB86659FD93
  let h := (h ^^^ h >>> 32) * 0xD6E8FEB86659FD93
  h ^^^ h >>> 32

/-- The mixing of HASH on 32-bit lanes (R129). -/
def mix32 (h : BitVec 32) : BitVec 32 :=
  let h := (h ^^^ h >>> 16) * 0x7FEB352D
  let h := (h ^^^ h >>> 15) * 0x846CA68B
  h ^^^ h >>> 16

theorem hash64_toNat (h : BitVec 64) : hash64 h.toNat = (mix64 h).toNat := by
  have hm : (0xD6E8FEB86659FD93 : BitVec 64).toNat = 0xD6E8FEB86659FD93 := by decide
  rw [mix64, toNat_xorShift, toNat_xorShift_mul _ _ hm, toNat_xorShift_mul _ _ hm, hash64]

theorem hash32_toNat (h : BitVec 32) : hash32 h.toNat = (mix32 h).toNat := by
  have h1 : (0x7FEB352D : BitVec 32).toNat = 0x7FEB352D := by decide
  have h2 : (0x846CA68B : BitVec 32).toNat = 0x846CA68B := by decide
  rw [mix32, toNat_xorShift, toNat_xorShift_mul _ _ h2, toNat_xorShift_mul _ _ h1, hash32]

theorem hash_lane {n a b : Nat} (ha : a < 2 ^ n) (hb : b < 2 ^ n) :
    (n = 64 → (if n = 64 then hash64 (Nat.xor a b) else hash32 (Nat.xor a b)) % 2 ^ n =
      (mix64 (BitVec.ofNat 64 a ^^^ BitVec.ofNat 64 b)).toNat) ∧
    (n = 32 → (if n = 64 then hash64 (Nat.xor a b) else hash32 (Nat.xor a b)) % 2 ^ n =
      (mix32 (BitVec.ofNat 32 a ^^^ BitVec.ofNat 32 b)).toNat) := by
  constructor
  · rintro rfl
    rw [if_pos rfl, ← toNat_xor_ofNat ha hb, hash64_toNat, Nat.mod_eq_of_lt (BitVec.isLt _)]
  · rintro rfl
    rw [if_neg (by decide), ← toNat_xor_ofNat ha hb, hash32_toNat, Nat.mod_eq_of_lt (BitVec.isLt _)]

end Sys2Proof.Machine
end

section
/-! PROOFS. The statements about integer instructions. -/

namespace Sys2Proof.Machine

open Sys2Proof Sys2Proof.Safety

/-! ### Integer arithmetic (R112 to R115) -/

theorem lanesAre_mad : LanesAre .mad wsOf fun f c j v =>
    Narrowed f (f.md.getLsbD 2) (num f (la f c j) * num f (lb f c j) + num f (lc f c j)) v :=
  lanesAre_map3 _ (fun c => c.vc c.n) (fun _ _ => rfl) fun c _ => narrowed_narrow c.f _ _

theorem lanesAre_min : LanesAre .min wsOf fun f c j v => num f v = min (num f (la f c j)) (num f (lbi f c j)) := by
  simp only [min_def]
  exact lanesAre_choice2 (fun a b => if a ≤ b then a else b) (fun x y => ite_eq_or_eq _ x y) fun _ _ => rfl

theorem lanesAre_max : LanesAre .max wsOf fun f c j v => num f v = max (num f (la f c j)) (num f (lbi f c j)) := by
  simp only [max_def']
  exact lanesAre_choice2 (fun a b => if a ≥ b then a else b) (fun x y => ite_eq_or_eq _ x y) fun _ _ => rfl

theorem lanesAre_abs : LanesAre .abs wsOf fun f c j v => Narrowed f (f.md.getLsbD 2) ((num f (la f c j)).natAbs : Int) v := by
  have habs (x : Int) : (x.natAbs : Int) = if x < 0 then -x else x := by split <;> omega
  simp only [habs]
  exact lanesAre_arith1 (fun a => if a < 0 then -a else a) fun _ _ => rfl

theorem lanesAre_neg : LanesAre .neg wsOf fun f c j v => Narrowed f (f.md.getLsbD 2) (-num f (la f c j)) v :=
  lanesAre_arith1 (fun a => -a) fun _ _ => rfl

theorem lanesAre_clamp : LanesAre .clamp wsOf fun f c j v =>
    num f v = min (max (num f (la f c j)) (num f (lb f c j))) (num f (lc f c j)) := by
  refine lanesAre_map3 _ (fun c => c.vc c.n) (fun _ _ => rfl) fun c j => num_narrow_of_range c.f _ ?_
  obtain ⟨ha, _⟩ := num_lane_range c.f (c.va c.n) j
  obtain ⟨hc, hc'⟩ := num_lane_range c.f (c.vc c.n) j
  exact ⟨le_min (le_max_of_le_left ha) hc, min_lt_of_right_lt hc'⟩

/-- Settles O14: each instruction is its exact function of the lanes, narrowed once. -/
theorem integerArithmetic : Obligations.IntegerArithmetic :=
  ⟨lanesAre_arith2 (·.md.getLsbD 2) (fun _ a b => a + b) fun _ _ => rfl,
   lanesAre_arith2 (·.md.getLsbD 2) (fun _ a b => a - b) fun _ _ => rfl,
   lanesAre_arith2 (·.md.getLsbD 2) (fun _ a b => a * b) fun _ _ => rfl,
   lanesAre_arith2 (fun _ => false) (fun n a b => a * b / 2 ^ n) fun _ _ => rfl,
   lanesAre_mad, lanesAre_min, lanesAre_max, lanesAre_abs, lanesAre_neg, lanesAre_clamp⟩

/-! ### Bits (R116 to R120) -/

theorem bitsAre_and : BitsAre .and fun a b => a && b :=
  bitsAre_of (· &&& ·) (fun _ _ => rfl) fun _ _ _ _ => BitVec.getLsbD_and

theorem bitsAre_or : BitsAre .or fun a b => a || b :=
  bitsAre_of (· ||| ·) (fun _ _ => rfl) fun _ _ _ _ => BitVec.getLsbD_or

theorem bitsAre_xor : BitsAre .xor fun a b => a != b :=
  bitsAre_of (· ^^^ ·) (fun _ _ => rfl) fun _ _ _ _ => BitVec.getLsbD_xor

theorem bitsAre_andn : BitsAre .andn fun a b => a && !b :=
  bitsAre_of (fun a b => a &&& ~~~b) (fun _ _ => rfl) fun _ _ _ hk => by simp [hk]

theorem bitsAre_not : BitsAre .not fun a _ => !a :=
  bitsAre_of (fun a _ => ~~~a) (fun _ _ => rfl) fun _ _ _ hk => by simp [hk]

theorem lanesAre_shl : LanesAre .shl wsOf fun f c j v => v = la f c j * 2 ^ shiftCount f c j % 2 ^ tyBits f.typ :=
  lanesAre_shift2 (fun n a k => if k ≥ n then 0 else a * 2 ^ k) (fun _ _ => rfl) fun _ _ => shl_lane _ _ _

theorem lanesAre_shr : LanesAre .shr wsOf fun f c j v => v = la f c j / 2 ^ shiftCount f c j :=
  lanesAre_shift2 (fun n a k => if k ≥ n then 0 else a / 2 ^ k) (fun _ _ => rfl) fun c j => shr_lane (la_lt c.f c j) _

theorem lanesAre_sar : LanesAre .sar wsOf fun f c j v => sx (tyBits f.typ) v = sx (tyBits f.typ) (la f c j) / 2 ^ shiftCount f c j :=
  lanesAre_shift2 (fun n a k => if k ≥ n then (if sx n a < 0 then 2 ^ n - 1 else 0) else wrap n (sx n a / 2 ^ k)) (fun _ _ => rfl)
    fun c j => sar_lane (tyBits_pos _) (la_lt c.f c j) _

theorem lanesAre_rot : LanesAre .rot wsOf fun f c j v =>
    ∀ i < tyBits f.typ, v.testBit ((i + shiftCount f c j) % tyBits f.typ) = (la f c j).testBit i :=
  lanesAre_shift2 (fun n a k => a * 2 ^ (k % n) % 2 ^ n + a / 2 ^ (n - k % n)) (fun _ _ => rfl)
    fun c j _ hi => rot_lane (la_lt c.f c j) _ hi

theorem lanesAre_clz : LanesAre .clz wsOf fun f c j v => (la f c j = 0 → v = tyBits f.typ) ∧
    (la f c j ≠ 0 → 2 ^ (tyBits f.typ - 1 - v) ≤ la f c j ∧ la f c j < 2 ^ (tyBits f.typ - v)) :=
  lanesAre_map1 (fun _ c a => c.n - bitLen a) (fun _ _ => rfl) fun c j => clz_lane (la_lt c.f c j)

theorem lanesAre_popc : LanesAre .popc wsOf fun f c j v => v = ((List.range (tyBits f.typ)).filter (la f c j).testBit).length :=
  lanesAre_map1 (fun _ c => popCount c.n) (fun _ _ => rfl) fun _ _ => popc_lane _ _

theorem lanesAre_brev : LanesAre .brev wsOf fun f c j v =>
    ∀ i < tyBits f.typ, v.testBit i = (la f c j).testBit (tyBits f.typ - 1 - i) :=
  lanesAre_map1 (fun _ c => bitRev c.n) (fun _ _ => rfl) fun _ _ _ hi => brev_lane _ _ hi

theorem lanesAre_ext : LanesAre .ext wsOf fun f c j v => posOf f + lenOf f ≤ tyBits f.typ →
    num f v = rd (tySigned f.typ) (lenOf f) (la f c j / 2 ^ posOf f % 2 ^ lenOf f) :=
  lanesAre_map1 _ (fun _ _ => rfl) fun c _ h => ext_lane c.f _ (len := lenOf c.f) (Nat.succ_pos _) (Nat.le_of_add_left_le h) _

theorem lanesAre_ins : LanesAre .ins wsOf fun f c j v => posOf f + lenOf f ≤ tyBits f.typ → ∀ i < tyBits f.typ,
    v.testBit i = if posOf f ≤ i ∧ i < posOf f + lenOf f then (lb f c j).testBit (i - posOf f) else (la f c j).testBit i :=
  lanesAre_map2 (fun f _ a b => setFld a (posOf f) (lenOf f) b) (fun c => c.vb c.n) (fun _ _ => rfl)
    fun _ _ _ _ hi => ins_lane _ _ _ _ _ hi

/-- Settles O15: each instruction is its function of the bits of a lane. -/
theorem integerBits : Obligations.IntegerBits :=
  ⟨bitsAre_and, bitsAre_or, bitsAre_xor, bitsAre_andn, bitsAre_not, lanesAre_shl, lanesAre_shr, lanesAre_sar, lanesAre_rot, lanesAre_clz,
   lanesAre_popc, lanesAre_brev, lanesAre_ext, lanesAre_ins⟩

/-! ### Compare, select, address and hash (R121 to R123, R129) -/

/-- What a condition of R52 says. -/
def CondMeans (cond : Nat) (a b : Int) : Prop :=
  match cond with
  | 0 => a = b
  | 1 => a ≠ b
  | 2 => a < b
  | 3 => a ≤ b
  | 4 => b < a
  | _ => b ≤ a

theorem condHolds_iff (cond : Nat) (a b : Int) : condHolds cond a b = true ↔ CondMeans cond a b := by
  unfold condHolds CondMeans
  split <;> simp

/-- A lane that holds 1 or 0 tells which (R121). -/
theorem flag_lane (t : Ty) {b : Bool} {p : Prop} (h : b = true ↔ p) :
    (p → (if b then 1 else 0) % 2 ^ tyBits t = 1) ∧ (¬ p → (if b then 1 else 0) % 2 ^ tyBits t = 0) := by
  constructor
  · intro hp
    rw [if_pos (h.2 hp), Nat.mod_eq_of_lt (Nat.one_lt_two_pow (tyBits_pos t).ne')]
  · intro hp
    rw [if_neg (mt h.1 hp), Nat.zero_mod]

theorem lanesAre_cmp : LanesAre .cmp (fun _ => false) fun f c j v => f.md.toNat % 16 < 6 →
    (CondMeans (f.md.toNat % 16) (num f (la f c j)) (num f (lane (tyBits f.typ) (c.vbi (tyBits f.typ) (f.md.getLsbD 4)) j)) → v = 1) ∧
    (¬ CondMeans (f.md.toNat % 16) (num f (la f c j)) (num f (lane (tyBits f.typ) (c.vbi (tyBits f.typ) (f.md.getLsbD 4)) j)) → v = 0) :=
  lanesAre_map2 (fun f c a b => if condHolds (f.md.toNat % 16) (rd (tySigned f.typ) c.n a) (rd (tySigned f.typ) c.n b) then 1 else 0)
    (fun c => c.vbi c.n (c.md 4)) (fun _ _ => rfl) fun c _ _ => flag_lane c.f.typ (condHolds_iff _ _ _)

theorem lanesAre_sel : LanesAre .sel wsOf fun f c j v => v = if lc f c j % 2 = 1 then la f c j else lb f c j := by
  refine lanesAre_map3 (fun _ _ a b d => if d % 2 = 1 then a else b) (fun c => c.vc c.n) (fun _ _ => rfl) fun c j => Nat.mod_eq_of_lt ?_
  split
  · exact la_lt c.f c j
  · exact lb_lt c.f c j

/-- What ADDR adds to lane j of A: B shifted by SH, and C under CT (R123). -/
def addrOffset (f : Fields) (c : Ctx) (j : Nat) : Nat := lb f c j * 2 ^ (f.imm.toNat % 64) + if f.md.getLsbD 0 then lc f c j else 0

/-- One lane of ADDR, from the lane of A and the whole offset (R123). -/
def addrLane (scr : Bool) (n a off : Nat) : Nat :=
  if scr then a / 2 ^ 20 % 2 ^ 14 * 2 ^ 20 + (a + off % 2 ^ n) % 2 ^ 20 else (a + off % 2 ^ n) % 2 ^ n

theorem lanesAre_addrLane : LanesAre .addr (fun _ => false) fun f c j v =>
    v = addrLane (f.md.getLsbD 2) (tyBits f.typ) (la f c j) (addrOffset f c j) % 2 ^ tyBits f.typ := by
  refine lanesAre_map3 (fun f c a b d => addrLane (c.md 2) c.n a (b * 2 ^ (f.imm.toNat % 64) + if c.md 0 then d else 0))
    (fun c => if c.md 0 then c.vc c.n else 0) (fun _ _ => rfl) fun c j => ?_
  by_cases h : c.f.md.getLsbD 0 = true
  · have h' : c.md 0 = true := h
    rw [addrOffset, if_pos h, if_pos h', if_pos h']
    rfl
  · have h' : ¬ c.md 0 = true := h
    rw [addrOffset, if_neg h, if_neg h']
    rfl

theorem lanesAre_mono {mk : Fields → Instr} {ws : Fields → Bool} {P Q : Fields → Ctx → Nat → Nat → Prop} (h : LanesAre mk ws P)
    (hPQ : ∀ f c j v, P f c j v → Q f c j v) : LanesAre mk ws Q := by
  intro f s c hf
  obtain ⟨w, hw, hl⟩ := h f s c hf
  exact ⟨w, hw, fun j hj => hPQ f c j _ (hl j hj)⟩

theorem lanesAre_addr : LanesAre .addr (fun _ => false) fun f c j v =>
    if f.md.getLsbD 2 then f.typ = .n64 → v % 2 ^ 20 = (la f c j + addrOffset f c j) % 2 ^ 20 ∧ v / 2 ^ 20 = la f c j / 2 ^ 20 % 2 ^ 14
    else v = (la f c j + addrOffset f c j) % 2 ^ tyBits f.typ := by
  refine lanesAre_mono lanesAre_addrLane fun f c j v hv => ?_
  subst hv
  unfold addrLane
  split
  case isTrue =>
    intro ht
    rw [ht]
    exact scratchAddr_lane _ _
  case isFalse => rw [Nat.mod_mod, Nat.add_mod_mod]

theorem lanesAre_hash : LanesAre .hash wsOf fun f c j v =>
    (tyBits f.typ = 64 → v = (mix64 (BitVec.ofNat 64 (la f c j) ^^^ BitVec.ofNat 64 (lbi f c j))).toNat) ∧
    (tyBits f.typ = 32 → v = (mix32 (BitVec.ofNat 32 (la f c j) ^^^ BitVec.ofNat 32 (lbi f c j))).toNat) :=
  lanesAre_map2 (fun _ c a b => if c.n = 64 then hash64 (Nat.xor a b) else hash32 (Nat.xor a b)) (fun c => c.vbi c.n (c.md 0))
    (fun _ _ => rfl) fun c j => hash_lane (la_lt c.f c j) (lbi_lt c.f c j)

/-- Settles O16: each instruction is its function of the lanes of its operands. -/
theorem compareSelectAddressHash : Obligations.CompareSelectAddressHash :=
  ⟨lanesAre_cmp, lanesAre_sel, lanesAre_addr, lanesAre_hash⟩

end Sys2Proof.Machine
end
